-- ==== Sys2Proof/Word.lean ====
section
/-! DEFINITION. The word types of the KS16: bytes, 16-bit words and the 32-bit case clock. -/

namespace Sys2Proof

/-- One byte of a frame, a payload or a table. -/
abbrev Byte := BitVec 8

/-- A 16-bit field: a mask, a check, a sensor axis. -/
abbrev Word16 := BitVec 16

/-- A value of the case clock: milliseconds since power-on reset, wrapping (R184). -/
abbrev Clock := BitVec 32

/-- Slot numbers 0 to 15 (00 section 0.4). -/
abbrev SlotId := Fin 16

/-- The sixteen slots in ascending slot number. -/
def allSlots : List SlotId := [0, 1, 2, 3, 4, 5, 6, 7, 8, 9, 10, 11, 12, 13, 14, 15]

/-- The sixteen slots in descending slot number. -/
def allSlotsDown : List SlotId := [15, 14, 13, 12, 11, 10, 9, 8, 7, 6, 5, 4, 3, 2, 1, 0]

end Sys2Proof
end

