-- ==== Sys2Proof/Syntax.lean ====
section
/-! DEFINITION. The commands of the KS16: one constructor of `Instr` per row of spec/opcode_table.json, with the row's operands. -/

namespace Sys2Proof

/-- The three power lines of the case power module (R99). -/
inductive PowerLine where
  | shore
  | low
  | fail
  deriving DecidableEq, Repr

/-- The two switch inputs (R120). -/
inductive SwitchInput where
  | handle
  | brake
  deriving DecidableEq, Repr

/-- Result field of a REPORT (Table 2-2). -/
inductive ReportResult where
  | done
  | fail
  deriving DecidableEq, Repr

/-- Mechanical state field of a REPORT (Table 2-2). -/
inductive MechState where
  | stopped
  | atSpeed
  | loaded
  | unloaded
  deriving DecidableEq, Repr

/-- Why the receive framer discarded a downstream frame (the table of R175). -/
inductive DiscardCause where
  | checkFails
  | malformed
  | kindNotDownstream
  | unitUnsuited
  | lengthUnsuited
  | readyLow
  deriving DecidableEq, Repr

/-- An accepted COMMAND frame: logical unit, command tag, command payload with the opcode first (Table 10-2). -/
structure CommandFrame where
  unit : Byte
  tag : Byte
  payload : List Byte
  deriving DecidableEq, Repr

/-- An accepted UNIT_REQUEST frame: its tag and the payload bytes after the request code (Table 10-2, R180). -/
structure Request where
  tag : Byte
  args : List Byte
  deriving DecidableEq, Repr

/-- The commands: the rows of the table of operations and events. -/
inductive Instr where
  /-- POWER_ON_RESET (R1): the reset ends. -/
  | powerOnReset
  /-- COMMAND (R45). -/
  | command (f : CommandFrame)
  /-- DOWNSTREAM_FRAME_DISCARDED (R175). -/
  | downstreamFrameDiscarded (cause : DiscardCause)
  /-- BREAK (R177): the receive line has been at space for 2 ms. -/
  | lineBreak
  /-- BREAK_END (R177): the receive line returns to mark. -/
  | lineBreakEnd
  /-- UPSTREAM_FRAME_SENT (R178): the last byte of the frame being sent is sent. -/
  | upstreamFrameSent
  /-- UNKNOWN_REQUEST (R180): a request code not in Table 10-3. -/
  | unknownRequest (code : Byte) (r : Request)
  /-- UNIT_QUERY (R185). -/
  | unitQuery (r : Request)
  /-- UNIT_STATUS (R186). -/
  | unitStatus (r : Request)
  /-- SLOT_STATUS (R187). -/
  | slotStatus (r : Request)
  /-- EVENT_READ (R183). -/
  | eventRead (r : Request)
  /-- MOTION (R75 to R78). -/
  | motion (r : Request)
  /-- SLOT_RECOVER (R24). -/
  | slotRecover (r : Request)
  /-- START_HOLD (R95). -/
  | startHold (r : Request)
  /-- START_RELEASE (R95). -/
  | startRelease (r : Request)
  /-- START_CLEAR (R97). -/
  | startClear (r : Request)
  /-- PANIC_PARK (R158). -/
  | panicPark (r : Request)
  /-- EMERGENCY_CLEAR (R156). -/
  | emergencyClear (r : Request)
  /-- STAGE_WRITE (R165, R166). -/
  | stageWrite (r : Request)
  /-- STAGE_READ (R167). -/
  | stageRead (r : Request)
  /-- COMMIT (R168 to R172). -/
  | commit (r : Request)
  /-- TABLE_READ (R174). -/
  | tableRead (r : Request)
  /-- EXPOSURE_CLEAR (R129). -/
  | exposureClear (r : Request)
  /-- REPORT (R35): order number, result, sled code, mechanical state. -/
  | report (slot : SlotId) (number : Byte) (result : ReportResult) (code : Byte) (mech : MechState)
  /-- FAULT (R21): an unsolicited sled fault report. -/
  | fault (slot : SlotId) (code : Byte)
  /-- SLED_COMPLETION (R61). -/
  | sledCompletion (slot : SlotId) (epoch tag status : Byte) (payload : List Byte)
  /-- LANE_FRAME_DISCARDED (R26). -/
  | laneFrameDiscarded (slot : SlotId)
  /-- LANE_FRAME_SENT (R31). -/
  | laneFrameSent (slot : SlotId)
  /-- ORDER_TIMEOUT (R36). -/
  | orderTimeout (slot : SlotId)
  /-- PRESENCE_EDGE (R6): the presence input takes the given level. -/
  | presenceEdge (slot : SlotId) (level : Bool)
  /-- INSERTION (R7): the presence filter of an EMPTY slot expires. -/
  | insertion (slot : SlotId)
  /-- REMOVAL (R8): the presence filter of any other slot expires. -/
  | removal (slot : SlotId)
  /-- OVERCURRENT (R22): the overcurrent input takes the given level. -/
  | overcurrent (slot : SlotId) (level : Bool)
  /-- POWER_LINE_EDGE (R99). -/
  | powerLineEdge (line : PowerLine) (level : Bool)
  /-- POWER_FILTER_EXPIRY (R100). -/
  | powerFilterExpiry (line : PowerLine)
  /-- SWITCH_EDGE (R120). -/
  | switchEdge (switch : SwitchInput) (level : Bool)
  /-- SWITCH_FILTER_EXPIRY (R121). -/
  | switchFilterExpiry (switch : SwitchInput)
  /-- SAMPLE (R116): three signed axis values in mg, the check correct. -/
  | sample (x y z : Word16)
  /-- SAMPLE_DISCARDED (R116). -/
  | sampleDiscarded
  /-- SENSOR_TIMEOUT (R118). -/
  | sensorTimeout
  /-- POISED_RELEASE_EXPIRY (R121). -/
  | poisedReleaseExpiry
  /-- ROLLING_RELEASE_EXPIRY (R122). -/
  | rollingReleaseExpiry
  /-- TILTED_ASSERTION_EXPIRY (R123). -/
  | tiltedAssertionExpiry
  /-- TILTED_RELEASE_EXPIRY (R123). -/
  | tiltedReleaseExpiry
  /-- JOLT_HOLD_EXPIRY (R124). -/
  | joltHoldExpiry
  /-- FALL_ASSERTION_EXPIRY (R125). -/
  | fallAssertionExpiry
  /-- FALL_RELEASE_EXPIRY (R125). -/
  | fallReleaseExpiry
  /-- HOLD_TIMER_EXPIRY (R59): of the slot's held entry with this tag. -/
  | holdTimerExpiry (slot : SlotId) (tag : Byte)
  /-- DRAIN_EXPIRY (R18). -/
  | drainExpiry (slot : SlotId)
  /-- DWELL_EXPIRY (R9). -/
  | dwellExpiry (slot : SlotId)
  /-- IDLE_UNLOAD_EXPIRY (R80). -/
  | idleUnloadExpiry (slot : SlotId)
  /-- IDLE_STOP_EXPIRY (R81). -/
  | idleStopExpiry (slot : SlotId)
  /-- STAGGER_EXPIRY (R93). -/
  | staggerExpiry
  /-- SETTLE_EXPIRY (R157). -/
  | settleExpiry
  deriving DecidableEq, Repr

end Sys2Proof
end

