-- ==== Sys2Proof/Config.lean ====
section
/-! DEFINITION. What the part fixes (its capacities and fixed times) and the one free value of the model. -/

namespace Sys2Proof.Config

/-- FREE VALUE (log 3, log 27): at the `n`-th use, for two blocks that take one event "in either order" (R127, R145, R112,
R172), whether the first-named block takes it first. It has no body, so nothing can be proved about its value. -/
opaque freeOrder : Nat → Bool

/-- Part code of the KS16 (Table 11-4). -/
def partCode : Word16 := 0x4B16#16
/-- Revision of the part: 1 for the first revision (Table 11-4). -/
def revision : Nat := 1
/-- Entries of the hold pool (R47). -/
def poolEntries : Nat := 48
/-- Highest hold list limit (Table 9-3). -/
def maxHoldLimit : Nat := 12
/-- Entries of one slot's outstanding table (R60). -/
def outstandingMax : Nat := 4
/-- Entries of the upstream queue (R178). -/
def queueEntries : Nat := 128
/-- Records of the event list (R181). -/
def eventRecords : Nat := 32
/-- Bytes of the staging buffer (R165). -/
def stagingBytes : Nat := 64
/-- Samples of the motion monitor's window (R117). -/
def windowSamples : Nat := 32
/-- Presence filter, in ms (R6). -/
def presenceMs : Nat := 200
/-- Power line filter, in ms (R99). -/
def powerMs : Nat := 10
/-- Switch filter, in ms (R120). -/
def switchMs : Nat := 20
/-- The ready line goes low when the free count falls below this (R179). -/
def readyLowBelow : Nat := 16
/-- The ready line goes high again when the free count reaches this (R179). -/
def readyHighAt : Nat := 32
/-- The least free count at the end of a frame that began with the ready line high: at its start at least 16 entries were
free (R179), and between its start and its end only one ATTENTION frame can take an entry (R182). DEDUCED, log 6. -/
def acceptFree : Nat := 15

end Sys2Proof.Config
end

