-- ==== Sys2Proof/Machine/State.lean ====
section
/-! DEFINITION. The state of the KS16 as plain data, block by block, and its value after power-on reset. -/

namespace Sys2Proof.Machine

/-! ### Codes and small types -/

/-- Levels, ordered STOP < SPIN < LOAD (00 section 0.5). -/
inductive Level where
  | stop
  | spin
  | load
  deriving DecidableEq, Repr

/-- The budget cap: STOP or none (Table 1-1). -/
inductive BudgetCap where
  | stop
  | none
  deriving DecidableEq, Repr

/-- The emergency cap: STOP, SPIN or none (Table 1-1). -/
inductive EmergencyCap where
  | stop
  | spin
  | none
  deriving DecidableEq, Repr

/-- Motion states of a slot (Table 1-4). -/
inductive SlotState where
  | empty
  | stopped
  | queued
  | starting
  | spun
  | loading
  | loaded
  | unloading
  | stopping
  | faulted
  deriving DecidableEq, Repr

/-- Unload mark (Table 1-1). -/
inductive UnloadMark where
  | none
  | normal
  | discard
  | emergency
  | fault
  deriving DecidableEq, Repr

/-- Fault reasons (Table 1-1). -/
inductive FaultReason where
  | spinFailed
  | loadFailed
  | unloadTimeout
  | stopTimeout
  | sledFault
  | overcurrent
  deriving DecidableEq, Repr

/-- Order kinds with the flag that belongs to the kind (Table 2-1, R32). -/
inductive OrderKind where
  | spinUp
  | spinDown (retry : Bool)
  | load
  | unload (discard : Bool)
  | emergencyUnload
  deriving DecidableEq, Repr

/-- Command classes (Table 0-4). -/
inductive CmdClass where
  | free
  | spindle
  | media
  | trap
  deriving DecidableEq, Repr

/-- Actions of TRAP entries (00 section 0.6). -/
inductive TrapAction where
  | toStop
  | toSpin
  | toLoad
  | report
  deriving DecidableEq, Repr

/-- Motion classes in order of severity (R127). -/
inductive MotionClass where
  | still
  | poised
  | rolling
  | tilted
  | jolt
  | fall
  deriving DecidableEq, Repr

/-- Dispositions of the transit policy (Table 7-2). -/
inductive TransitDisposition where
  | hold
  | freeze
  | refuse
  deriving DecidableEq, Repr

/-- Power states (R100). -/
inductive PowerState where
  | shore
  | battery
  | reserve
  | holdup
  deriving DecidableEq, Repr

/-- Sensor states (Table 6-1). -/
inductive SensorState where
  | filling
  | ok
  | lost
  deriving DecidableEq, Repr

/-- Emergency sources (Table 8-1). -/
inductive EmgSource where
  | fall
  | jolt
  | power
  | panic
  deriving DecidableEq, Repr

/-- Emergency phase (Table 8-1); absent is the value none of an option. -/
inductive EmgPhase where
  | parking
  | parked
  deriving DecidableEq, Repr

/-- Cause of a clear of the emergency latch (R161). -/
inductive ClearCause where
  | requested
  | automatic
  deriving DecidableEq, Repr

/-- Dispositions of COMPLETION frames (Table 3-1). -/
inductive Disposition where
  | done
  | emulated
  | noUnit
  | noSled
  | dupTag
  | holdFull
  | notReady
  | holdExpired
  | transitRefused
  | levelChanged
  | cleared
  | abortedDrain
  | abortedEmergency
  | slotFault
  deriving DecidableEq, Repr

/-- Statuses of UNIT_REPLY frames (R180). -/
inductive UnitStatus where
  | ok
  | unknownRequest
  | badLength
  | maskCheck
  | badTable
  | outOfRange
  | commitMismatch
  | commitConflict
  | mapDuplicate
  | notParked
  | sourcePresent
  | notFaulted
  deriving DecidableEq, Repr

/-- The eight tables (Table 9-1). -/
inductive TableId where
  | unit
  | slotCfg
  | profiles
  | classMap
  | logicalMap
  | policy
  | motion
  | budgets
  deriving DecidableEq, Repr

/-! ### Timers -/

/-- A running timer: the case clock at its start and its length in ms. Its deadline is `start + len` (R184). -/
structure Timer where
  start : Clock
  len : Nat
  deriving DecidableEq, Repr

/-- An idle countdown (R79): idle, running with its deadline, or frozen with a remaining time in ms. -/
inductive Countdown where
  | idle
  | running (t : Timer)
  | frozen (rem : Nat)
  deriving DecidableEq, Repr

/-- A hold timer (R57, R58). -/
inductive HoldTimer where
  | running (t : Timer)
  | frozen (rem : Nat)
  deriving DecidableEq, Repr

/-! ### Slots: record, lists and lane -/

/-- A hold entry (Table 3-2). `asHead` is the model's own mark that the head rules of R51, applied once, have been
applied to the entry (log 21). -/
structure HoldEntry where
  tag : Byte
  cls : CmdClass
  requirement : Level
  payload : List Byte
  timer : HoldTimer
  action : Option TrapAction
  emulating : Bool
  asHead : Bool
  deriving DecidableEq, Repr

/-- An entry of the outstanding table (R60). -/
structure OutEntry where
  tag : Byte
  epoch : Fin 16
  time : Clock
  deriving DecidableEq, Repr

/-- A suspension record (Table 7-3). Hold timers frozen is yes exactly while the disposition is FREEZE. -/
structure Suspension where
  cls : MotionClass
  began : Clock
  level : Level
  unloadRem : Option Nat
  stopRem : Option Nat
  disposition : TransitDisposition
  deriving DecidableEq, Repr

/-- The order in flight: kind with flag, number and deadline (Table 2-1). -/
structure OrderInFlight where
  kind : OrderKind
  number : Fin 16
  timer : Timer
  deriving DecidableEq, Repr

/-- A part-to-sled frame (Table 2-2). -/
inductive LaneFrame where
  | order (kind : OrderKind) (number : Fin 16)
  | command (epoch : Fin 16) (tag : Byte) (payload : List Byte)
  deriving DecidableEq, Repr

/-- A lane record (Table 2-1), the attempt counters among it, and the receiver's partial frame (R25). -/
structure Lane where
  nextOrder : Fin 16
  inFlight : Option OrderInFlight
  orderSlot : Option LaneFrame
  cmdQueue : List LaneFrame
  tx : Option LaneFrame
  spinAttempts : Nat
  loadAttempts : Nat
  rxPartial : Option (List Byte)
  deriving DecidableEq, Repr

/-- Everything the part keeps for one slot: the slot record (Table 1-1), its hold list and outstanding table, its lane
record, the budget unit's load claim, and the slot's two input pins. -/
structure Slot where
  state : SlotState
  requested : Level
  pinned : Bool
  transitCap : Level
  transitDisposition : TransitDisposition
  budgetCap : BudgetCap
  emergencyCap : EmergencyCap
  draining : Bool
  drainTimer : Option Timer
  stoppingFromStart : Bool
  unloadMark : UnloadMark
  unloadReissued : Bool
  faultReason : Option FaultReason
  sledCode : Option Byte
  epoch : Fin 16
  outstanding : List OutEntry
  hold : List HoldEntry
  idleUnload : Countdown
  idleStop : Countdown
  dwell : Option Timer
  presenceFilter : Option Timer
  suspension : Option Suspension
  exposures : Nat
  strays : Nat
  loadClaim : Bool
  lane : Lane
  presenceIn : Bool
  overcurrentIn : Bool
  deriving DecidableEq, Repr

/-! ### Blocks that serve every slot -/

/-- The start arbiter (Table 5-1); its mode, maximum and interval are in the unit configuration table. -/
structure Arbiter where
  queue : List SlotId
  candidate : Option SlotId
  lastGranted : SlotId
  stagger : Option Timer
  hold : Bool
  deriving DecidableEq, Repr

/-- The budget unit (Table 5-3); the caps and load claims are kept with the slots. -/
structure Budget where
  powerState : PowerState
  budget : Nat
  committed : Nat
  shed : Bool
  startClaim : Bool
  deriving DecidableEq, Repr

/-- A set of emergency sources (Table 8-1). -/
structure SourceSet where
  fall : Bool
  jolt : Bool
  power : Bool
  panic : Bool
  deriving DecidableEq, Repr

/-- The emergency record (Table 8-1). -/
structure Emergency where
  latched : Bool
  sources : SourceSet
  firstSource : Option EmgSource
  firstTime : Option Clock
  phase : Option EmgPhase
  cap : EmergencyCap
  settle : Option Timer
  deriving DecidableEq, Repr

/-- Event kinds with their details (Table 10-4). -/
inductive Event where
  | sledInserted (slot : SlotId)
  | sledRemoved (slot : SlotId) (left : SlotState)
  | slotFaulted (slot : SlotId) (reason : FaultReason) (code : Byte)
  | slotRecovered (slot : SlotId)
  | classChanged (old new : MotionClass) (sensor : SensorState)
  | sensorLost (left : SensorState)
  | sensorRestored
  | powerChanged (old new : PowerState)
  | shedBegan (budget committed : Nat)
  | shedEnded (committed : Nat)
  | emergencyBegan (source : EmgSource) (parked : Nat)
  | emergencySourceAdded (source : EmgSource) (cap : EmergencyCap)
  | emergencyParked (sources : SourceSet) (ms : Nat)
  | emergencyCleared (cause : ClearCause) (sources : SourceSet)
  | drainAborted (slot : SlotId) (count : Nat)
  | tableCommitted (table : TableId) (start stop : Nat)
  deriving DecidableEq, Repr

/-- A record of the event list: the case clock at the append, and the event (R181). -/
structure EventRecord where
  time : Clock
  event : Event
  deriving DecidableEq, Repr

/-- Upstream frame kinds (Table 10-2). -/
inductive UpKind where
  | completion
  | unitReply
  | attention
  deriving DecidableEq, Repr

/-- A frame of the upstream queue; its flags byte is written when its transmission begins (R178). -/
structure UpFrame where
  kind : UpKind
  unit : Byte
  tag : Byte
  payload : List Byte
  deriving DecidableEq, Repr

/-- The case link interface and the event list (Table 10-1). `tx` holds the flags byte of the oldest queued frame while
that frame is being sent; `broken` is yes while a break lasts. -/
structure Link where
  framer : Option (List Byte)
  queue : List UpFrame
  tx : Option Byte
  broken : Bool
  ready : Bool
  linkError : Bool
  events : List EventRecord
  overrun : Bool
  deriving DecidableEq, Repr

/-- The part of the state that one event of any block can reach through the others: the slots, the start arbiter, the
budget unit, the emergency record and the case link. -/
structure Plant where
  slots : Vector Slot 16
  arb : Arbiter
  budget : Budget
  emg : Emergency
  link : Link
  deriving DecidableEq, Repr

/-- A filtered input: the pin's level, the filtered value, and the filter while it qualifies a new level (R99, R120). -/
structure LineFilter where
  level : Bool
  value : Bool
  timer : Option Timer
  deriving DecidableEq, Repr

/-- The three power lines (R99). -/
structure PowerLines where
  shore : LineFilter
  low : LineFilter
  fail : LineFilter
  deriving DecidableEq, Repr

/-- A good sample with its derived values (R117). -/
structure Sample where
  x : Int
  y : Int
  z : Int
  magnitude : Nat
  deviation : Nat
  deriving DecidableEq, Repr

/-- A motion condition: asserted or released, with its assertion timer and its release (or hold) timer (Table 6-1).
POISED, ROLLING and JOLT have no assertion timer. -/
structure Condition where
  asserted : Bool
  assertTimer : Option Timer
  releaseTimer : Option Timer
  deriving DecidableEq, Repr

/-- The motion monitor (Table 6-1). -/
structure Monitor where
  window : List Sample
  sensor : SensorState
  sensorTimer : Option Timer
  restoring : Bool
  handle : LineFilter
  brake : LineFilter
  poised : Condition
  rolling : Condition
  tilted : Condition
  jolt : Condition
  fall : Condition
  cls : MotionClass
  rxPartial : Option (List Byte)
  deriving DecidableEq, Repr

/-- The eight tables as runs of bytes (Table 9-1). -/
structure Tables where
  unit : List Byte
  slotCfg : List Byte
  profiles : List Byte
  classMap : List Byte
  logicalMap : List Byte
  policy : List Byte
  motion : List Byte
  budgets : List Byte
  deriving DecidableEq, Repr

/-- The staging buffer while it holds data (Table 9-4); its end offset and check follow from the data (R164). -/
structure Staged where
  table : TableId
  start : Nat
  data : List Byte
  deriving DecidableEq, Repr

/-- The whole state of the part. `freeCount` counts the uses of the free value of Config (log 3). `pending` is the queue of
commands, first in, first out. -/
structure State where
  clock : Clock
  tables : Tables
  staging : Option Staged
  power : PowerLines
  monitor : Monitor
  plant : Plant
  freeCount : Nat
  pending : List Instr
  deriving DecidableEq, Repr

/-- Faults: none. No rule of the spec stops the part, so no command of the model ends in a fault (safe: nothing is cut
off). -/
inductive Fault where
  deriving DecidableEq, Repr

/-- Refusals. -/
inductive Refusal where
  /-- Raised by an arm of `exec` for a command that has no meaning yet; safe, since the step then gives no next state. No
  arm raises it: every command has its meaning. -/
  | notModelled (mnemonic : String)
  deriving DecidableEq, Repr

/-! ### The value after power-on reset -/

/-- The unit configuration of Table 9-2: ARRIVAL, 2, 2000 ms, 10000 ms, 5000 ms, off, 30 s. -/
def defaultUnit : List Byte := [0, 2, 0x07, 0xD0, 0x27, 0x10, 0x13, 0x88, 0, 0, 30, 0, 0, 0, 0, 0]

/-- One slot configuration record of Table 9-2: profile 0, group 0, priority 4, limit 6 with wake-on-demand on, idle unload
30 s, idle stop 300 s. -/
def defaultSlotCfg : List Byte := [0, 0, 4, 0x86, 0, 30, 0x01, 0x2C]

/-- One profile of Table 9-2: 25, 8, 2, 20 s, 5000 ms, 3000 ms, 30 s, 2, 2, 5 s. -/
def defaultProfile : List Byte := [25, 8, 2, 20, 0x13, 0x88, 0x0B, 0xB8, 30, 2, 2, 5, 0, 0, 0, 0]

/-- One row of the transit policy: the same entry in all four groups, the emergency flag, reserved bytes (Table 11-10). -/
def policyRow (entry flag : Byte) : List Byte := [entry, entry, entry, entry, flag, 0, 0, 0]

/-- The transit policy of Table 7-1: cap in bits 0-3, disposition in bits 4-7. -/
def defaultPolicy : List Byte :=
  policyRow 0x02 0 ++ policyRow 0x01 0 ++ policyRow 0x11 0 ++ policyRow 0x10 0 ++ policyRow 0x01 1 ++ policyRow 0x00 1

/-- The motion thresholds of Table 9-2: shock 2500, fall 300 and 60 ms, rolling 150 and 6, tilt 800 and 1000 ms, settles
5000, 10000, 5000, jolt hold 2000, sensor timeout 50, blind class ROLLING, brake in use. -/
def defaultMotion : List Byte :=
  [0x09, 0xC4, 0x01, 0x2C, 0, 60, 0, 150, 6, 0, 0x03, 0x20, 0x03, 0xE8] ++
  [0, 0, 0x13, 0x88, 0, 0, 0x27, 0x10, 0, 0, 0x13, 0x88, 0x07, 0xD0, 0, 50, 2, 1]

/-- The power-on contents of the eight tables (R162, Table 9-2). -/
def Tables.reset : Tables where
  unit := defaultUnit
  slotCfg := (List.replicate 16 defaultSlotCfg).flatten
  profiles := (List.replicate 8 defaultProfile).flatten
  classMap := List.replicate 256 2
  logicalMap := [0x80, 0x81, 0x82, 0x83, 0x84, 0x85, 0x86, 0x87, 0x88, 0x89, 0x8A, 0x8B, 0x8C, 0x8D, 0x8E, 0x8F]
  policy := defaultPolicy
  motion := defaultMotion
  budgets := [0, 200, 0, 90, 0, 30]

/-- The lane record after power-on reset and after an insertion (R25). -/
def Lane.reset : Lane where
  nextOrder := 0
  inFlight := none
  orderSlot := none
  cmdQueue := []
  tx := none
  spinAttempts := 0
  loadAttempts := 0
  rxPartial := none

/-- A slot after power-on reset (R1, R25, R49, R60), with its pins at the given levels: the transit cap and disposition are
those of the ROLLING row that the transit controller writes for the initial class (R131), and the presence filter runs from
the end of the reset if the presence input is asserted. -/
def Slot.reset (presence overcurrent : Bool) : Slot where
  state := .empty
  requested := .stop
  pinned := false
  transitCap := .spin
  transitDisposition := .freeze
  budgetCap := .none
  emergencyCap := .none
  draining := false
  drainTimer := none
  stoppingFromStart := false
  unloadMark := .none
  unloadReissued := false
  faultReason := none
  sledCode := none
  epoch := 0
  outstanding := []
  hold := []
  idleUnload := .idle
  idleStop := .idle
  dwell := none
  presenceFilter := if presence then some ⟨0, Config.presenceMs⟩ else none
  suspension := none
  exposures := 0
  strays := 0
  loadClaim := false
  lane := Lane.reset
  presenceIn := presence
  overcurrentIn := overcurrent

/-- A filtered input at the end of power-on reset: the filtered value is deasserted and the filter qualifies the input's
level (R99, R120). -/
def LineFilter.reset (level : Bool) (ms : Nat) : LineFilter where
  level := level
  value := false
  timer := if level then some ⟨0, ms⟩ else none

/-- A released condition with its timers idle (R115). -/
def Condition.reset : Condition := ⟨false, none, none⟩

/-- The motion monitor at the end of power-on reset, with its switch inputs at the given levels (R115): the sensor timer
runs for 50 ms and the motion class is the blind class ROLLING. -/
def Monitor.reset (handle brake : Bool) : Monitor where
  window := []
  sensor := .filling
  sensorTimer := some ⟨0, 50⟩
  restoring := false
  handle := LineFilter.reset handle Config.switchMs
  brake := LineFilter.reset brake Config.switchMs
  poised := Condition.reset
  rolling := Condition.reset
  tilted := Condition.reset
  jolt := Condition.reset
  fall := Condition.reset
  cls := .rolling
  rxPartial := none

/-- The start arbiter after power-on reset (R114). -/
def Arbiter.reset : Arbiter := ⟨[], none, 15, none, false⟩

/-- The budget unit after power-on reset (R114): BATTERY with its default budget. -/
def Budget.reset : Budget := ⟨.battery, 90, 0, false, false⟩

/-- No source. -/
def SourceSet.empty : SourceSet := ⟨false, false, false, false⟩

/-- The empty emergency record (R148). -/
def Emergency.reset : Emergency := ⟨false, SourceSet.empty, none, none, none, .none, none⟩

/-- The case link interface after power-on reset (Table 10-1). -/
def Link.reset : Link := ⟨none, [], none, false, true, false, [], false⟩

/-- The three power lines at the end of power-on reset, at the given levels (R99). -/
def PowerLines.reset (shore low fail : Bool) : PowerLines :=
  ⟨LineFilter.reset shore Config.powerMs, LineFilter.reset low Config.powerMs, LineFilter.reset fail Config.powerMs⟩

/-- The blocks of the plant after power-on reset, over slots that have been reset. -/
def Plant.reset (slots : Vector Slot 16) : Plant := ⟨slots, Arbiter.reset, Budget.reset, Emergency.reset, Link.reset⟩

/-- The part right after power-on reset, every input pin deasserted (DESIGN CHOICE, log 4) and nothing commanded. -/
def State.reset : State where
  clock := 0
  tables := Tables.reset
  staging := none
  power := PowerLines.reset false false false
  monitor := Monitor.reset false false
  plant := Plant.reset (Vector.replicate 16 (Slot.reset false false))
  freeCount := 0
  pending := []

end Sys2Proof.Machine
end

