-- ==== Sys2Proof/Machine/Operands.lean ====
section
/-! DEFINITION. Bytes and codes: numbers as bytes (R188), the codes of Table 11-2, the fields of a request, and the level
and timer arithmetic that every block uses. -/

namespace Sys2Proof.Machine

/-! ### Numbers and bytes (R188: most significant byte first) -/

/-- The low eight bits of a number. -/
def byteOf (n : Nat) : Byte := BitVec.ofNat 8 n

/-- A two-byte number. -/
def be16 (n : Nat) : List Byte := [byteOf (n / 256), byteOf n]

/-- A four-byte number. -/
def be32 (n : Nat) : List Byte := [byteOf (n / 16777216), byteOf (n / 65536), byteOf (n / 256), byteOf n]

/-- The byte at an offset, as a number; 0 past the end. -/
def u8At (bs : List Byte) (at_ : Nat) : Nat := (bs.getD at_ 0).toNat

/-- The two-byte number at an offset. -/
def u16At (bs : List Byte) (at_ : Nat) : Nat := u8At bs at_ * 256 + u8At bs (at_ + 1)

/-- The four-byte number at an offset. -/
def u32At (bs : List Byte) (at_ : Nat) : Nat := u16At bs at_ * 65536 + u16At bs (at_ + 2)

/-- A yes or no field: 0 for no and 1 for yes (R188). -/
def yesNo (b : Bool) : Byte := if b then 1 else 0

/-- One step of the check's CRC register over one bit, polynomial x^16 + x^12 + x^5 + 1 (R188). -/
def crcBit (reg : Word16) (bit : Bool) : Word16 :=
  if reg.msb != bit then (reg <<< 1) ^^^ 0x1021#16 else reg <<< 1

/-- The CRC register over one byte, most significant bit first (R188). -/
def crcByte (reg : Word16) (b : Byte) : Word16 :=
  [7, 6, 5, 4, 3, 2, 1, 0].foldl (fun r i => crcBit r (b.getLsbD i)) reg

/-- The 16-bit check over a run of bytes: the register preset to 0xFFFF and its inverse sent (R188). -/
def check16 (bs : List Byte) : Word16 := ~~~ (bs.foldl crcByte 0xFFFF#16)

/-! ### Codes (Table 11-2) -/

/-- Level code. -/
def Level.code : Level → Byte
  | .stop => 0 | .spin => 1 | .load => 2

/-- Budget cap code: 3 for none. -/
def BudgetCap.code : BudgetCap → Byte
  | .stop => 0 | .none => 3

/-- Emergency cap code: 3 for none. -/
def EmergencyCap.code : EmergencyCap → Byte
  | .stop => 0 | .spin => 1 | .none => 3

/-- Slot state code. -/
def SlotState.code : SlotState → Byte
  | .empty => 0 | .stopped => 1 | .queued => 2 | .starting => 3 | .spun => 4 | .loading => 5
  | .loaded => 6 | .unloading => 7 | .stopping => 8 | .faulted => 9

/-- Unload mark code. -/
def UnloadMark.code : UnloadMark → Byte
  | .none => 0 | .normal => 1 | .discard => 2 | .emergency => 3 | .fault => 4

/-- Fault reason code. -/
def FaultReason.code : FaultReason → Byte
  | .spinFailed => 1 | .loadFailed => 2 | .unloadTimeout => 3 | .stopTimeout => 4 | .sledFault => 5 | .overcurrent => 6

/-- Order kind code. -/
def OrderKind.code : OrderKind → Byte
  | .spinUp => 1 | .spinDown _ => 2 | .load => 3 | .unload _ => 4 | .emergencyUnload => 5

/-- Order flag: 1 for retry on SPIN_DOWN and discard on UNLOAD, else 0 (Table 11-9). -/
def OrderKind.flag : OrderKind → Byte
  | .spinDown retry => yesNo retry
  | .unload discard => yesNo discard
  | .spinUp | .load | .emergencyUnload => 0

/-- Command class code. -/
def CmdClass.code : CmdClass → Byte
  | .free => 0 | .spindle => 1 | .media => 2 | .trap => 3

/-- Trap action code: 0 for none. -/
def trapActionCode : Option TrapAction → Byte
  | none => 0 | some .toStop => 1 | some .toSpin => 2 | some .toLoad => 3 | some .report => 4

/-- Motion class code. -/
def MotionClass.code : MotionClass → Byte
  | .still => 0 | .poised => 1 | .rolling => 2 | .tilted => 3 | .jolt => 4 | .fall => 5

/-- Transit disposition code. -/
def TransitDisposition.code : TransitDisposition → Byte
  | .hold => 0 | .freeze => 1 | .refuse => 2

/-- Power state code. -/
def PowerState.code : PowerState → Byte
  | .shore => 0 | .battery => 1 | .reserve => 2 | .holdup => 3

/-- Sensor state code. -/
def SensorState.code : SensorState → Byte
  | .filling => 0 | .ok => 1 | .lost => 2

/-- Emergency source code. -/
def EmgSource.code : EmgSource → Byte
  | .fall => 0 | .jolt => 1 | .power => 2 | .panic => 3

/-- Emergency phase code: 0xFF absent. -/
def phaseCode : Option EmgPhase → Byte
  | some .parking => 0 | some .parked => 1 | none => 0xFF

/-- Clear cause code. -/
def ClearCause.code : ClearCause → Byte
  | .requested => 0 | .automatic => 1

/-- A set of sources as a byte with bit n set for source n (Table 11-2). -/
def SourceSet.byte (q : SourceSet) : Byte :=
  byteOf (q.fall.toNat + 2 * q.jolt.toNat + 4 * q.power.toNat + 8 * q.panic.toNat)

/-- Disposition code of a COMPLETION. -/
def Disposition.code : Disposition → Byte
  | .done => 0 | .emulated => 1 | .noUnit => 2 | .noSled => 3 | .dupTag => 4 | .holdFull => 5 | .notReady => 6
  | .holdExpired => 7 | .transitRefused => 8 | .levelChanged => 9 | .cleared => 10 | .abortedDrain => 11
  | .abortedEmergency => 12 | .slotFault => 13

/-- Status code of a UNIT_REPLY. -/
def UnitStatus.code : UnitStatus → Byte
  | .ok => 0 | .unknownRequest => 1 | .badLength => 2 | .maskCheck => 3 | .badTable => 4 | .outOfRange => 5
  | .commitMismatch => 6 | .commitConflict => 7 | .mapDuplicate => 8 | .notParked => 9 | .sourcePresent => 10
  | .notFaulted => 11

/-- Table id (Table 9-1). -/
def TableId.code : TableId → Byte
  | .unit => 0 | .slotCfg => 1 | .profiles => 2 | .classMap => 3 | .logicalMap => 4 | .policy => 5 | .motion => 6
  | .budgets => 7

/-- The table of an id; none above 7 (R165, R174). -/
def TableId.ofCode : Nat → Option TableId
  | 0 => some .unit | 1 => some .slotCfg | 2 => some .profiles | 3 => some .classMap | 4 => some .logicalMap
  | 5 => some .policy | 6 => some .motion | 7 => some .budgets | _ => none

/-- The level of a code (Table 11-2). -/
def Level.ofCode : Nat → Option Level
  | 0 => some .stop | 1 => some .spin | 2 => some .load | _ => none

/-- The motion class of a code (Table 11-2). -/
def MotionClass.ofCode : Nat → Option MotionClass
  | 0 => some .still | 1 => some .poised | 2 => some .rolling | 3 => some .tilted | 4 => some .jolt | 5 => some .fall
  | _ => none

/-- The transit disposition of a code (Table 11-2). -/
def TransitDisposition.ofCode : Nat → Option TransitDisposition
  | 0 => some .hold | 1 => some .freeze | 2 => some .refuse | _ => none

/-- The command class of a code (Table 11-2). -/
def CmdClass.ofCode : Nat → Option CmdClass
  | 0 => some .free | 1 => some .spindle | 2 => some .media | 3 => some .trap | _ => none

/-- The trap action of a code above 0 (Table 11-2). -/
def TrapAction.ofCode : Nat → Option TrapAction
  | 1 => some .toStop | 2 => some .toSpin | 3 => some .toLoad | 4 => some .report | _ => none

/-! ### Levels and classes -/

/-- Rank of a level in STOP < SPIN < LOAD (00 section 0.5). -/
def Level.rank : Level → Nat
  | .stop => 0 | .spin => 1 | .load => 2

/-- The first level is below the second. -/
def Level.below (a b : Level) : Bool := a.rank < b.rank

/-- The first level is at most the second. -/
def Level.atMost (a b : Level) : Bool := a.rank ≤ b.rank

/-- The lower of two levels. -/
def Level.lower (a b : Level) : Level := if a.below b then a else b

/-- A budget cap as a level: none ranks as LOAD (R69). -/
def BudgetCap.level : BudgetCap → Level
  | .stop => .stop | .none => .load

/-- An emergency cap as a level: none ranks as LOAD (R69). -/
def EmergencyCap.level : EmergencyCap → Level
  | .stop => .stop | .spin => .spin | .none => .load

/-- The target level of a TRAP action; STOP for REPORT (R44). -/
def TrapAction.target : TrapAction → Level
  | .toStop => .stop | .toSpin => .spin | .toLoad => .load | .report => .stop

/-- The state that answers an emulating entry with this target (R55). -/
def Level.targetState : Level → SlotState
  | .stop => .stopped | .spin => .spun | .load => .loaded

/-- Severity of a motion class (R127). -/
def MotionClass.severity : MotionClass → Nat
  | .still => 0 | .poised => 1 | .rolling => 2 | .tilted => 3 | .jolt => 4 | .fall => 5

/-- The more severe of two classes. -/
def MotionClass.worse (a b : MotionClass) : MotionClass := if a.severity < b.severity then b else a

/-- A counter of 16 bits that saturates at 65535 (00 section 0.4). -/
def satInc (n : Nat) : Nat := if n < 65535 then n + 1 else n

/-! ### Timers (R184) -/

/-- Milliseconds from one clock value to a later one, modulo 2^32 (R184). -/
def elapsed (start now : Clock) : Nat := (now - start).toNat

/-- The timer's deadline is reached (R184). -/
def Timer.due (t : Timer) (now : Clock) : Bool := t.len ≤ elapsed t.start now

/-- Time left: the deadline minus the case clock, 0 once the deadline is reached (log 24). -/
def Timer.left (t : Timer) (now : Clock) : Nat := t.len - elapsed t.start now

/-- A timer that may be idle is running and due. -/
def dueOpt (t : Option Timer) (now : Clock) : Bool :=
  match t with
  | some t => t.due now
  | none => false

/-- Time left of a timer that may be idle; 0 when idle. -/
def leftOpt (t : Option Timer) (now : Clock) : Nat :=
  match t with
  | some t => t.left now
  | none => 0

/-- A countdown is running and due. -/
def Countdown.due (c : Countdown) (now : Clock) : Bool :=
  match c with
  | .running t => t.due now
  | .idle | .frozen _ => false

/-- Freezing a countdown (R82): a running one keeps its remaining time, an idle or frozen one stays as it is. -/
def Countdown.freeze (c : Countdown) (now : Clock) : Countdown :=
  match c with
  | .running t => .frozen (t.left now)
  | .idle => .idle
  | .frozen r => .frozen r

/-- The remaining time of a frozen countdown. -/
def Countdown.frozenRem : Countdown → Option Nat
  | .frozen r => some r
  | .idle | .running _ => none

/-- A frozen countdown becomes idle; any other stays (R82). -/
def Countdown.thaw : Countdown → Countdown
  | .frozen _ => .idle
  | .idle => .idle
  | .running t => .running t

/-- Freezing a hold timer (R58): a frozen one is unchanged. -/
def HoldTimer.freeze (h : HoldTimer) (now : Clock) : HoldTimer :=
  match h with
  | .running t => .frozen (t.left now)
  | .frozen r => .frozen r

/-- Resuming a hold timer (R58): a running one is unchanged. -/
def HoldTimer.resume (h : HoldTimer) (now : Clock) : HoldTimer :=
  match h with
  | .frozen r => .running ⟨now, r⟩
  | .running t => .running t

/-- A hold timer is running and due; a frozen timer does not expire (R58). -/
def HoldTimer.due (h : HoldTimer) (now : Clock) : Bool :=
  match h with
  | .running t => t.due now
  | .frozen _ => false

/-- Time left of a hold timer, running or frozen (R147). -/
def HoldTimer.left (h : HoldTimer) (now : Clock) : Nat :=
  match h with
  | .running t => t.left now
  | .frozen r => r

/-! ### Fields of a request (Table 11-3; offsets count from the byte after the request code) -/

/-- A byte field of a request. -/
def reqU8 (r : Request) (at_ : Nat) : Nat := u8At r.args at_

/-- A two-byte field of a request. -/
def reqU16 (r : Request) (at_ : Nat) : Nat := u16At r.args at_

/-- The slot mask of MOTION and EXPOSURE_CLEAR. -/
def reqMask (r : Request) : Word16 := BitVec.ofNat 16 (reqU16 r 0)

/-- The complement field is the bitwise inverse of the mask (R180, R188). -/
def reqMaskOk (r : Request) : Bool := BitVec.ofNat 16 (reqU16 r 2) == ~~~ reqMask r

/-- Bit n of a mask stands for slot n (R188). -/
def inMask (m : Word16) (i : SlotId) : Bool := m.getLsbD i.val

/-- The mask with a bit set for each slot of a list. -/
def maskOf (is : List SlotId) : Nat := is.foldl (fun m i => m ||| (1 <<< i.val)) 0

/-- The slot with a number of at most 15 (R24, R187). -/
def slotOfNat (n : Nat) : Option SlotId := if h : n < 16 then some ⟨n, h⟩ else none

end Sys2Proof.Machine
end

