-- ==== Sys2Proof/Machine/Flags.lean ====
section
/-! DEFINITION. The case link's flags and queue: attention, the flags byte of upstream frames, the free count and the ready
line, the upstream queue, and the append to the event list (R178, R179, R181, R182). -/

namespace Sys2Proof.Machine

/-- The slot with a number. -/
def Plant.slot (d : Plant) (i : SlotId) : Slot := d.slots[i.val]

/-- Attention: the event list holds a record or overrun is set (R182). -/
def Link.attention (l : Link) : Bool := !l.events.isEmpty || l.overrun

/-- The flags byte as it stands: bit 0 attention, bit 1 link-error (R178, Table 11-1). -/
def Link.flagsByte (l : Link) : Byte := byteOf (l.attention.toNat + 2 * l.linkError.toNat)

/-- Commands of one slot inside the part: held and outstanding. -/
def Slot.inside (r : Slot) : Nat := r.hold.length + r.outstanding.length

/-- Reserved entries of the upstream queue, one for each command inside the part (R178). -/
def Plant.reserved (d : Plant) : Nat := (allSlots.map (fun i => (d.slot i).inside)).sum

/-- The free count: 128 minus the queued frames minus the reserved entries (R178). -/
def Plant.free (d : Plant) : Nat := Config.queueEntries - d.link.queue.length - d.reserved

/-- Hold pool occupancy: the sum of the sixteen hold counts (R49). -/
def Plant.poolUsed (d : Plant) : Nat := (allSlots.map (fun i => (d.slot i).hold.length)).sum

/-- The transmitter begins the oldest queued frame if it is idle and no break lasts; the flags byte is written at that
moment (R178, R177). An idle transmitter begins when the event that queued the frame has been taken whole, so that the flags
carry what the event leaves (10 section 10.7, event 1; log 34). -/
def Link.begin (l : Link) : Link :=
  if l.broken || l.tx.isSome || l.queue.isEmpty then l else { l with tx := some l.flagsByte }

/-- A frame is appended to the upstream queue (R178). -/
def Link.push (f : UpFrame) (l : Link) : Link := { l with queue := l.queue ++ [f] }

/-- A frame is appended to the upstream queue of the plant. -/
def Plant.push (f : UpFrame) (d : Plant) : Plant := { d with link := d.link.push f }

/-- The COMPLETION frame of an answer: disposition, sled status, sled payload (R43, 11 section 11.2). -/
def completionFrame (unit tag : Byte) (disp : Disposition) (status : Byte) (payload : List Byte) : UpFrame :=
  ⟨.completion, unit, tag, disp.code :: status :: payload⟩

/-- The UNIT_REPLY frame: request code, status, reply data (R180, 11 section 11.3). -/
def replyFrame (tag code : Byte) (st : UnitStatus) (data : List Byte) : UpFrame :=
  ⟨.unitReply, 255, tag, code :: st.code :: data⟩

/-- The ATTENTION frame (Table 10-2). -/
def attentionFrame : UpFrame := ⟨.attention, 255, 0, []⟩

/-- A record is stored at the tail if the list holds fewer than 32 records; otherwise overrun is set (R181). -/
def Link.store (rec : EventRecord) (l : Link) : Link :=
  if l.events.length < Config.eventRecords then { l with events := l.events ++ [rec] } else { l with overrun := true }

/-- A record is appended to the event list; if attention rises, one ATTENTION frame is queued, provided an entry of the
queue is free (R181, R182, R178). -/
def Plant.record (now : Clock) (ev : Event) (d : Plant) : Plant :=
  let was := d.link.attention
  let d' := { d with link := d.link.store ⟨now, ev⟩ }
  if was || d'.free = 0 then d' else d'.push attentionFrame

/-- The ready line after an event: low below 16 free entries, high again at 32, and as it was between (R179). -/
def Plant.settleReady (d : Plant) : Plant :=
  if d.free < Config.readyLowBelow then { d with link := { d.link with ready := false } }
  else if Config.readyHighAt ≤ d.free then { d with link := { d.link with ready := true } }
  else d

/-- The case link at the end of an event: the ready line follows the free count (R179), and an idle transmitter begins the
oldest queued frame (R178; log 34). -/
def Plant.settleLink (d : Plant) : Plant := { d.settleReady with link := d.settleReady.link.begin }

/-- A downstream frame is discarded: the framer becomes idle and link-error is set (R175, R176). -/
def Link.discardFrame (l : Link) : Link := { l with framer := none, linkError := true }

/-- A downstream frame has ended and is accepted: the framer becomes idle (R175). -/
def Link.acceptFrame (l : Link) : Link := { l with framer := none }

end Sys2Proof.Machine
end

