-- ==== Sys2Proof/Machine/Tables.lean ====
section
/-! DEFINITION. The table store: table sizes, the fields of the records as the blocks read them (Table 11-10), the permitted
values (Table 9-3) and the image a commit would leave (R169). A code that Table 9-3 does not permit cannot stand in a table
(R163); the readers map it to a value named here all the same (DESIGN CHOICE, log 14). -/

namespace Sys2Proof.Machine

/-! ### Sizes (Table 9-1) -/

/-- The bytes of a table. -/
def Tables.bytes (t : Tables) : TableId → List Byte
  | .unit => t.unit | .slotCfg => t.slotCfg | .profiles => t.profiles | .classMap => t.classMap
  | .logicalMap => t.logicalMap | .policy => t.policy | .motion => t.motion | .budgets => t.budgets

/-- The tables with one table's bytes replaced. -/
def Tables.setBytes (t : Tables) (id : TableId) (bs : List Byte) : Tables :=
  match id with
  | .unit => { t with unit := bs }
  | .slotCfg => { t with slotCfg := bs }
  | .profiles => { t with profiles := bs }
  | .classMap => { t with classMap := bs }
  | .logicalMap => { t with logicalMap := bs }
  | .policy => { t with policy := bs }
  | .motion => { t with motion := bs }
  | .budgets => { t with budgets := bs }

/-- Table size in bytes. -/
def TableId.size : TableId → Nat
  | .unit => 16 | .slotCfg => 128 | .profiles => 128 | .classMap => 256 | .logicalMap => 16 | .policy => 48
  | .motion => 32 | .budgets => 6

/-- Record size in bytes. -/
def TableId.recordSize : TableId → Nat
  | .unit => 16 | .slotCfg => 8 | .profiles => 16 | .classMap => 1 | .logicalMap => 1 | .policy => 8
  | .motion => 32 | .budgets => 2

/-! ### Unit configuration -/

/-- Arbiter modes (R90). -/
inductive ArbiterMode where
  | arrival
  | priority
  | round
  deriving DecidableEq, Repr

/-- The arbiter mode of a code. -/
def ArbiterMode.ofCode : Nat → ArbiterMode
  | 1 => .priority | 2 => .round | _ => .arrival

/-- Arbiter mode. -/
def Tables.mode (t : Tables) : ArbiterMode := ArbiterMode.ofCode (u8At t.unit 0)
/-- Maximum concurrent starts. -/
def Tables.maxStarts (t : Tables) : Nat := u8At t.unit 1
/-- Stagger interval, ms. -/
def Tables.staggerMs (t : Tables) : Nat := u16At t.unit 2
/-- Hold limit, ms. -/
def Tables.holdLimitMs (t : Tables) : Nat := u16At t.unit 4
/-- Drain limit, ms. -/
def Tables.drainLimitMs (t : Tables) : Nat := u16At t.unit 6
/-- Auto-clear. -/
def Tables.autoClear (t : Tables) : Bool := u8At t.unit 8 == 1
/-- Emergency settle time, in ms from the table's seconds. -/
def Tables.settleMs (t : Tables) : Nat := u16At t.unit 9 * 1000

/-! ### Slot configuration -/

/-- Offset of a slot's record. -/
def slotBase (i : SlotId) : Nat := 8 * i.val
/-- Profile number of a slot. -/
def Tables.profile (t : Tables) (i : SlotId) : Nat := u8At t.slotCfg (slotBase i)
/-- Group of a slot. -/
def Tables.group (t : Tables) (i : SlotId) : Nat := u8At t.slotCfg (slotBase i + 1)
/-- Priority of a slot. -/
def Tables.priority (t : Tables) (i : SlotId) : Nat := u8At t.slotCfg (slotBase i + 2)
/-- Hold list limit of a slot: bits 0-3. -/
def Tables.holdListLimit (t : Tables) (i : SlotId) : Nat := u8At t.slotCfg (slotBase i + 3) % 16
/-- Wake-on-demand of a slot: bit 7. -/
def Tables.wake (t : Tables) (i : SlotId) : Bool := 128 ≤ u8At t.slotCfg (slotBase i + 3)
/-- Idle unload time of a slot, in ms from the table's seconds; 0 is off. -/
def Tables.idleUnloadMs (t : Tables) (i : SlotId) : Nat := u16At t.slotCfg (slotBase i + 4) * 1000
/-- Idle stop time of a slot, in ms from the table's seconds; 0 is off. -/
def Tables.idleStopMs (t : Tables) (i : SlotId) : Nat := u16At t.slotCfg (slotBase i + 6) * 1000

/-! ### Profiles, read for the profile named in the slot's record -/

/-- Offset of the slot's profile record. -/
def Tables.profBase (t : Tables) (i : SlotId) : Nat := 16 * t.profile i
/-- Spin draw. -/
def Tables.spinDraw (t : Tables) (i : SlotId) : Nat := u8At t.profiles (t.profBase i)
/-- Run draw. -/
def Tables.runDraw (t : Tables) (i : SlotId) : Nat := u8At t.profiles (t.profBase i + 1)
/-- Load draw. -/
def Tables.loadDraw (t : Tables) (i : SlotId) : Nat := u8At t.profiles (t.profBase i + 2)
/-- Spin-up timeout, in ms from the table's seconds. -/
def Tables.spinUpMs (t : Tables) (i : SlotId) : Nat := u8At t.profiles (t.profBase i + 3) * 1000
/-- Load timeout, ms. -/
def Tables.loadMs (t : Tables) (i : SlotId) : Nat := u16At t.profiles (t.profBase i + 4)
/-- Unload timeout, ms. -/
def Tables.unloadMs (t : Tables) (i : SlotId) : Nat := u16At t.profiles (t.profBase i + 6)
/-- Spin-down timeout, in ms from the table's seconds. -/
def Tables.spinDownMs (t : Tables) (i : SlotId) : Nat := u8At t.profiles (t.profBase i + 8) * 1000
/-- Spin retries. -/
def Tables.spinRetries (t : Tables) (i : SlotId) : Nat := u8At t.profiles (t.profBase i + 9)
/-- Load retries. -/
def Tables.loadRetries (t : Tables) (i : SlotId) : Nat := u8At t.profiles (t.profBase i + 10)
/-- Stopped dwell, in ms from the table's seconds. -/
def Tables.dwellMs (t : Tables) (i : SlotId) : Nat := u8At t.profiles (t.profBase i + 11) * 1000

/-- The timeout of an order (Table 2-3). -/
def Tables.orderMs (t : Tables) (i : SlotId) : OrderKind → Nat
  | .spinUp => t.spinUpMs i
  | .spinDown _ => t.spinDownMs i
  | .load => t.loadMs i
  | .unload _ => t.unloadMs i
  | .emergencyUnload => t.unloadMs i

/-! ### Class map and logical map -/

/-- The class of an opcode: bits 0-3 of its entry. -/
def Tables.cmdClass (t : Tables) (opcode : Byte) : CmdClass :=
  (CmdClass.ofCode (u8At t.classMap opcode.toNat % 16)).getD .media

/-- The trap action of an opcode: bits 4-7 of its entry. -/
def Tables.trapAction (t : Tables) (opcode : Byte) : Option TrapAction :=
  TrapAction.ofCode (u8At t.classMap opcode.toNat / 16)

/-- The slot an entry byte of the logical map names, if the entry is valid: bit 7 valid, bits 0-3 slot. -/
def mapEntrySlot (b : Nat) : Option SlotId := if 128 ≤ b then slotOfNat (b % 16) else none

/-- The slot a logical unit maps to, if its entry is valid (R44). -/
def Tables.slotOfUnit (t : Tables) (unit : Nat) : Option SlotId :=
  if unit < 16 then mapEntrySlot (u8At t.logicalMap unit) else none

/-- The logical unit that the logical map names for a slot (R43); 0xFF if none does, which R170 rules out for a slot with a
command in the part (log 15). -/
def Tables.unitOfSlot (t : Tables) (i : SlotId) : Byte :=
  match (List.range 16).find? (fun u => t.slotOfUnit u == some i) with
  | some u => byteOf u
  | none => 0xFF

/-! ### Transit policy -/

/-- Offset of a class's row. -/
def policyBase (c : MotionClass) : Nat := 8 * c.severity
/-- The cap of a group in a class's row: bits 0-3 of its entry. -/
def Tables.policyCap (t : Tables) (c : MotionClass) (group : Nat) : Level :=
  (Level.ofCode (u8At t.policy (policyBase c + group) % 16)).getD .stop
/-- The disposition of a group in a class's row: bits 4-7 of its entry. -/
def Tables.policyDisposition (t : Tables) (c : MotionClass) (group : Nat) : TransitDisposition :=
  (TransitDisposition.ofCode (u8At t.policy (policyBase c + group) / 16)).getD .hold
/-- The emergency flag of a class's row. -/
def Tables.emergencyFlag (t : Tables) (c : MotionClass) : Bool := u8At t.policy (policyBase c + 4) == 1

/-! ### Motion thresholds -/

/-- Shock threshold, mg. -/
def Tables.shock (t : Tables) : Nat := u16At t.motion 0
/-- Fall threshold, mg. -/
def Tables.fallThreshold (t : Tables) : Nat := u16At t.motion 2
/-- Fall time, ms. -/
def Tables.fallMs (t : Tables) : Nat := u16At t.motion 4
/-- Rolling threshold, mg. -/
def Tables.rollingThreshold (t : Tables) : Nat := u16At t.motion 6
/-- Rolling count. -/
def Tables.rollingCount (t : Tables) : Nat := u8At t.motion 8
/-- Tilt threshold, mg. -/
def Tables.tiltThreshold (t : Tables) : Nat := u16At t.motion 10
/-- Tilt time, ms. -/
def Tables.tiltMs (t : Tables) : Nat := u16At t.motion 12
/-- Poised settle time, ms. -/
def Tables.poisedSettleMs (t : Tables) : Nat := u32At t.motion 14
/-- Rolling settle time, ms. -/
def Tables.rollingSettleMs (t : Tables) : Nat := u32At t.motion 18
/-- Tilt settle time, ms. -/
def Tables.tiltSettleMs (t : Tables) : Nat := u32At t.motion 22
/-- Jolt hold time, ms. -/
def Tables.joltHoldMs (t : Tables) : Nat := u16At t.motion 26
/-- Sensor timeout, ms. -/
def Tables.sensorMs (t : Tables) : Nat := u16At t.motion 28
/-- Blind class. -/
def Tables.blindClass (t : Tables) : MotionClass := (MotionClass.ofCode (u8At t.motion 30)).getD .rolling
/-- Brake in use. -/
def Tables.brakeInUse (t : Tables) : Bool := u8At t.motion 31 == 1

/-! ### Budgets -/

/-- The budget of a power state: its entry of the budget table, or 0 in HOLDUP (R101). -/
def Tables.budgetOf (t : Tables) : PowerState → Nat
  | .shore => u16At t.budgets 0
  | .battery => u16At t.budgets 2
  | .reserve => u16At t.budgets 4
  | .holdup => 0

/-! ### Permitted values (R163, Table 9-3) -/

/-- A field's offset in its record and whether the value at that offset is permitted. -/
abbrev FieldCheck := Nat × Bool

/-- `lo ≤ n ≤ hi`. -/
def within (lo n hi : Nat) : Bool := lo ≤ n && n ≤ hi

/-- The fields of a unit configuration record, in the order of their layout. -/
def unitChecks (r : List Byte) : List FieldCheck :=
  [(0, u8At r 0 ≤ 2), (1, within 1 (u8At r 1) 4), (2, within 100 (u16At r 2) 10000), (4, within 100 (u16At r 4) 60000),
   (6, within 100 (u16At r 6) 30000), (8, u8At r 8 ≤ 1), (9, within 1 (u16At r 9) 600)]

/-- The fields of a slot configuration record; the hold list limit and wake-on-demand share offset 3. -/
def slotCfgChecks (r : List Byte) : List FieldCheck :=
  [(0, u8At r 0 ≤ 7), (1, u8At r 1 ≤ 3), (2, u8At r 2 ≤ 7), (3, within 1 (u8At r 3 % 16) 12),
   (4, u16At r 4 ≤ 3600), (6, u16At r 6 ≤ 3600)]

/-- The fields of a profile. -/
def profileChecks (r : List Byte) : List FieldCheck :=
  [(0, within 1 (u8At r 0) 100), (1, u8At r 1 ≤ 50), (2, u8At r 2 ≤ 20), (3, within 1 (u8At r 3) 60),
   (4, within 100 (u16At r 4) 10000), (6, within 100 (u16At r 6) 10000), (8, within 1 (u8At r 8) 90),
   (9, u8At r 9 ≤ 3), (10, u8At r 10 ≤ 3), (11, u8At r 11 ≤ 60)]

/-- A class map entry: the class, and the action judged against the class beside it (R169). -/
def classChecks (r : List Byte) : List FieldCheck :=
  [(0, u8At r 0 % 16 ≤ 3), (0, if u8At r 0 % 16 = 3 then within 1 (u8At r 0 / 16) 4 else u8At r 0 / 16 == 0)]

/-- A transit policy row of the given record number: the flag may be set on the rows of JOLT and FALL alone. -/
def policyChecks (row : Nat) (r : List Byte) : List FieldCheck :=
  [(0, u8At r 0 % 16 ≤ 2 && u8At r 0 / 16 ≤ 2), (1, u8At r 1 % 16 ≤ 2 && u8At r 1 / 16 ≤ 2),
   (2, u8At r 2 % 16 ≤ 2 && u8At r 2 / 16 ≤ 2), (3, u8At r 3 % 16 ≤ 2 && u8At r 3 / 16 ≤ 2),
   (4, if 4 ≤ row then u8At r 4 ≤ 1 else u8At r 4 == 0)]

/-- The motion thresholds. -/
def motionChecks (r : List Byte) : List FieldCheck :=
  [(0, within 500 (u16At r 0) 16000), (2, u16At r 2 ≤ 800), (4, within 10 (u16At r 4) 500),
   (6, within 20 (u16At r 6) 2000), (8, within 1 (u8At r 8) 32), (10, u16At r 10 ≤ 1000),
   (12, within 100 (u16At r 12) 5000), (14, within 500 (u32At r 14) 600000), (18, within 500 (u32At r 18) 600000),
   (22, within 500 (u32At r 22) 600000), (26, within 100 (u16At r 26) 10000), (28, within 5 (u16At r 28) 500),
   (30, u8At r 30 ≤ 3), (31, u8At r 31 ≤ 1)]

/-- A budget entry. -/
def budgetChecks (r : List Byte) : List FieldCheck := [(0, u16At r 0 ≤ 4000)]

/-- The fields of a record of a table, in the order of their layout. A logical map byte permits every value: its slot field
is four bits and its valid field one. -/
def recordChecks (id : TableId) (row : Nat) (r : List Byte) : List FieldCheck :=
  match id with
  | .unit => unitChecks r
  | .slotCfg => slotCfgChecks r
  | .profiles => profileChecks r
  | .classMap => classChecks r
  | .logicalMap => []
  | .policy => policyChecks row r
  | .motion => motionChecks r
  | .budgets => budgetChecks r

/-- The bytes of one record of a table image. -/
def recordOf (id : TableId) (image : List Byte) (row : Nat) : List Byte :=
  (image.drop (row * id.recordSize)).take id.recordSize

/-- The offset in the table of the first field of a record that holds a value not permitted. -/
def recordBadField (id : TableId) (image : List Byte) (row : Nat) : Option Nat :=
  ((recordChecks id row (recordOf id image row)).find? (fun c => !c.2)).map (fun c => row * id.recordSize + c.1)

/-- The records that a range of offsets touches, ascending (R169). -/
def touchedRecords (id : TableId) (start stop : Nat) : List Nat :=
  (List.range (id.size / id.recordSize)).filter
    (fun row => start < (row + 1) * id.recordSize && row * id.recordSize ≤ stop)

/-- The first field of the touched records, in ascending offset, that holds a value not permitted (R169). -/
def firstBadField (id : TableId) (image : List Byte) (start stop : Nat) : Option Nat :=
  (touchedRecords id start stop).findSome? (recordBadField id image)

/-- Every field of a table image holds a permitted value, and the image has the table's size (R163). -/
def tablePermitted (id : TableId) (image : List Byte) : Bool :=
  image.length == id.size &&
    (List.range (id.size / id.recordSize)).all
      (fun row => (recordChecks id row (recordOf id image row)).all (fun c => c.2))

/-- Every field of every table holds a permitted value (R163). -/
def Tables.permitted (t : Tables) : Bool :=
  [TableId.unit, .slotCfg, .profiles, .classMap, .logicalMap, .policy, .motion, .budgets].all
    (fun id => tablePermitted id (t.bytes id))

/-! ### The image of a commit (R169, R171) -/

/-- The present contents with the staged bytes laid over the staged range. -/
def overlay (bs : List Byte) (start : Nat) (data : List Byte) : List Byte :=
  bs.take start ++ data ++ bs.drop (start + data.length)

/-- The bits of a record byte that are fields; the others are reserved and stored as 0 (R189, Table 11-10). -/
def fieldBits (id : TableId) (offset : Nat) : Byte :=
  match id with
  | .unit => if offset < 11 then 0xFF else 0
  | .slotCfg => if offset = 3 then 0x8F else 0xFF
  | .profiles => if offset < 12 then 0xFF else 0
  | .classMap => 0xFF
  | .logicalMap => 0x8F
  | .policy => if offset < 5 then 0xFF else 0
  | .motion => if offset = 9 then 0 else 0xFF
  | .budgets => 0xFF

/-- Staged bytes as a commit stores them, the first of them at the given offset of the table: reserved bits are 0 (R189). -/
def storedBytes (id : TableId) : Nat → List Byte → List Byte
  | _, [] => []
  | offset, b :: rest => (b &&& fieldBits id (offset % id.recordSize)) :: storedBytes id (offset + 1) rest

/-- Two valid entries of a logical map image name the same slot (R170). -/
def mapDuplicate (image : List Byte) : Bool :=
  allSlots.any (fun i => 2 ≤ (image.filter (fun b => mapEntrySlot b.toNat == some i)).length)

/-- The logical units whose mapping changes from one image to another and that are valid before (R170). -/
def changedUnits (old new : List Byte) : List Nat :=
  (List.range 16).filter (fun u =>
    (mapEntrySlot (u8At old u)).isSome && mapEntrySlot (u8At new u) != mapEntrySlot (u8At old u))

end Sys2Proof.Machine
end

