-- ==== Sys2Proof/Machine/Ops.lean ====
section
/-! DEFINITION. The named operations over slot records and lanes: what a slot's record implies (effective and available
level, draw, motor enable), its countdowns, and its lane (R2 to R4, R28 to R34, R69, R79 to R83). -/

namespace Sys2Proof.Machine

/-- A commit that the start arbiter and the budget unit have not taken yet: the tables before it, and the plant as it stood at
the commit, from which the values that those two blocks still keep are read (R172; log 27). -/
structure Unread where
  tables : Tables
  plant : Plant
  deriving DecidableEq, Repr

/-- What the blocks read and no event of the plant changes while it is taken: the case clock, the tables, the motion class in
force, and, while the transit controller takes a commit before the start arbiter and the budget unit, that commit (R172;
log 27). The tables are the ones in force, which every block reads from the moment of the commit. -/
structure Env where
  clock : Clock
  tables : Tables
  cls : MotionClass
  unread : Option Unread
  deriving DecidableEq, Repr

/-! ### What a slot record implies -/

/-- The effective level: the lowest of the requested level and the three caps (R69). -/
def Slot.effective (r : Slot) : Level :=
  r.requested.lower (r.transitCap.lower (r.budgetCap.level.lower r.emergencyCap.level))

/-- The available level (Table 1-2); none is the absent value. -/
def Slot.available (r : Slot) : Option Level :=
  match r.state with
  | .empty | .faulted => none
  | .stopped | .queued | .starting | .stopping => some .stop
  | .spun | .loading => some .spin
  | .unloading => if r.unloadMark = .fault then none else some .spin
  | .loaded => if r.draining then some .spin else some .load

/-- The available level is at least a requirement (R2). -/
def Slot.serves (r : Slot) (req : Level) : Bool :=
  match r.available with
  | some a => req.atMost a
  | none => false

/-- The motor-enable output of the slot (R4). -/
def Slot.motorEnable (r : Slot) : Bool :=
  match r.state with
  | .starting | .spun | .loading | .loaded | .unloading | .stopping => true
  | .empty | .stopped | .queued | .faulted => false

/-- The draw of a slot (Table 1-3). -/
def Slot.draw (t : Tables) (i : SlotId) (r : Slot) : Nat :=
  match r.state with
  | .empty | .stopped | .queued | .faulted => 0
  | .starting => t.spinDraw i
  | .spun => t.runDraw i
  | .stopping => if r.stoppingFromStart then t.spinDraw i else t.runDraw i
  | .loading | .loaded | .unloading => t.runDraw i + t.loadDraw i

/-- The slot is EMPTY or FAULTED: it takes no command, no MOTION and no suspension (R45, R76, R143). -/
def Slot.outOfService (r : Slot) : Bool := r.state = .empty || r.state = .faulted

/-- The slot may hold its heads over the media: LOADING, LOADED or UNLOADING (R128, R150). -/
def Slot.headsOut (r : Slot) : Bool := r.state = .loading || r.state = .loaded || r.state = .unloading

/-- The slot counts against the PARKED phase (R155). -/
def Slot.parking (r : Slot) : Bool := r.state = .unloading && r.unloadMark = .emergency

/-! ### Idle countdowns -/

/-- The conditions of the idle unload countdown (R80). -/
def Slot.unloadIdle (t : Tables) (i : SlotId) (r : Slot) : Bool :=
  r.state = .loaded && !r.draining && r.hold.isEmpty && r.outstanding.isEmpty && !r.pinned && r.suspension.isNone
    && t.idleUnloadMs i != 0

/-- The conditions of the idle stop countdown (R81). -/
def Slot.stopIdle (t : Tables) (i : SlotId) (r : Slot) : Bool :=
  r.state = .spun && r.requested = .spin && r.hold.isEmpty && r.outstanding.isEmpty && !r.pinned && r.suspension.isNone
    && t.idleStopMs i != 0

/-- A countdown after its conditions have been examined (R79, R82): idle, it starts from the full time when they hold;
running, it becomes idle when one fails; frozen, it stays so while a suspension record exists, and afterwards resumes with
its remaining time at the first moment they all hold, or becomes idle if its time is 0. The kept time survives commands held
or served before that moment (log 30), and an idle time set to 0 and back during the suspension (log 31). -/
def Countdown.examine (now : Clock) (full : Nat) (holds suspended : Bool) (c : Countdown) : Countdown :=
  match c with
  | .idle => if holds then .running ⟨now, full⟩ else .idle
  | .running t => if holds then .running t else .idle
  | .frozen rem =>
    if suspended then .frozen rem
    else if full = 0 then .idle
    else if holds then .running ⟨now, rem⟩
    else .frozen rem

/-- Both countdowns of a slot, examined against its record. -/
def Slot.examineCountdowns (e : Env) (i : SlotId) (r : Slot) : Slot :=
  { r with
    idleUnload := r.idleUnload.examine e.clock (e.tables.idleUnloadMs i) (r.unloadIdle e.tables i) r.suspension.isSome
    idleStop := r.idleStop.examine e.clock (e.tables.idleStopMs i) (r.stopIdle e.tables i) r.suspension.isSome }

/-- The one write of a slot: the record is stored with its countdowns examined. -/
def Plant.put (e : Env) (i : SlotId) (r : Slot) (d : Plant) : Plant :=
  { d with slots := d.slots.set i.val (r.examineCountdowns e i) i.isLt }

/-! ### Lanes -/

/-- The lane's transmitter, if idle, begins the order in the order slot, or else the oldest COMMAND frame (R31). -/
def Lane.begin (l : Lane) : Lane :=
  match l.tx with
  | some _ => l
  | none =>
    match l.orderSlot with
    | some f => { l with tx := some f, orderSlot := none }
    | none =>
      match l.cmdQueue with
      | f :: rest => { l with tx := some f, cmdQueue := rest }
      | [] => l

/-- A frame on the lane ends and the transmitter chooses the next (R31). -/
def Lane.frameSent (l : Lane) : Lane := Lane.begin { l with tx := none }

/-- An order is issued (R28): it takes the next order number, its timer starts, it becomes the order in flight (superseding
the one in flight, R30) and its frame is placed in the order slot. -/
def Slot.issue (e : Env) (i : SlotId) (kind : OrderKind) (r : Slot) : Slot :=
  { r with
    lane := Lane.begin
      { r.lane with
        nextOrder := r.lane.nextOrder + 1
        inFlight := some ⟨kind, r.lane.nextOrder, ⟨e.clock, e.tables.orderMs i kind⟩⟩
        orderSlot := some (.order kind r.lane.nextOrder) } }

/-- The order in flight ends: it becomes absent and its timer is cancelled (R35, R36). A frame of it that still waits in the
order slot stays there (log 29). -/
def Slot.endOrder (r : Slot) : Slot := { r with lane := { r.lane with inFlight := none } }

/-- The order in flight is dropped: its frame, if still in the order slot, is not sent (R40). -/
def Slot.dropOrder (r : Slot) : Slot := { r with lane := { r.lane with inFlight := none, orderSlot := none } }

/-- The lane epoch is incremented, and the command queue loses the frames of the older epoch (R34, R63). -/
def Slot.nextEpoch (r : Slot) : Slot :=
  { r with epoch := r.epoch + 1, lane := { r.lane with cmdQueue := [] } }

/-- A command is forwarded: an outstanding entry is created and its COMMAND frame joins the lane's queue (R48, R33). The frame
of a command completed before it was sent still waits there, so the queue can exceed four frames (log 28). -/
def Slot.forward (e : Env) (tag : Byte) (payload : List Byte) (r : Slot) : Slot :=
  { r with
    outstanding := r.outstanding ++ [⟨tag, r.epoch, e.clock⟩]
    lane := Lane.begin { r.lane with cmdQueue := r.lane.cmdQueue ++ [.command r.epoch tag payload] } }

/-- A SPIN_UP failure is counted, saturating at 4 (R39). -/
def Lane.spinFailed (l : Lane) : Lane := { l with spinAttempts := if l.spinAttempts < 4 then l.spinAttempts + 1 else l.spinAttempts }

/-- A LOAD failure is counted, saturating at 4 (R39). -/
def Lane.loadFailed (l : Lane) : Lane := { l with loadAttempts := if l.loadAttempts < 4 then l.loadAttempts + 1 else l.loadAttempts }

/-- The stopped-dwell timer of an entry to STOPPED: the profile's dwell; a dwell of 0 is expired at once (R9). -/
def dwellTimer (e : Env) (i : SlotId) : Option Timer :=
  if e.tables.dwellMs i = 0 then none else some ⟨e.clock, e.tables.dwellMs i⟩

/-! ### The start queue -/

/-- A slot joins the tail of the start queue (R89). -/
def Plant.joinQueue (i : SlotId) (d : Plant) : Plant := { d with arb := { d.arb with queue := d.arb.queue ++ [i] } }

/-- A slot leaves the start queue; the others keep their order (R89). -/
def Plant.leaveQueue (i : SlotId) (d : Plant) : Plant :=
  { d with arb := { d.arb with queue := d.arb.queue.filter (fun j => j != i) } }

end Sys2Proof.Machine
end

