-- ==== Sys2Proof/Machine/Answers.lean ====
section
/-! DEFINITION. Answers to commands inside the part: the COMPLETION of one command, an abort, and the answers one event
gives to held entries (R42, R43, R64, R65). -/

namespace Sys2Proof.Machine

/-- The COMPLETION of a command of the slot is appended upstream; the logical unit is the one the map names for the slot
(R43). -/
def answer (e : Env) (i : SlotId) (tag : Byte) (disp : Disposition) (status : Byte) (payload : List Byte) (d : Plant) : Plant :=
  d.push (completionFrame (e.tables.unitOfSlot i) tag disp status payload)

/-- The COMPLETION frames that answer a list of tags with one disposition, in order. -/
def answerTags (e : Env) (i : SlotId) (disp : Disposition) (tags : List Byte) (d : Plant) : Plant :=
  tags.foldl (fun d tag => answer e i tag disp 0 [] d) d

/-- An abort (R64): every outstanding entry is answered, oldest forwarding first, and removed, and the lane epoch is
incremented once, whether or not any entry was outstanding. -/
def abort (e : Env) (i : SlotId) (disp : Disposition) (d : Plant) : Plant :=
  let d' := answerTags e i disp ((d.slot i).outstanding.map (fun o => o.tag)) d
  d'.put e i (Slot.nextEpoch { d.slot i with outstanding := [] })

/-- The held entries that a predicate names are answered and removed, from the head toward the tail; the others keep their
places, their order and their timers (R65). -/
def answerHeld (e : Env) (i : SlotId) (disp : Disposition) (named : HoldEntry → Bool) (d : Plant) : Plant :=
  let d' := answerTags e i disp (((d.slot i).hold.filter named).map (fun h => h.tag)) d
  d'.put e i { d.slot i with hold := (d.slot i).hold.filter (fun h => !named h) }

/-- The first held entry is removed (R49). -/
def dropHead (e : Env) (i : SlotId) (d : Plant) : Plant := d.put e i { d.slot i with hold := (d.slot i).hold.tail }

/-- The head is answered EMULATED with the slot's state and requested level as they stand, and removed (R43, R54, R55). -/
def answerEmulated (e : Env) (i : SlotId) (tag : Byte) (d : Plant) : Plant :=
  dropHead e i (answer e i tag .emulated 0 [(d.slot i).state.code, (d.slot i).requested.code] d)

/-- At an entry into a state, an emulating head whose target is that state is answered (R55, R68). -/
def emulationCheck (e : Env) (i : SlotId) (d : Plant) : Plant :=
  match (d.slot i).hold with
  | h :: _ => if h.emulating && h.requirement.targetState = (d.slot i).state then answerEmulated e i h.tag d else d
  | [] => d

/-- Over-cap held entries are answered TRANSIT_REFUSED (R134). -/
def refuseSweep (e : Env) (i : SlotId) (cap : Level) (d : Plant) : Plant :=
  answerHeld e i .transitRefused (fun h => cap.below h.requirement) d

end Sys2Proof.Machine
end

