-- ==== Sys2Proof/Machine/Sequencer.lean ====
section
/-! DEFINITION. The slot sequencer: how a slot acts on its effective level, and the entries to STOPPED, SPUN, LOADED,
UNLOADING, STOPPING, FAULTED and EMPTY (R5, R7 to R24). -/

namespace Sys2Proof.Machine

/-- UNLOAD or EMERGENCY_UNLOAD is issued and the slot enters, or stays in, UNLOADING with the given mark and unload
re-issued no; a drain ends (R16, R17, R18, R21, R151; log 20). -/
def Slot.toUnloading (e : Env) (i : SlotId) (kind : OrderKind) (mark : UnloadMark) (r : Slot) : Slot :=
  Slot.issue e i kind
    { r with state := .unloading, unloadMark := mark, unloadReissued := false, draining := false, drainTimer := none }

/-- SPIN_DOWN is issued and the slot enters STOPPING; a waiting load claim is withdrawn (R13, R15). -/
def Slot.toStopping (e : Env) (i : SlotId) (retry fromStart : Bool) (r : Slot) : Slot :=
  Slot.issue e i (.spinDown retry) { r with state := .stopping, stoppingFromStart := fromStart, loadClaim := false }

/-- A LOADED slot begins to drain, its timer set from the drain limit in force (R17). -/
def Slot.toDraining (e : Env) (r : Slot) : Slot :=
  { r with draining := true, drainTimer := some ⟨e.clock, e.tables.drainLimitMs⟩ }

/-- The response of a slot to its effective level, by its state (R5; R10, R13, R15, R16, R17, R18). In EMPTY, FAULTED,
UNLOADING and STOPPING the level has no effect. -/
def act (e : Env) (i : SlotId) (d : Plant) : Plant :=
  let r := d.slot i
  match r.state with
  | .stopped =>
    if r.effective ≠ .stop ∧ r.dwell = none then (d.put e i { r with state := .queued }).joinQueue i else d
  | .queued =>
    if r.effective = .stop then emulationCheck e i ((d.put e i { r with state := .stopped }).leaveQueue i) else d
  | .starting => if r.effective = .stop then d.put e i (r.toStopping e i false true) else d
  | .spun =>
    match r.effective with
    | .load => d.put e i { r with loadClaim := true }
    | .spin => d.put e i { r with loadClaim := false }
    | .stop => d.put e i (r.toStopping e i false false)
  | .loading => if r.effective = .load then d else d.put e i (r.toUnloading e i (.unload false) .normal)
  | .loaded =>
    if r.draining then
      if r.effective = .load then d.put e i { r with draining := false, drainTimer := none } else d
    else if r.effective = .load then d
    else if r.outstanding = [] then d.put e i (r.toUnloading e i (.unload false) .normal)
    else d.put e i (r.toDraining e)
  | .empty | .faulted | .unloading | .stopping => d

/-- A write that may have changed the effective level: the sequencer acts if it did (R69). -/
def actIfChanged (e : Env) (i : SlotId) (old : Level) (d : Plant) : Plant :=
  if (d.slot i).effective = old then d else act e i d

/-- The slot enters SPUN: an emulating head with target SPIN is answered, and R15 applies at once (R13, R19, R55). -/
def enterSpun (e : Env) (i : SlotId) (r : Slot) (d : Plant) : Plant :=
  act e i (emulationCheck e i (d.put e i { r with state := .spun, unloadMark := .none, unloadReissued := false }))

/-- The slot enters LOADED (R16). -/
def enterLoaded (e : Env) (i : SlotId) (r : Slot) (d : Plant) : Plant :=
  act e i (emulationCheck e i (d.put e i { r with state := .loaded }))

/-- The slot enters STOPPED from STOPPING and its stopped-dwell timer starts (R14, R9). -/
def enterStopped (e : Env) (i : SlotId) (r : Slot) (d : Plant) : Plant :=
  act e i (emulationCheck e i (d.put e i { r with state := .stopped, stoppingFromStart := false, dwell := dwellTimer e i }))

/-- Every held entry and every outstanding entry of the slot is answered, the outstanding ones first, and the lane epoch
is incremented once (R8, R21, R23, R43). -/
def answerAll (e : Env) (i : SlotId) (disp : Disposition) (d : Plant) : Plant :=
  answerHeld e i disp (fun _ => true) (abort e i disp d)

/-- What entry to FAULTED or to EMPTY does to the record, whatever the reason (R8, R23): the order in flight is dropped, the
load claim withdrawn, a drain ended, the mark cleared, the countdowns made idle, the dwell expired, the suspension record
discarded. -/
def Slot.cease (r : Slot) : Slot :=
  { r.dropOrder with
    loadClaim := false
    draining := false
    drainTimer := none
    stoppingFromStart := false
    unloadMark := .none
    unloadReissued := false
    idleUnload := .idle
    idleStop := .idle
    dwell := none
    suspension := none }

/-- Entry to FAULTED (R23): the slot ceases, its commands are answered SLOT_FAULT, and SLOT_FAULTED is recorded. The
requested level, the pin and the attempts keep their values. -/
def enterFaulted (e : Env) (i : SlotId) (reason : FaultReason) (code : Option Byte) (d : Plant) : Plant :=
  let d1 := (d.put e i { (d.slot i).cease with state := .faulted, faultReason := some reason, sledCode := code }).leaveQueue i
  (answerAll e i .slotFault d1).record e.clock (.slotFaulted i reason (code.getD 0))

/-- Removal (R8): the slot ceases and enters EMPTY, its commands are answered NO_SLED, and SLED_REMOVED is recorded. The
order slot and the command queue are emptied (R25). -/
def removeSled (e : Env) (i : SlotId) (d : Plant) : Plant :=
  let r := d.slot i
  let d1 := (d.put e i { r.cease with
    state := .empty, faultReason := none, sledCode := none, requested := .stop, pinned := false,
    presenceFilter := none }).leaveQueue i
  (answerAll e i .noSled d1).record e.clock (.sledRemoved i r.state)

/-- Insertion (R7, R25): the slot enters STOPPED with the values of R7, its stopped-dwell timer started, and
SLED_INSERTED is recorded. The caps are not written. -/
def insertSled (e : Env) (i : SlotId) (d : Plant) : Plant :=
  let d1 := d.put e i { d.slot i with
    state := .stopped, requested := .stop, pinned := false, epoch := 0, lane := Lane.reset, exposures := 0, strays := 0,
    draining := false, unloadMark := .none, unloadReissued := false, faultReason := none, sledCode := none,
    dwell := dwellTimer e i, presenceFilter := none }
  act e i (d1.record e.clock (.sledInserted i))

/-- Recovery of a FAULTED slot (R24). The lane epoch, the caps, the counts and the order number keep their values. -/
def recoverSlot (e : Env) (i : SlotId) (d : Plant) : Plant :=
  let r := d.slot i
  let d1 := d.put e i { r with
    state := .stopped, faultReason := none, sledCode := none, requested := .stop, pinned := false, dwell := dwellTimer e i,
    lane := { r.lane with spinAttempts := 0, loadAttempts := 0 } }
  act e i (d1.record e.clock (.slotRecovered i))

/-! ### The end of an order (R12 to R20) -/

/-- The target mechanical state of an order (Table 1-5). -/
def OrderKind.target : OrderKind → MechState
  | .spinUp => .atSpeed
  | .spinDown _ => .stopped
  | .load => .loaded
  | .unload _ => .unloaded
  | .emergencyUnload => .unloaded

/-- The success of the order that has just ended, by the slot's state (R13, R14, R16, R19). -/
def orderSuccess (e : Env) (i : SlotId) (d : Plant) : Plant :=
  let r := (d.slot i).endOrder
  match r.state with
  | .starting => enterSpun e i { r with lane := { r.lane with spinAttempts := 0 } } d
  | .stopping =>
    if e.tables.spinRetries i < r.lane.spinAttempts then enterFaulted e i .spinFailed none d
    else enterStopped e i r d
  | .loading => enterLoaded e i { r with lane := { r.lane with loadAttempts := 0 } } d
  | .unloading =>
    if r.unloadMark = .fault then enterFaulted e i .sledFault r.sledCode d
    else if e.tables.loadRetries i < r.lane.loadAttempts then enterFaulted e i .loadFailed none d
    else enterSpun e i r d
  | .empty | .stopped | .queued | .spun | .loaded | .faulted => d.put e i r

/-- The failure of the order that has just ended, by the slot's state (R13, R14, R16, R20). A failed unload is re-issued
once, with the same kind and flag. -/
def orderFailure (e : Env) (i : SlotId) (kind : OrderKind) (d : Plant) : Plant :=
  let r := (d.slot i).endOrder
  match r.state with
  | .starting => d.put e i (Slot.toStopping e i true true { r with lane := r.lane.spinFailed })
  | .stopping => enterFaulted e i .stopTimeout none d
  | .loading => d.put e i (Slot.toUnloading e i (.unload false) .normal { r with lane := r.lane.loadFailed })
  | .unloading =>
    if r.unloadReissued then
      if r.unloadMark = .fault then enterFaulted e i .sledFault r.sledCode d
      else enterFaulted e i .unloadTimeout none d
    else d.put e i (Slot.issue e i kind { r with unloadReissued := true })
  | .empty | .stopped | .queued | .spun | .loaded | .faulted => d.put e i r

/-- A REPORT, matched by order number alone (R35): it ends the order in flight, as a success when the result is DONE and the
mechanical state is the order's target and as a failure otherwise; with no match it is ignored. -/
def takeReport (e : Env) (i : SlotId) (number : Byte) (result : ReportResult) (mech : MechState) (d : Plant) : Plant :=
  match (d.slot i).lane.inFlight with
  | some o =>
    if number.toNat = o.number.val then
      if result = .done ∧ mech = o.kind.target then orderSuccess e i d else orderFailure e i o.kind d
    else d
  | none => d

/-- An unsolicited FAULT report, by the slot's state (R21). With the heads possibly out, the fall of the outstanding count is
taken in the state that the report leaves, UNLOADING (R64). -/
def takeSledFault (e : Env) (i : SlotId) (code : Byte) (d : Plant) : Plant :=
  let r := d.slot i
  match r.state with
  | .loading | .loaded | .unloading =>
    if r.state = .unloading ∧ r.unloadMark = .fault then d
    else
      answerAll e i .slotFault
        (d.put e i (Slot.toUnloading e i .emergencyUnload .fault { r with sledCode := some code }))
  | .stopped | .queued | .starting | .spun | .stopping => enterFaulted e i .sledFault (some code) d
  | .empty | .faulted => d

/-- The overcurrent input is asserted in a motor-enabled state: the slot faults (R22). -/
def takeOvercurrent (e : Env) (i : SlotId) (d : Plant) : Plant :=
  if (d.slot i).overcurrentIn && (d.slot i).motorEnable then enterFaulted e i .overcurrent none d else d

/-- The last completion of a draining slot ends the drain and issues UNLOAD (R18). -/
def drainDone (e : Env) (i : SlotId) (d : Plant) : Plant :=
  let r := d.slot i
  if r.state = .loaded ∧ r.draining ∧ r.outstanding = [] then d.put e i (r.toUnloading e i (.unload false) .normal) else d

/-- The drain timer expires: the outstanding commands are aborted ABORTED_DRAIN, UNLOAD is issued with discard, and
DRAIN_ABORTED is recorded with the number of commands aborted (R18). -/
def drainExpired (e : Env) (i : SlotId) (d : Plant) : Plant :=
  let n := (d.slot i).outstanding.length
  let d1 := abort e i .abortedDrain d
  (d1.put e i ((d1.slot i).toUnloading e i (.unload true) .discard)).record e.clock (.drainAborted i n)

end Sys2Proof.Machine
end

