-- ==== Sys2Proof/Machine/Levels.lean ====
section
/-! DEFINITION. The writes of the requested level and of the caps, and the suspension of a slot (R58, R69 to R74, R82,
R135 to R142). -/

namespace Sys2Proof.Machine

/-! ### Suspension records -/

/-- Every hold timer of the slot is frozen (R58). -/
def Slot.freezeHold (now : Clock) (r : Slot) : Slot :=
  { r with hold := r.hold.map (fun h => { h with timer := h.timer.freeze now }) }

/-- Every hold timer of the slot is resumed (R58). -/
def Slot.resumeHold (now : Clock) (r : Slot) : Slot :=
  { r with hold := r.hold.map (fun h => { h with timer := h.timer.resume now }) }

/-- The hold timers by a disposition: frozen under FREEZE, running under HOLD and REFUSE (Table 7-2, R140). -/
def Slot.holdBy (now : Clock) (disp : TransitDisposition) (r : Slot) : Slot :=
  match disp with
  | .freeze => r.freezeHold now
  | .hold | .refuse => r.resumeHold now

/-- A suspension begins (R136): running countdowns are frozen and their remaining times copied into the record, together
with those a countdown still keeps from an earlier one (R82); under FREEZE the hold timers are frozen. -/
def Slot.suspend (e : Env) (r : Slot) : Slot :=
  let iu := r.idleUnload.freeze e.clock
  let is := r.idleStop.freeze e.clock
  let r' := { r with
    idleUnload := iu
    idleStop := is
    suspension := some ⟨e.cls, e.clock, r.requested, iu.frozenRem, is.frozenRem, r.transitDisposition⟩ }
  if r.transitDisposition = .freeze then r'.freezeHold e.clock else r'

/-- A suspension continues at an application of the policy: the record's class becomes the class in force and its
disposition the slot's new one, and the hold timers are converted (R139, R140). -/
def Slot.resuspend (e : Env) (rec : Suspension) (r : Slot) : Slot :=
  Slot.holdBy e.clock r.transitDisposition
    { r with suspension := some { rec with cls := e.cls, disposition := r.transitDisposition } }

/-- A suspension ends by cap rise (R141): the hold timers resume, and each frozen countdown keeps its remaining time. -/
def Slot.endByCapRise (e : Env) (r : Slot) : Slot := Slot.resumeHold e.clock { r with suspension := none }

/-- A suspension ends by level lowered (R142): the hold timers resume, and each frozen countdown becomes idle. -/
def Slot.endByLowering (e : Env) (r : Slot) : Slot :=
  Slot.resumeHold e.clock { r with suspension := none, idleUnload := r.idleUnload.thaw, idleStop := r.idleStop.thaw }

/-- The suspension is settled after a write of the requested level (R135): it begins, continues unchanged, or ends by level
lowered. Under REFUSE a beginning answers the over-cap entries (R134, R136). EMPTY and FAULTED slots have no record. -/
def settleSuspension (e : Env) (i : SlotId) (d : Plant) : Plant :=
  let r := d.slot i
  if r.outOfService then d
  else if r.transitCap.below r.requested then
    match r.suspension with
    | some _ => d
    | none =>
      let d1 := d.put e i (r.suspend e)
      if r.transitDisposition = .refuse then refuseSweep e i r.transitCap d1 else d1
  else
    match r.suspension with
    | some _ => d.put e i (r.endByLowering e)
    | none => d

/-! ### Writes of the requested level (Table 4-2) -/

/-- The requested level and the pin are written. A countdown that still keeps its time after an end by cap rise loses it
(R82). -/
def Slot.setRequested (lv : Level) (pin : Bool) (r : Slot) : Slot :=
  { r with
    requested := lv
    pinned := pin
    idleUnload := if r.suspension.isSome then r.idleUnload else r.idleUnload.thaw
    idleStop := if r.suspension.isSome then r.idleStop else r.idleStop.thaw }

/-- A write of the requested level and pin (R71): the sequencer takes it, acting on the effective level if that changes
(R69), and the transit controller then settles the suspension (R135; log 11). -/
def writeRequested (e : Env) (i : SlotId) (lv : Level) (pin : Bool) (d : Plant) : Plant :=
  let r := d.slot i
  settleSuspension e i (actIfChanged e i r.effective (d.put e i (r.setRequested lv pin)))

/-- Demand (R72): the requested level is raised to the head's requirement, the pin unchanged. -/
def demand (e : Env) (i : SlotId) (req : Level) (d : Plant) : Plant := writeRequested e i req (d.slot i).pinned d

/-! ### Writes of the caps -/

/-- The budget cap is written (R107, R110, R111). -/
def writeBudgetCap (e : Env) (i : SlotId) (cap : BudgetCap) (d : Plant) : Plant :=
  let r := d.slot i
  actIfChanged e i r.effective (d.put e i { r with budgetCap := cap })

/-- The emergency cap is written (R153). -/
def writeEmergencyCap (e : Env) (cap : EmergencyCap) (d : Plant) (i : SlotId) : Plant :=
  let r := d.slot i
  actIfChanged e i r.effective (d.put e i { r with emergencyCap := cap })

/-- The transit cap is written (R132, step 4). -/
def writeTransitCap (e : Env) (i : SlotId) (cap : Level) (d : Plant) : Plant :=
  let r := d.slot i
  actIfChanged e i r.effective (d.put e i { r with transitCap := cap })

end Sys2Proof.Machine
end

