-- ==== Sys2Proof/Machine/Power.lean ====
section
/-! DEFINITION. The start arbiter and the budget unit: the candidate and its claim, grants, the serving pass, and sheds
(R89 to R114). -/

namespace Sys2Proof.Machine

/-! ### The candidate and the start claim (R90, R91) -/

/-- The slots in the circular order of ROUND: from the slot after the last-granted one, the last-granted one last (R90). -/
def roundOrder (last : SlotId) : List SlotId := allSlots.map (fun k => last + 1 + k)

/-- The slot of a queue with the lowest priority number; among equals the one that has waited longest (R90). -/
def mostUrgent (t : Tables) : List SlotId → Option SlotId
  | [] => none
  | i :: rest =>
    match mostUrgent t rest with
    | none => some i
    | some j => if t.priority j < t.priority i then some j else some i

/-- The candidate by the arbiter mode (R90). -/
def chooseCandidate (t : Tables) (a : Arbiter) : Option SlotId :=
  match t.mode with
  | .arrival => a.queue.head?
  | .priority => mostUrgent t a.queue
  | .round => (roundOrder a.lastGranted).find? (fun i => a.queue.contains i)

/-- The concurrency count: the slots in STARTING (R94). -/
def Plant.startingCount (d : Plant) : Nat := (allSlots.filter (fun i => (d.slot i).state = .starting)).length

/-- The candidate as the arbiter keeps it: chosen anew by the tables in force, and with a commit yet to be taken only once the
queue or the last-granted slot has changed since (R90, R172; log 27). -/
def Env.choose (e : Env) (a : Arbiter) : Option SlotId :=
  match e.unread with
  | none => chooseCandidate e.tables a
  | some u =>
    if a.queue = u.plant.arb.queue ∧ a.lastGranted = u.plant.arb.lastGranted then u.plant.arb.candidate
    else chooseCandidate e.tables a

/-- The arbiter chooses its candidate anew and presents or withdraws the start claim (R90, R91). -/
def refreshArbiter (e : Env) (d : Plant) : Plant :=
  let c := e.choose d.arb
  { d with
    arb := { d.arb with candidate := c }
    budget := { d.budget with
      startClaim := c.isSome && !d.arb.hold && d.startingCount < e.tables.maxStarts && d.arb.stagger.isNone } }

/-! ### Committed draw (R102) -/

/-- The sum of the draws of the sixteen slots (R102). -/
def Plant.totalDraw (t : Tables) (d : Plant) : Nat := (allSlots.map (fun i => (d.slot i).draw t i)).sum

/-- The draw of a slot as reported to the budget unit (R102): its draw by the tables in force, but, with a commit yet to be
taken, the draw it had before the commit as long as no change of state has changed its draw (R172; log 27). -/
def Env.drawOf (e : Env) (i : SlotId) (r : Slot) : Nat :=
  match e.unread with
  | none => r.draw e.tables i
  | some u =>
    if r.draw e.tables i = (u.plant.slot i).draw e.tables i then (u.plant.slot i).draw u.tables i else r.draw e.tables i

/-- The sum of the reported draws (R102). -/
def Plant.reportedDraw (e : Env) (d : Plant) : Nat := (allSlots.map (fun i => e.drawOf i (d.slot i))).sum

/-- The committed draw is recomputed (R102). -/
def recommit (e : Env) (d : Plant) : Plant := { d with budget := { d.budget with committed := d.reportedDraw e } }

/-- The amount of a slot's load claim (R103): the load draw by the tables in force, but the one before a commit yet to be taken
for a claim that already waited at it (R113, R172; log 27). -/
def Env.loadAmount (e : Env) (i : SlotId) : Nat :=
  match e.unread with
  | none => e.tables.loadDraw i
  | some u => if (u.plant.slot i).loadClaim then u.tables.loadDraw i else e.tables.loadDraw i

/-- The amount of the start claim for a candidate (R91): the spin draw by the tables in force, but the one before a commit yet
to be taken for the claim that already waited at it (R113, R172; log 27). -/
def Env.startAmount (e : Env) (i : SlotId) : Nat :=
  match e.unread with
  | none => e.tables.spinDraw i
  | some u =>
    if u.plant.budget.startClaim ∧ u.plant.arb.candidate = some i then u.tables.spinDraw i else e.tables.spinDraw i

/-- An amount fits in the headroom, the budget minus the committed draw (R103). -/
def Plant.fits (amount : Nat) (d : Plant) : Bool := d.budget.committed + amount ≤ d.budget.budget

/-! ### Grants and the serving pass (R92, R103, R104) -/

/-- A load claim is granted: the slot, SPUN with all its levels at LOAD, enters LOADING and LOAD is issued; otherwise the
grant is returned unused and the slot acts on its lower level (R15, R104). -/
def grantLoad (e : Env) (i : SlotId) (d : Plant) : Plant :=
  let r := { d.slot i with loadClaim := false }
  if r.state = .spun ∧ r.effective = .load then
    recommit e (d.put e i (Slot.issue e i .load { r with state := .loading }))
  else act e i (d.put e i r)

/-- The pass at one slot's load claim: served if its amount fits, and left waiting otherwise (R103). -/
def serveLoad (e : Env) (d : Plant) (i : SlotId) : Plant :=
  if (d.slot i).loadClaim && d.fits (e.loadAmount i) then grantLoad e i d else d

/-- A start is granted to the candidate (R92, R11): it leaves the queue and enters STARTING, SPIN_UP is issued, the stagger
timer starts, it becomes the last-granted slot, and the arbiter chooses again. An overcurrent input asserted at that moment
is then taken (R22; log 23). -/
def grantStart (e : Env) (i : SlotId) (d : Plant) : Plant :=
  let d1 := (d.put e i (Slot.issue e i .spinUp { d.slot i with state := .starting })).leaveQueue i
  let d2 := { d1 with arb := { d1.arb with stagger := some ⟨e.clock, e.tables.staggerMs⟩, lastGranted := i } }
  refreshArbiter e (recommit e (takeOvercurrent e i (refreshArbiter e (recommit e d2))))

/-- The pass at the start claim: served if the candidate's spin draw fits (R103, R105). A grant is made only to a slot that
is QUEUED (R11). -/
def serveStart (e : Env) (d : Plant) : Plant :=
  match d.arb.candidate with
  | some i =>
    if d.budget.startClaim && d.fits (e.startAmount i) && (d.slot i).state = .queued then grantStart e i d else d
  | none => d

/-- A serving pass (R103): nothing while a shed is in progress or the emergency latch is set; otherwise the load claims in
ascending slot number, then the start claim. -/
def servePass (e : Env) (d : Plant) : Plant :=
  if d.budget.shed || d.emg.latched then d else serveStart e (allSlots.foldl (serveLoad e) d)

/-! ### Sheds (R106 to R112) -/

/-- Shed order: highest priority number first, among equals the highest slot number first (R107). -/
def shedOrder (t : Tables) : List SlotId :=
  [7, 6, 5, 4, 3, 2, 1, 0].flatMap (fun p => allSlotsDown.filter (fun i => t.priority i = p))

/-- The projected draw: the committed draw with every slot whose budget cap is STOP counted at 0 (R107). -/
def Plant.projected (e : Env) (d : Plant) : Nat :=
  (allSlots.map (fun i => if (d.slot i).budgetCap = .stop then 0 else e.drawOf i (d.slot i))).sum

/-- One slot of the shed order: it becomes a victim if the projected draw still exceeds the budget and it is eligible, with
a draw above 0 and a budget cap that is not STOP (R107). -/
def takeVictim (e : Env) (d : Plant) (i : SlotId) : Plant :=
  if d.budget.budget < d.projected e && 0 < e.drawOf i (d.slot i) && (d.slot i).budgetCap = .none then
    writeBudgetCap e i .stop d
  else d

/-- Victims are taken in shed order until the projected draw is at or below the budget (R107, R108). -/
def takeVictims (e : Env) (d : Plant) : Plant := (shedOrder e.tables).foldl (takeVictim e) d

/-- A shed begins (R106): the flag is set, victims are taken, and SHED_BEGAN is recorded with the budget and the committed
draw at that moment. -/
def beginShed (e : Env) (d : Plant) : Plant :=
  let d1 := takeVictims e { d with budget := { d.budget with shed := true } }
  d1.record e.clock (.shedBegan d.budget.budget d.budget.committed)

/-- A shed ends (R110): the flag is cleared, SHED_ENDED is recorded, and every budget cap becomes none,
in ascending slot number (log 32). -/
def endShed (e : Env) (d : Plant) : Plant :=
  let d1 := Plant.record e.clock (.shedEnded d.budget.committed) { d with budget := { d.budget with shed := false } }
  allSlots.foldl (fun d i => writeBudgetCap e i .none d) d1

/-- The victims of a fresh choice over the full shed order (R111): every slot with a draw above 0 is eligible, and the
projected draw counts at 0 only the slots chosen so far, until it is at or below the budget. -/
def chooseVictims (e : Env) (d : Plant) : List SlotId → Nat → List SlotId
  | [], _ => []
  | i :: rest, projected =>
    if projected ≤ d.budget.budget then []
    else if 0 < e.drawOf i (d.slot i) then i :: chooseVictims e d rest (projected - e.drawOf i (d.slot i))
    else chooseVictims e d rest projected

/-- The budget caps are rewritten for a fresh choice of victims (R111): none into a capped slot not chosen again, STOP into
a chosen slot not yet capped, nothing into a slot capped before and chosen again. -/
def rewriteCaps (e : Env) (chosen : List SlotId) (d : Plant) (i : SlotId) : Plant :=
  if (d.slot i).budgetCap = .stop && !chosen.contains i then writeBudgetCap e i .none d
  else if (d.slot i).budgetCap = .none && chosen.contains i then writeBudgetCap e i .stop d
  else d

/-- The budget becomes a new value (R101). A rise during a shed that the committed draw still exceeds reconsiders every
budget cap (R111); any other change is met by the comparison that follows it (`budgetReact`). -/
def changeBudget (e : Env) (new : Nat) (d : Plant) : Plant :=
  let d1 := { d with budget := { d.budget with budget := new } }
  if d.budget.shed && d.budget.budget < new && new < d.budget.committed then
    allSlots.foldl (rewriteCaps e (chooseVictims e d1 (shedOrder e.tables) d.budget.committed)) d1
  else d1

/-- The budget unit compares the committed draw with the budget (R102, R106, R108, R110): a shed begins, extends or ends, or
nothing changes. -/
def shedReact (e : Env) (d : Plant) : Plant :=
  if d.budget.shed then
    if d.budget.committed ≤ d.budget.budget then endShed e d
    else if d.budget.budget < d.projected e then takeVictims e d
    else d
  else if d.budget.budget < d.budget.committed then beginShed e d
  else d

/-- The response of the start arbiter and the budget unit to what the slots have done: the draws are taken, a shed begins,
extends or ends, the candidate and the start claim are taken anew, and a serving pass is made (R91, R102, R103, R106, R110;
log 7, log 25). A pass with nothing new to serve serves nothing. -/
def budgetReact (e : Env) (d : Plant) : Plant :=
  servePass e (refreshArbiter e (shedReact e (refreshArbiter e (recommit e d))))

end Sys2Proof.Machine
end

