-- ==== Sys2Proof/Machine/Admission.lean ====
section
/-! DEFINITION. The admission unit: arrival, hold lists, the head rules, and completion matching (R42 to R68). -/

namespace Sys2Proof.Machine

/-! ### Head rules (R50 to R56) -/

/-- A head may be released: its requirement is served, fewer than four commands are outstanding, and the slot is not
draining (R52). -/
def Slot.mayForward (req : Level) (r : Slot) : Bool :=
  r.serves req && r.outstanding.length < Config.outstandingMax && !r.draining

/-- The head is marked as having become head (R51). -/
def Slot.markHead (r : Slot) : Slot :=
  match r.hold with
  | h :: rest => { r with hold := { h with asHead := true } :: rest }
  | [] => r

/-- The head is marked emulating (R55). -/
def Slot.markEmulating (r : Slot) : Slot :=
  match r.hold with
  | h :: rest => { r with hold := { h with emulating := true } :: rest }
  | [] => r

/-- An entry becomes head (R50, R51): a command whose requirement exceeds the requested level raises demand under
wake-on-demand and is answered NOT_READY without it; any other entry waits. -/
def becomeHead (e : Env) (i : SlotId) (h : HoldEntry) (d : Plant) : Plant :=
  let d1 := d.put e i (d.slot i).markHead
  if h.cls = .trap || h.requirement.atMost (d.slot i).requested then d1
  else if e.tables.wake i then demand e i h.requirement d1
  else dropHead e i (answer e i h.tag .notReady 0 [] d1)

/-- The head is released and forwarded (R52, R48): it leaves the list and joins the outstanding table. -/
def releaseHead (e : Env) (i : SlotId) (h : HoldEntry) (d : Plant) : Plant :=
  let r := d.slot i
  d.put e i (Slot.forward e h.tag h.payload { r with hold := r.hold.tail })

/-- A TRAP head takes its action (R54, R55): REPORT is answered EMULATED; the others write their target level with the pin
cleared and emulate, and are answered in the same taking if the slot was already in the target state. -/
def trapAct (e : Env) (i : SlotId) (h : HoldEntry) (d : Plant) : Plant :=
  match h.action with
  | some .report | none => answerEmulated e i h.tag d
  | some .toStop | some .toSpin | some .toLoad =>
    let there := (d.slot i).state = h.requirement.targetState
    let d1 := writeRequested e i h.requirement false (d.put e i (d.slot i).markEmulating)
    if there then emulationCheck e i d1 else d1

/-- One thing the head of a slot's hold list does, or none: it becomes head, is released, or acts (R50 to R53). -/
def headStep (e : Env) (i : SlotId) (d : Plant) : Option Plant :=
  match (d.slot i).hold with
  | [] => none
  | h :: _ =>
    if !h.asHead then some (becomeHead e i h d)
    else if h.cls = .trap then
      if h.emulating || !(d.slot i).outstanding.isEmpty then none else some (trapAct e i h d)
    else if (d.slot i).mayForward h.requirement then some (releaseHead e i h d)
    else none

/-- The head rules, repeated while the head does something. -/
def headLoop (e : Env) (i : SlotId) : Nat → Plant → Plant
  | 0, d => d
  | n + 1, d =>
    match headStep e i d with
    | none => d
    | some d' => headLoop e i n d'

/-- The head rules for one slot until its head stays. Each entry becomes head once, acts once and leaves once, so three
steps an entry suffice. -/
def serveHead (e : Env) (i : SlotId) (d : Plant) : Plant := headLoop e i (3 * (d.slot i).hold.length + 1) d

/-- The head rules for every slot, in ascending slot number. -/
def serveHeads (e : Env) (d : Plant) : Plant := allSlots.foldl (fun d i => serveHead e i d) d

/-! ### Arrival (R44 to R47) -/

/-- The requirement of a command (R44): by its class, and for TRAP the target level of its action. -/
def requirementOf (cls : CmdClass) (action : Option TrapAction) : Level :=
  match cls with
  | .free => .stop
  | .spindle => .spin
  | .media => .load
  | .trap =>
    match action with
    | some a => a.target
    | none => .stop

/-- The action captured in an entry: present for TRAP alone (Table 3-2). -/
def actionOf (t : Tables) (opcode : Byte) : Option TrapAction :=
  if t.cmdClass opcode = .trap then t.trapAction opcode else none

/-- A tag is carried by a held or an outstanding entry of the slot (R45). -/
def Slot.tagInUse (tag : Byte) (r : Slot) : Bool :=
  r.hold.any (fun h => h.tag == tag) || r.outstanding.any (fun o => o.tag == tag)

/-- The arrival checks 2 to 4 of R45 for a command of the given requirement, and the disposition of the first that fails. -/
def arrivalCheck (tag : Byte) (req : Level) (r : Slot) : Option Disposition :=
  if r.state = .empty then some .noSled
  else if r.state = .faulted then some .slotFault
  else if r.tagInUse tag then some .dupTag
  else if r.transitDisposition = .refuse ∧ r.transitCap.below req then some .transitRefused
  else none

/-- A command refused at arrival is answered at once, with the logical unit of its frame (R42, R43). -/
def refuseArrival (f : CommandFrame) (disp : Disposition) (d : Plant) : Plant :=
  d.push (completionFrame f.unit f.tag disp 0 [])

/-- The hold timer of a joining entry (R57): frozen with the full hold limit under a suspension whose disposition is FREEZE,
and running otherwise. -/
def joinTimer (e : Env) (r : Slot) : HoldTimer :=
  match r.suspension with
  | some s => if s.disposition = .freeze then .frozen e.tables.holdLimitMs else .running ⟨e.clock, e.tables.holdLimitMs⟩
  | none => .running ⟨e.clock, e.tables.holdLimitMs⟩

/-- The hold entry of an arriving command (Table 3-2). -/
def newEntry (e : Env) (f : CommandFrame) (r : Slot) : HoldEntry :=
  let opcode := f.payload.headD 0
  ⟨f.tag, e.tables.cmdClass opcode, requirementOf (e.tables.cmdClass opcode) (actionOf e.tables opcode), f.payload,
    joinTimer e r, actionOf e.tables opcode, false, false⟩

/-- The conditions of immediate forwarding (R46). -/
def forwardsAtOnce (cls : CmdClass) (req : Level) (r : Slot) : Bool :=
  r.hold.isEmpty && cls != .trap && r.mayForward req

/-- There is room for another held entry: a free pool entry, and the slot's list shorter than its limit (R47). -/
def holdRoom (e : Env) (i : SlotId) (d : Plant) : Bool :=
  d.poolUsed < Config.poolEntries && (d.slot i).hold.length < e.tables.holdListLimit i

/-- A command that has passed the arrival checks: forwarded at once (R46), held at the tail (R47), or refused HOLD_FULL. -/
def placeCommand (e : Env) (f : CommandFrame) (i : SlotId) (d : Plant) : Plant :=
  let r := d.slot i
  let h := newEntry e f r
  if forwardsAtOnce h.cls h.requirement r then d.put e i (r.forward e f.tag f.payload)
  else if holdRoom e i d then d.put e i { r with hold := r.hold ++ [h] }
  else refuseArrival f .holdFull d

/-- The arrival of a COMMAND frame (R44, R45). -/
def arrive (e : Env) (f : CommandFrame) (d : Plant) : Plant :=
  match e.tables.slotOfUnit f.unit.toNat with
  | none => refuseArrival f .noUnit d
  | some i =>
    match arrivalCheck f.tag (newEntry e f (d.slot i)).requirement (d.slot i) with
    | some disp => refuseArrival f disp d
    | none => placeCommand e f i d

/-! ### Completions and hold timers (R59, R61, R62) -/

/-- An outstanding entry matches a completion: its tag and its epoch (R61). -/
def OutEntry.matches (epoch tag : Byte) (o : OutEntry) : Bool := o.tag == tag && o.epoch.val == epoch.toNat

/-- A sled completion (R61, R62): a match is removed and answered DONE with the sled's status and payload, and a drain whose
last command it was ends (R18); with no match the stray completions count rises. -/
def takeCompletion (e : Env) (i : SlotId) (epoch tag status : Byte) (payload : List Byte) (d : Plant) : Plant :=
  let r := d.slot i
  if r.outstanding.any (OutEntry.matches epoch tag) then
    let d1 := d.put e i { r with outstanding := r.outstanding.eraseP (OutEntry.matches epoch tag) }
    drainDone e i (answer e i tag .done status payload d1)
  else d.put e i { r with strays := satInc r.strays }

/-- The held entry with a tag has a hold timer that is due (R59). -/
def Slot.holdDue (now : Clock) (tag : Byte) (r : Slot) : Bool := r.hold.any (fun h => h.tag == tag && h.timer.due now)

/-- The hold timer of an entry expires: the entry is answered HOLD_EXPIRED and removed, head or not (R59). -/
def expireHeld (e : Env) (i : SlotId) (tag : Byte) (d : Plant) : Plant :=
  answerHeld e i .holdExpired (fun h => h.tag == tag && h.timer.due e.clock) d

end Sys2Proof.Machine
end

