-- ==== Sys2Proof/Machine/Emergency.lean ====
section
/-! DEFINITION. The emergency park logic: the record, the parking pass, further sources, the phase, the clear and the settle
timer (R148 to R161); and the response of the whole plant to an event. -/

namespace Sys2Proof.Machine

/-- A source is in a set. -/
def SourceSet.has (q : SourceSet) : EmgSource → Bool
  | .fall => q.fall | .jolt => q.jolt | .power => q.power | .panic => q.panic

/-- A source is added to a set. -/
def SourceSet.add (q : SourceSet) : EmgSource → SourceSet
  | .fall => { q with fall := true }
  | .jolt => { q with jolt := true }
  | .power => { q with power := true }
  | .panic => { q with panic := true }

/-- The source that an entry into a class is, if the class's row has its emergency flag set (R149). -/
def classSource (t : Tables) (c : MotionClass) : Option EmgSource :=
  match c with
  | .jolt => if t.emergencyFlag .jolt then some .jolt else none
  | .fall => if t.emergencyFlag .fall then some .fall else none
  | .still | .poised | .rolling | .tilted => none

/-- A source condition is present: the class in force is JOLT or FALL with its flag set, or the power state is HOLDUP
(R149). -/
def sourcePresent (e : Env) (d : Plant) : Bool := (classSource e.tables e.cls).isSome || d.budget.powerState = .holdup

/-- The phase is examined (R155): with no slot in UNLOADING under mark EMERGENCY it becomes PARKED, and EMERGENCY_PARKED is
recorded with the sources and the milliseconds since the first time. -/
def examinePhase (e : Env) (d : Plant) : Plant :=
  if d.emg.phase = some .parking && allSlots.all (fun i => !(d.slot i).parking) then
    Plant.record e.clock (.emergencyParked d.emg.sources (elapsed (d.emg.firstTime.getD e.clock) e.clock))
      { d with emg := { d.emg with phase := some .parked } }
  else d

/-- The conditions of the settle timer (R157). -/
def settleHolds (e : Env) (d : Plant) : Bool :=
  d.emg.latched && d.emg.phase = some .parked && !sourcePresent e d && e.tables.autoClear

/-- The settle timer starts when its conditions become true and becomes idle when any fails (R157). -/
def refreshSettle (e : Env) (d : Plant) : Plant :=
  if settleHolds e d then
    match d.emg.settle with
    | some _ => d
    | none => { d with emg := { d.emg with settle := some ⟨e.clock, e.tables.settleMs⟩ } }
  else { d with emg := { d.emg with settle := none } }

/-- The response of the plant to what an event has done to it: the budget unit and the arbiter, the heads of the hold lists,
the budget unit again for what the heads asked, the heads again where that response moved a slot, the phase of an emergency,
and the settle timer (log 7, 9, 13). That the budget unit responds before the heads is the model's choice (log 35). -/
def react (e : Env) (d : Plant) : Plant :=
  refreshSettle e (examinePhase e (serveHeads e (budgetReact e (serveHeads e (budgetReact e d)))))

/-- The slot is one that the parking pass parks (Table 8-2). -/
def Slot.toBeParked (r : Slot) : Bool := r.headsOut && !(r.state = .unloading && r.unloadMark = .fault)

/-- One slot of the parking pass (R151): EMERGENCY_UNLOAD is issued, the slot is in UNLOADING with mark EMERGENCY, its
outstanding entries are aborted ABORTED_EMERGENCY, and the head of its hold list is examined. The fall of the outstanding
count is taken in the state that the pass leaves (R64), so that a countdown which keeps its time through it (R82) does not
resume. -/
def parkSlot (e : Env) (d : Plant) (i : SlotId) : Plant :=
  if (d.slot i).toBeParked then
    serveHead e i (abort e i .abortedEmergency (d.put e i ((d.slot i).toUnloading e i .emergencyUnload .emergency)))
  else d

/-- The emergency cap is written into every slot, ascending (R153). -/
def writeEmergencyCaps (e : Env) (cap : EmergencyCap) (d : Plant) : Plant := allSlots.foldl (writeEmergencyCap e cap) d

/-- The cap of a first source: STOP for POWER, SPIN otherwise (R150). -/
def sourceCap (q : EmgSource) : EmergencyCap := if q = .power then .stop else .spin

/-- The number of slots the parking pass parks. -/
def Plant.parkCount (d : Plant) : Nat := (allSlots.filter (fun i => (d.slot i).toBeParked)).length

/-- A first source (R150): the latch is set, the slots are parked, the cap is written into every slot, the phase is PARKING,
EMERGENCY_BEGAN is recorded, and the phase is examined. -/
def latchEmergency (e : Env) (q : EmgSource) (d : Plant) : Plant :=
  let n := d.parkCount
  let d1 := { d with emg := { d.emg with
    latched := true, sources := SourceSet.empty.add q, firstSource := some q, firstTime := some e.clock } }
  let d2 := allSlots.foldl (parkSlot e) d1
  let d3 := writeEmergencyCaps e (sourceCap q) { d2 with emg := { d2.emg with cap := sourceCap q } }
  examinePhase e (Plant.record e.clock (.emergencyBegan q n) { d3 with emg := { d3.emg with phase := some .parking } })

/-- A further source (R154): one not in the set is added and recorded with the cap after the addition; POWER under cap SPIN
makes the cap STOP, which is written into every slot. One already in the set leaves the record as it is. -/
def addSource (e : Env) (q : EmgSource) (d : Plant) : Plant :=
  if d.emg.sources.has q then d
  else
    let lowers := q = .power && d.emg.cap = .spin
    let cap := if lowers then .stop else d.emg.cap
    let d1 := Plant.record e.clock (.emergencySourceAdded q cap)
      { d with emg := { d.emg with sources := d.emg.sources.add q, cap := cap } }
    if lowers then writeEmergencyCaps e .stop d1 else d1

/-- A source is taken (R149): a first source with the latch clear, a further source with it set. -/
def takeSource (e : Env) (q : EmgSource) (d : Plant) : Plant :=
  if d.emg.latched then addSource e q d else latchEmergency e q d

/-- The latch clears (R156): cap none is written into every slot, EMERGENCY_CLEARED is recorded with the sources as they
stood, and the record is emptied. The serving pass that follows is the plant's response. -/
def clearLatch (e : Env) (cause : ClearCause) (d : Plant) : Plant :=
  let d1 := writeEmergencyCaps e .none { d with emg := { d.emg with cap := .none } }
  let d2 := d1.record e.clock (.emergencyCleared cause d.emg.sources)
  { d2 with emg := Emergency.reset }

end Sys2Proof.Machine
end

