-- ==== Sys2Proof/Machine/Transit.lean ====
section
/-! DEFINITION. The transit controller and the class change: the application of the policy (R132, R133), the exposure
counts (R128) and the taking of a class change by the two blocks that act on it (R127, R145). -/

namespace Sys2Proof.Machine

/-- Step 2 of an application for one slot whose new disposition is already written (R132; R136, R139, R140, R141): the
entry's cap is compared with the requested level, and the suspension begins, continues, or ends by cap rise. -/
def Slot.settleForCap (e : Env) (cap : Level) (r : Slot) : Slot :=
  if r.outOfService then r
  else if cap.below r.requested then
    match r.suspension with
    | none => r.suspend e
    | some rec => r.resuspend e rec
  else
    match r.suspension with
    | none => r
    | some _ => r.endByCapRise e

/-- The application of the policy to one slot (R132): the disposition, the suspension, the REFUSE sweep (R134), and the cap.
The head rules follow as the application leaves the slot (R65, R134; log 10). -/
def applyPolicy (e : Env) (i : SlotId) (d : Plant) : Plant :=
  let cap := e.tables.policyCap e.cls (e.tables.group i)
  let disp := e.tables.policyDisposition e.cls (e.tables.group i)
  let d1 := d.put e i (Slot.settleForCap e cap { d.slot i with transitDisposition := disp })
  let d2 := if disp = .refuse then refuseSweep e i cap d1 else d1
  writeTransitCap e i cap d2

/-- The application at one slot, with the head rules against the slot as it leaves it, and then the response of the budget unit
before the next slot is taken (log 35). -/
def applyPolicyAt (e : Env) (d : Plant) (i : SlotId) : Plant := budgetReact e (serveHead e i (applyPolicy e i d))

/-- The row of the class in force is applied to the sixteen slots in ascending slot number (R132, R133). -/
def applyPolicyAll (e : Env) (d : Plant) : Plant := react e (allSlots.foldl (applyPolicyAt e) d)

/-- A change of class is a rise into JOLT or FALL (R128). -/
def riseInto (old new : MotionClass) : Bool := (new = .jolt || new = .fall) && old.severity < new.severity

/-- The exposure count of each slot whose heads may be out is incremented (R128). -/
def countExposure (e : Env) (d : Plant) (i : SlotId) : Plant :=
  if (d.slot i).headsOut then d.put e i { d.slot i with exposures := satInc (d.slot i).exposures } else d

/-- The exposure counts at a rise (R128). -/
def countExposures (e : Env) (old new : MotionClass) (d : Plant) : Plant :=
  if riseInto old new then allSlots.foldl (countExposure e) d else d

/-- The emergency park logic takes a change into the class in force (R149). -/
def emergencyTakesClass (e : Env) (d : Plant) : Plant :=
  match classSource e.tables e.cls with
  | some q => react e (takeSource e q d)
  | none => react e d

/-- The plant takes a class change (R127): CLASS_CHANGED is recorded, exposures are counted, and the transit controller and
the emergency park logic take the change, in either order (R145). The class in force is already the new one. -/
def takeClassChange (e : Env) (transitFirst : Bool) (old : MotionClass) (sensor : SensorState) (d : Plant) : Plant :=
  let d1 := countExposures e old e.cls (d.record e.clock (.classChanged old e.cls sensor))
  if transitFirst then emergencyTakesClass e (applyPolicyAll e d1) else applyPolicyAll e (emergencyTakesClass e d1)

/-- The budget unit takes a change of the budget (R101, R106, R111). -/
def budgetTakes (e : Env) (new : Nat) (d : Plant) : Plant := react e (changeBudget e new d)

/-- The emergency park logic takes a change of the power state: into HOLDUP it is the source POWER (R149). -/
def emergencyTakesPower (e : Env) (d : Plant) : Plant :=
  if d.budget.powerState = .holdup then react e (takeSource e .power d) else react e d

/-- The plant takes a change of the power state (R100, R101, R112): POWER_CHANGED is recorded, and the budget unit and the
emergency park logic take the change, in either order. -/
def takePowerChange (e : Env) (budgetFirst : Bool) (new : PowerState) (d : Plant) : Plant :=
  let d1 := Plant.record e.clock (.powerChanged d.budget.powerState new)
    { d with budget := { d.budget with powerState := new } }
  let amount := e.tables.budgetOf new
  if budgetFirst then emergencyTakesPower e (budgetTakes e amount d1) else budgetTakes e amount (emergencyTakesPower e d1)

end Sys2Proof.Machine
end

