-- ==== Sys2Proof/Machine/Monitor.lean ====
section
/-! DEFINITION. The motion monitor: samples and the window, the sensor state, the switches, the five conditions and the
motion class (R115 to R130). -/

namespace Sys2Proof.Machine

/-! ### Derived values of a sample (R117) -/

/-- Square root rounded down, bit by bit from the given number of bits. -/
def isqrtFrom (n : Nat) : Nat → Nat → Nat
  | 0, acc => acc
  | b + 1, acc => if (acc + 2 ^ b) * (acc + 2 ^ b) ≤ n then isqrtFrom n b (acc + 2 ^ b) else isqrtFrom n b acc

/-- The magnitude of three axis values in whole milli-g; at most 27712, so fifteen bits suffice (R117). -/
def magnitudeOf (x y z : Int) : Nat := isqrtFrom (x * x + y * y + z * z).toNat 15 0

/-- The deviation: the absolute value of the magnitude minus 1000 (R117). -/
def deviationOf (magnitude : Nat) : Nat := ((magnitude : Int) - 1000).natAbs

/-- A sample with its derived values (R117). -/
def sampleOf (x y z : Word16) : Sample :=
  let m := magnitudeOf x.toInt y.toInt z.toInt
  ⟨x.toInt, y.toInt, z.toInt, m, deviationOf m⟩

/-- The axis values of a good sample lie within -16000 to +16000 mg (R116). -/
def axisInRange (a : Word16) : Bool := -16000 ≤ a.toInt && a.toInt ≤ 16000

/-! ### Conditions -/

/-- A condition whose assertion and release both take time (TILTED, FALL), examined at a good sample (R123, R125). -/
def Condition.examineHeld (now : Clock) (assertMs releaseMs : Nat) (holds : Bool) (c : Condition) : Condition :=
  if c.asserted then
    if holds then { c with releaseTimer := none }
    else match c.releaseTimer with
      | none => { c with releaseTimer := some ⟨now, releaseMs⟩ }
      | some _ => c
  else
    if holds then match c.assertTimer with
      | none => { c with assertTimer := some ⟨now, assertMs⟩ }
      | some _ => c
    else { c with assertTimer := none }

/-- A condition asserted at once and released after a time (POISED, ROLLING), evaluated against its criterion (R121,
R122). -/
def Condition.examineAtOnce (now : Clock) (releaseMs : Nat) (holds : Bool) (c : Condition) : Condition :=
  if holds then ⟨true, none, none⟩
  else if c.asserted then
    match c.releaseTimer with
    | none => { c with releaseTimer := some ⟨now, releaseMs⟩ }
    | some _ => c
  else c

/-- JOLT at a good sample (R124): a sample that meets the criterion asserts it and starts the hold timer afresh. -/
def Condition.examineJolt (now : Clock) (holdMs : Nat) (holds : Bool) (c : Condition) : Condition :=
  if holds then ⟨true, none, some ⟨now, holdMs⟩⟩ else c

/-- The assertion timer of a condition expires. -/
def Condition.assertNow (_c : Condition) : Condition := ⟨true, none, none⟩

/-- The release or hold timer of a condition expires. -/
def Condition.release (_c : Condition) : Condition := ⟨false, none, none⟩

/-- The timers of a condition are cancelled and it keeps its state (R118, R126). -/
def Condition.cancelTimers (c : Condition) : Condition := ⟨c.asserted, none, none⟩

/-- The criterion of ROLLING over a window (R122). -/
def rollingHolds (t : Tables) (w : List Sample) : Bool :=
  t.rollingCount ≤ (w.filter (fun q => t.rollingThreshold < q.deviation)).length

/-- The criterion of POISED (R121). -/
def Monitor.poisedHolds (t : Tables) (m : Monitor) : Bool := m.handle.value || (m.brake.value && t.brakeInUse)

/-- POISED is evaluated at a change of a filtered switch value and at a commit (R121). -/
def Monitor.examinePoised (t : Tables) (now : Clock) (m : Monitor) : Monitor :=
  { m with poised := m.poised.examineAtOnce now t.poisedSettleMs (m.poisedHolds t) }

/-! ### A good sample (R116) -/

/-- Step 1: the sensor timer is restarted, and in LOST the window is emptied and a restoration begins (R118, R119). -/
def Monitor.sampleArrives (t : Tables) (now : Clock) (m : Monitor) : Monitor :=
  let m1 := { m with sensorTimer := some ⟨now, t.sensorMs⟩, rxPartial := none }
  if m.sensor = .lost then { m1 with window := [], sensor := .filling, restoring := true } else m1

/-- Step 2: the sample joins the window, which keeps the last 32 (R117). -/
def Monitor.joinWindow (q : Sample) (m : Monitor) : Monitor :=
  { m with window := (m.window ++ [q]).drop (m.window.length + 1 - Config.windowSamples) }

/-- The window has filled: step 3 makes the sensor state OK (R119). -/
def Monitor.fills (m : Monitor) : Bool := m.sensor = .filling && Config.windowSamples ≤ m.window.length

/-- Step 3 (R119). -/
def Monitor.windowFilled (m : Monitor) : Monitor := if m.fills then { m with sensor := .ok, restoring := false } else m

/-- Step 4: ROLLING, TILTED, JOLT and FALL are examined against the sample and the window (R122 to R125). -/
def Monitor.examineConditions (t : Tables) (now : Clock) (q : Sample) (m : Monitor) : Monitor :=
  { m with
    rolling := m.rolling.examineAtOnce now t.rollingSettleMs (rollingHolds t m.window)
    tilted := m.tilted.examineHeld now t.tiltMs t.tiltSettleMs (q.z < (t.tiltThreshold : Int))
    jolt := m.jolt.examineJolt now t.joltHoldMs (t.shock < q.deviation)
    fall := m.fall.examineHeld now t.fallMs t.rollingSettleMs (q.magnitude < t.fallThreshold) }

/-- The sensor timer expires (R118, R126): LOST, the timer stopped, the timers of ROLLING, TILTED and FALL cancelled. -/
def Monitor.lose (m : Monitor) : Monitor :=
  { m with
    sensor := .lost, sensorTimer := none
    rolling := m.rolling.cancelTimers, tilted := m.tilted.cancelTimers, fall := m.fall.cancelTimers }

/-! ### The motion class (R127) -/

/-- The classifier's class: the most severe asserted condition (R127). -/
def Monitor.classifier (m : Monitor) : MotionClass :=
  if m.fall.asserted then .fall
  else if m.jolt.asserted then .jolt
  else if m.tilted.asserted then .tilted
  else if m.rolling.asserted then .rolling
  else if m.poised.asserted then .poised
  else .still

/-- The motion class by sensor state (Table 6-3). -/
def Monitor.derivedClass (t : Tables) (m : Monitor) : MotionClass :=
  match m.sensor with
  | .ok => m.classifier
  | .filling | .lost => t.blindClass.worse m.classifier

/-! ### The state as the blocks read it, and the class change -/

/-- What the blocks of the plant read (clock, tables, class in force): every block has taken the tables. -/
def State.env (s : State) : Env := ⟨s.clock, s.tables, s.monitor.cls, none⟩

/-- An operation of the plant, with the case link settled after it (R178, R179). -/
def State.onPlant (f : Env → Plant → Plant) (s : State) : State := { s with plant := (f s.env s.plant).settleLink }

/-- An operation of the motion monitor alone. -/
def State.onMonitor (f : Monitor → Monitor) (s : State) : State := { s with monitor := f s.monitor }

/-- A record for the event list. -/
def State.record (ev : Event) (s : State) : State := s.onPlant (fun e d => d.record e.clock ev)

/-- One use of the free value: the counter advances (log 3). -/
def State.useFree (s : State) : State := { s with freeCount := s.freeCount + 1 }

/-- The class becomes a new one and the plant takes the change (R127). -/
def State.changeClass (transitFirst : Bool) (new : MotionClass) (s : State) : State :=
  State.onPlant (fun e => takeClassChange e transitFirst s.monitor.cls s.monitor.sensor)
    (s.onMonitor (fun m => { m with cls := new }))

/-- The motion class is derived (R127): the class it had changes nothing, and another class is taken, the order of the two
blocks that take it being the free value (log 3). -/
def State.deriveClass (s : State) : State :=
  let new := s.monitor.derivedClass s.tables
  if new = s.monitor.cls then s else State.changeClass (Config.freeOrder s.freeCount) new s.useFree

/-! ### Filtered inputs (R99, R120) -/

/-- A change of an input's level starts, restarts or, when it undoes the change, stops its filter; a level the input already
has is no change (log 18). -/
def LineFilter.edge (now : Clock) (ms : Nat) (level : Bool) (f : LineFilter) : LineFilter :=
  if level = f.level then f
  else { f with level := level, timer := if level = f.value then none else some ⟨now, ms⟩ }

/-- The filter expires: the filtered value takes the level (R99, R120). -/
def LineFilter.expire (f : LineFilter) : LineFilter := ⟨f.level, f.level, none⟩

/-- The filter of a switch. -/
def Monitor.switch (m : Monitor) : SwitchInput → LineFilter
  | .handle => m.handle | .brake => m.brake

/-- The monitor with a switch's filter replaced. -/
def Monitor.setSwitch (m : Monitor) (sw : SwitchInput) (f : LineFilter) : Monitor :=
  match sw with
  | .handle => { m with handle := f }
  | .brake => { m with brake := f }

/-! ### Meanings -/

/-- SAMPLE (R116): a sample whose axis values are out of range is not good and is discarded (log 16); a good one is taken
whole in the five steps of R116. -/
def execSample (x y z : Word16) (s : State) : Host.Outcome State Fault Refusal :=
  if axisInRange x && axisInRange y && axisInRange z then
    let q := sampleOf x y z
    let s1 := s.onMonitor (fun m => (m.sampleArrives s.tables s.clock).joinWindow q)
    let s2 := if s1.monitor.fills && s1.monitor.restoring then s1.record .sensorRestored else s1
    .next (s2.onMonitor (fun m => m.windowFilled.examineConditions s.tables s.clock q)).deriveClass
  else .next (s.onMonitor (fun m => { m with rxPartial := none }))

/-- SAMPLE_DISCARDED (R116): a sample that is not good changes nothing; the receiver takes the next sample start. -/
def execSampleDiscarded (s : State) : Host.Outcome State Fault Refusal :=
  .next (s.onMonitor (fun m => { m with rxPartial := none }))

/-- SENSOR_TIMEOUT (R118): the state becomes LOST and SENSOR_LOST is recorded with the state left. -/
def execSensorTimeout (s : State) : Host.Outcome State Fault Refusal :=
  if s.monitor.sensor ≠ .lost ∧ dueOpt s.monitor.sensorTimer s.clock = true then
    .next ((s.record (.sensorLost s.monitor.sensor)).onMonitor Monitor.lose).deriveClass
  else .next s

/-- SWITCH_EDGE (R120). -/
def execSwitchEdge (switch : SwitchInput) (level : Bool) (s : State) : Host.Outcome State Fault Refusal :=
  .next (s.onMonitor (fun m => m.setSwitch switch ((m.switch switch).edge s.clock Config.switchMs level)))

/-- SWITCH_FILTER_EXPIRY (R120, R121): the filtered value changes and POISED is evaluated. -/
def execSwitchFilterExpiry (switch : SwitchInput) (s : State) : Host.Outcome State Fault Refusal :=
  if dueOpt (s.monitor.switch switch).timer s.clock then
    .next (s.onMonitor (fun m =>
      (m.setSwitch switch (m.switch switch).expire).examinePoised s.tables s.clock)).deriveClass
  else .next s

/-- POISED_RELEASE_EXPIRY (R121). -/
def execPoisedReleaseExpiry (s : State) : Host.Outcome State Fault Refusal :=
  if dueOpt s.monitor.poised.releaseTimer s.clock then
    .next (s.onMonitor (fun m => { m with poised := m.poised.release })).deriveClass
  else .next s

/-- ROLLING_RELEASE_EXPIRY (R122). -/
def execRollingReleaseExpiry (s : State) : Host.Outcome State Fault Refusal :=
  if dueOpt s.monitor.rolling.releaseTimer s.clock then
    .next (s.onMonitor (fun m => { m with rolling := m.rolling.release })).deriveClass
  else .next s

/-- TILTED_ASSERTION_EXPIRY (R123). -/
def execTiltedAssertionExpiry (s : State) : Host.Outcome State Fault Refusal :=
  if dueOpt s.monitor.tilted.assertTimer s.clock then
    .next (s.onMonitor (fun m => { m with tilted := m.tilted.assertNow })).deriveClass
  else .next s

/-- TILTED_RELEASE_EXPIRY (R123). -/
def execTiltedReleaseExpiry (s : State) : Host.Outcome State Fault Refusal :=
  if dueOpt s.monitor.tilted.releaseTimer s.clock then
    .next (s.onMonitor (fun m => { m with tilted := m.tilted.release })).deriveClass
  else .next s

/-- JOLT_HOLD_EXPIRY (R124). -/
def execJoltHoldExpiry (s : State) : Host.Outcome State Fault Refusal :=
  if dueOpt s.monitor.jolt.releaseTimer s.clock then
    .next (s.onMonitor (fun m => { m with jolt := m.jolt.release })).deriveClass
  else .next s

/-- FALL_ASSERTION_EXPIRY (R125). -/
def execFallAssertionExpiry (s : State) : Host.Outcome State Fault Refusal :=
  if dueOpt s.monitor.fall.assertTimer s.clock then
    .next (s.onMonitor (fun m => { m with fall := m.fall.assertNow })).deriveClass
  else .next s

/-- FALL_RELEASE_EXPIRY (R125). -/
def execFallReleaseExpiry (s : State) : Host.Outcome State Fault Refusal :=
  if dueOpt s.monitor.fall.releaseTimer s.clock then
    .next (s.onMonitor (fun m => { m with fall := m.fall.release })).deriveClass
  else .next s

end Sys2Proof.Machine
end

