-- ==== Sys2Proof/Machine/Formats.lean ====
section
/-! DEFINITION. Byte layouts (11): event records, the data of UNIT_QUERY, UNIT_STATUS and SLOT_STATUS, and the frames on the
wire. -/

namespace Sys2Proof.Machine

/-! ### Event records (Table 11-8) -/

/-- Kind code of an event. -/
def Event.kindCode : Event → Byte
  | .sledInserted _ => 1 | .sledRemoved _ _ => 2 | .slotFaulted _ _ _ => 3 | .slotRecovered _ => 4
  | .classChanged _ _ _ => 5 | .sensorLost _ => 6 | .sensorRestored => 7 | .powerChanged _ _ => 8
  | .shedBegan _ _ => 9 | .shedEnded _ => 10 | .emergencyBegan _ _ => 11 | .emergencySourceAdded _ _ => 12
  | .emergencyParked _ _ => 13 | .emergencyCleared _ _ => 14 | .drainAborted _ _ => 15 | .tableCommitted _ _ _ => 16

/-- Slot byte of an event: 0xFF for kinds without a slot. -/
def Event.slotByte : Event → Byte
  | .sledInserted i | .sledRemoved i _ | .slotFaulted i _ _ | .slotRecovered i | .drainAborted i _ => byteOf i.val
  | .classChanged _ _ _ | .sensorLost _ | .sensorRestored | .powerChanged _ _ | .shedBegan _ _ | .shedEnded _
  | .emergencyBegan _ _ | .emergencySourceAdded _ _ | .emergencyParked _ _ | .emergencyCleared _ _
  | .tableCommitted _ _ _ => 0xFF

/-- Detail bytes of an event, before padding (11 section 11.4). -/
def Event.detail : Event → List Byte
  | .sledInserted _ => []
  | .sledRemoved _ left => [left.code]
  | .slotFaulted _ reason code => [reason.code, code]
  | .slotRecovered _ => []
  | .classChanged old new sensor => [old.code, new.code, sensor.code]
  | .sensorLost left => [left.code]
  | .sensorRestored => []
  | .powerChanged old new => [old.code, new.code]
  | .shedBegan budget committed => be16 budget ++ be16 committed
  | .shedEnded committed => be16 committed
  | .emergencyBegan source parked => [source.code, byteOf parked]
  | .emergencySourceAdded source cap => [source.code, cap.code]
  | .emergencyParked sources ms => sources.byte :: be32 ms
  | .emergencyCleared cause sources => [cause.code, sources.byte]
  | .drainAborted _ count => [byteOf count]
  | .tableCommitted table start stop => [table.code, byteOf start, byteOf stop]

/-- The 12 bytes of a record: time, kind, slot, six detail bytes, the unused ones 0 (Table 11-8, R189). -/
def EventRecord.bytes (r : EventRecord) : List Byte :=
  be32 r.time.toNat ++ [r.event.kindCode, r.event.slotByte] ++ (r.event.detail ++ List.replicate 6 0).take 6

/-! ### Status data -/

/-- UNIT_QUERY data: part code, revision, capacities (Table 11-4, R185). -/
def queryData : List Byte :=
  be16 Config.partCode.toNat ++
    [byteOf Config.revision, 16, 16, byteOf Config.poolEntries, byteOf Config.maxHoldLimit, byteOf Config.outstandingMax,
     byteOf Config.queueEntries, byteOf Config.eventRecords, byteOf Config.stagingBytes, 8, 8, 4]

/-- A source that may be absent: 0xFF absent. -/
def sourceByte : Option EmgSource → Byte
  | some q => q.code | none => 0xFF

/-- A clock value that may be absent: 0 absent. -/
def clockBytes : Option Clock → List Byte
  | some c => be32 c.toNat | none => be32 0

/-- The sixteen start queue bytes, oldest first, unused bytes 0xFF (Table 11-5). -/
def queueBytes (q : List SlotId) : List Byte := (q.map (fun (i : SlotId) => byteOf i.val) ++ List.replicate 16 (0xFF : Byte)).take 16

/-- UNIT_STATUS data (Table 11-5, R186). The free count is counted after the reply has been appended. -/
def unitStatusData (s : State) : List Byte :=
  let d := s.plant
  [d.budget.powerState.code] ++ be16 d.budget.budget ++ be16 d.budget.committed ++
  [yesNo d.budget.shed, s.monitor.cls.code, s.monitor.sensor.code, yesNo d.emg.latched, d.emg.sources.byte,
   sourceByte d.emg.firstSource] ++ clockBytes d.emg.firstTime ++ [phaseCode d.emg.phase, d.emg.cap.code] ++
  be32 (leftOpt d.emg.settle s.clock) ++ [yesNo d.arb.hold, byteOf d.arb.queue.length] ++ queueBytes d.arb.queue ++
  [byteOf d.arb.lastGranted.val] ++ be16 (leftOpt d.arb.stagger s.clock) ++
  [byteOf d.poolUsed, byteOf (d.free - 1)] ++ be32 s.clock.toNat ++ [yesNo d.link.linkError]

/-- Timer condition code of a countdown (Table 11-2). -/
def Countdown.condition : Countdown → Byte
  | .idle => 0 | .running _ => 1 | .frozen _ => 2

/-- Time left of a countdown (R79). -/
def Countdown.left (now : Clock) : Countdown → Nat
  | .idle => 0 | .running t => t.left now | .frozen r => r

/-- The order in flight in SLOT_STATUS: kind, flag, number, time left, with the absent indications (Table 11-6);
the flag of an absent order is 0 (log 33). -/
def orderBytes (now : Clock) : Option OrderInFlight → List Byte
  | some o => [o.kind.code, o.kind.flag, byteOf o.number.val] ++ be32 (o.timer.left now)
  | none => [0, 0, 0xFF] ++ be32 0

/-- The suspension record in SLOT_STATUS, offsets 46 to 61: all 0 when absent (Table 11-6). -/
def suspensionBytes : Option Suspension → List Byte
  | some q => [1, q.cls.code] ++ be32 q.began.toNat ++ [q.level.code] ++ be32 (q.unloadRem.getD 0) ++
      be32 (q.stopRem.getD 0) ++ [yesNo (q.disposition = .freeze)]
  | none => List.replicate 16 0

/-- The available level's code: 0xFF for none. -/
def availableByte (r : Slot) : Byte :=
  match r.available with
  | some l => l.code
  | none => 0xFF

/-- The fault reason's code: 0 for absent. -/
def reasonByte : Option FaultReason → Byte
  | some q => q.code | none => 0

/-- SLOT_STATUS, section RECORD (Table 11-6). -/
def slotRecordData (e : Env) (i : SlotId) (r : Slot) : List Byte :=
  [byteOf i.val, r.state.code, r.requested.code, yesNo r.pinned, r.transitCap.code, r.budgetCap.code, r.emergencyCap.code,
   r.effective.code, availableByte r, byteOf (r.draw e.tables i), yesNo r.draining] ++ be16 (leftOpt r.drainTimer e.clock) ++
  [r.unloadMark.code, yesNo r.unloadReissued, reasonByte r.faultReason, r.sledCode.getD 0, byteOf r.lane.spinAttempts,
   byteOf r.lane.loadAttempts, byteOf r.epoch.val, byteOf r.outstanding.length, byteOf r.hold.length,
   r.idleUnload.condition] ++ be32 (r.idleUnload.left e.clock) ++ [r.idleStop.condition] ++
  be32 (r.idleStop.left e.clock) ++ be16 (leftOpt r.dwell e.clock) ++ orderBytes e.clock r.lane.inFlight ++
  be16 r.exposures ++ be16 r.strays ++ [r.transitDisposition.code] ++ suspensionBytes r.suspension

/-- An outstanding entry in SLOT_STATUS: tag and the low 16 bits of its forwarding time (Table 11-7). -/
def OutEntry.bytes (o : OutEntry) : List Byte := o.tag :: be16 o.time.toNat

/-- The hold timer shows frozen. -/
def HoldTimer.isFrozen : HoldTimer → Bool
  | .frozen _ => true | .running _ => false

/-- A held entry in SLOT_STATUS (Table 11-7). -/
def HoldEntry.bytes (now : Clock) (h : HoldEntry) : List Byte :=
  [h.tag, byteOf (h.cls.code.toNat + 4 * (trapActionCode h.action).toNat + 32 * h.emulating.toNat
    + 64 * h.timer.isFrozen.toNat)] ++ be16 (h.timer.left now)

/-- SLOT_STATUS, section ENTRIES (Table 11-7). -/
def slotEntriesData (e : Env) (i : SlotId) (r : Slot) : List Byte :=
  [byteOf i.val, byteOf (16 * r.outstanding.length + r.hold.length)] ++ r.outstanding.flatMap OutEntry.bytes ++
    r.hold.flatMap (HoldEntry.bytes e.clock)

/-! ### Frames on the wire (Tables 11-1 and 11-9) -/

/-- A frame: header, payload and check (10 section 10.1, R188). -/
def wireFrame (kind unit tag flags : Byte) (payload : List Byte) : List Byte :=
  let body := [kind, unit, tag, flags, byteOf payload.length] ++ payload
  body ++ be16 (check16 body).toNat

/-- Kind code of an upstream frame. -/
def UpKind.code : UpKind → Byte
  | .completion => 0x81 | .unitReply => 0x82 | .attention => 0x83

/-- The bytes of an upstream frame with the flags byte written at the start of its transmission (R178). -/
def UpFrame.wire (flags : Byte) (f : UpFrame) : List Byte := wireFrame f.kind.code f.unit f.tag flags f.payload

/-- The bytes of a part-to-sled frame (Table 11-9): unit byte 0, flags byte reserved. -/
def LaneFrame.wire : LaneFrame → List Byte
  | .order kind number => wireFrame 0x10 0 0 0 [kind.code, byteOf number.val, kind.flag]
  | .command epoch tag payload => wireFrame 0x11 0 tag 0 (byteOf epoch.val :: payload)

end Sys2Proof.Machine
end

