-- ==== Sys2Proof/Machine/Requests.lean ====
section
/-! DEFINITION. Unit requests: the checks every request passes (R180), the reply, and the meanings of the status, motion,
arbiter, emergency and exposure requests. -/

namespace Sys2Proof.Machine

/-- What the owner of a request gives: the state it leaves, the status and the reply data. -/
structure Answered where
  state : State
  status : UnitStatus
  data : List Byte
  deriving DecidableEq, Repr

/-- A UNIT_REPLY is appended to the upstream queue (R180), and the ready line settled (R179). -/
def State.reply (tag code : Byte) (st : UnitStatus) (data : List Byte) (s : State) : State :=
  s.onPlant (fun _ d => d.push (replyFrame tag code st data))

/-- The case link's own state is changed. -/
def State.onLink (f : Link → Link) (s : State) : State := { s with plant := { s.plant with link := f s.plant.link } }

/-- The frame that ends can have begun with the ready line high (R179; log 6). -/
def State.mayAccept (s : State) : Bool := Config.acceptFree ≤ s.plant.free

/-- An accepted UNIT_REQUEST with a known code (R180): a wrong payload length is refused BAD_LENGTH; otherwise the owner
takes it whole, and the UNIT_REPLY follows what the request gives; that it follows an ATTENTION frame too which the request
itself raises is the model's choice (log 36). During a break nothing is received (R177); a frame that
the framer could not have accepted is discarded (R175; log 6, log 16). -/
def takeRequest (code : Byte) (lengthOk : Nat → Bool) (r : Request) (owner : State → Answered) (s : State) : State :=
  if s.plant.link.broken then s
  else if r.args.length ≤ 63 && s.mayAccept then
    let s0 := s.onLink Link.acceptFrame
    if lengthOk (r.args.length + 1) then
      let a := owner s0
      a.state.reply r.tag code a.status a.data
    else s0.reply r.tag code .badLength []
  else s.onLink Link.discardFrame

/-- The length check of a request with one payload length (Table 11-3). -/
def exactly (n : Nat) (length : Nat) : Bool := length == n

/-- UNKNOWN_REQUEST (R180): refused, with the code as received. -/
def execUnknownRequest (code : Byte) (r : Request) (s : State) : Host.Outcome State Fault Refusal :=
  .next (takeRequest code (fun _ => true) r (fun s => ⟨s, .unknownRequest, []⟩) s)

/-- UNIT_QUERY (R185). -/
def execUnitQuery (r : Request) (s : State) : Host.Outcome State Fault Refusal :=
  .next (takeRequest 0x01 (exactly 1) r (fun s => ⟨s, .ok, queryData⟩) s)

/-- UNIT_STATUS (R186, R176): the reply carries the link-error flag as it stood, and the flag is then cleared (log 12). -/
def execUnitStatus (r : Request) (s : State) : Host.Outcome State Fault Refusal :=
  .next (takeRequest 0x02 (exactly 1) r
    (fun s => ⟨s.onLink (fun l => { l with linkError := false }), .ok, unitStatusData s⟩) s)

/-- SLOT_STATUS (R187): section 0 RECORD, 1 ENTRIES. -/
def slotStatusAnswer (r : Request) (s : State) : Answered :=
  match slotOfNat (reqU8 r 0) with
  | none => ⟨s, .outOfRange, []⟩
  | some i =>
    match reqU8 r 1 with
    | 0 => ⟨s, .ok, slotRecordData s.env i (s.plant.slot i)⟩
    | 1 => ⟨s, .ok, slotEntriesData s.env i (s.plant.slot i)⟩
    | _ => ⟨s, .outOfRange, []⟩

/-- SLOT_STATUS (R187). -/
def execSlotStatus (r : Request) (s : State) : Host.Outcome State Fault Refusal :=
  .next (takeRequest 0x03 (exactly 3) r (slotStatusAnswer r) s)

/-- The oldest records are removed; if the list is then empty, overrun is cleared (R183). -/
def Link.readEvents (n : Nat) (l : Link) : Link :=
  { l with events := l.events.drop n, overrun := if l.events.drop n = [] then false else l.overrun }

/-- EVENT_READ (R183): overrun before the request, records left, and up to the maximum of the oldest records. -/
def eventReadAnswer (r : Request) (s : State) : Answered :=
  let n := reqU8 r 0
  let l := s.plant.link
  if within 1 n 5 then
    ⟨s.onLink (Link.readEvents n), .ok,
      [yesNo l.overrun, byteOf (l.events.drop n).length] ++ (l.events.take n).flatMap EventRecord.bytes⟩
  else ⟨s, .outOfRange, []⟩

/-- EVENT_READ (R183). -/
def execEventRead (r : Request) (s : State) : Host.Outcome State Fault Refusal :=
  .next (takeRequest 0x04 (exactly 2) r (eventReadAnswer r) s)

/-! ### MOTION (R75 to R78) -/

/-- A MOTION request contradicts a held entry (R77): its requirement exceeds the level, or it emulates toward another. -/
def contradicts (lv : Level) (h : HoldEntry) : Bool := lv.below h.requirement || (h.emulating && h.requirement != lv)

/-- MOTION at one slot in service (R76 to R78): the level and pin are written, the contradicted entries are answered
LEVEL_CHANGED, the head rules follow, and the budget unit responds before the next slot is taken (log 35). -/
def motionSlot (e : Env) (lv : Level) (keep : Bool) (i : SlotId) (d : Plant) : Plant :=
  budgetReact e (serveHead e i (answerHeld e i .levelChanged (contradicts lv) (writeRequested e i lv keep d)))

/-- MOTION at one slot of the mask; an EMPTY or FAULTED one is passed over (R76). -/
def motionAt (e : Env) (m : Word16) (lv : Level) (keep : Bool) (d : Plant) (i : SlotId) : Plant :=
  if inMask m i && !(d.slot i).outOfService then motionSlot e lv keep i d else d

/-- The slots of the mask, and whether each was EMPTY or FAULTED when the request reached it (R75). -/
def motionAll (e : Env) (m : Word16) (lv : Level) (keep : Bool) : List SlotId → Plant → Plant × List SlotId
  | [], d => (d, [])
  | i :: rest, d =>
    let next := motionAll e m lv keep rest (motionAt e m lv keep d i)
    (next.1, if inMask m i && (d.slot i).outOfService then i :: next.2 else next.2)

/-- MOTION (R75): the checks of the level and the keep flag, and the application in ascending slot order. -/
def motionAnswer (r : Request) (s : State) : Answered :=
  if !reqMaskOk r then ⟨s, .maskCheck, []⟩
  else
    match Level.ofCode (reqU8 r 4) with
    | none => ⟨s, .outOfRange, []⟩
    | some lv =>
      if 1 < reqU8 r 5 then ⟨s, .outOfRange, []⟩
      else
        let out := motionAll s.env (reqMask r) lv (reqU8 r 5 == 1) allSlots s.plant
        ⟨{ s with plant := react s.env out.1 }, .ok, be16 (maskOf out.2)⟩

/-- MOTION (R75 to R78). -/
def execMotion (r : Request) (s : State) : Host.Outcome State Fault Refusal :=
  .next (takeRequest 0x10 (exactly 7) r (motionAnswer r) s)

/-- SLOT_RECOVER (R24): the checks and the recovery. -/
def slotRecoverAnswer (r : Request) (s : State) : Answered :=
  match slotOfNat (reqU8 r 0) with
  | none => ⟨s, .outOfRange, []⟩
  | some i =>
    if (s.plant.slot i).state = .faulted then ⟨{ s with plant := react s.env (recoverSlot s.env i s.plant) }, .ok, []⟩
    else ⟨s, .notFaulted, []⟩

/-- SLOT_RECOVER (R24). -/
def execSlotRecover (r : Request) (s : State) : Host.Outcome State Fault Refusal :=
  .next (takeRequest 0x11 (exactly 2) r (slotRecoverAnswer r) s)

/-! ### Arbiter requests (R95 to R98) -/

/-- The arbiter hold is written, and the arbiter presents or withdraws its claim (R91, R95). -/
def setHold (e : Env) (hold : Bool) (d : Plant) : Plant := react e { d with arb := { d.arb with hold := hold } }

/-- START_HOLD (R95). -/
def execStartHold (r : Request) (s : State) : Host.Outcome State Fault Refusal :=
  .next (takeRequest 0x18 (exactly 1) r (fun s => ⟨{ s with plant := setHold s.env true s.plant }, .ok, []⟩) s)

/-- START_RELEASE (R95). -/
def execStartRelease (r : Request) (s : State) : Host.Outcome State Fault Refusal :=
  .next (takeRequest 0x19 (exactly 1) r (fun s => ⟨{ s with plant := setHold s.env false s.plant }, .ok, []⟩) s)

/-- START_CLEAR at one queued slot (R97): the requested level becomes STOP with the pin cleared, the held entries whose
requirement exceeds STOP are answered CLEARED, and the head rules follow. No claim is presented or served meanwhile. -/
def clearStart (e : Env) (d : Plant) (i : SlotId) : Plant :=
  serveHead e i
    (answerHeld e i .cleared (fun h => Level.below .stop h.requirement) (writeRequested e i .stop false d))

/-- START_CLEAR (R97): the queued slots in queue order, then the last-granted slot 15 and the stagger timer expired. -/
def startClearAnswer (s : State) : Answered :=
  let e := s.env
  let cleared := s.plant.arb.queue
  let d := cleared.foldl (clearStart e) s.plant
  let d1 := { d with arb := { d.arb with lastGranted := 15, stagger := none } }
  ⟨{ s with plant := react e d1 }, .ok, be16 (maskOf cleared)⟩

/-- START_CLEAR (R97). -/
def execStartClear (r : Request) (s : State) : Host.Outcome State Fault Refusal :=
  .next (takeRequest 0x1A (exactly 1) r startClearAnswer s)

/-! ### Emergency and exposure requests (R129, R156, R158) -/

/-- PANIC_PARK (R158): the source PANIC is taken. -/
def execPanicPark (r : Request) (s : State) : Host.Outcome State Fault Refusal :=
  .next (takeRequest 0x20 (exactly 1) r
    (fun s => ⟨{ s with plant := react s.env (takeSource s.env .panic s.plant) }, .ok, []⟩) s)

/-- EMERGENCY_CLEAR (R156): OK with the latch clear; NOT_PARKED while parking; SOURCE_PRESENT with a source condition
present; otherwise the latch clears. -/
def emergencyClearAnswer (s : State) : Answered :=
  if !s.plant.emg.latched then ⟨s, .ok, []⟩
  else if s.plant.emg.phase ≠ some .parked then ⟨s, .notParked, []⟩
  else if sourcePresent s.env s.plant then ⟨s, .sourcePresent, []⟩
  else ⟨{ s with plant := react s.env (clearLatch s.env .requested s.plant) }, .ok, []⟩

/-- EMERGENCY_CLEAR (R156). -/
def execEmergencyClear (r : Request) (s : State) : Host.Outcome State Fault Refusal :=
  .next (takeRequest 0x21 (exactly 1) r emergencyClearAnswer s)

/-- The exposure count of a masked slot becomes 0, whatever its state (R129). -/
def clearExposure (e : Env) (m : Word16) (d : Plant) (i : SlotId) : Plant :=
  if inMask m i then d.put e i { d.slot i with exposures := 0 } else d

/-- EXPOSURE_CLEAR (R129). -/
def exposureClearAnswer (r : Request) (s : State) : Answered :=
  if !reqMaskOk r then ⟨s, .maskCheck, []⟩
  else ⟨{ s with plant := allSlots.foldl (clearExposure s.env (reqMask r)) s.plant }, .ok, []⟩

/-- EXPOSURE_CLEAR (R129). -/
def execExposureClear (r : Request) (s : State) : Host.Outcome State Fault Refusal :=
  .next (takeRequest 0x30 (exactly 5) r (exposureClearAnswer r) s)

end Sys2Proof.Machine
end

