-- ==== Sys2Proof/Machine/TableRequests.lean ====
section
/-! DEFINITION. The table store's requests: staging, commit with its effects on the reading blocks, and reading a table
(R162 to R174). -/

namespace Sys2Proof.Machine

/-! ### The staging buffer (R164 to R167) -/

/-- End offset of the staged range (R164). -/
def Staged.stop (g : Staged) : Nat := g.start + g.data.length - 1

/-- Staging check (R164). -/
def Staged.check (g : Staged) : Word16 := check16 g.data

/-- The reply data of STAGE_WRITE: table, start, end, staging check (Table 11-4). -/
def Staged.summary (g : Staged) : List Byte :=
  [g.table.code, byteOf g.start, byteOf g.stop] ++ be16 g.check.toNat

/-- A write of checked bytes appends to the buffer when every condition of R165 holds, and otherwise replaces its contents
(R166). -/
def stageInto (id : TableId) (offset : Nat) (data : List Byte) (buffer : Option Staged) : Staged :=
  match buffer with
  | some g =>
    if g.table = id ∧ offset = g.stop + 1 ∧ g.data.length + data.length ≤ Config.stagingBytes then
      { g with data := g.data ++ data }
    else ⟨id, offset, data⟩
  | none => ⟨id, offset, data⟩

/-- A range of bytes from an offset lies within a table (R165, R174). -/
def rangeInTable (id : TableId) (offset length : Nat) : Bool := offset + length ≤ id.size

/-- STAGE_WRITE: its checks and its write (R165, R166). -/
def stageWriteAnswer (r : Request) (s : State) : Answered :=
  match TableId.ofCode (reqU8 r 0) with
  | none => ⟨s, .badTable, []⟩
  | some id =>
    let data := r.args.drop 2
    if rangeInTable id (reqU8 r 1) data.length then
      let g := stageInto id (reqU8 r 1) data s.staging
      ⟨{ s with staging := some g }, .ok, g.summary⟩
    else ⟨s, .outOfRange, []⟩

/-- STAGE_WRITE (R165, R166): one length for each count of 1 to 61 data bytes (Table 11-3). -/
def execStageWrite (r : Request) (s : State) : Host.Outcome State Fault Refusal :=
  .next (takeRequest 0x28 (fun n => within 4 n 64) r (stageWriteAnswer r) s)

/-- The reply data of STAGE_READ: the buffer's description and up to 57 bytes of its data, or the empty indication (R167,
R190). -/
def stageReadData (buffer : Option Staged) : List Byte :=
  match buffer with
  | some g => g.summary ++ g.data.take 57
  | none => [0xFF, 0, 0, 0, 0]

/-- STAGE_READ (R167). -/
def execStageRead (r : Request) (s : State) : Host.Outcome State Fault Refusal :=
  .next (takeRequest 0x29 (exactly 1) r (fun s => ⟨s, .ok, stageReadData s.staging⟩) s)

/-! ### COMMIT: the checks (R168 to R170) -/

/-- The echo of a COMMIT matches the buffer: table, start, end and staging check (R168). -/
def echoMatches (r : Request) (g : Staged) : Bool :=
  reqU8 r 0 == g.table.code.toNat && reqU8 r 1 == g.start && reqU8 r 2 == g.stop && reqU16 r 3 == g.check.toNat

/-- The image of a table as a commit would leave it, reserved bits stored as 0 (R169, R189). -/
def commitImage (t : Tables) (g : Staged) : List Byte :=
  overlay (t.bytes g.table) g.start (storedBytes g.table g.start g.data)

/-- A logical unit whose mapping a commit changes, and which is valid before it, has a command inside the part (R170). -/
def mapConflict (old new : List Byte) (d : Plant) : Bool :=
  (changedUnits old new).any (fun u =>
    match mapEntrySlot (u8At old u) with
    | some i => (d.slot i).inside != 0
    | none => false)

/-- Why a commit whose echo matches is refused, with the reply data, or none if it passes (R169, R170). -/
def commitRefusal (g : Staged) (s : State) : Option (UnitStatus × List Byte) :=
  let image := commitImage s.tables g
  match firstBadField g.table image g.start g.stop with
  | some offset => some (.outOfRange, [byteOf offset])
  | none =>
    if g.table = .logicalMap then
      if mapDuplicate image then some (.mapDuplicate, [])
      else if mapConflict s.tables.logicalMap image s.plant then some (.commitConflict, [])
      else none
    else none

/-! ### COMMIT: the copy and its effects (R171, R172, Table 9-5) -/

/-- The commit copies the staged bytes and empties the buffer, and TABLE_COMMITTED is recorded (R171). -/
def State.copyStaged (g : Staged) (s : State) : State :=
  State.record (.tableCommitted g.table g.start g.stop)
    { s with tables := s.tables.setBytes g.table (commitImage s.tables g), staging := none }

/-- The slots whose group a commit of the slot configuration has changed (R133). -/
def regrouped (old new : Tables) : List SlotId := allSlots.filter (fun i => old.group i != new.group i)

/-- The countdowns of every slot are examined against the idle times as the commit leaves them (R83). -/
def recountdown (e : Env) (d : Plant) : Plant := allSlots.foldl (fun d i => d.put e i (d.slot i)) d

/-- The transit controller takes a commit that changes groups: the policy is applied to each slot whose group changed
(R133). -/
def transitTakesGroups (old : Tables) (e : Env) (d : Plant) : Plant := (regrouped old e.tables).foldl (applyPolicyAt e) d

/-- What the blocks read while the transit controller takes a commit before the start arbiter and the budget unit: the tables
in force, and the commit that those two have yet to take as their own event (R172; log 27). -/
def Env.beforeBudget (old : Tables) (d : Plant) (e : Env) : Env := { e with unread := some ⟨old, d⟩ }

/-- A commit of the slot configuration, taken by three blocks in any order of two pairs of them (R172): the countdowns (R83)
before or after the transit controller (R133), and the transit controller before or after the budget unit with the arbiter
(R90, R113). Every choice and every comparison reads the tables as the commit leaves them, and where the transit controller
comes first only the values that the budget unit and the arbiter keep lag behind them (`Env.drawOf`, `Env.loadAmount`,
`Env.startAmount`, `Env.choose`). A write of a slot by another block examines that slot's countdowns at that write (log 3,
log 27). -/
def slotCfgCommitted (old : Tables) (transitFirst countdownsFirst : Bool) (e : Env) (d : Plant) : Plant :=
  let d1 := if countdownsFirst then recountdown e d else d
  let d2 := if transitFirst then transitTakesGroups old (e.beforeBudget old d1) d1
    else transitTakesGroups old e (react e d1)
  react e (recountdown e d2)

/-- A commit of the budgets: the budget unit takes the budget of the present power state if it has changed (R101). -/
def budgetsCommitted (old : Tables) (e : Env) (d : Plant) : Plant :=
  let p := d.budget.powerState
  if e.tables.budgetOf p = old.budgetOf p then d else budgetTakes e (e.tables.budgetOf p) d

/-- What the reading blocks do at a commit of each table (Table 9-5). A commit of the motion thresholds evaluates POISED and
derives the class (R130); commits of the class map and of the logical map change nothing at once (R67). -/
def commitEffects (id : TableId) (old : Tables) (s : State) : State :=
  match id with
  | .unit => s.onPlant react
  | .slotCfg =>
    State.onPlant (slotCfgCommitted old (Config.freeOrder s.freeCount) (Config.freeOrder (s.freeCount + 1)))
      s.useFree.useFree
  | .profiles => s.onPlant react
  | .classMap => s
  | .logicalMap => s
  | .policy => s.onPlant applyPolicyAll
  | .motion => (s.onMonitor (fun m => m.examinePoised s.tables s.clock)).deriveClass
  | .budgets => s.onPlant (budgetsCommitted old)

/-- COMMIT: the echo, the values, the mapping, then the copy and its effects (R168 to R172). -/
def commitAnswer (r : Request) (s : State) : Answered :=
  match s.staging with
  | none => ⟨s, .commitMismatch, []⟩
  | some g =>
    if echoMatches r g then
      match commitRefusal g s with
      | some (status, data) => ⟨s, status, data⟩
      | none => ⟨commitEffects g.table s.tables (s.copyStaged g), .ok, []⟩
    else ⟨s, .commitMismatch, []⟩

/-- COMMIT (R168 to R172). -/
def execCommit (r : Request) (s : State) : Host.Outcome State Fault Refusal :=
  .next (takeRequest 0x2A (exactly 6) r (commitAnswer r) s)

/-! ### TABLE_READ (R174) -/

/-- TABLE_READ: its checks in their order, and the bytes read (R174). -/
def tableReadAnswer (r : Request) (s : State) : Answered :=
  match TableId.ofCode (reqU8 r 0) with
  | none => ⟨s, .badTable, []⟩
  | some id =>
    if within 1 (reqU8 r 2) 60 && rangeInTable id (reqU8 r 1) (reqU8 r 2) then
      ⟨s, .ok, [id.code, byteOf (reqU8 r 1)] ++ ((s.tables.bytes id).drop (reqU8 r 1)).take (reqU8 r 2)⟩
    else ⟨s, .outOfRange, []⟩

/-- TABLE_READ (R174). -/
def execTableRead (r : Request) (s : State) : Host.Outcome State Fault Refusal :=
  .next (takeRequest 0x2B (exactly 4) r (tableReadAnswer r) s)

end Sys2Proof.Machine
end

