-- ==== Sys2Proof/Machine/SlotEvents.lean ====
section
/-! DEFINITION. The events of a slot's pins, of the power lines, and of the timers of slots, arbiter and emergency record
(R6 to R9, R18, R22, R59, R80, R81, R93, R99, R100, R157). -/

namespace Sys2Proof.Machine

/-! ### Presence and overcurrent (R6 to R8, R22) -/

/-- The presence input takes a level (R6): an edge away from the slot's present condition starts the filter, and an edge back
stops it. A level the input already has is no edge (log 18). -/
def Slot.presenceEdge (now : Clock) (level : Bool) (r : Slot) : Slot :=
  if level = r.presenceIn then r
  else { r with
    presenceIn := level
    presenceFilter := if level = decide (r.state = .empty) then some ⟨now, Config.presenceMs⟩ else none }

/-- PRESENCE_EDGE (R6). -/
def execPresenceEdge (slot : SlotId) (level : Bool) (s : State) : Host.Outcome State Fault Refusal :=
  .next (s.onPlant (fun e d => d.put e slot ((d.slot slot).presenceEdge e.clock level)))

/-- INSERTION (R7): the presence filter of an EMPTY slot expires. -/
def execInsertion (slot : SlotId) (s : State) : Host.Outcome State Fault Refusal :=
  if (s.plant.slot slot).state = .empty ∧ dueOpt (s.plant.slot slot).presenceFilter s.clock = true then
    .next (s.onPlant (fun e d => react e (insertSled e slot d)))
  else .next s

/-- REMOVAL (R8): the presence filter of any other slot expires. -/
def execRemoval (slot : SlotId) (s : State) : Host.Outcome State Fault Refusal :=
  if (s.plant.slot slot).state ≠ .empty ∧ dueOpt (s.plant.slot slot).presenceFilter s.clock = true then
    .next (s.onPlant (fun e d => react e (removeSled e slot d)))
  else .next s

/-- OVERCURRENT (R22): the input takes a level, and an asserted one is taken. -/
def execOvercurrent (slot : SlotId) (level : Bool) (s : State) : Host.Outcome State Fault Refusal :=
  .next (s.onPlant (fun e d =>
    react e (takeOvercurrent e slot (d.put e slot { d.slot slot with overcurrentIn := level }))))

/-! ### Power lines (R99, R100) -/

/-- The filter of a power line. -/
def PowerLines.line (p : PowerLines) : PowerLine → LineFilter
  | .shore => p.shore | .low => p.low | .fail => p.fail

/-- The power lines with one filter replaced. -/
def PowerLines.setLine (p : PowerLines) (l : PowerLine) (f : LineFilter) : PowerLines :=
  match l with
  | .shore => { p with shore := f }
  | .low => { p with low := f }
  | .fail => { p with fail := f }

/-- The power state by the three filtered values (R100). -/
def PowerLines.derived (p : PowerLines) : PowerState :=
  if p.fail.value then .holdup else if p.shore.value then .shore else if p.low.value then .reserve else .battery

/-- POWER_LINE_EDGE (R99). -/
def execPowerLineEdge (line : PowerLine) (level : Bool) (s : State) : Host.Outcome State Fault Refusal :=
  .next { s with power := s.power.setLine line ((s.power.line line).edge s.clock Config.powerMs level) }

/-- The power state is derived anew (R100): the state it had changes nothing, and another is taken, the order of the two
blocks that take it being the free value (R112; log 3). -/
def State.derivePower (s : State) : State :=
  let new := s.power.derived
  if new = s.plant.budget.powerState then s
  else State.onPlant (fun e => takePowerChange e (Config.freeOrder s.freeCount) new) s.useFree

/-- POWER_FILTER_EXPIRY (R99, R100). -/
def execPowerFilterExpiry (line : PowerLine) (s : State) : Host.Outcome State Fault Refusal :=
  if dueOpt (s.power.line line).timer s.clock then
    .next (State.derivePower { s with power := s.power.setLine line (s.power.line line).expire })
  else .next s

/-! ### Timers (R9, R18, R59, R80, R81, R93, R157) -/

/-- HOLD_TIMER_EXPIRY (R59). -/
def execHoldTimerExpiry (slot : SlotId) (tag : Byte) (s : State) : Host.Outcome State Fault Refusal :=
  if (s.plant.slot slot).holdDue s.clock tag then
    .next (s.onPlant (fun e d => react e (expireHeld e slot tag d)))
  else .next s

/-- The slot drains and its drain timer is due (R18). -/
def Slot.drainDue (now : Clock) (r : Slot) : Bool := r.state = .loaded && r.draining && dueOpt r.drainTimer now

/-- DRAIN_EXPIRY (R18). -/
def execDrainExpiry (slot : SlotId) (s : State) : Host.Outcome State Fault Refusal :=
  if (s.plant.slot slot).drainDue s.clock then
    .next (s.onPlant (fun e d => react e (drainExpired e slot d)))
  else .next s

/-- The stopped-dwell timer expires and the effective level is evaluated (R9, R10). -/
def dwellExpired (e : Env) (i : SlotId) (d : Plant) : Plant :=
  let d1 := d.put e i { d.slot i with dwell := none }
  if (d.slot i).state = .stopped then act e i d1 else d1

/-- DWELL_EXPIRY (R9). -/
def execDwellExpiry (slot : SlotId) (s : State) : Host.Outcome State Fault Refusal :=
  if dueOpt (s.plant.slot slot).dwell s.clock then
    .next (s.onPlant (fun e d => react e (dwellExpired e slot d)))
  else .next s

/-- IDLE_UNLOAD_EXPIRY (R80): the requested level becomes SPIN and the pin keeps its value; the write makes the countdown
idle. -/
def execIdleUnloadExpiry (slot : SlotId) (s : State) : Host.Outcome State Fault Refusal :=
  if (s.plant.slot slot).idleUnload.due s.clock then
    .next (s.onPlant (fun e d => react e (writeRequested e slot .spin (d.slot slot).pinned d)))
  else .next s

/-- IDLE_STOP_EXPIRY (R81): the requested level becomes STOP and the pin keeps its value; the write makes the countdown
idle. -/
def execIdleStopExpiry (slot : SlotId) (s : State) : Host.Outcome State Fault Refusal :=
  if (s.plant.slot slot).idleStop.due s.clock then
    .next (s.onPlant (fun e d => react e (writeRequested e slot .stop (d.slot slot).pinned d)))
  else .next s

/-- STAGGER_EXPIRY (R93): the arbiter may present its candidate again. -/
def execStaggerExpiry (s : State) : Host.Outcome State Fault Refusal :=
  if dueOpt s.plant.arb.stagger s.clock then
    .next (s.onPlant (fun e d => react e { d with arb := { d.arb with stagger := none } }))
  else .next s

/-- SETTLE_EXPIRY (R157): the latch clears with cause AUTOMATIC. -/
def execSettleExpiry (s : State) : Host.Outcome State Fault Refusal :=
  if dueOpt s.plant.emg.settle s.clock then
    .next (s.onPlant (fun e d => react e (clearLatch e .automatic d)))
  else .next s

end Sys2Proof.Machine
end

