-- ==== Sys2Proof/Machine/Clock.lean ====
section
/-! DEFINITION. The case clock: which expiries are due, and the tick (R184; log 1). -/

namespace Sys2Proof.Machine

/-- An expiry, if its timer is due. -/
def expiryIf (due : Bool) (c : Instr) : List Instr := if due then [c] else []

/-- The expiries that are due at one slot. -/
def Slot.dueExpiries (now : Clock) (i : SlotId) (r : Slot) : List Instr :=
  expiryIf (dueOpt r.presenceFilter now) (if r.state = .empty then .insertion i else .removal i) ++
  expiryIf (match r.lane.inFlight with | some o => o.timer.due now | none => false) (.orderTimeout i) ++
  expiryIf (r.drainDue now) (.drainExpiry i) ++
  expiryIf (dueOpt r.dwell now) (.dwellExpiry i) ++
  expiryIf (r.idleUnload.due now) (.idleUnloadExpiry i) ++
  expiryIf (r.idleStop.due now) (.idleStopExpiry i) ++
  (r.hold.filter (fun h => h.timer.due now)).map (fun h => .holdTimerExpiry i h.tag)

/-- The expiries that are due at the motion monitor. -/
def Monitor.dueExpiries (now : Clock) (m : Monitor) : List Instr :=
  expiryIf (m.sensor != .lost && dueOpt m.sensorTimer now) .sensorTimeout ++
  expiryIf (dueOpt m.handle.timer now) (.switchFilterExpiry .handle) ++
  expiryIf (dueOpt m.brake.timer now) (.switchFilterExpiry .brake) ++
  expiryIf (dueOpt m.poised.releaseTimer now) .poisedReleaseExpiry ++
  expiryIf (dueOpt m.rolling.releaseTimer now) .rollingReleaseExpiry ++
  expiryIf (dueOpt m.tilted.assertTimer now) .tiltedAssertionExpiry ++
  expiryIf (dueOpt m.tilted.releaseTimer now) .tiltedReleaseExpiry ++
  expiryIf (dueOpt m.jolt.releaseTimer now) .joltHoldExpiry ++
  expiryIf (dueOpt m.fall.assertTimer now) .fallAssertionExpiry ++
  expiryIf (dueOpt m.fall.releaseTimer now) .fallReleaseExpiry

/-- The expiries that are due at the power lines. -/
def PowerLines.dueExpiries (now : Clock) (p : PowerLines) : List Instr :=
  expiryIf (dueOpt p.shore.timer now) (.powerFilterExpiry .shore) ++
  expiryIf (dueOpt p.low.timer now) (.powerFilterExpiry .low) ++
  expiryIf (dueOpt p.fail.timer now) (.powerFilterExpiry .fail)

/-- Every expiry that is due. -/
def State.dueExpiries (s : State) : List Instr :=
  PowerLines.dueExpiries s.clock s.power ++ Monitor.dueExpiries s.clock s.monitor ++
  expiryIf (dueOpt s.plant.arb.stagger s.clock) .staggerExpiry ++
  expiryIf (dueOpt s.plant.emg.settle s.clock) .settleExpiry ++
  allSlots.flatMap (fun i => Slot.dueExpiries s.clock i (s.plant.slot i))

/-- The case clock advances by one millisecond, from 2^32 - 1 to 0 (R184). -/
def State.advance (s : State) : State := { s with clock := s.clock + 1 }

end Sys2Proof.Machine
end

