-- ==== Sys2Proof/Machine/LaneEvents.lean ====
section
/-! DEFINITION. The events of a sled lane: frames received, a discarded frame, the end of a frame sent, and an order's
timeout (R26, R31, R35 to R38, R61). -/

namespace Sys2Proof.Machine

/-- A frame on the slot's lane has ended: the receiver holds no partial frame (R26). -/
def laneReceived (e : Env) (i : SlotId) (d : Plant) : Plant :=
  d.put e i { d.slot i with lane := { (d.slot i).lane with rxPartial := none } }

/-- REPORT (R35): the sled code of a report is discarded. -/
def execReport (slot : SlotId) (number : Byte) (result : ReportResult) (_code : Byte) (mech : MechState) (s : State) :
    Host.Outcome State Fault Refusal :=
  .next (s.onPlant (fun e d => react e (takeReport e slot number result mech (laneReceived e slot d))))

/-- FAULT (R21, R37). -/
def execFault (slot : SlotId) (code : Byte) (s : State) : Host.Outcome State Fault Refusal :=
  .next (s.onPlant (fun e d => react e (takeSledFault e slot code (laneReceived e slot d))))

/-- SLED_COMPLETION (R38, R61, R62). A payload above 48 bytes makes the frame one that the receiver discards (R26; log 16). -/
def execSledCompletion (slot : SlotId) (epoch tag status : Byte) (payload : List Byte) (s : State) :
    Host.Outcome State Fault Refusal :=
  if payload.length ≤ 48 then
    .next (s.onPlant (fun e d => react e (takeCompletion e slot epoch tag status payload (laneReceived e slot d))))
  else .next (s.onPlant (fun e d => laneReceived e slot d))

/-- LANE_FRAME_DISCARDED (R26): as if the frame had never arrived. -/
def execLaneFrameDiscarded (slot : SlotId) (s : State) : Host.Outcome State Fault Refusal :=
  .next (s.onPlant (fun e d => laneReceived e slot d))

/-- The lane's frame ends and the transmitter chooses the next (R31). -/
def laneSent (e : Env) (i : SlotId) (d : Plant) : Plant :=
  d.put e i { d.slot i with lane := (d.slot i).lane.frameSent }

/-- LANE_FRAME_SENT (R31). With no frame on the line, none can end (log 16). -/
def execLaneFrameSent (slot : SlotId) (s : State) : Host.Outcome State Fault Refusal :=
  if (s.plant.slot slot).lane.tx.isSome then .next (s.onPlant (fun e d => laneSent e slot d)) else .next s

/-- The order in flight of a slot whose timer is due. -/
def Lane.dueOrder (now : Clock) (l : Lane) : Option OrderKind :=
  match l.inFlight with
  | some o => if o.timer.due now then some o.kind else none
  | none => none

/-- ORDER_TIMEOUT (R36): the order in flight ends as a failure. -/
def execOrderTimeout (slot : SlotId) (s : State) : Host.Outcome State Fault Refusal :=
  match (s.plant.slot slot).lane.dueOrder s.clock with
  | some kind => .next (s.onPlant (fun e d => react e (orderFailure e slot kind d)))
  | none => .next s

end Sys2Proof.Machine
end

