-- ==== Sys2Proof/WellFormed.lean ====
section
/-! DEFINITION. Which commands are ones the table's rows can name: the operand limits of the frames (R175, R180, R26, R116). -/

namespace Sys2Proof

/-- The request codes of Table 11-3. -/
def knownRequestCodes : List Byte :=
  [0x01, 0x02, 0x03, 0x04, 0x10, 0x11, 0x18, 0x19, 0x1A, 0x20, 0x21, 0x28, 0x29, 0x2A, 0x2B, 0x30]

/-- An accepted COMMAND frame has a unit of at most 15 and 1 to 48 payload bytes (R175). -/
def CommandFrame.wellFormed (f : CommandFrame) : Bool :=
  f.unit.toNat ≤ 15 && 1 ≤ f.payload.length && f.payload.length ≤ 48

/-- The payload of an accepted UNIT_REQUEST is at most 64 bytes, request code included (R175). -/
def Request.wellFormed (r : Request) : Bool := r.args.length ≤ 63

/-- An axis value of a good sample lies within -16000 to +16000 mg (R116). -/
def axisGood (a : Word16) : Bool := -16000 ≤ a.toInt && a.toInt ≤ 16000

/-- The operand limits of each row. -/
def Instr.wellFormed : Instr → Bool
  | .command f => f.wellFormed
  | .unknownRequest code r => r.wellFormed && !knownRequestCodes.contains code
  | .unitQuery r | .unitStatus r | .slotStatus r | .eventRead r | .motion r | .slotRecover r
  | .startHold r | .startRelease r | .startClear r | .panicPark r | .emergencyClear r
  | .stageWrite r | .stageRead r | .commit r | .tableRead r | .exposureClear r => r.wellFormed
  | .sledCompletion _ _ _ _ payload => payload.length ≤ 48
  | .sample x y z => axisGood x && axisGood y && axisGood z
  | .powerOnReset | .downstreamFrameDiscarded _ | .lineBreak | .lineBreakEnd | .upstreamFrameSent
  | .report _ _ _ _ _ | .fault _ _ | .laneFrameDiscarded _ | .laneFrameSent _ | .orderTimeout _
  | .presenceEdge _ _ | .insertion _ | .removal _ | .overcurrent _ _
  | .powerLineEdge _ _ | .powerFilterExpiry _ | .switchEdge _ _ | .switchFilterExpiry _
  | .sampleDiscarded | .sensorTimeout | .poisedReleaseExpiry | .rollingReleaseExpiry
  | .tiltedAssertionExpiry | .tiltedReleaseExpiry | .joltHoldExpiry | .fallAssertionExpiry
  | .fallReleaseExpiry | .holdTimerExpiry _ _ | .drainExpiry _ | .dwellExpiry _
  | .idleUnloadExpiry _ | .idleStopExpiry _ | .staggerExpiry | .settleExpiry => true

end Sys2Proof
end

