-- ==== Sys2Proof/Machine/LinkEvents.lean ====
section
/-! DEFINITION. The events of the whole part and of the case link: power-on reset, COMMAND frames, discarded frames, breaks,
and the end of an upstream frame (R1, R45, R175 to R179). -/

namespace Sys2Proof.Machine

/-- The slots at the end of a power-on reset: every record at its reset value, every pin at the level it has (R1). -/
def resetSlots (slots : Vector Slot 16) : Vector Slot 16 :=
  slots.map (fun r => Slot.reset r.presenceIn r.overcurrentIn)

/-- The part at the end of a power-on reset (R1, R25, R49, R60, R114, R115, R131, R148, R162, Table 10-1): all its state at
its reset value. The input pins keep their levels, and so do the model's own queue and free counter (log 4, log 26). -/
def State.powerOn (s : State) : State where
  clock := 0
  tables := Tables.reset
  staging := none
  power := PowerLines.reset s.power.shore.level s.power.low.level s.power.fail.level
  monitor := Monitor.reset s.monitor.handle.level s.monitor.brake.level
  plant := Plant.reset (resetSlots s.plant.slots)
  freeCount := s.freeCount
  pending := s.pending

/-- POWER_ON_RESET (R1): commands inside the part are forgotten without an answer (R42). -/
def execPowerOnReset (s : State) : Host.Outcome State Fault Refusal := .next s.powerOn

/-- COMMAND (R45): an accepted frame arrives at the admission unit, and the plant responds. During a break nothing is received
(R177); a frame that the framer could not have accepted is discarded (R175; log 6, log 16). -/
def execCommand (f : CommandFrame) (s : State) : Host.Outcome State Fault Refusal :=
  if s.plant.link.broken then .next s
  else if f.wellFormed && s.mayAccept then
    .next ((s.onLink Link.acceptFrame).onPlant (fun e d => react e (arrive e f d)))
  else .next (s.onLink Link.discardFrame)

/-- DOWNSTREAM_FRAME_DISCARDED (R175, R176): link-error is set, whatever the cause. During a break nothing is received
(R177; log 17). -/
def execDownstreamFrameDiscarded (_cause : DiscardCause) (s : State) : Host.Outcome State Fault Refusal :=
  if s.plant.link.broken then .next s else .next (s.onLink Link.discardFrame)

/-- A break is taken (R177): the partial frame is discarded and transmission stops, the cut-off frame staying in the queue. -/
def Link.takeBreak (l : Link) : Link := { l with framer := none, tx := none, broken := true }

/-- BREAK (R177). A break during a break is none (log 17). -/
def execLineBreak (s : State) : Host.Outcome State Fault Refusal :=
  if s.plant.link.broken then .next s else .next (s.onLink Link.takeBreak)

/-- BREAK_END (R177): the transmitter begins the oldest frame of the queue again, with its flags taken anew. -/
def execLineBreakEnd (s : State) : Host.Outcome State Fault Refusal :=
  if s.plant.link.broken then .next (s.onLink (fun l => Link.begin { l with broken := false })) else .next s

/-- The frame being sent ends and leaves the queue; the transmitter then begins the next (R178). -/
def Link.frameSent (l : Link) : Link := { l with queue := l.queue.tail, tx := none }

/-- UPSTREAM_FRAME_SENT (R178, R179). With no frame being sent, none can end (log 16). -/
def execUpstreamFrameSent (s : State) : Host.Outcome State Fault Refusal :=
  if s.plant.link.tx.isSome then .next (s.onPlant (fun _ d => { d with link := d.link.frameSent })) else .next s

end Sys2Proof.Machine
end

