-- ==== Sys2Proof/Machine/Dispatch.lean ====
section
/-! DEFINITION. The effect of each command on everything but the queue: one call per row of the table. -/

namespace Sys2Proof.Machine

/-- The effect of a command. -/
def exec (i : Instr) (s : State) : Host.Outcome State Fault Refusal :=
  match i with
  | .powerOnReset => Sys2Proof.Machine.execPowerOnReset s
  | .command f => Sys2Proof.Machine.execCommand f s
  | .downstreamFrameDiscarded cause => Sys2Proof.Machine.execDownstreamFrameDiscarded cause s
  | .lineBreak => Sys2Proof.Machine.execLineBreak s
  | .lineBreakEnd => Sys2Proof.Machine.execLineBreakEnd s
  | .upstreamFrameSent => Sys2Proof.Machine.execUpstreamFrameSent s
  | .unknownRequest code r => Sys2Proof.Machine.execUnknownRequest code r s
  | .unitQuery r => Sys2Proof.Machine.execUnitQuery r s
  | .unitStatus r => Sys2Proof.Machine.execUnitStatus r s
  | .slotStatus r => Sys2Proof.Machine.execSlotStatus r s
  | .eventRead r => Sys2Proof.Machine.execEventRead r s
  | .motion r => Sys2Proof.Machine.execMotion r s
  | .slotRecover r => Sys2Proof.Machine.execSlotRecover r s
  | .startHold r => Sys2Proof.Machine.execStartHold r s
  | .startRelease r => Sys2Proof.Machine.execStartRelease r s
  | .startClear r => Sys2Proof.Machine.execStartClear r s
  | .panicPark r => Sys2Proof.Machine.execPanicPark r s
  | .emergencyClear r => Sys2Proof.Machine.execEmergencyClear r s
  | .stageWrite r => Sys2Proof.Machine.execStageWrite r s
  | .stageRead r => Sys2Proof.Machine.execStageRead r s
  | .commit r => Sys2Proof.Machine.execCommit r s
  | .tableRead r => Sys2Proof.Machine.execTableRead r s
  | .exposureClear r => Sys2Proof.Machine.execExposureClear r s
  | .report slot number result code mech => Sys2Proof.Machine.execReport slot number result code mech s
  | .fault slot code => Sys2Proof.Machine.execFault slot code s
  | .sledCompletion slot epoch tag status payload => Sys2Proof.Machine.execSledCompletion slot epoch tag status payload s
  | .laneFrameDiscarded slot => Sys2Proof.Machine.execLaneFrameDiscarded slot s
  | .laneFrameSent slot => Sys2Proof.Machine.execLaneFrameSent slot s
  | .orderTimeout slot => Sys2Proof.Machine.execOrderTimeout slot s
  | .presenceEdge slot level => Sys2Proof.Machine.execPresenceEdge slot level s
  | .insertion slot => Sys2Proof.Machine.execInsertion slot s
  | .removal slot => Sys2Proof.Machine.execRemoval slot s
  | .overcurrent slot level => Sys2Proof.Machine.execOvercurrent slot level s
  | .powerLineEdge line level => Sys2Proof.Machine.execPowerLineEdge line level s
  | .powerFilterExpiry line => Sys2Proof.Machine.execPowerFilterExpiry line s
  | .switchEdge switch level => Sys2Proof.Machine.execSwitchEdge switch level s
  | .switchFilterExpiry switch => Sys2Proof.Machine.execSwitchFilterExpiry switch s
  | .sample x y z => Sys2Proof.Machine.execSample x y z s
  | .sampleDiscarded => Sys2Proof.Machine.execSampleDiscarded s
  | .sensorTimeout => Sys2Proof.Machine.execSensorTimeout s
  | .poisedReleaseExpiry => Sys2Proof.Machine.execPoisedReleaseExpiry s
  | .rollingReleaseExpiry => Sys2Proof.Machine.execRollingReleaseExpiry s
  | .tiltedAssertionExpiry => Sys2Proof.Machine.execTiltedAssertionExpiry s
  | .tiltedReleaseExpiry => Sys2Proof.Machine.execTiltedReleaseExpiry s
  | .joltHoldExpiry => Sys2Proof.Machine.execJoltHoldExpiry s
  | .fallAssertionExpiry => Sys2Proof.Machine.execFallAssertionExpiry s
  | .fallReleaseExpiry => Sys2Proof.Machine.execFallReleaseExpiry s
  | .holdTimerExpiry slot tag => Sys2Proof.Machine.execHoldTimerExpiry slot tag s
  | .drainExpiry slot => Sys2Proof.Machine.execDrainExpiry slot s
  | .dwellExpiry slot => Sys2Proof.Machine.execDwellExpiry slot s
  | .idleUnloadExpiry slot => Sys2Proof.Machine.execIdleUnloadExpiry slot s
  | .idleStopExpiry slot => Sys2Proof.Machine.execIdleStopExpiry slot s
  | .staggerExpiry => Sys2Proof.Machine.execStaggerExpiry s
  | .settleExpiry => Sys2Proof.Machine.execSettleExpiry s

end Sys2Proof.Machine
end

