-- ==== Sys2Proof/Machine/Framer.lean ====
section
/-! DEFINITION. The receivers: which command a run of received characters is, on the case link (R175, R180), on a sled lane
(R26) and on the sensor port (R116). A run is the characters between two idle gaps. -/

namespace Sys2Proof.Machine

/-- The parts of a frame of the common form (10 section 10.1, Table 11-1); the flags byte is ignored (R189). -/
structure RawFrame where
  kind : Byte
  unit : Byte
  tag : Byte
  payload : List Byte
  checkOk : Bool
  deriving DecidableEq, Repr

/-- A run of characters as a frame: none if it is malformed, ending before or running on past the stated length, or stating
a payload above 64 bytes (R175, R26). -/
def rawFrame (bytes : List Byte) : Option RawFrame :=
  match bytes with
  | kind :: unit :: tag :: flags :: len :: rest =>
    if len.toNat ≤ 64 ∧ rest.length = len.toNat + 2 then
      some ⟨kind, unit, tag, rest.take len.toNat,
        decide (rest.drop len.toNat = be16 (check16 (kind :: unit :: tag :: flags :: len :: rest.take len.toNat)).toNat)⟩
    else none
  | _ => none

/-- The command of an accepted UNIT_REQUEST, by its request code (Table 11-3). -/
def requestOf (code : Byte) (r : Request) : Instr :=
  match code.toNat with
  | 0x01 => .unitQuery r
  | 0x02 => .unitStatus r
  | 0x03 => .slotStatus r
  | 0x04 => .eventRead r
  | 0x10 => .motion r
  | 0x11 => .slotRecover r
  | 0x18 => .startHold r
  | 0x19 => .startRelease r
  | 0x1A => .startClear r
  | 0x20 => .panicPark r
  | 0x21 => .emergencyClear r
  | 0x28 => .stageWrite r
  | 0x29 => .stageRead r
  | 0x2A => .commit r
  | 0x2B => .tableRead r
  | 0x30 => .exposureClear r
  | _ => .unknownRequest code r

/-- A well-checked downstream frame, by its kind (the table of R175). -/
def acceptRaw (f : RawFrame) : Instr :=
  if f.kind = 0x01 then
    if 15 < f.unit.toNat then .downstreamFrameDiscarded .unitUnsuited
    else if f.payload.length = 0 ∨ 48 < f.payload.length then .downstreamFrameDiscarded .lengthUnsuited
    else .command ⟨f.unit, f.tag, f.payload⟩
  else if f.kind = 0x02 then
    if f.unit ≠ 0xFF then .downstreamFrameDiscarded .unitUnsuited
    else match f.payload with
      | [] => .downstreamFrameDiscarded .lengthUnsuited
      | code :: args => requestOf code ⟨f.tag, args⟩
  else .downstreamFrameDiscarded .kindNotDownstream

/-- The case link's receiver: the command a run of characters is, with the level the ready line had at its first character
(R175, R179). -/
def receiveLink (readyAtStart : Bool) (bytes : List Byte) : Instr :=
  if readyAtStart then
    match rawFrame bytes with
    | none => .downstreamFrameDiscarded .malformed
    | some f => if f.checkOk then acceptRaw f else .downstreamFrameDiscarded .checkFails
  else .downstreamFrameDiscarded .readyLow

/-- The result field of a REPORT (Table 11-9). -/
def ReportResult.ofCode : Nat → Option ReportResult
  | 0 => some .done | 1 => some .fail | _ => none

/-- The mechanical state field of a REPORT (Table 11-9). -/
def MechState.ofCode : Nat → Option MechState
  | 0 => some .stopped | 1 => some .atSpeed | 2 => some .loaded | 3 => some .unloaded | _ => none

/-- A well-checked lane frame, by its kind (R26, Table 11-9). -/
def acceptLane (i : SlotId) (f : RawFrame) : Instr :=
  match f.kind.toNat, f.payload with
  | 0x90, [number, result, code, mech] =>
    match ReportResult.ofCode result.toNat, MechState.ofCode mech.toNat with
    | some r, some m => .report i number r code m
    | _, _ => .laneFrameDiscarded i
  | 0x91, [code] => .fault i code
  | 0x92, epoch :: status :: payload =>
    if payload.length ≤ 48 then .sledCompletion i epoch f.tag status payload else .laneFrameDiscarded i
  | _, _ => .laneFrameDiscarded i

/-- A lane's receiver (R26). -/
def receiveLane (i : SlotId) (bytes : List Byte) : Instr :=
  match rawFrame bytes with
  | some f => if f.checkOk then acceptLane i f else .laneFrameDiscarded i
  | none => .laneFrameDiscarded i

/-- The sensor port's receiver (R116): a sample is 8 bytes, its check over the six axis bytes, its axis values in range. -/
def receiveSample (bytes : List Byte) : Instr :=
  let x := BitVec.ofNat 16 (u16At bytes 0)
  let y := BitVec.ofNat 16 (u16At bytes 2)
  let z := BitVec.ofNat 16 (u16At bytes 4)
  if bytes.length = 8 ∧ bytes.drop 6 = be16 (check16 (bytes.take 6)).toNat
      ∧ axisInRange x = true ∧ axisInRange y = true ∧ axisInRange z = true
  then .sample x y z
  else .sampleDiscarded

/-- A received run of characters is put at the end of the queue of commands as what the receiver takes it for, with the ready
line as it stands. -/
def State.offer (bytes : List Byte) (s : State) : State :=
  { s with pending := s.pending ++ [receiveLink s.plant.link.ready bytes] }

end Sys2Proof.Machine
end

