-- ==== Sys2Proof/Safety.lean ====
section
/-! DEFINITION. What a sound state is, in the terms the claims use: the order of each slot, the start queue, the account of
commands and queue entries, the capacities, and the tables. -/

namespace Sys2Proof.Machine

/-- The order in flight is the one that the slot's state allows (Table 1-4). -/
def Slot.orderMatches (r : Slot) : Bool :=
  match r.state, r.lane.inFlight.map OrderInFlight.kind with
  | .starting, some .spinUp => true
  | .stopping, some (.spinDown _) => true
  | .loading, some .load => true
  | .unloading, some (.unload _) => true
  | .unloading, some .emergencyUnload => true
  | .empty, none | .stopped, none | .queued, none | .spun, none | .loaded, none | .faulted, none => true
  | _, _ => false

/-- Every slot's order in flight matches its state. -/
def Plant.ordersMatch (d : Plant) : Prop := ∀ i, (d.slot i).orderMatches = true

/-- The start queue holds exactly the QUEUED slots, each once (R89). -/
def Plant.queueMatches (d : Plant) : Prop :=
  d.arb.queue.Nodup ∧ ∀ i, i ∈ d.arb.queue ↔ (d.slot i).state = .queued

/-- The commands accounted for: those inside the part, and the COMPLETION frames waiting upstream (R42). -/
def Plant.accounted (d : Plant) : Nat :=
  (d.link.queue.filter (fun f => f.kind = .completion)).length + d.reserved

/-- The entries of the upstream queue that are taken: the queued frames and the reserved entries (R178). -/
def Plant.entries (d : Plant) : Nat := d.link.queue.length + d.reserved

/-- The tags of a slot's held and outstanding entries. -/
def Slot.tags (r : Slot) : List Byte := r.hold.map HoldEntry.tag ++ r.outstanding.map OutEntry.tag

/-- A slot's lists are sound: no tag twice (R45), at most four outstanding (R60), every outstanding entry of the slot's lane
epoch (R60), and nothing inside while the slot is EMPTY or FAULTED (R8, R23, R45). -/
def Slot.listsSound (r : Slot) : Prop :=
  r.tags.Nodup ∧ r.outstanding.length ≤ Config.outstandingMax ∧ (∀ o ∈ r.outstanding, o.epoch = r.epoch) ∧
    (r.outOfService = true → r.hold = [] ∧ r.outstanding = [])

/-- The lists of every slot are sound, and the hold pool holds at most 48 entries (R47). -/
def Plant.listsSound (d : Plant) : Prop := (∀ i, (d.slot i).listsSound) ∧ d.poolUsed ≤ Config.poolEntries

/-- A staged range has 1 to 64 bytes and lies within its table (R164, Table 9-4). -/
def Staged.sound (g : Staged) : Bool :=
  1 ≤ g.data.length && g.data.length ≤ Config.stagingBytes && g.start + g.data.length ≤ g.table.size

/-- The reserved bits of a table image are 0 (R189). -/
def reservedClear (id : TableId) (image : List Byte) : Bool := storedBytes id 0 image == image

/-- The tables are sound: every field permitted (R163), no two valid entries of the logical map naming one slot (R170), the
reserved bits 0 (R189). -/
def Tables.sound (t : Tables) : Bool :=
  t.permitted && !mapDuplicate t.logicalMap &&
    [TableId.unit, .slotCfg, .profiles, .classMap, .logicalMap, .policy, .motion, .budgets].all
      (fun id => reservedClear id (t.bytes id))

/-- The table store is sound: its tables, and the staging buffer if it holds data. -/
def State.tablesSound (s : State) : Prop := s.tables.sound = true ∧ ∀ g, s.staging = some g → g.sound = true

/-- The plant is sound. -/
def State.plantSound (s : State) : Prop :=
  s.plant.ordersMatch ∧ s.plant.queueMatches ∧ s.plant.listsSound ∧ s.plant.entries ≤ Config.queueEntries

/-! ### What the response of the blocks to an event leaves alone -/

/-- The slot is in a state in which no level, claim or grant moves it: EMPTY, FAULTED, UNLOADING, STOPPING (R5), or STOPPED
with its stopped-dwell timer running (R10). -/
def Slot.inert (r : Slot) : Bool :=
  match r.state with
  | .empty | .faulted | .unloading | .stopping => true
  | .stopped => r.dwell.isSome
  | .queued | .starting | .spun | .loading | .loaded => false

/-- What a slot's motion consists of: its state, the order in flight, the fields that go with the state, and the lane
epoch. -/
structure Slot.Motion where
  state : SlotState
  inFlight : Option OrderInFlight
  unloadMark : UnloadMark
  unloadReissued : Bool
  stoppingFromStart : Bool
  draining : Bool
  drainTimer : Option Timer
  dwell : Option Timer
  faultReason : Option FaultReason
  sledCode : Option Byte
  spinAttempts : Nat
  loadAttempts : Nat
  epoch : Fin 16
  deriving DecidableEq, Repr

/-- A slot's motion. -/
def Slot.motion (r : Slot) : Slot.Motion :=
  ⟨r.state, r.lane.inFlight, r.unloadMark, r.unloadReissued, r.stoppingFromStart, r.draining, r.drainTimer, r.dwell,
    r.faultReason, r.sledCode, r.lane.spinAttempts, r.lane.loadAttempts, r.epoch⟩

/-- What `react`, the response of the blocks that follows every event of the plant, leaves of the plant as the event made it
(R5, R95, R101, R154): the motion of every inert slot, and its lane if it holds no command, the arbiter hold, the power state
and the budget, the emergency record but for its phase and settle timer, the counts and pins of every slot, and every frame and
record already queued. -/
structure Plant.Responds (d d' : Plant) : Prop where
  motion : ∀ j, (d.slot j).inert = true → (d'.slot j).motion = (d.slot j).motion
  lane : ∀ j, (d.slot j).inert = true → (d.slot j).hold = [] →
    (d'.slot j).lane = (d.slot j).lane ∧ (d'.slot j).hold = []
  hold : d'.arb.hold = d.arb.hold
  power : d'.budget.powerState = d.budget.powerState ∧ d'.budget.budget = d.budget.budget
  emg : d'.emg.latched = d.emg.latched ∧ d'.emg.sources = d.emg.sources ∧ d'.emg.firstSource = d.emg.firstSource ∧
    d'.emg.firstTime = d.emg.firstTime ∧ d'.emg.cap = d.emg.cap
  counts : ∀ j, (d'.slot j).exposures = (d.slot j).exposures ∧ (d'.slot j).strays = (d.slot j).strays ∧
    (d'.slot j).presenceIn = (d.slot j).presenceIn ∧ (d'.slot j).overcurrentIn = (d.slot j).overcurrentIn
  queue : d.link.queue <+: d'.link.queue
  events : d.link.events <+: d'.link.events

/-- The event of the plant that a command is, with the response of the blocks to it and the ready line settled (R179). -/
def State.respond (f : Env → Plant → Plant) (s : State) : State := s.onPlant (fun e d => react e (f e d))

/-! ### Words of the claims about commands -/

/-- A downstream frame is taken: no break lasts, and the free count is one that a frame begun with the ready line high can
find at its end (R177, R179; log 6). -/
def State.accepts (s : State) : Prop := s.plant.link.broken = false ∧ Config.acceptFree ≤ s.plant.free

/-- The state with the framer idle after a frame (R175). -/
def State.framed (s : State) : State := s.onLink Link.acceptFrame

/-- A request that is answered and does nothing else: the framer is idle, and the UNIT_REPLY is queued (R180). -/
def State.answered (s : State) (r : Request) (code : Byte) (st : UnitStatus) (data : List Byte) : State :=
  s.framed.reply r.tag code st data

/-- A request that changes the plant and is then answered (R180). -/
def State.answeredWith (s : State) (f : Env → Plant → Plant) (r : Request) (code : Byte) (st : UnitStatus)
    (data : List Byte) : State :=
  State.reply r.tag code st data { s.framed with plant := f s.env s.framed.plant }

/-- The frames queued from one state to the other end with the UNIT_REPLY, and every earlier frame is kept (R180). -/
def State.repliedTo (s t : State) (r : Request) (code : Byte) (st : UnitStatus) (data : List Byte) : Prop :=
  ∃ fs, t.plant.link.queue = s.plant.link.queue ++ fs ++ [replyFrame r.tag code st data]

/-- A command that acts on the motion monitor: a sample, an expiry of the monitor, a switch, or a commit (R116 to R130). -/
def actsOnMonitor : Instr → Bool
  | .sample _ _ _ | .sampleDiscarded | .sensorTimeout | .switchEdge _ _ | .switchFilterExpiry _
  | .poisedReleaseExpiry | .rollingReleaseExpiry | .tiltedAssertionExpiry | .tiltedReleaseExpiry
  | .joltHoldExpiry | .fallAssertionExpiry | .fallReleaseExpiry | .commit _ | .powerOnReset => true
  | _ => false

/-- A downstream frame: a COMMAND or a UNIT_REQUEST (R175). -/
def isFrame : Instr → Bool
  | .command _ | .unknownRequest _ _ | .unitQuery _ | .unitStatus _ | .slotStatus _ | .eventRead _ | .motion _
  | .slotRecover _ | .startHold _ | .startRelease _ | .startClear _ | .panicPark _ | .emergencyClear _
  | .stageWrite _ | .stageRead _ | .commit _ | .tableRead _ | .exposureClear _ => true
  | _ => false

/-- The COMPLETION frames that answer the commands of a slot, by their tags, with one disposition (R43). -/
def answersTo (t : Tables) (i : SlotId) (disp : Disposition) (tags : List Byte) : List UpFrame :=
  tags.map (fun tag => completionFrame (t.unitOfSlot i) tag disp 0 [])

/-- The motion of a slot that enters FAULTED (R23): everything that goes with a running drive ends, the lane epoch advances,
and the attempts stay. -/
def Slot.Motion.faulted (m : Slot.Motion) (reason : FaultReason) (code : Option Byte) : Slot.Motion where
  state := .faulted
  inFlight := none
  unloadMark := .none
  unloadReissued := false
  stoppingFromStart := false
  draining := false
  drainTimer := none
  dwell := none
  faultReason := some reason
  sledCode := code
  spinAttempts := m.spinAttempts
  loadAttempts := m.loadAttempts
  epoch := m.epoch + 1

/-- The motion of a slot that an order sends to UNLOADING (R16 to R18, R21, R151). -/
def Slot.Motion.unloading (m : Slot.Motion) (kind : OrderKind) (number : Fin 16) (timer : Timer) (mark : UnloadMark) :
    Slot.Motion :=
  { m with
    state := .unloading
    inFlight := some ⟨kind, number, timer⟩
    unloadMark := mark
    unloadReissued := false
    draining := false
    drainTimer := none }

/-- The motion of a slot that SPIN_DOWN sends to STOPPING (R13, R15). -/
def Slot.Motion.stopping (m : Slot.Motion) (retry : Bool) (number : Fin 16) (timer : Timer) (fromStart : Bool) :
    Slot.Motion :=
  { m with state := .stopping, inFlight := some ⟨.spinDown retry, number, timer⟩, stoppingFromStart := fromStart }

/-- A lane after an abort and the order issued with it (R28, R30, R31, R34): the order takes the next number and is in flight,
its frame is sent at once on an idle line and waits in the order slot otherwise, and no COMMAND frame waits. -/
def Lane.abortedFor (kind : OrderKind) (timer : Timer) (l : Lane) : Lane :=
  let frame := LaneFrame.order kind l.nextOrder
  { l with
    nextOrder := l.nextOrder + 1
    inFlight := some ⟨kind, l.nextOrder, timer⟩
    orderSlot := if l.tx = none then none else some frame
    cmdQueue := []
    tx := if l.tx = none then some frame else l.tx }

/-- A lane whose order is dropped with an abort (R34, R40): neither an order frame nor a COMMAND frame waits. -/
def Lane.dropped (l : Lane) : Lane := { l with inFlight := none, orderSlot := none, cmdQueue := [] }

/-- The committed draw is the sum of the slots' draws, and while no shed is in progress it does not exceed the budget (R102,
R106). -/
def State.budgetKept (s : State) : Prop :=
  s.plant.budget.committed = s.plant.totalDraw s.tables ∧
    (s.plant.budget.shed = false → s.plant.budget.committed ≤ s.plant.budget.budget)

/-- The ready line is low below 16 free entries and high from 32 (R179). -/
def Plant.readyFollows (d : Plant) : Prop :=
  (d.free < Config.readyLowBelow → d.link.ready = false) ∧ (Config.readyHighAt ≤ d.free → d.link.ready = true)

/-- The case link after an event that queues no frame and keeps every command where it is: the ready line follows the free
count (R179), and an idle transmitter with a frame to send begins it (R178). -/
def Plant.linkAfter (d : Plant) : Link :=
  { d.link with
    ready := if d.free < 16 then false else if 32 ≤ d.free then true else d.link.ready
    tx := if d.link.broken ∨ d.link.tx.isSome ∨ d.link.queue = [] then d.link.tx else some d.link.flagsByte }

/-- What an application of the transit policy leaves of a slot (R132, R134, R136, R139, R141): the cap and the disposition of
the class's row; for a slot in service a suspension record, of that class and disposition, exactly while the cap is below the
requested level; and under REFUSE no held entry above the cap. -/
def Slot.underPolicy (t : Tables) (c : MotionClass) (i : SlotId) (r : Slot) : Prop :=
  r.transitCap = t.policyCap c (t.group i) ∧ r.transitDisposition = t.policyDisposition c (t.group i) ∧
    (r.outOfService = false →
      (r.suspension.isSome = true ↔ r.transitCap.rank < r.requested.rank) ∧
        ∀ q, r.suspension = some q → q.cls = c ∧ q.disposition = r.transitDisposition) ∧
    (r.transitDisposition = .refuse → ∀ h ∈ r.hold, h.requirement.rank ≤ r.transitCap.rank)

/-- A command that has entered the part: an accepted COMMAND frame (R42). -/
def State.enters (s : State) : Instr → Nat
  | .command f => if s.plant.link.broken = false ∧ f.wellFormed = true ∧ Config.acceptFree ≤ s.plant.free then 1 else 0
  | _ => 0

/-- A COMPLETION frame that has been sent upstream (R178). -/
def State.leaves (s : State) : Instr → Nat
  | .upstreamFrameSent =>
    if s.plant.link.tx.isSome ∧ (s.plant.link.queue.head?.map UpFrame.kind) = some .completion then 1 else 0
  | _ => 0

end Sys2Proof.Machine
end

