-- ==== Sys2Proof/Certificates/Slice0/Obligations.lean ====
section
/-! DEFINITION. The statements about the model, one `Prop` each. A command's own effect is stated as the plant it leaves
before the response of the blocks (`State.respond`, R102, R103, R50 to R55, R155, R157) or, where the response cannot undo it,
in the state after. -/

open Sys2Proof Sys2Proof.Machine

/-! ### Steps -/

/-- Commands are taken one at a time, the oldest first. -/
def Obligations.StepRunsFrontCommand : Prop :=
  ∀ (c : Instr) (rest : List Instr) (s : State),
    step { s with pending := c :: rest } = exec c { s with pending := rest }

/-- The model's choice of log 1: with nothing commanded, a due expiry is taken, or else the case clock advances by 1 ms. -/
def Obligations.StepOnEmptyQueue : Prop :=
  ∀ s : State, s.pending = [] →
    (∀ c rest, s.dueExpiries = c :: rest → step s = exec c s) ∧
      (s.dueExpiries = [] → step s = .next { s with clock := s.clock + 1 })

/-- Every command completes in every state, and leaves the queue of commands alone: nothing stops the part. That POWER_ON_RESET
keeps the queue is the model's choice, log 26, and that an event which cannot occur completes too rests on the choices of logs
2, 16 and 17. -/
def Obligations.EveryCommandGivesNext : Prop :=
  ∀ (c : Instr) (s : State), ∃ t, exec c s = .next t ∧ t.pending = s.pending

/-- What only some commands change: the tables (COMMIT), the staging buffer (STAGE_WRITE, COMMIT), the power lines, the motion
monitor; and of a slot its pins, its exposures and its stray completions. That POWER_ON_RESET keeps the levels of the pins is
the model's choice, log 4. -/
def Obligations.FramesOfCommands : Prop :=
  ∀ (c : Instr) (s t : State), exec c s = .next t →
    (c ≠ .powerOnReset →
      t.clock = s.clock ∧
      ((∀ r, c ≠ .commit r) → t.tables = s.tables) ∧
      ((∀ r, c ≠ .commit r) → (∀ r, c ≠ .stageWrite r) → t.staging = s.staging) ∧
      ((∀ l v, c ≠ .powerLineEdge l v) → (∀ l, c ≠ .powerFilterExpiry l) → t.power = s.power) ∧
      (actsOnMonitor c = false → t.monitor = s.monitor)) ∧
    ∀ i, let r := s.plant.slot i
      let r' := t.plant.slot i
      ((∀ l, c ≠ .presenceEdge i l) → r'.presenceIn = r.presenceIn) ∧
      ((∀ l, c ≠ .overcurrent i l) → r'.overcurrentIn = r.overcurrentIn) ∧
      (actsOnMonitor c = false → c ≠ .insertion i → (∀ q, c ≠ .exposureClear q) → r'.exposures = r.exposures) ∧
      (c ≠ .powerOnReset → c ≠ .insertion i → (∀ ep tag st p, c ≠ .sledCompletion i ep tag st p) →
        r'.strays = r.strays)

/-! ### Power-on reset -/

/-- R1: the slot records after power-on reset, with the transit cap and disposition of the ROLLING row that the transit
controller then writes. -/
def Obligations.PowerOnResetSlots : Prop :=
  ∀ s : State, ∃ t, exec .powerOnReset s = .next t ∧ ∀ i : SlotId,
    let r := t.plant.slot i
    (r.state = .empty ∧ r.requested = .stop ∧ r.pinned = false) ∧
    (r.transitCap = .spin ∧ r.transitDisposition = .freeze ∧ r.budgetCap = .none ∧ r.emergencyCap = .none) ∧
    (r.draining = false ∧ r.drainTimer = none ∧ r.unloadMark = .none ∧ r.unloadReissued = false ∧
      r.stoppingFromStart = false) ∧
    (r.faultReason = none ∧ r.sledCode = none) ∧
    (r.lane.spinAttempts = 0 ∧ r.lane.loadAttempts = 0) ∧
    (r.epoch = 0 ∧ r.outstanding = [] ∧ r.hold = []) ∧
    (r.idleUnload = .idle ∧ r.idleStop = .idle ∧ r.dwell = none ∧ r.suspension = none) ∧
    (r.exposures = 0 ∧ r.strays = 0 ∧ r.lane.inFlight = none) ∧
    r.presenceFilter = (if (s.plant.slot i).presenceIn then some ⟨0, 200⟩ else none) ∧
    r.loadClaim = false ∧ r.motorEnable = false

/-- The other blocks after power-on reset (Tables 5-1, 5-3, 6-1, 8-1, 9-2 and 10-1): the lanes, the arbiter, the
budget unit, the emergency record, the monitor with its conditions and switch filters, the case link, the clock, the
staging buffer and the eight tables, the transit policy and the motion thresholds among them. The pins keep their
levels: the model's choice, log 4. -/
def Obligations.PowerOnResetBlocks : Prop :=
  ∀ s : State, ∃ t, exec .powerOnReset s = .next t ∧
    t.clock = 0 ∧ t.staging = none ∧
    (∀ i, let l := (t.plant.slot i).lane
      l.nextOrder = 0 ∧ l.orderSlot = none ∧ l.cmdQueue = [] ∧ l.tx = none ∧ l.rxPartial = none) ∧
    (t.plant.arb.queue = [] ∧ t.plant.arb.candidate = none ∧ t.plant.arb.lastGranted = 15 ∧
      t.plant.arb.stagger = none ∧ t.plant.arb.hold = false) ∧
    (t.plant.budget.powerState = .battery ∧ t.plant.budget.budget = 90 ∧ t.plant.budget.committed = 0 ∧
      t.plant.budget.shed = false ∧ t.plant.budget.startClaim = false) ∧
    (t.plant.emg.latched = false ∧ t.plant.emg.sources = SourceSet.empty ∧ t.plant.emg.firstSource = none ∧
      t.plant.emg.firstTime = none ∧ t.plant.emg.phase = none ∧ t.plant.emg.cap = .none ∧ t.plant.emg.settle = none) ∧
    (t.monitor.window = [] ∧ t.monitor.sensor = .filling ∧ t.monitor.restoring = false ∧
      t.monitor.sensorTimer = some ⟨0, 50⟩ ∧ t.monitor.classifier = .still ∧ t.monitor.cls = .rolling ∧
      t.monitor.poised = ⟨false, none, none⟩ ∧ t.monitor.rolling = ⟨false, none, none⟩ ∧
      t.monitor.tilted = ⟨false, none, none⟩ ∧ t.monitor.jolt = ⟨false, none, none⟩ ∧
      t.monitor.fall = ⟨false, none, none⟩) ∧
    (∀ w, (t.monitor.switch w).value = false ∧
      (t.monitor.switch w).level = (s.monitor.switch w).level ∧
      (t.monitor.switch w).timer = (if (s.monitor.switch w).level then some ⟨0, 20⟩ else none)) ∧
    (∀ l, (t.power.line l).value = false ∧
      (t.power.line l).level = (s.power.line l).level ∧
      (t.power.line l).timer = (if (s.power.line l).level then some ⟨0, 10⟩ else none)) ∧
    (t.plant.link.queue = [] ∧ t.plant.link.tx = none ∧ t.plant.link.framer = none ∧ t.plant.link.ready = true ∧
      t.plant.link.linkError = false ∧ t.plant.link.events = [] ∧ t.plant.link.overrun = false) ∧
    (t.tables.mode = .arrival ∧ t.tables.maxStarts = 2 ∧ t.tables.staggerMs = 2000 ∧ t.tables.holdLimitMs = 10000 ∧
      t.tables.drainLimitMs = 5000 ∧ t.tables.autoClear = false ∧ t.tables.settleMs = 30000) ∧
    (∀ i : SlotId, t.tables.profile i = 0 ∧ t.tables.group i = 0 ∧ t.tables.priority i = 4 ∧ t.tables.wake i = true ∧
      t.tables.holdListLimit i = 6 ∧ t.tables.idleUnloadMs i = 30000 ∧ t.tables.idleStopMs i = 300000 ∧
      t.tables.spinDraw i = 25 ∧ t.tables.runDraw i = 8 ∧ t.tables.loadDraw i = 2 ∧ t.tables.spinUpMs i = 20000 ∧
      t.tables.loadMs i = 5000 ∧ t.tables.unloadMs i = 3000 ∧ t.tables.spinDownMs i = 30000 ∧
      t.tables.spinRetries i = 2 ∧ t.tables.loadRetries i = 2 ∧ t.tables.dwellMs i = 5000 ∧
      t.tables.slotOfUnit i.val = some i) ∧
    t.tables.profiles =
      (List.replicate 8 ([25, 8, 2, 20, 0x13, 0x88, 0x0B, 0xB8, 30, 2, 2, 5, 0, 0, 0, 0] : List Byte)).flatten ∧
    (∀ opcode, t.tables.cmdClass opcode = .media ∧ t.tables.trapAction opcode = none) ∧
    (t.tables.budgetOf .shore = 200 ∧ t.tables.budgetOf .battery = 90 ∧ t.tables.budgetOf .reserve = 30) ∧
    (∀ group, group < 4 → ∀ c, (t.tables.policyCap c group, t.tables.policyDisposition c group, t.tables.emergencyFlag c) =
      match c with
      | .still => (.load, .hold, false)
      | .poised => (.spin, .hold, false)
      | .rolling => (.spin, .freeze, false)
      | .tilted => (.stop, .freeze, false)
      | .jolt => (.spin, .hold, true)
      | .fall => (.stop, .hold, true)) ∧
    (t.tables.shock = 2500 ∧ t.tables.fallThreshold = 300 ∧ t.tables.fallMs = 60 ∧ t.tables.rollingThreshold = 150 ∧
      t.tables.rollingCount = 6 ∧ t.tables.tiltThreshold = 800 ∧ t.tables.tiltMs = 1000 ∧ t.tables.poisedSettleMs = 5000 ∧
      t.tables.rollingSettleMs = 10000 ∧ t.tables.tiltSettleMs = 5000 ∧ t.tables.joltHoldMs = 2000 ∧
      t.tables.sensorMs = 50 ∧ t.tables.blindClass = .rolling ∧ t.tables.brakeInUse = true)

/-! ### COMMAND frames -/

/-- The arrival checks in their order; the first that fails refuses the command, which is answered at once and entered
nowhere. -/
def Obligations.CommandRefusedAtArrival : Prop :=
  ∀ (f : CommandFrame) (s : State), s.accepts → f.wellFormed = true →
    let refusedWith := fun disp =>
      exec (.command f) s = .next (s.framed.respond (fun _ d => d.push (completionFrame f.unit f.tag disp 0 [])))
    (s.tables.slotOfUnit f.unit.toNat = none → refusedWith .noUnit) ∧
    ∀ i, s.tables.slotOfUnit f.unit.toNat = some i →
      let r := s.plant.slot i
      let opcode := f.payload.headD 0
      let req := requirementOf (s.tables.cmdClass opcode) (actionOf s.tables opcode)
      let inUse := (∃ h ∈ r.hold, h.tag = f.tag) ∨ (∃ o ∈ r.outstanding, o.tag = f.tag)
      (r.state = .empty → refusedWith .noSled) ∧
      (r.state = .faulted → refusedWith .slotFault) ∧
      (r.state ≠ .empty → r.state ≠ .faulted → inUse → refusedWith .dupTag) ∧
      (r.state ≠ .empty → r.state ≠ .faulted → ¬inUse → r.transitDisposition = .refuse → r.transitCap.rank < req.rank →
        refusedWith .transitRefused)

/-- R46: a command that passes the arrival checks is forwarded at once under the five conditions (R48: a new outstanding entry
with its tag, epoch and time, and its frame in the lane's queue), or else joins the tail of the hold list with its hold timer
(R57) and what was captured from the class map (R44), or is refused HOLD_FULL. -/
def Obligations.CommandForwardedOrHeld : Prop :=
  ∀ (f : CommandFrame) (s : State) (i : SlotId), s.accepts → f.wellFormed = true →
    s.tables.slotOfUnit f.unit.toNat = some i →
    let r := s.plant.slot i
    let opcode := f.payload.headD 0
    let cls := s.tables.cmdClass opcode
    let req : Level := match cls with
      | .free => .stop
      | .spindle => .spin
      | .media => .load
      | .trap => match s.tables.trapAction opcode with
        | some .toSpin => .spin
        | some .toLoad => .load
        | some .toStop | some .report | none => .stop
    let limit := s.tables.holdLimitMs
    let suspendedFrozen := r.suspension.map Suspension.disposition = some .freeze
    r.state ≠ .empty → r.state ≠ .faulted → (∀ h ∈ r.hold, h.tag ≠ f.tag) → (∀ o ∈ r.outstanding, o.tag ≠ f.tag) →
    (r.transitDisposition = .refuse → req.rank ≤ r.transitCap.rank) →
    (r.hold = [] ∧ cls ≠ .trap ∧ r.serves req = true ∧ r.outstanding.length < 4 ∧ r.draining = false →
      exec (.command f) s = .next (s.framed.respond (fun e d => d.put e i { r with
        outstanding := r.outstanding ++ [⟨f.tag, r.epoch, s.clock⟩],
        lane := Lane.begin { r.lane with cmdQueue := r.lane.cmdQueue ++ [.command r.epoch f.tag f.payload] } }))) ∧
    (¬(r.hold = [] ∧ cls ≠ .trap ∧ r.serves req = true ∧ r.outstanding.length < 4 ∧ r.draining = false) →
      (s.plant.poolUsed < 48 ∧ r.hold.length < s.tables.holdListLimit i →
        exec (.command f) s = .next (s.framed.respond (fun e d => d.put e i { r with
          hold := r.hold ++ [{
            tag := f.tag
            cls := cls
            requirement := req
            payload := f.payload
            timer := if suspendedFrozen then .frozen limit else .running ⟨s.clock, limit⟩
            action := if cls = .trap then s.tables.trapAction opcode else none
            emulating := false
            asHead := false }] }))) ∧
      (¬(s.plant.poolUsed < 48 ∧ r.hold.length < s.tables.holdListLimit i) →
        exec (.command f) s =
          .next (s.framed.respond (fun _ d => d.push (completionFrame f.unit f.tag .holdFull 0 [])))))

/-! ### The case link -/

/-- R176: link-error is set by a discard, cleared by UNIT_STATUS after its reply has carried it, clear after reset, left by a
break, and carried in bit 1 of the flags byte. -/
def Obligations.LinkErrorFlag : Prop :=
  (∀ cause s, s.plant.link.broken = false → exec (.downstreamFrameDiscarded cause) s =
    .next { s with plant := { s.plant with link := { s.plant.link with framer := none, linkError := true } } }) ∧
  (∀ tag (s : State), s.accepts → ∃ t data, exec (.unitStatus ⟨tag, []⟩) s = .next t ∧
    s.repliedTo t ⟨tag, []⟩ 0x02 .ok data ∧ data.drop 48 = [if s.plant.link.linkError then 1 else 0] ∧
    t.plant.link.linkError = false) ∧
  (∀ s, ∃ t, exec .powerOnReset s = .next t ∧ t.plant.link.linkError = false) ∧
  (∀ s, ∃ t, exec .lineBreak s = .next t ∧ t.plant.link.linkError = s.plant.link.linkError) ∧
  (∀ l : Link, l.flagsByte.getLsbD 1 = l.linkError ∧ l.flagsByte.getLsbD 0 = l.attention)

/-- A break stops reception and transmission and keeps every queued frame; its end begins the oldest frame again with its flags
taken anew; nothing else changes. A break during a break, and an end of one outside a break, change nothing: the model's
choice, log 17. -/
def Obligations.BreakAndItsEnd : Prop :=
  ∀ s : State,
    (s.plant.link.broken = false → exec .lineBreak s = .next { s with plant := { s.plant with link :=
      { s.plant.link with framer := none, tx := none, broken := true } } }) ∧
    (s.plant.link.broken = true → exec .lineBreakEnd s = .next { s with plant := { s.plant with link :=
      { s.plant.link with
        broken := false
        tx := if s.plant.link.tx.isSome ∨ s.plant.link.queue = [] then s.plant.link.tx
          else some s.plant.link.flagsByte } } }) ∧
    (s.plant.link.broken = true → exec .lineBreak s = .next s) ∧
    (s.plant.link.broken = false → exec .lineBreakEnd s = .next s)

/-- The end of an upstream frame: it leaves the queue, the next one begins with the flags as they stand, and the ready line
follows the free count. With no frame being sent none ends: the model's choice, log 16. -/
def Obligations.UpstreamFrameSentNext : Prop :=
  ∀ s : State,
    (∀ b, s.plant.link.tx = some b → ∃ t, exec .upstreamFrameSent s = .next t ∧
      t = { s with plant := { s.plant with link := { s.plant.link with
        queue := s.plant.link.queue.tail
        tx := if s.plant.link.broken ∨ s.plant.link.queue.tail = [] then none else some s.plant.link.flagsByte
        ready := t.plant.link.ready } } } ∧
      (t.plant.free < 16 → t.plant.link.ready = false) ∧ (32 ≤ t.plant.free → t.plant.link.ready = true) ∧
      (16 ≤ t.plant.free → t.plant.free < 32 → t.plant.link.ready = s.plant.link.ready)) ∧
    (s.plant.link.tx = none → exec .upstreamFrameSent s = .next s)

/-- A record is appended while the list holds fewer than 32, and discarded with overrun set otherwise. At a rise of attention
one ATTENTION frame is queued if an entry is free. -/
def Obligations.EventAppended : Prop :=
  ∀ (now : Clock) (ev : Event) (d : Plant),
    let t := d.record now ev
    (d.link.events.length < 32 →
      t.link.events = d.link.events ++ [⟨now, ev⟩] ∧ t.link.overrun = d.link.overrun) ∧
    (32 ≤ d.link.events.length → t.link.events = d.link.events ∧ t.link.overrun = true) ∧
    t.link.queue = (if (d.link.events = [] ∧ d.link.overrun = false) ∧ d.free ≠ 0
      then d.link.queue ++ [attentionFrame] else d.link.queue) ∧
    t.link.attention = true ∧ t.slots = d.slots ∧ t.arb = d.arb ∧ t.budget = d.budget ∧ t.emg = d.emg

/-! ### Unit requests: the checks, and the requests that read -/

/-- The checks every request passes, in their order: the code, the payload length of Table 11-3, and the complement of a slot
mask. A refused request is answered and changes no state. -/
def Obligations.RequestRefused : Prop :=
  ∀ (code : Byte) (r : Request) (s : State), s.accepts → r.wellFormed = true →
    (knownRequestCodes.contains code = false →
      exec (requestOf code r) s = .next (s.answered r code .unknownRequest [])) ∧
    (∀ n, (code, n) ∈ ([(0x01, 1), (0x02, 1), (0x03, 3), (0x04, 2), (0x10, 7), (0x11, 2), (0x18, 1), (0x19, 1), (0x1A, 1),
        (0x20, 1), (0x21, 1), (0x29, 1), (0x2A, 6), (0x2B, 4), (0x30, 5)] : List (Byte × Nat)) →
      r.args.length + 1 ≠ n → exec (requestOf code r) s = .next (s.answered r code .badLength [])) ∧
    (code = 0x28 → r.args.length + 1 < 4 → exec (requestOf code r) s = .next (s.answered r code .badLength [])) ∧
    (code = 0x10 ∧ r.args.length = 6 ∨ code = 0x30 ∧ r.args.length = 4 →
      BitVec.ofNat 16 (u16At r.args 2) ≠ ~~~ (BitVec.ofNat 16 (u16At r.args 0)) →
      exec (requestOf code r) s = .next (s.answered r code .maskCheck []))

/-- R185, R167 with R190, and R174: UNIT_QUERY, STAGE_READ and TABLE_READ answer and change nothing. -/
def Obligations.ReadRequestsAnswered : Prop :=
  ∀ (tag : Byte) (s : State), s.accepts →
    (exec (.unitQuery ⟨tag, []⟩) s = .next (s.answered ⟨tag, []⟩ 0x01 .ok
      [0x4B, 0x16, 1, 16, 16, 48, 12, 4, 128, 32, 64, 8, 8, 4])) ∧
    (s.staging = none → exec (.stageRead ⟨tag, []⟩) s = .next (s.answered ⟨tag, []⟩ 0x29 .ok [0xFF, 0, 0, 0, 0])) ∧
    (∀ g, s.staging = some g → exec (.stageRead ⟨tag, []⟩) s = .next (s.answered ⟨tag, []⟩ 0x29 .ok
      ([g.table.code, byteOf g.start, byteOf (g.start + g.data.length - 1)] ++ be16 (check16 g.data).toNat ++
        g.data.take 57))) ∧
    (∀ table offset length : Byte,
      let r : Request := ⟨tag, [table, offset, length]⟩
      (7 < table.toNat → exec (.tableRead r) s = .next (s.answered r 0x2B .badTable [])) ∧
      (∀ id, TableId.ofCode table.toNat = some id →
        (1 ≤ length.toNat ∧ length.toNat ≤ 60 ∧ offset.toNat + length.toNat - 1 < id.size →
          exec (.tableRead r) s = .next (s.answered r 0x2B .ok
            ([table, offset] ++ ((s.tables.bytes id).drop offset.toNat).take length.toNat))) ∧
        (¬(1 ≤ length.toNat ∧ length.toNat ≤ 60 ∧ offset.toNat + length.toNat - 1 < id.size) →
          exec (.tableRead r) s = .next (s.answered r 0x2B .outOfRange []))))

/-- UNIT_STATUS: the 49 bytes of Table 11-5 as they stand, the free count counted after the reply, and link-error cleared. -/
def Obligations.UnitStatusReply : Prop :=
  ∀ (tag : Byte) (s : State), s.accepts →
    ∃ t data, exec (.unitStatus ⟨tag, []⟩) s = .next t ∧ s.repliedTo t ⟨tag, []⟩ 0x02 .ok data ∧
      t = { s with plant := { s.plant with link := t.plant.link } } ∧
      t.plant.link.linkError = false ∧ t.plant.link.events = s.plant.link.events ∧
      t.plant.link.overrun = s.plant.link.overrun ∧ data.length = 49 ∧
      data.take 5 = [s.plant.budget.powerState.code] ++ be16 s.plant.budget.budget ++ be16 s.plant.budget.committed ∧
      (data.drop 5).take 6 = [if s.plant.budget.shed then 1 else 0, s.monitor.cls.code, s.monitor.sensor.code,
        if s.plant.emg.latched then 1 else 0, s.plant.emg.sources.byte,
        match s.plant.emg.firstSource with | some q => q.code | none => 0xFF] ∧
      (data.drop 11).take 4 = be32 ((s.plant.emg.firstTime.map BitVec.toNat).getD 0) ∧
      (data.drop 15).take 2 = [match s.plant.emg.phase with | some .parking => 0 | some .parked => 1 | none => 0xFF,
        s.plant.emg.cap.code] ∧
      (data.drop 17).take 4 = be32 ((s.plant.emg.settle.map (fun m => m.left s.clock)).getD 0) ∧
      (data.drop 21).take 2 = [if s.plant.arb.hold then 1 else 0, byteOf s.plant.arb.queue.length] ∧
      (data.drop 23).take 16 =
        (s.plant.arb.queue.map (fun (i : SlotId) => byteOf i.val) ++ List.replicate 16 (0xFF : Byte)).take 16 ∧
      (data.drop 39).take 1 = [byteOf s.plant.arb.lastGranted.val] ∧
      (data.drop 40).take 2 = be16 ((s.plant.arb.stagger.map (fun m => m.left s.clock)).getD 0) ∧
      (data.drop 42).take 2 = [byteOf s.plant.poolUsed, byteOf t.plant.free] ∧
      (data.drop 44).take 4 = be32 s.clock.toNat ∧
      data.drop 48 = [if s.plant.link.linkError then 1 else 0]

/-- SLOT_STATUS: a slot above 15 or another section is refused; RECORD gives the 62 bytes of Table 11-6 and ENTRIES those of
Table 11-7. With no order in flight the flag at offset 35 is 0: R189 gives no absent indication for a flag, and this byte is
the model's choice, log 33. -/
def Obligations.SlotStatusReply : Prop :=
  ∀ (tag slot section_ : Byte) (s : State), s.accepts →
    let q : Request := ⟨tag, [slot, section_]⟩
    (15 < slot.toNat ∨ 1 < section_.toNat → exec (.slotStatus q) s = .next (s.answered q 0x03 .outOfRange [])) ∧
    ∀ i : SlotId, slot.toNat = i.val →
      let r := s.plant.slot i
      let time := fun (o : Option Timer) => (o.map (fun m => m.left s.clock)).getD 0
      (section_ = 0 → ∃ data, exec (.slotStatus q) s = .next (s.answered q 0x03 .ok data) ∧ data.length = 62 ∧
        data.take 7 = [slot, r.state.code, r.requested.code, yesNo r.pinned, r.transitCap.code, r.budgetCap.code,
          r.emergencyCap.code] ∧
        (data.drop 7).take 4 = [r.effective.code, match r.available with | some l => l.code | none => 0xFF,
          byteOf (r.draw s.tables i), yesNo r.draining] ∧
        (data.drop 11).take 2 = be16 (time r.drainTimer) ∧
        (data.drop 13).take 4 = [r.unloadMark.code, yesNo r.unloadReissued,
          match r.faultReason with | some w => w.code | none => 0, r.sledCode.getD 0] ∧
        (data.drop 17).take 5 = [byteOf r.lane.spinAttempts, byteOf r.lane.loadAttempts, byteOf r.epoch.val,
          byteOf r.outstanding.length, byteOf r.hold.length] ∧
        (data.drop 22).take 10 = [r.idleUnload.condition] ++ be32 (r.idleUnload.left s.clock) ++
          [r.idleStop.condition] ++ be32 (r.idleStop.left s.clock) ∧
        (data.drop 32).take 2 = be16 (time r.dwell) ∧
        (data.drop 34).take 7 = (match r.lane.inFlight with
          | some o => [o.kind.code, o.kind.flag, byteOf o.number.val] ++ be32 (o.timer.left s.clock)
          | none => [0, 0, 0xFF, 0, 0, 0, 0]) ∧
        (data.drop 41).take 5 = be16 r.exposures ++ be16 r.strays ++ [r.transitDisposition.code] ∧
        data.drop 46 = (match r.suspension with
          | some p => [1, p.cls.code] ++ be32 p.began.toNat ++ [p.level.code] ++ be32 (p.unloadRem.getD 0) ++
            be32 (p.stopRem.getD 0) ++ [yesNo (p.disposition = .freeze)]
          | none => List.replicate 16 0)) ∧
      (section_ = 1 → exec (.slotStatus q) s = .next (s.answered q 0x03 .ok
        ([slot, byteOf (16 * r.outstanding.length + r.hold.length)] ++
          r.outstanding.flatMap (fun o => [o.tag] ++ be16 o.time.toNat) ++
          r.hold.flatMap (fun h => [h.tag, byteOf (h.cls.code.toNat + 4 * (trapActionCode h.action).toNat +
            32 * h.emulating.toNat + 64 * h.timer.isFrozen.toNat)] ++ be16 (h.timer.left s.clock)))))

/-- R183: EVENT_READ answers with overrun as it stood, the number of records left and the oldest records, removes them, and
clears overrun when the list is then empty; a maximum outside 1 to 5 is refused. -/
def Obligations.EventReadReply : Prop :=
  ∀ (tag n : Byte) (s : State), s.accepts →
    let q : Request := ⟨tag, [n]⟩
    let l := s.plant.link
    (n.toNat < 1 ∨ 5 < n.toNat → exec (.eventRead q) s = .next (s.answered q 0x04 .outOfRange [])) ∧
    (1 ≤ n.toNat → n.toNat ≤ 5 → ∃ t, exec (.eventRead q) s = .next t ∧
      t = { s with plant := { s.plant with link := t.plant.link } } ∧
      t.plant.link.queue = l.queue ++ [replyFrame tag 0x04 .ok
        ([yesNo l.overrun, byteOf (l.events.length - n.toNat)] ++ (l.events.take n.toNat).flatMap EventRecord.bytes)] ∧
      t.plant.link.events = l.events.drop n.toNat ∧
      t.plant.link.overrun = (l.overrun && decide (n.toNat < l.events.length)) ∧
      t.plant.link.attention = decide (n.toNat < l.events.length))

/-! ### Unit requests that act -/

/-- MOTION: a level or keep flag outside its codes is refused OUT_OF_RANGE; otherwise the masked slots are taken in
ascending order, each one in service getting the level and the pin with its contradicted entries answered
LEVEL_CHANGED, and the reply names those that were EMPTY or FAULTED when reached. A changed effective level makes a
STOPPED slot queue, a QUEUED one leave the queue, a STARTING one spin down, a SPUN one claim its load, withdraw the
claim or spin down, a LOADING one unload, and a LOADED one unload, begin to drain or end its drain; an order issued
supersedes the one in flight. That the head of each slot taken is examined first, and that the budget unit then
responds before the next slot is taken, is the model's choice, log 35. -/
def Obligations.MotionRequestTaken : Prop :=
  (∀ (r : Request) (s : State), s.accepts → r.args.length = 6 → reqMaskOk r = true →
    (2 < u8At r.args 4 ∨ 1 < u8At r.args 5 → exec (.motion r) s = .next (s.answered r 0x10 .outOfRange [])) ∧
    (∀ lv, Level.ofCode (u8At r.args 4) = some lv → u8At r.args 5 ≤ 1 →
      let out := motionAll s.env (reqMask r) lv (u8At r.args 5 == 1) allSlots s.framed.plant
      exec (.motion r) s = .next (s.answeredWith (fun e _ => react e out.1) r 0x10 .ok (be16 (maskOf out.2))))) ∧
  (∀ (e : Env) (m : Word16) (lv : Level) (keep : Bool) (i : SlotId) (rest : List SlotId) (d : Plant),
    let next := if inMask m i && !(d.slot i).outOfService then motionSlot e lv keep i d else d
    motionAll e m lv keep (i :: rest) d = ((motionAll e m lv keep rest next).1,
      (if inMask m i && (d.slot i).outOfService then [i] else []) ++ (motionAll e m lv keep rest next).2)) ∧
  (∀ (e : Env) (m : Word16) (lv : Level) (keep : Bool) (d : Plant), motionAll e m lv keep [] d = (d, [])) ∧
  (∀ (e : Env) (lv : Level) (keep : Bool) (i : SlotId) (d : Plant),
    let d1 := writeRequested e i lv keep d
    let named := fun h : HoldEntry => decide (lv.rank < h.requirement.rank) || (h.emulating && h.requirement != lv)
    let d2 := answerHeld e i .levelChanged named d1
    motionSlot e lv keep i d = budgetReact e (serveHead e i d2) ∧
    (d1.slot i).requested = lv ∧ (d1.slot i).pinned = keep ∧ (d1.slot i).outstanding = (d.slot i).outstanding ∧
    (d2.slot i).requested = lv ∧ (d2.slot i).pinned = keep ∧
    (d2.slot i).hold = (d1.slot i).hold.filter (fun h => !named h) ∧
    (d2.slot i).outstanding = (d1.slot i).outstanding ∧ (d2.slot i).motion = (d1.slot i).motion ∧
    (∀ j, j ≠ i → d2.slot j = d.slot j) ∧
    d2.link.queue = d1.link.queue ++ answersTo e.tables i .levelChanged (((d1.slot i).hold.filter named).map HoldEntry.tag)) ∧
  (∀ (e : Env) (i : SlotId) (d : Plant), let r := d.slot i
    let t := act e i d
    let r' := t.slot i
    let unloads := r'.motion = r.motion.unloading (.unload false) r.lane.nextOrder ⟨e.clock, e.tables.unloadMs i⟩ .normal
    (∀ lv keep, let d0 := d.put e i { r with
        requested := lv
        pinned := keep
        idleUnload := if r.suspension = none then r.idleUnload.thaw else r.idleUnload
        idleStop := if r.suspension = none then r.idleStop.thaw else r.idleStop }
      writeRequested e i lv keep d = settleSuspension e i (if (d0.slot i).effective = r.effective then d0 else act e i d0)) ∧
    (r.state = .stopped → (r.effective ≠ .stop ∧ r.dwell = none →
        r'.motion = { r.motion with state := .queued } ∧ t.arb.queue = d.arb.queue ++ [i]) ∧
      (r.effective = .stop ∨ r.dwell ≠ none → t = d)) ∧
    (r.state = .queued → (r.effective = .stop →
        r'.motion = { r.motion with state := .stopped } ∧ t.arb.queue = d.arb.queue.filter (fun j => j != i)) ∧
      (r.effective ≠ .stop → t = d)) ∧
    (r.state = .starting → (r.effective = .stop →
        r'.motion = r.motion.stopping false r.lane.nextOrder ⟨e.clock, e.tables.spinDownMs i⟩ true ∧
          r'.loadClaim = false) ∧
      (r.effective ≠ .stop → t = d)) ∧
    (r.state = .spun → (r.effective ≠ .stop → r'.motion = r.motion ∧ r'.loadClaim = decide (r.effective = .load)) ∧
      (r.effective = .stop →
        r'.motion = r.motion.stopping false r.lane.nextOrder ⟨e.clock, e.tables.spinDownMs i⟩ false ∧
          r'.loadClaim = false)) ∧
    (r.state = .loading → (r.effective = .load → t = d) ∧ (r.effective ≠ .load → unloads)) ∧
    (r.state = .loaded →
      (r.draining = true → r.effective = .load → r'.motion = { r.motion with draining := false, drainTimer := none }) ∧
      (r.draining = true → r.effective ≠ .load → t = d) ∧ (r.draining = false → r.effective = .load → t = d) ∧
      (r.draining = false → r.effective ≠ .load → r.outstanding = [] → unloads) ∧
      (r.draining = false → r.effective ≠ .load → r.outstanding ≠ [] → r'.motion = { r.motion with
        draining := true, drainTimer := some ⟨e.clock, e.tables.drainLimitMs⟩ })) ∧
    (r.state ∈ [SlotState.empty, .faulted, .unloading, .stopping] → t = d) ∧
    r'.outstanding = r.outstanding ∧ r'.requested = r.requested ∧ (∀ j, j ≠ i → t.slot j = d.slot j) ∧
    (∀ kind, let frame := LaneFrame.order kind r.lane.nextOrder
      (Slot.issue e i kind r).lane = { r.lane with
        nextOrder := r.lane.nextOrder + 1
        inFlight := some ⟨kind, r.lane.nextOrder, ⟨e.clock, e.tables.orderMs i kind⟩⟩
        orderSlot := if r.lane.tx = none then none else some frame
        tx := if r.lane.tx = none then some frame else r.lane.tx }))

/-- R24: SLOT_RECOVER refuses a slot number above 15 and a slot that is not FAULTED, and otherwise returns the slot to STOPPED
with its attempts, fault, level and pin reset and the rest kept, recording SLOT_RECOVERED. -/
def Obligations.SlotRecoverTaken : Prop :=
  ∀ (tag slot : Byte) (s : State), s.accepts →
    let q : Request := ⟨tag, [slot]⟩
    (15 < slot.toNat → exec (.slotRecover q) s = .next (s.answered q 0x11 .outOfRange [])) ∧
    ∀ i : SlotId, slot.toNat = i.val →
      let r := s.plant.slot i
      (r.state ≠ .faulted → exec (.slotRecover q) s = .next (s.answered q 0x11 .notFaulted [])) ∧
      (r.state = .faulted → ∃ d1 : Plant,
        exec (.slotRecover q) s = .next (s.answeredWith (fun e _ => react e d1) q 0x11 .ok []) ∧
        (d1.slot i).motion = { r.motion with
          state := .stopped, faultReason := none, sledCode := none, spinAttempts := 0, loadAttempts := 0,
          dwell := if s.tables.dwellMs i = 0 then none else some ⟨s.clock, s.tables.dwellMs i⟩ } ∧
        (d1.slot i).requested = .stop ∧ (d1.slot i).pinned = false ∧ (d1.slot i).motorEnable = false ∧
        ((d1.slot i).transitCap, (d1.slot i).budgetCap, (d1.slot i).emergencyCap, (d1.slot i).exposures,
          (d1.slot i).strays, (d1.slot i).lane.nextOrder) =
          (r.transitCap, r.budgetCap, r.emergencyCap, r.exposures, r.strays, r.lane.nextOrder) ∧
        (∀ j, j ≠ i → d1.slot j = s.plant.slot j) ∧
        (s.plant.link.events.length < 32 →
          d1.link.events = s.plant.link.events ++ [⟨s.clock, .slotRecovered i⟩]))

/-- START_HOLD sets the arbiter hold and START_RELEASE clears it, each answered OK; after START_HOLD no start claim is
presented. -/
def Obligations.StartHoldAndRelease : Prop :=
  ∀ (tag : Byte) (s : State), s.accepts →
    (∃ t, exec (.startHold ⟨tag, []⟩) s = .next t ∧ s.repliedTo t ⟨tag, []⟩ 0x18 .ok [] ∧
      t.plant.arb.hold = true ∧ t.plant.budget.startClaim = false) ∧
    (∃ t, exec (.startRelease ⟨tag, []⟩) s = .next t ∧ s.repliedTo t ⟨tag, []⟩ 0x19 .ok [] ∧
      t.plant.arb.hold = false) ∧
    (∀ hold, exec (if hold then .startHold ⟨tag, []⟩ else .startRelease ⟨tag, []⟩) s =
      .next (s.answeredWith (fun e d => react e { d with arb := { d.arb with hold := hold } }) ⟨tag, []⟩
        (if hold then 0x18 else 0x19) .ok []))

/-- START_CLEAR: the queued slots, oldest first, get level STOP with the pin clear, leave the queue for STOPPED, and have the
held entries above STOP answered CLEARED, an emulating head that meets STOPPED being answered EMULATED before; the last-granted
slot becomes 15, the stagger timer expires, and the reply names the slots. -/
def Obligations.StartClearTaken : Prop :=
  (∀ (tag : Byte) (s : State), s.accepts → ∃ d1 : Plant,
    exec (.startClear ⟨tag, []⟩) s = .next (s.answeredWith (fun e _ => react e
      { d1 with arb := { d1.arb with lastGranted := 15, stagger := none } }) ⟨tag, []⟩ 0x1A .ok
      (be16 (maskOf s.plant.arb.queue))) ∧
    d1 = s.plant.arb.queue.foldl (clearStart s.env) s.framed.plant ∧ d1.arb.hold = s.plant.arb.hold) ∧
  (∀ (e : Env) (d : Plant) (i : SlotId), (d.slot i).state = .queued → (d.slot i).effective ≠ .stop →
    let r := d.slot i
    let d1 := writeRequested e i .stop false d
    let emulated : List Byte := match (r.hold : List HoldEntry) with
      | h :: _ => if h.emulating = true ∧ h.requirement = .stop then [h.tag] else []
      | [] => []
    (d1.slot i).state = .stopped ∧ (d1.slot i).requested = .stop ∧ (d1.slot i).pinned = false ∧
    (d1.slot i).dwell = r.dwell ∧ d1.arb.queue = d.arb.queue.filter (fun j => j != i) ∧
    (d1.slot i).outstanding = r.outstanding ∧
    (d1.slot i).hold.map HoldEntry.tag = (r.hold.map HoldEntry.tag).drop emulated.length ∧
    d1.link.queue = d.link.queue ++ emulated.map (fun tag => completionFrame (e.tables.unitOfSlot i) tag .emulated 0
      [SlotState.stopped.code, Level.stop.code]) ∧
    ∃ d2, clearStart e d i = serveHead e i d2 ∧
      (d2.slot i).hold = (d1.slot i).hold.filter (fun h => h.requirement = .stop) ∧
      (d2.slot i).outstanding = (d1.slot i).outstanding ∧ (d2.slot i).state = .stopped ∧
      (d2.slot i).requested = .stop ∧ d2.arb = d1.arb ∧ (∀ j, j ≠ i → d2.slot j = d.slot j) ∧
      d2.link.queue = d1.link.queue ++
        answersTo e.tables i .cleared (((d1.slot i).hold.filter (fun h => h.requirement ≠ .stop)).map HoldEntry.tag))

/-- R158: PANIC_PARK is the source PANIC (`SourceTaken`), answered OK after the answers it gives. With the latch clear it
latches with cap SPIN and parks every slot whose heads may be out and that carries no FAULT mark; with the latch set it only
adds PANIC. -/
def Obligations.PanicParkTaken : Prop :=
  ∀ (tag : Byte) (s : State), s.accepts → ∃ t, exec (.panicPark ⟨tag, []⟩) s = .next t ∧
    s.repliedTo t ⟨tag, []⟩ 0x20 .ok [] ∧
    t = s.answeredWith (fun e d => react e (takeSource e .panic d)) ⟨tag, []⟩ 0x20 .ok [] ∧
    t.plant.emg.latched = true ∧ t.plant.emg.sources.panic = true ∧
    (s.plant.emg.latched = false →
      t.plant.emg.sources = ⟨false, false, false, true⟩ ∧ t.plant.emg.firstSource = some .panic ∧
      t.plant.emg.firstTime = some s.clock ∧ t.plant.emg.cap = .spin ∧
      ∀ i, let r := s.plant.slot i
        (r.headsOut = true ∧ ¬(r.state = .unloading ∧ r.unloadMark = .fault) →
          (t.plant.slot i).motion = { r.motion.unloading .emergencyUnload r.lane.nextOrder
            ⟨s.clock, s.tables.unloadMs i⟩ .emergency with epoch := r.epoch + 1 }) ∧
        (r.state = .unloading ∧ r.unloadMark = .fault → (t.plant.slot i).motion = r.motion)) ∧
    (s.plant.emg.latched = true →
      t.plant.emg.sources = { s.plant.emg.sources with panic := true } ∧
      t.plant.emg.firstSource = s.plant.emg.firstSource ∧ t.plant.emg.firstTime = s.plant.emg.firstTime ∧
      t.plant.emg.cap = s.plant.emg.cap ∧
      (s.plant.emg.phase = some .parked → t.plant.emg.phase = some .parked) ∧
      ∀ i, (s.plant.slot i).inert = true → (t.plant.slot i).motion = (s.plant.slot i).motion)

/-- A source taken. With the latch clear: the record, the parked slots, the cap in every slot, EMERGENCY_BEGAN, and the phase.
With it set: a new source is added and recorded, and POWER under SPIN lowers the cap to STOP; a source already in the set
changes nothing. A parked slot's outstanding commands are answered ABORTED_EMERGENCY, slot by slot ascending and oldest
forwarding first, and none of their frames waits on its lane; its held entries stay, and its head is then examined. The phase
is examined at every response: PARKING becomes PARKED when no slot is in UNLOADING under mark EMERGENCY, and EMERGENCY_PARKED
is recorded with the sources and the milliseconds since the first time; PARKED stays. -/
def Obligations.SourceTaken : Prop :=
  ∀ (e : Env) (q : EmgSource) (d : Plant),
    let cap : EmergencyCap := if q = .power then .stop else .spin
    let parks := fun r : Slot => r.headsOut && !(r.state == .unloading && r.unloadMark == .fault)
    let aborted := fun i => answersTo e.tables i .abortedEmergency ((d.slot i).outstanding.map OutEntry.tag)
    let unparked := fun d : Plant => ∃ i, (d.slot i).state = .unloading ∧ (d.slot i).unloadMark = .emergency
    let t := takeSource e q d
    let u := react e d
    (d.emg.latched = false →
      t.emg.latched = true ∧ t.emg.sources = SourceSet.empty.add q ∧ t.emg.firstSource = some q ∧
      t.emg.firstTime = some e.clock ∧ t.emg.cap = cap ∧ (∀ i, (t.slot i).emergencyCap = cap) ∧
      t.emg.phase = (if ∃ i, (t.slot i).parking = true then some .parking else some .parked) ∧
      (∀ i, let r := d.slot i
        r.headsOut = true ∧ ¬(r.state = .unloading ∧ r.unloadMark = .fault) →
          (t.slot i).motion = { r.motion.unloading .emergencyUnload r.lane.nextOrder ⟨e.clock, e.tables.unloadMs i⟩
            .emergency with epoch := r.epoch + 1 }) ∧
      (d.link.events.length < 32 → d.link.events ++ [⟨e.clock, .emergencyBegan q (allSlots.countP (fun i =>
        (d.slot i).headsOut && !((d.slot i).state == .unloading && (d.slot i).unloadMark == .fault)))⟩]
          <+: t.link.events)) ∧
    (d.emg.latched = false → ∃ fs, t.link.queue = d.link.queue ++ fs ∧
      fs.filter (fun f => f.kind = .completion ∧ f.payload.head? = some Disposition.abortedEmergency.code) =
        allSlots.flatMap (fun i => if parks (d.slot i) then aborted i else [])) ∧
    (d.emg.latched = true → d.emg.sources.has q = true → t = d) ∧
    (d.emg.latched = true → d.emg.sources.has q = false →
      let lowered := q = .power ∧ d.emg.cap = .spin
      t.emg = { d.emg with sources := d.emg.sources.add q, cap := if lowered then .stop else d.emg.cap } ∧
      (lowered → ∀ i, (t.slot i).emergencyCap = .stop) ∧ (¬lowered → t.slots = d.slots) ∧
      (d.link.events.length < 32 → t.link.events = d.link.events ++
        [⟨e.clock, .emergencySourceAdded q (if lowered then .stop else d.emg.cap)⟩])) ∧
    (∀ i, let r := d.slot i
      (parks r = false → parkSlot e d i = d) ∧
      (parks r = true → ∃ d1, parkSlot e d i = serveHead e i d1 ∧ d1.link.queue = d.link.queue ++ aborted i ∧
        (d1.slot i).motion = { r.motion.unloading .emergencyUnload r.lane.nextOrder ⟨e.clock, e.tables.unloadMs i⟩
          .emergency with epoch := r.epoch + 1 } ∧
        (d1.slot i).lane = r.lane.abortedFor .emergencyUnload ⟨e.clock, e.tables.unloadMs i⟩ ∧
        (d1.slot i).outstanding = [] ∧ (d1.slot i).hold = r.hold ∧ ∀ j, j ≠ i → d1.slot j = d.slot j)) ∧
    (d.emg.phase ≠ some .parking ∨ unparked d → examinePhase e d = d) ∧
    (d.emg.phase = some .parking → ¬unparked d → ∀ first, d.emg.firstTime = some first →
      examinePhase e d = Plant.record e.clock (.emergencyParked d.emg.sources (e.clock - first).toNat)
        { d with emg := { d.emg with phase := some .parked } }) ∧
    (d.emg.phase ≠ some .parking → u.emg.phase = d.emg.phase) ∧
    (d.emg.phase = some .parking → (unparked u → u.emg.phase = some .parking) ∧
      (¬unparked u → u.emg.phase = some .parked ∧ ∀ first, d.emg.firstTime = some first → u.link.overrun = false →
        u.link.events.getLast? = some ⟨e.clock, .emergencyParked d.emg.sources (e.clock - first).toNat⟩))

/-- EMERGENCY_CLEAR with the latch clear answers OK; while PARKING it is refused NOT_PARKED, and with a source condition
present SOURCE_PRESENT; otherwise the latch clears, the record is emptied, and EMERGENCY_CLEARED is recorded. -/
def Obligations.EmergencyClearTaken : Prop :=
  ∀ (tag : Byte) (s : State), s.accepts →
    let q : Request := ⟨tag, []⟩
    let present := ((s.monitor.cls = .jolt ∨ s.monitor.cls = .fall) ∧ s.tables.emergencyFlag s.monitor.cls = true) ∨
      s.plant.budget.powerState = .holdup
    (s.plant.emg.latched = false → exec (.emergencyClear q) s = .next (s.answered q 0x21 .ok [])) ∧
    (s.plant.emg.latched = true → s.plant.emg.phase ≠ some .parked →
      exec (.emergencyClear q) s = .next (s.answered q 0x21 .notParked [])) ∧
    (s.plant.emg.latched = true → s.plant.emg.phase = some .parked → present →
      exec (.emergencyClear q) s = .next (s.answered q 0x21 .sourcePresent [])) ∧
    (s.plant.emg.latched = true → s.plant.emg.phase = some .parked → ¬present → ∃ d1 : Plant,
      exec (.emergencyClear q) s = .next (s.answeredWith (fun e _ => react e d1) q 0x21 .ok []) ∧
      d1.emg = ⟨false, SourceSet.empty, none, none, none, .none, none⟩ ∧ (∀ i, (d1.slot i).emergencyCap = .none) ∧
      (s.plant.link.events.length < 32 → d1.link.events = s.plant.link.events ++
        [⟨s.clock, .emergencyCleared .requested s.plant.emg.sources⟩]))

/-- R129: EXPOSURE_CLEAR is refused BAD_LENGTH or MASK_CHECK, or sets the exposure count of every masked slot to 0, whatever
its state, and no other, and is answered OK with no data. -/
def Obligations.ExposureClearTaken : Prop :=
  ∀ (r : Request) (s : State), s.accepts → r.wellFormed = true →
    (r.args.length ≠ 4 → exec (.exposureClear r) s = .next (s.answered r 0x30 .badLength [])) ∧
    (r.args.length = 4 → reqMaskOk r = false → exec (.exposureClear r) s = .next (s.answered r 0x30 .maskCheck [])) ∧
    (r.args.length = 4 → reqMaskOk r = true → ∃ t, exec (.exposureClear r) s = .next t ∧
      t.plant.link.queue = s.plant.link.queue ++ [replyFrame r.tag 0x30 .ok []] ∧
      t.plant.link.events = s.plant.link.events ∧
      ∀ i, (t.plant.slot i).exposures = (if (reqMask r).getLsbD i.val then 0 else (s.plant.slot i).exposures) ∧
        (t.plant.slot i).motion = (s.plant.slot i).motion ∧ (t.plant.slot i).requested = (s.plant.slot i).requested ∧
        (t.plant.slot i).hold = (s.plant.slot i).hold ∧ (t.plant.slot i).outstanding = (s.plant.slot i).outstanding)

/-! ### Staging and commit -/

/-- R165 and R166: STAGE_WRITE without data is refused BAD_LENGTH, and a frame with more than 61 data bytes is discarded; an
unknown table and a range beyond the table are refused; the data is appended when the four conditions hold, and otherwise
replaces the buffer; the reply describes the buffer after the write. -/
def Obligations.StageWriteTaken : Prop :=
  (∀ (tag table offset : Byte) (s : State), s.accepts →
    exec (.stageWrite ⟨tag, [table, offset]⟩) s =
      .next (s.answered ⟨tag, [table, offset]⟩ 0x28 .badLength [])) ∧
  (∀ (tag table offset : Byte) (data : List Byte) (s : State), s.accepts → 61 < data.length →
    exec (.stageWrite ⟨tag, table :: offset :: data⟩) s = .next { s with plant := { s.plant with link :=
      { s.plant.link with framer := none, linkError := true } } }) ∧
  ∀ (tag table offset : Byte) (data : List Byte) (s : State), s.accepts → 1 ≤ data.length → data.length ≤ 61 →
    let q : Request := ⟨tag, table :: offset :: data⟩
    let ok := fun (g : Staged) => exec (.stageWrite q) s =
      .next ({ s with staging := some g }.answered q 0x28 .ok
        ([g.table.code, byteOf g.start, byteOf (g.start + g.data.length - 1)] ++ be16 (check16 g.data).toNat))
    (7 < table.toNat → exec (.stageWrite q) s = .next (s.answered q 0x28 .badTable [])) ∧
    ∀ id, TableId.ofCode table.toNat = some id →
      (id.size ≤ offset.toNat + data.length - 1 → exec (.stageWrite q) s = .next (s.answered q 0x28 .outOfRange [])) ∧
      (offset.toNat + data.length - 1 < id.size →
        (∀ g, s.staging = some g → g.table = id → offset.toNat = g.start + g.data.length - 1 + 1 →
          g.data.length + data.length ≤ 64 → ok { g with data := g.data ++ data }) ∧
        ((∀ g, s.staging = some g → ¬(g.table = id ∧ offset.toNat = g.start + g.data.length - 1 + 1 ∧
          g.data.length + data.length ≤ 64)) → ok ⟨id, offset.toNat, data⟩))

/-- COMMIT refused: with an empty buffer or another echo COMMIT_MISMATCH; with a value not permitted OUT_OF_RANGE and the
offset of the first such field; with two valid entries naming one slot MAP_DUPLICATE; with a command inside the part under a
mapping that changes COMMIT_CONFLICT. Tables and buffer stay as they were. -/
def Obligations.CommitRefused : Prop :=
  ∀ (r : Request) (s : State), s.accepts → r.args.length = 5 →
    let refusedWith := fun st data => exec (.commit r) s = .next (s.answered r 0x2A st data)
    (s.staging = none → refusedWith .commitMismatch []) ∧
    ∀ g, s.staging = some g →
      let echo := r.args.take 3 = [g.table.code, byteOf g.start, byteOf (g.start + g.data.length - 1)] ∧
        r.args.drop 3 = be16 (check16 g.data).toNat
      let image := overlay (s.tables.bytes g.table) g.start (storedBytes g.table g.start g.data)
      let bad := firstBadField g.table image g.start (g.start + g.data.length - 1)
      let twice := g.table = .logicalMap ∧ ∃ i, 2 ≤ (image.filter (fun b => mapEntrySlot b.toNat == some i)).length
      let busy := g.table = .logicalMap ∧ ∃ u i, u < 16 ∧ mapEntrySlot (u8At s.tables.logicalMap u) = some i ∧
        mapEntrySlot (u8At image u) ≠ some i ∧ (s.plant.slot i).inside ≠ 0
      g.start ≤ 255 → g.start + g.data.length ≤ 256 →
      (¬echo → refusedWith .commitMismatch []) ∧
      (echo → ∀ o, bad = some o → refusedWith .outOfRange [byteOf o]) ∧
      (echo → bad = none → twice → refusedWith .mapDuplicate []) ∧
      (echo → bad = none → ¬twice → busy → refusedWith .commitConflict [])

/-- R171: a commit that passes copies the staged bytes over the staged range of the named table, keeps every other byte,
empties the buffer, records TABLE_COMMITTED first of what it causes, and is answered OK with no data, whatever the order in
which the reading blocks take it (logs 3 and 27). The transit policy is re-applied to every slot when it is committed, and to a
slot whose group a commit changes; commits of other tables than these and the motion thresholds leave caps and dispositions. -/
def Obligations.CommitDone : Prop :=
  ∀ (r : Request) (s : State) (g : Staged), s.accepts → r.args.length = 5 → s.staging = some g →
    echoMatches r g = true → commitRefusal g s = none →
    ∃ t, exec (.commit r) s = .next t ∧ s.repliedTo t r 0x2A .ok [] ∧ t.staging = none ∧
      (∀ id, id ≠ g.table → t.tables.bytes id = s.tables.bytes id) ∧
      t.tables.bytes g.table = (s.tables.bytes g.table).take g.start ++ storedBytes g.table g.start g.data ++
        (s.tables.bytes g.table).drop (g.start + g.data.length) ∧
      (s.plant.link.events.length < 32 → s.plant.link.events ++
        [⟨s.clock, .tableCommitted g.table g.start (g.start + g.data.length - 1)⟩] <+: t.plant.link.events) ∧
      (g.table ≠ .motion → t.monitor = s.monitor) ∧
      (∀ i, let r := s.plant.slot i
        let r' := t.plant.slot i
        (g.table = .policy ∨ (g.table = .slotCfg ∧ t.tables.group i ≠ s.tables.group i) →
          r'.underPolicy t.tables s.monitor.cls i) ∧
        (g.table ≠ .policy → g.table ≠ .motion → (g.table = .slotCfg → t.tables.group i = s.tables.group i) →
          r'.transitCap = r.transitCap ∧ r'.transitDisposition = r.transitDisposition))

/-! ### Lanes -/

/-- A REPORT is matched by number alone; a match ends the order in flight, as a success exactly when the result is DONE and the
mechanical state is the target of Table 1-5; any other report is ignored. A timeout ends it as a failure. -/
def Obligations.OrderEnds : Prop :=
  (∀ (i : SlotId) (number : Byte) (result : ReportResult) (code : Byte) (mech : MechState) (s : State),
    (∀ o, (s.plant.slot i).lane.inFlight = some o → o.number.val = number.toNat →
      let target : MechState := match o.kind with
        | .spinUp => .atSpeed
        | .spinDown _ => .stopped
        | .load => .loaded
        | .unload _ | .emergencyUnload => .unloaded
      exec (.report i number result code mech) s = .next (s.respond (fun e d =>
        if result = .done ∧ mech = target then orderSuccess e i (laneReceived e i d)
        else orderFailure e i o.kind (laneReceived e i d)))) ∧
    ((∀ o, (s.plant.slot i).lane.inFlight = some o → o.number.val ≠ number.toNat) →
      exec (.report i number result code mech) s = .next (s.respond (fun e d => laneReceived e i d)))) ∧
  (∀ (i : SlotId) (s : State) (o : OrderInFlight), (s.plant.slot i).lane.inFlight = some o →
    o.timer.len ≤ (s.clock - o.timer.start).toNat →
    exec (.orderTimeout i) s = .next (s.respond (fun e d => orderFailure e i o.kind d)))

/-- A failed order, by the slot's state: STARTING spins down with retry and one more spin attempt; STOPPING faults
STOP_TIMEOUT; LOADING unloads with one more load attempt; UNLOADING re-issues the same order once, and faults at the second
failure. -/
def Obligations.OrderFailureByState : Prop :=
  ∀ (e : Env) (i : SlotId) (kind : OrderKind) (d : Plant),
    let r := d.slot i
    let after := ((react e (orderFailure e i kind d)).slot i).motion
    (r.state = .starting → after = { r.motion.stopping true r.lane.nextOrder ⟨e.clock, e.tables.spinDownMs i⟩ true with
      spinAttempts := if r.lane.spinAttempts < 4 then r.lane.spinAttempts + 1 else r.lane.spinAttempts }) ∧
    (r.state = .stopping → after = r.motion.faulted .stopTimeout none) ∧
    (r.state = .loading → after = { r.motion.unloading (.unload false) r.lane.nextOrder
        ⟨e.clock, e.tables.unloadMs i⟩ .normal with
      loadAttempts := if r.lane.loadAttempts < 4 then r.lane.loadAttempts + 1 else r.lane.loadAttempts }) ∧
    (r.state = .unloading → r.unloadReissued = false → after = { r.motion with
      inFlight := some ⟨kind, r.lane.nextOrder, ⟨e.clock, e.tables.orderMs i kind⟩⟩, unloadReissued := true }) ∧
    (r.state = .unloading → r.unloadReissued = true → after =
      if r.unloadMark = .fault then r.motion.faulted .sledFault r.sledCode else r.motion.faulted .unloadTimeout none)

/-- A succeeded order, by the slot's state: STARTING reaches SPUN with no spin attempts; STOPPING reaches STOPPED with its
dwell running, or faults SPIN_FAILED; LOADING reaches LOADED, or drains or unloads; UNLOADING reaches SPUN, or faults by its
mark or LOAD_FAILED. A slot that reaches SPUN claims its load, stays, or spins down by its effective level. -/
def Obligations.OrderSuccessByState : Prop :=
  ∀ (e : Env) (i : SlotId) (d : Plant),
    let r := d.slot i
    let t := (orderSuccess e i d).slot i
    let after := ((react e (orderSuccess e i d)).slot i).motion
    let reachesSpun := t.unloadMark = .none ∧ t.unloadReissued = false ∧
      (r.effective = .load → t.state = .spun ∧ t.lane.inFlight = none ∧ t.loadClaim = true) ∧
      (r.effective = .spin → t.state = .spun ∧ t.lane.inFlight = none ∧ t.loadClaim = false) ∧
      (r.effective = .stop → t.state = .stopping ∧ t.loadClaim = false ∧ t.stoppingFromStart = false ∧
        t.lane.inFlight = some ⟨.spinDown false, r.lane.nextOrder, ⟨e.clock, e.tables.spinDownMs i⟩⟩)
    (r.state = .starting → reachesSpun ∧ t.lane.spinAttempts = 0) ∧
    (r.state = .stopping → e.tables.spinRetries i < r.lane.spinAttempts → after = r.motion.faulted .spinFailed none) ∧
    (r.state = .stopping → r.lane.spinAttempts ≤ e.tables.spinRetries i →
      (e.tables.dwellMs i ≠ 0 → after = { r.motion with
        state := .stopped, inFlight := none, stoppingFromStart := false,
        dwell := some ⟨e.clock, e.tables.dwellMs i⟩ }) ∧
      (e.tables.dwellMs i = 0 → t.dwell = none ∧ t.state = if r.effective = .stop then .stopped else .queued)) ∧
    (r.state = .loading → t.lane.loadAttempts = 0 ∧
      (r.effective = .load → t.state = .loaded ∧ t.lane.inFlight = none ∧ t.draining = false) ∧
      (r.effective ≠ .load → r.draining = false →
        if r.outstanding = [] then t.state = .unloading ∧ t.unloadMark = .normal ∧
          t.lane.inFlight = some ⟨.unload false, r.lane.nextOrder, ⟨e.clock, e.tables.unloadMs i⟩⟩
        else t.state = .loaded ∧ t.draining = true ∧ t.drainTimer = some ⟨e.clock, e.tables.drainLimitMs⟩)) ∧
    (r.state = .unloading → r.unloadMark = .fault → after = r.motion.faulted .sledFault r.sledCode) ∧
    (r.state = .unloading → r.unloadMark ≠ .fault → e.tables.loadRetries i < r.lane.loadAttempts →
      after = r.motion.faulted .loadFailed none) ∧
    (r.state = .unloading → r.unloadMark ≠ .fault → r.lane.loadAttempts ≤ e.tables.loadRetries i → reachesSpun)

/-- A sled FAULT report, by the slot's state: heads possibly out, the commands are answered SLOT_FAULT and the slot unloads
under mark FAULT; heads on the ramp, it enters FAULTED, its order dropped; under mark FAULT, EMPTY or FAULTED, it is ignored.
None of the answered commands' frames waits on the lane. -/
def Obligations.SledFaultTaken : Prop :=
  ∀ (i : SlotId) (code : Byte) (s : State),
    let r := s.plant.slot i
    let answers := answersTo s.tables i .slotFault (r.outstanding.map OutEntry.tag ++ r.hold.map HoldEntry.tag)
    (r.headsOut = true → ¬(r.state = .unloading ∧ r.unloadMark = .fault) → ∃ t, exec (.fault i code) s = .next t ∧
      t = { s with plant := t.plant } ∧ s.plant.link.queue ++ answers <+: t.plant.link.queue ∧
      (t.plant.slot i).motion = { r.motion.unloading .emergencyUnload r.lane.nextOrder
        ⟨s.clock, s.tables.unloadMs i⟩ .fault with sledCode := some code, epoch := r.epoch + 1 } ∧
      (t.plant.slot i).lane =
        { r.lane.abortedFor .emergencyUnload ⟨s.clock, s.tables.unloadMs i⟩ with rxPartial := none }) ∧
    (r.state = .stopped ∨ r.state = .queued ∨ r.state = .starting ∨ r.state = .spun ∨ r.state = .stopping →
      ∃ t, exec (.fault i code) s = .next t ∧ t = { s with plant := t.plant } ∧
        s.plant.link.queue ++ answers <+: t.plant.link.queue ∧
        (t.plant.slot i).motion = r.motion.faulted .sledFault (some code) ∧
        (t.plant.slot i).lane = { r.lane.dropped with rxPartial := none }) ∧
    (r.state = .empty ∨ r.state = .faulted ∨ (r.state = .unloading ∧ r.unloadMark = .fault) →
      exec (.fault i code) s = .next (s.respond (fun e d => laneReceived e i d)))

/-- A sled COMPLETION: a match of tag and epoch is removed and answered DONE with the sled's status and payload, and ends the
drain whose last command it was; without a match it is counted as a stray, saturating at 65535, and not sent upstream. The head
of a hold list: a command above the requested level raises demand, or is answered NOT_READY without wake-on-demand; a command
is released while its requirement is served; a TRAP entry acts when nothing is outstanding; until the head does nothing more.
The response to every event examines the heads of the sixteen hold lists and leaves no head with anything to do; that the
budget unit responds before them and again after them is the model's choice, log 35. That an entry is marked when it becomes
head, and is so examined for demand once, is the model's choice, log 21. -/
def Obligations.SledCompletionTaken : Prop :=
  (∀ (i : SlotId) (epoch tag status : Byte) (payload : List Byte) (s : State), payload.length ≤ 48 →
    let r := s.plant.slot i
    let hit := fun o : OutEntry => o.tag == tag && o.epoch.val == epoch.toNat
    ((∃ o ∈ r.outstanding, hit o = true) →
      (∃ t, exec (.sledCompletion i epoch tag status payload) s = .next t ∧ t = { s with plant := t.plant } ∧
        s.plant.link.queue ++ [completionFrame (s.tables.unitOfSlot i) tag .done status payload]
          <+: t.plant.link.queue ∧
        (r.state = .loaded → r.draining = true → r.outstanding.eraseP hit = [] →
          (t.plant.slot i).motion = r.motion.unloading (.unload false) r.lane.nextOrder
            ⟨s.clock, s.tables.unloadMs i⟩ .normal)) ∧
      ∃ d1 : Plant, exec (.sledCompletion i epoch tag status payload) s = .next (s.respond (fun _ _ => d1)) ∧
        (d1.slot i).outstanding = r.outstanding.eraseP hit ∧ (d1.slot i).hold = r.hold ∧
        ∀ j, j ≠ i → d1.slot j = s.plant.slot j) ∧
    ((∀ o ∈ r.outstanding, hit o = false) → ∃ t d1, exec (.sledCompletion i epoch tag status payload) s = .next t ∧
      t = s.respond (fun _ _ => d1) ∧ d1.link = s.plant.link ∧ (d1.slot i).outstanding = r.outstanding ∧
      (t.plant.slot i).strays = (if r.strays < 65535 then r.strays + 1 else r.strays))) ∧
  (∀ (e : Env) (i : SlotId) (d : Plant), let r := d.slot i
    let emulatedFrame := fun (h : HoldEntry) (r : Slot) =>
      completionFrame (e.tables.unitOfSlot i) h.tag .emulated 0 [r.state.code, r.requested.code]
    (r.hold = [] → headStep e i d = none) ∧
    (∀ h rest, r.hold = h :: rest →
      let marked := d.put e i { r with hold := { h with asHead := true } :: rest }
      (h.asHead = false → h.cls = .trap ∨ h.requirement.rank ≤ r.requested.rank → headStep e i d = some marked) ∧
      (h.asHead = false → h.cls ≠ .trap → r.requested.rank < h.requirement.rank →
        (e.tables.wake i = true → headStep e i d = some (writeRequested e i h.requirement (marked.slot i).pinned marked)) ∧
        (e.tables.wake i = false → ∃ t, headStep e i d = some t ∧
          t.link.queue = d.link.queue ++ [completionFrame (e.tables.unitOfSlot i) h.tag .notReady 0 []] ∧
          (t.slot i).hold = rest ∧ (t.slot i).requested = r.requested ∧ ∀ j, j ≠ i → t.slot j = d.slot j)) ∧
      (h.asHead = true → h.cls ≠ .trap →
        (r.serves h.requirement = true ∧ r.outstanding.length < 4 ∧ r.draining = false →
          headStep e i d = some (d.put e i { r with
            hold := rest
            outstanding := r.outstanding ++ [⟨h.tag, r.epoch, e.clock⟩]
            lane := Lane.begin { r.lane with cmdQueue := r.lane.cmdQueue ++ [.command r.epoch h.tag h.payload] } })) ∧
        (¬(r.serves h.requirement = true ∧ r.outstanding.length < 4 ∧ r.draining = false) → headStep e i d = none)) ∧
      (h.asHead = true → h.cls = .trap →
        (h.emulating = true ∨ r.outstanding ≠ [] → headStep e i d = none) ∧
        (h.emulating = false → r.outstanding = [] →
          (h.action = some .report → ∃ t, headStep e i d = some t ∧
            t.link.queue = d.link.queue ++ [emulatedFrame h r] ∧ (t.slot i).hold = rest ∧
            ∀ j, j ≠ i → t.slot j = d.slot j) ∧
          (h.action = some .toStop ∨ h.action = some .toSpin ∨ h.action = some .toLoad →
            let d1 := writeRequested e i h.requirement false
              (d.put e i { r with hold := { h with emulating := true } :: rest })
            (r.state ≠ h.requirement.targetState → headStep e i d = some d1) ∧
            (r.state = h.requirement.targetState → headStep e i d = some (emulationCheck e i d1)))))) ∧
    (∀ h rest, r.hold = h :: rest →
      (h.emulating = true ∧ h.requirement.targetState = r.state → ∃ t, emulationCheck e i d = t ∧
        t.link.queue = d.link.queue ++ [emulatedFrame h r] ∧ (t.slot i).hold = rest) ∧
      (¬(h.emulating = true ∧ h.requirement.targetState = r.state) → emulationCheck e i d = d)) ∧
    headStep e i (serveHead e i d) = none ∧
    (headStep e i d = none → serveHead e i d = d) ∧
    (∀ d', headStep e i d = some d' → serveHead e i d = serveHead e i d')) ∧
  (∀ (e : Env) (d : Plant), let heads := fun d : Plant => allSlots.foldl (fun d i => serveHead e i d) d
    react e d = refreshSettle e (examinePhase e (heads (budgetReact e (heads (budgetReact e d))))) ∧
      ∀ i, headStep e i (react e d) = none) ∧
  (∀ (s : State) (f : Env → Plant → Plant) (i : SlotId), headStep s.env i (s.respond f).plant = none)

/-- A discarded lane frame leaves everything but the receiver's partial frame; the end of a frame sent lets the transmitter
choose the order in the order slot, or else the oldest COMMAND frame, or else stay idle. With no frame on the line none ends:
the model's choice, log 16. -/
def Obligations.LaneFramesTaken : Prop :=
  ∀ (i : SlotId) (s : State), let r := s.plant.slot i
    (∃ t, exec (.laneFrameDiscarded i) s = .next t ∧ (∀ j, j ≠ i → t.plant.slot j = s.plant.slot j) ∧
      t.plant.slot i = Slot.examineCountdowns s.env i { r with lane := { r.lane with rxPartial := none } } ∧
      t = { s with plant := { s.plant with slots := t.plant.slots, link := s.plant.linkAfter } }) ∧
    (∀ f, r.lane.tx = some f → ∃ t, exec (.laneFrameSent i) s = .next t ∧
      (∀ j, j ≠ i → t.plant.slot j = s.plant.slot j) ∧
      t = { s with plant := { s.plant with slots := t.plant.slots, link := s.plant.linkAfter } } ∧
      t.plant.slot i = Slot.examineCountdowns s.env i { r with lane := match r.lane.orderSlot, r.lane.cmdQueue with
        | some o, _ => { r.lane with tx := some o, orderSlot := none }
        | none, g :: rest => { r.lane with tx := some g, cmdQueue := rest }
        | none, [] => { r.lane with tx := none } }) ∧
    (r.lane.tx = none → exec (.laneFrameSent i) s = .next s)

/-! ### Slot pins -/

/-- The presence filter: in EMPTY a rise starts it and a fall stops it; in every other state a fall starts it and a rise stops
it; it runs 200 ms. A level the input already has changes nothing: the model's choice, log 18. -/
def Obligations.PresenceEdgeTaken : Prop :=
  ∀ (i : SlotId) (level : Bool) (s : State), let r := s.plant.slot i
    ∃ t, exec (.presenceEdge i level) s = .next t ∧ (∀ j, j ≠ i → t.plant.slot j = s.plant.slot j) ∧
      t = { s with plant := { s.plant with slots := t.plant.slots, link := s.plant.linkAfter } } ∧
      (t.plant.slot i).motion = r.motion ∧ (t.plant.slot i).presenceIn = level ∧
      (t.plant.slot i).presenceFilter =
        if level = r.presenceIn then r.presenceFilter
        else if r.state = .empty then (if level then some ⟨s.clock, 200⟩ else none)
        else (if level then none else some ⟨s.clock, 200⟩)

/-- R7: at the expiry of the presence filter of an EMPTY slot, the slot enters STOPPED with the values of the rule, its dwell
started, its caps kept, and SLED_INSERTED recorded. -/
def Obligations.InsertionTaken : Prop :=
  ∀ (i : SlotId) (s : State), let r := s.plant.slot i
    r.state = .empty → dueOpt r.presenceFilter s.clock = true →
    ∃ d1 : Plant, exec (.insertion i) s = .next (s.respond (fun _ _ => d1)) ∧
      (d1.slot i).state = .stopped ∧ (d1.slot i).requested = .stop ∧ (d1.slot i).pinned = false ∧
      (d1.slot i).lane = ⟨0, none, none, [], none, 0, 0, none⟩ ∧ (d1.slot i).epoch = 0 ∧
      (d1.slot i).exposures = 0 ∧ (d1.slot i).strays = 0 ∧ (d1.slot i).draining = false ∧
      (d1.slot i).unloadMark = .none ∧ (d1.slot i).unloadReissued = false ∧ (d1.slot i).faultReason = none ∧
      (d1.slot i).sledCode = none ∧ (d1.slot i).presenceFilter = none ∧
      (d1.slot i).dwell = (if s.tables.dwellMs i = 0 then none else some ⟨s.clock, s.tables.dwellMs i⟩) ∧
      (d1.slot i).transitCap = r.transitCap ∧ (d1.slot i).budgetCap = r.budgetCap ∧
      (d1.slot i).emergencyCap = r.emergencyCap ∧ (∀ j, j ≠ i → d1.slot j = s.plant.slot j) ∧
      (s.plant.link.events.length < 32 → d1.link.events = s.plant.link.events ++ [⟨s.clock, .sledInserted i⟩])

/-- R8: at the expiry of the presence filter of any other slot, the slot enters EMPTY; its commands are answered NO_SLED, the
outstanding ones first; everything that goes with a running drive ends; SLED_REMOVED is recorded with the state left. -/
def Obligations.RemovalTaken : Prop :=
  ∀ (i : SlotId) (s : State), let r := s.plant.slot i
    r.state ≠ .empty → dueOpt r.presenceFilter s.clock = true →
    ∃ d1 : Plant, exec (.removal i) s = .next (s.respond (fun _ _ => d1)) ∧
      (d1.slot i).motion = { r.motion with
        state := .empty, inFlight := none, unloadMark := .none, unloadReissued := false, stoppingFromStart := false,
        draining := false, drainTimer := none, dwell := none, faultReason := none, sledCode := none,
        epoch := r.epoch + 1 } ∧
      (d1.slot i).requested = .stop ∧ (d1.slot i).pinned = false ∧ (d1.slot i).motorEnable = false ∧
      (d1.slot i).draw s.tables i = 0 ∧ (d1.slot i).loadClaim = false ∧ (d1.slot i).suspension = none ∧
      (d1.slot i).idleUnload = .idle ∧ (d1.slot i).idleStop = .idle ∧ (d1.slot i).hold = [] ∧
      (d1.slot i).outstanding = [] ∧ (d1.slot i).parking = false ∧
      (d1.slot i).lane.orderSlot = none ∧ (d1.slot i).lane.cmdQueue = [] ∧
      d1.arb.queue = s.plant.arb.queue.filter (fun j => j != i) ∧ (∀ j, j ≠ i → d1.slot j = s.plant.slot j) ∧
      s.plant.link.queue ++ answersTo s.tables i .noSled (r.outstanding.map OutEntry.tag ++ r.hold.map HoldEntry.tag)
        <+: d1.link.queue ∧
      (s.plant.link.events.length < 32 →
        d1.link.events = s.plant.link.events ++ [⟨s.clock, .sledRemoved i r.state⟩])

/-- An asserted overcurrent input faults a slot in a motor-enabled state with reason OVERCURRENT, its order dropped and its
commands answered SLOT_FAULT, none of their frames waiting on the lane; in any other state, or deasserted, it only becomes the
input's level. -/
def Obligations.OvercurrentTaken : Prop :=
  ∀ (i : SlotId) (level : Bool) (s : State), let r := s.plant.slot i
    let enabled := r.state ∈ [SlotState.starting, .spun, .loading, .loaded, .unloading, .stopping]
    (level = true → enabled → ∃ t, exec (.overcurrent i level) s = .next t ∧ t = { s with plant := t.plant } ∧
      (t.plant.slot i).motion = r.motion.faulted .overcurrent none ∧ (t.plant.slot i).overcurrentIn = true ∧
      (t.plant.slot i).lane = r.lane.dropped ∧
      s.plant.link.queue ++ answersTo s.tables i .slotFault (r.outstanding.map OutEntry.tag ++ r.hold.map HoldEntry.tag)
        <+: t.plant.link.queue) ∧
    (level = false ∨ ¬enabled → exec (.overcurrent i level) s =
      .next (s.respond (fun e d => d.put e i { r with overcurrentIn := level })))

/-! ### Power lines and switches -/

/-- A line's filter: a change of level starts it for 10 ms, and a change undone stops it. At its expiry the filtered value
takes the level and the power state is derived; another state takes its budget and, for HOLDUP, the source POWER, in either
order. A level that the line already has is no edge: the model's choice, log 18. A budget below the committed draw begins a
shed: victims are capped STOP in shed order until the projected draw fits. A shed ends, every budget cap none, when the
committed draw fits, and a rise of the budget that does not suffice chooses the victims afresh. The response to every event
takes the draws, compares them with the budget and makes a serving pass, after which a shed is in progress exactly while the
committed draw exceeds the budget. What the budget unit still keeps while it has a commit to take is the model's choice, log
27. -/
def Obligations.PowerLinesTaken : Prop :=
  (∀ (l : PowerLine) (level : Bool) (s : State), let f := s.power.line l
    ∃ t, exec (.powerLineEdge l level) s = .next t ∧ t = { s with power := t.power } ∧
      (∀ k, k ≠ l → t.power.line k = s.power.line k) ∧
      t.power.line l = (if level = f.level then f
        else ⟨level, f.value, if level = f.value then none else some ⟨s.clock, 10⟩⟩)) ∧
  (∀ (l : PowerLine) (s : State), let f := s.power.line l
    dueOpt f.timer s.clock = true → ∃ t, exec (.powerFilterExpiry l) s = .next t ∧
      (∀ k, k ≠ l → t.power.line k = s.power.line k) ∧ t.power.line l = ⟨f.level, f.level, none⟩ ∧
      let new : PowerState := if t.power.fail.value then .holdup else if t.power.shore.value then .shore
        else if t.power.low.value then .reserve else .battery
      (new = s.plant.budget.powerState → t = { s with power := t.power }) ∧
      (new ≠ s.plant.budget.powerState →
        t.plant.budget.powerState = new ∧ t.plant.budget.budget = s.tables.budgetOf new ∧
        (s.plant.link.events.length < 32 → s.plant.link.events ++
          [⟨s.clock, .powerChanged s.plant.budget.powerState new⟩] <+: t.plant.link.events) ∧
        (new = .holdup → t.plant.emg.latched = true ∧ t.plant.emg.sources.power = true))) ∧
  (∀ (e : Env) (d : Plant),
    let order := shedOrder e.tables
    let draw := fun i => e.drawOf i (d.slot i)
    ((∀ i, e.tables.priority i ≤ 7) → (∀ i, i ∈ order) ∧
      order.Pairwise (fun i j => e.tables.priority j < e.tables.priority i ∨
        (e.tables.priority j = e.tables.priority i ∧ j < i))) ∧
    (e.unread = none → ∀ i, draw i = (d.slot i).draw e.tables i) ∧
    d.projected e = (allSlots.map (fun i => if (d.slot i).budgetCap = .stop then 0 else draw i)).sum ∧
    (∀ i, d.budget.budget < d.projected e ∧ 0 < draw i ∧ (d.slot i).budgetCap = .none →
      takeVictim e d i = writeBudgetCap e i .stop d) ∧
    (∀ i, ¬(d.budget.budget < d.projected e ∧ 0 < draw i ∧ (d.slot i).budgetCap = .none) → takeVictim e d i = d) ∧
    (∀ i c, ((writeBudgetCap e i c d).slot i).budgetCap = c ∧ ∀ j, j ≠ i → (writeBudgetCap e i c d).slot j = d.slot j) ∧
    (d.budget.shed = false → d.budget.committed ≤ d.budget.budget → shedReact e d = d) ∧
    (d.budget.shed = false → d.budget.budget < d.budget.committed → shedReact e d = Plant.record e.clock
      (.shedBegan d.budget.budget d.budget.committed)
      (order.foldl (takeVictim e) { d with budget := { d.budget with shed := true } })) ∧
    (d.budget.shed = true → d.budget.budget < d.budget.committed → shedReact e d =
      if d.budget.budget < d.projected e then order.foldl (takeVictim e) d else d) ∧
    ((∀ i, e.tables.priority i ≤ 7) → (order.foldl (takeVictim e) d).projected e ≤ d.budget.budget) ∧
    (d.budget.shed = true → d.budget.committed ≤ d.budget.budget → let t := shedReact e d
      t.budget = { d.budget with shed := false } ∧ (∀ i, (t.slot i).budgetCap = .none) ∧
      (d.link.events.length < 32 → t.link.events = d.link.events ++ [⟨e.clock, .shedEnded d.budget.committed⟩])) ∧
    (∀ new, let t := changeBudget e new d
      let afresh := d.budget.shed = true ∧ d.budget.budget < new ∧ new < d.budget.committed
      let drawing := order.filter (fun i => 0 < draw i)
      let left := fun victims : List SlotId => d.budget.committed - (victims.map draw).sum
      t.budget = { d.budget with budget := new } ∧
      (¬afresh → t.slots = d.slots) ∧
      (afresh → ∃ chosen rest, drawing = chosen ++ rest ∧
        (left chosen ≤ new ∨ rest = []) ∧ (∀ k, k < chosen.length → new < left (chosen.take k)) ∧
        ∀ i, (t.slot i).budgetCap = (if i ∈ chosen then .stop else .none) ∧
          ((d.slot i).budgetCap = (if i ∈ chosen then .stop else .none) → t.slot i = d.slot i))) ∧
    recommit e d = { d with budget := { d.budget with committed := (allSlots.map draw).sum } } ∧
    budgetReact e d = servePass e (refreshArbiter e (shedReact e (refreshArbiter e (recommit e d)))) ∧
    (e.unread = none → let t := react e d
      t.budget.committed = (allSlots.map (fun i => (t.slot i).draw e.tables i)).sum ∧
      (t.budget.shed = true ↔ d.budget.budget < (allSlots.map (fun i => (d.slot i).draw e.tables i)).sum) ∧
      (t.budget.shed = true ↔ t.budget.budget < t.budget.committed)))

/-- A switch's filter: a change of level starts it for 20 ms, and a change undone stops it. At its expiry the filtered value
takes the level, POISED is evaluated, and the motion class derived. A level that the input already has is no edge: the model's
choice, log 18. -/
def Obligations.SwitchesTaken : Prop :=
  (∀ (w : SwitchInput) (level : Bool) (s : State), let f := s.monitor.switch w
    exec (.switchEdge w level) s = .next { s with monitor := s.monitor.setSwitch w (if level = f.level then f
      else ⟨level, f.value, if level = f.value then none else some ⟨s.clock, 20⟩⟩) }) ∧
  (∀ (w : SwitchInput) (s : State), let f := s.monitor.switch w
    dueOpt f.timer s.clock = true → ∃ t, exec (.switchFilterExpiry w) s = .next t ∧
      let m := s.monitor.setSwitch w ⟨f.level, f.level, none⟩
      let holds := m.handle.value || (m.brake.value && s.tables.brakeInUse)
      let m' := { m with poised := m.poised.examineAtOnce s.clock s.tables.poisedSettleMs holds }
      t.monitor = { m' with cls := m'.derivedClass s.tables })

/-! ### The motion monitor -/

/-- The conditions at their criteria: one asserted at once (POISED, ROLLING), one asserted after a time (TILTED, FALL), and
JOLT. -/
def Obligations.ConditionsExamined : Prop :=
  ∀ (now : Clock) (a b : Nat) (c : Condition) (m : Timer),
    ((c.asserted = false → (c.examineAtOnce now b true).asserted = true) ∧
      (c.asserted = true → c.releaseTimer = none →
        c.examineAtOnce now b false = { c with releaseTimer := some ⟨now, b⟩ }) ∧
      (c.releaseTimer = some m → c.examineAtOnce now b true = ⟨true, none, none⟩) ∧
      (c.asserted = true → c.releaseTimer = some m → c.examineAtOnce now b false = c) ∧
      (c.asserted = false → c.examineAtOnce now b false = c)) ∧
    ((c.asserted = false → c.assertTimer = none →
        c.examineHeld now a b true = { c with assertTimer := some ⟨now, a⟩ }) ∧
      (c.asserted = false → c.assertTimer = some m → c.examineHeld now a b true = c) ∧
      (c.asserted = false → c.examineHeld now a b false = { c with assertTimer := none }) ∧
      (c.asserted = true → c.releaseTimer = none →
        c.examineHeld now a b false = { c with releaseTimer := some ⟨now, b⟩ }) ∧
      (c.asserted = true → c.releaseTimer = some m → c.examineHeld now a b false = c) ∧
      (c.asserted = true → c.examineHeld now a b true = { c with releaseTimer := none })) ∧
    (c.examineJolt now b true = ⟨true, none, some ⟨now, b⟩⟩ ∧ c.examineJolt now b false = c)

/-- A good sample is taken whole: the sensor timer restarts, a lost sensor begins its window afresh, the sample joins the last
32, the sensor state becomes OK at the thirty-second, the four conditions are examined, and the class is derived. A sample that
is not good changes nothing but the receiver. -/
def Obligations.SampleTaken : Prop :=
  (∀ (x y z : Word16) (s : State), (Instr.sample x y z).wellFormed = true →
    ∃ t, exec (.sample x y z) s = .next t ∧
      let q : Sample := sampleOf x y z
      let old := if s.monitor.sensor = .lost then [] else s.monitor.window
      let before : SensorState := if s.monitor.sensor = .lost then .filling else s.monitor.sensor
      let restoring := s.monitor.sensor = .lost ∨ s.monitor.restoring = true
      let window := (old ++ [q]).drop (old.length + 1 - 32)
      let fills := before = .filling ∧ 32 ≤ window.length
      t.monitor.window = window ∧ t.monitor.sensorTimer = some ⟨s.clock, s.tables.sensorMs⟩ ∧
      t.monitor.sensor = (if fills then .ok else before) ∧
      (t.monitor.restoring = true ↔ restoring ∧ ¬fills) ∧
      t.monitor.rolling = s.monitor.rolling.examineAtOnce s.clock s.tables.rollingSettleMs
        (s.tables.rollingCount ≤ (window.filter (fun w => s.tables.rollingThreshold < w.deviation)).length) ∧
      t.monitor.tilted = s.monitor.tilted.examineHeld s.clock s.tables.tiltMs s.tables.tiltSettleMs
        (z.toInt < (s.tables.tiltThreshold : Int)) ∧
      t.monitor.jolt = s.monitor.jolt.examineJolt s.clock s.tables.joltHoldMs (s.tables.shock < q.deviation) ∧
      t.monitor.fall = s.monitor.fall.examineHeld s.clock s.tables.fallMs s.tables.rollingSettleMs
        (q.magnitude < s.tables.fallThreshold) ∧
      t.monitor.poised = s.monitor.poised ∧ t.monitor.cls = t.monitor.derivedClass s.tables ∧
      (fills → restoring → s.plant.link.events.length < 32 →
        s.plant.link.events ++ [⟨s.clock, .sensorRestored⟩] <+: t.plant.link.events)) ∧
  (∀ s : State, exec .sampleDiscarded s = .next { s with monitor := { s.monitor with rxPartial := none } })

/-- The magnitude of a good sample is the square root of the sum of the squares, rounded down, at most 27712; the deviation is
its distance from 1000; the axis values are kept. -/
def Obligations.SampleDerivedValues : Prop :=
  ∀ x y z : Word16, (Instr.sample x y z).wellFormed = true →
    let q := sampleOf x y z
    let sum := x.toInt * x.toInt + y.toInt * y.toInt + z.toInt * z.toInt
    ((q.magnitude * q.magnitude : Nat) : Int) ≤ sum ∧ sum < (((q.magnitude + 1) * (q.magnitude + 1) : Nat) : Int) ∧
      q.magnitude ≤ 27712 ∧ (q.deviation : Int) = |(q.magnitude : Int) - 1000| ∧
      q.x = x.toInt ∧ q.y = y.toInt ∧ q.z = z.toInt

/-- The expiries of the monitor: the sensor timer makes the state LOST, cancels the timers of ROLLING, TILTED and FALL and is
recorded; each condition's timer changes that condition alone; the class is then derived. -/
def Obligations.MonitorExpiriesTaken : Prop :=
  ∀ s : State,
    let m := s.monitor
    let becomes := fun (c : Instr) (m' : Monitor) =>
      ∃ t, exec c s = .next t ∧ t.monitor = { m' with cls := m'.derivedClass s.tables }
    (m.sensor ≠ .lost → dueOpt m.sensorTimer s.clock = true →
      becomes .sensorTimeout { m with
        sensor := .lost, sensorTimer := none, rolling := ⟨m.rolling.asserted, none, none⟩,
        tilted := ⟨m.tilted.asserted, none, none⟩, fall := ⟨m.fall.asserted, none, none⟩ } ∧
      ∃ t, exec .sensorTimeout s = .next t ∧ (s.plant.link.events.length < 32 →
        s.plant.link.events ++ [⟨s.clock, .sensorLost m.sensor⟩] <+: t.plant.link.events)) ∧
    (dueOpt m.poised.releaseTimer s.clock = true →
      becomes .poisedReleaseExpiry { m with poised := ⟨false, none, none⟩ }) ∧
    (dueOpt m.rolling.releaseTimer s.clock = true →
      becomes .rollingReleaseExpiry { m with rolling := ⟨false, none, none⟩ }) ∧
    (dueOpt m.tilted.assertTimer s.clock = true →
      becomes .tiltedAssertionExpiry { m with tilted := ⟨true, none, none⟩ }) ∧
    (dueOpt m.tilted.releaseTimer s.clock = true →
      becomes .tiltedReleaseExpiry { m with tilted := ⟨false, none, none⟩ }) ∧
    (dueOpt m.jolt.releaseTimer s.clock = true →
      becomes .joltHoldExpiry { m with jolt := ⟨false, none, none⟩ }) ∧
    (dueOpt m.fall.assertTimer s.clock = true →
      becomes .fallAssertionExpiry { m with fall := ⟨true, none, none⟩ }) ∧
    (dueOpt m.fall.releaseTimer s.clock = true →
      becomes .fallReleaseExpiry { m with fall := ⟨false, none, none⟩ })

/-- A class change, in either order of the two blocks that take it: CLASS_CHANGED is recorded first, a rise into JOLT or FALL
counts one exposure for each slot whose heads may be out, and entry into a class with its emergency flag set latches. The class
is the most severe asserted condition, held at or above the blind class outside OK. The transit controller writes the cap and
the disposition of the class's row into every slot, and settles each suspension: it begins with the countdowns frozen and,
under FREEZE, the hold timers; it continues; or it ends by cap rise or by level lowered. Under REFUSE the entries above the cap
are answered TRANSIT_REFUSED. A countdown that keeps its time resumes when its conditions hold (logs 30 and 31). -/
def Obligations.ClassChangeTaken : Prop :=
  (∀ s : State,
    let m := s.monitor
    let worst : MotionClass := if m.fall.asserted then .fall else if m.jolt.asserted then .jolt
      else if m.tilted.asserted then .tilted else if m.rolling.asserted then .rolling
      else if m.poised.asserted then .poised else .still
    let blind := s.tables.blindClass
    let new := if m.sensor = .ok ∨ blind.severity ≤ worst.severity then worst else blind
    (new = m.cls → s.deriveClass = s) ∧
    (new ≠ m.cls → ∃ b, s.deriveClass = (s.useFree).changeClass b new)) ∧
  (∀ (b : Bool) (new : MotionClass) (s : State),
    let t := s.changeClass b new
    t.monitor = { s.monitor with cls := new } ∧
    (s.plant.link.events.length < 32 → s.plant.link.events ++
      [⟨s.clock, .classChanged s.monitor.cls new s.monitor.sensor⟩] <+: t.plant.link.events) ∧
    (∀ i, let r := s.plant.slot i
      (t.plant.slot i).exposures =
        if (new = .jolt ∨ new = .fall) ∧ s.monitor.cls.severity < new.severity ∧ r.headsOut = true ∧ r.exposures < 65535
        then r.exposures + 1 else r.exposures) ∧
    ((new = .jolt ∨ new = .fall) → s.tables.emergencyFlag new = true →
      t.plant.emg.latched = true ∧ t.plant.emg.sources.has (if new = .jolt then .jolt else .fall) = true) ∧
    (∀ i, (t.plant.slot i).underPolicy s.tables new i)) ∧
  (∀ (e : Env) (i : SlotId) (d : Plant),
    let r := d.slot i
    let cap := e.tables.policyCap e.cls (e.tables.group i)
    let disp := e.tables.policyDisposition e.cls (e.tables.group i)
    let frozen := fun h : HoldEntry => { h with timer := h.timer.freeze e.clock }
    let running := fun h : HoldEntry => { h with timer := h.timer.resume e.clock }
    let begun : TransitDisposition → Slot := fun q => { r with
      transitDisposition := q
      suspension := some ⟨e.cls, e.clock, r.requested, (r.idleUnload.freeze e.clock).frozenRem,
        (r.idleStop.freeze e.clock).frozenRem, q⟩
      idleUnload := r.idleUnload.freeze e.clock
      idleStop := r.idleStop.freeze e.clock
      hold := if q = .freeze then r.hold.map frozen else r.hold }
    let refused := fun (cap : Level) (r : Slot) => answersTo e.tables i .transitRefused
      ((r.hold.filter (fun h => cap.rank < h.requirement.rank)).map HoldEntry.tag)
    let swept := fun (cap : Level) (d : Plant) => Plant.put e i
      { d.slot i with hold := (d.slot i).hold.filter (fun h => h.requirement.rank ≤ cap.rank) }
      { d with link := { d.link with queue := d.link.queue ++ refused cap (d.slot i) } }
    let settled : Slot :=
      if r.outOfService then { r with transitDisposition := disp }
      else if cap.rank < r.requested.rank then match r.suspension with
        | none => begun disp
        | some q => { r with
          transitDisposition := disp
          suspension := some { q with cls := e.cls, disposition := disp }
          hold := r.hold.map (if disp = .freeze then frozen else running) }
      else match r.suspension with
        | none => { r with transitDisposition := disp }
        | some _ => { r with transitDisposition := disp, suspension := none, hold := r.hold.map running }
    applyPolicy e i d = writeTransitCap e i cap
      (if disp = .refuse then swept cap (d.put e i settled) else d.put e i settled) ∧
    ((applyPolicy e i d).slot i).transitCap = cap ∧ ((applyPolicy e i d).slot i).transitDisposition = disp ∧
    ((applyPolicy e i d).slot i).suspension = settled.suspension ∧
    (∀ j, j ≠ i → (applyPolicy e i d).slot j = d.slot j) ∧
    settleSuspension e i d = (
      if r.outOfService then d
      else if r.transitCap.rank < r.requested.rank then match r.suspension with
        | none => if r.transitDisposition = .refuse then swept r.transitCap (d.put e i (begun .refuse))
          else d.put e i (begun r.transitDisposition)
        | some _ => d
      else match r.suspension with
        | none => d
        | some _ => d.put e i { r with
          suspension := none, idleUnload := r.idleUnload.thaw, idleStop := r.idleStop.thaw, hold := r.hold.map running })) ∧
  (∀ (now : Clock) (full left : Nat) (holds : Bool), let c := Countdown.frozen left
    c.examine now full holds true = c ∧ c.examine now 0 holds false = .idle ∧
    (full ≠ 0 → c.examine now full true false = .running ⟨now, left⟩ ∧ c.examine now full false false = c))

/-! ### The timers of the slots, the arbiter and the emergency record -/

/-- A hold timer's expiry answers HOLD_EXPIRED and removes the entry, head or not; a drain's expiry aborts the outstanding
commands ABORTED_DRAIN, so that none of their frames waits on the lane, unloads with discard under mark DISCARD, and is
recorded. The held entries stay. -/
def Obligations.HoldAndDrainExpiries : Prop :=
  (∀ (i : SlotId) (tag : Byte) (s : State), let r := s.plant.slot i
    let ends := fun h : HoldEntry => h.tag == tag && h.timer.due s.clock
    (∃ h ∈ r.hold, ends h = true) → ∃ d1 : Plant,
      exec (.holdTimerExpiry i tag) s = .next (s.respond (fun _ _ => d1)) ∧
      (d1.slot i).hold = r.hold.filter (fun h => !ends h) ∧ (d1.slot i).outstanding = r.outstanding ∧
      (d1.slot i).requested = r.requested ∧ (∀ j, j ≠ i → d1.slot j = s.plant.slot j) ∧
      d1.link.queue = s.plant.link.queue ++ answersTo s.tables i .holdExpired ((r.hold.filter ends).map HoldEntry.tag)) ∧
  (∀ (i : SlotId) (s : State), let r := s.plant.slot i
    r.state = .loaded → r.draining = true → dueOpt r.drainTimer s.clock = true →
    (∃ d1 : Plant, exec (.drainExpiry i) s = .next (s.respond (fun _ _ => d1)) ∧
      (d1.slot i).lane = r.lane.abortedFor (.unload true) ⟨s.clock, s.tables.unloadMs i⟩ ∧
      (d1.slot i).outstanding = [] ∧ (d1.slot i).hold = r.hold ∧ ∀ j, j ≠ i → d1.slot j = s.plant.slot j) ∧
    ∃ t, exec (.drainExpiry i) s = .next t ∧ t = { s with plant := t.plant } ∧
      (t.plant.slot i).motion = { r.motion.unloading (.unload true) r.lane.nextOrder ⟨s.clock, s.tables.unloadMs i⟩
        .discard with epoch := r.epoch + 1 } ∧
      (∀ f ∈ (t.plant.slot i).lane.cmdQueue, ∃ tag payload, f = .command (r.epoch + 1) tag payload) ∧
      s.plant.link.queue ++ answersTo s.tables i .abortedDrain (r.outstanding.map OutEntry.tag)
        <+: t.plant.link.queue ∧
      (s.plant.link.events.length < 32 →
        s.plant.link.events ++ [⟨s.clock, .drainAborted i r.outstanding.length⟩] <+: t.plant.link.events))

/-- The dwell's expiry queues a STOPPED slot whose effective level is above STOP; the idle countdowns lower the requested
level, and with it unload a LOADED slot and spin down a SPUN one, the pin kept. At every write of a slot an idle countdown
starts from its full time when its conditions all hold, and a running one becomes idle when one of them fails. -/
def Obligations.DwellAndIdleExpiries : Prop :=
  ∀ (i : SlotId) (s : State), let r := s.plant.slot i
    (r.state = .stopped → dueOpt r.dwell s.clock = true → ∃ d1 : Plant,
      exec (.dwellExpiry i) s = .next (s.respond (fun _ _ => d1)) ∧ (d1.slot i).dwell = none ∧
      (∀ j, j ≠ i → d1.slot j = s.plant.slot j) ∧
      (r.effective = .stop → (d1.slot i).state = .stopped ∧ d1.arb.queue = s.plant.arb.queue) ∧
      (r.effective ≠ .stop → (d1.slot i).state = .queued ∧ d1.arb.queue = s.plant.arb.queue ++ [i])) ∧
    (r.idleUnload.due s.clock = true →
      (∃ d1 : Plant, exec (.idleUnloadExpiry i) s = .next (s.respond (fun _ _ => d1)) ∧
        (d1.slot i).requested = .spin ∧ (d1.slot i).pinned = r.pinned) ∧
      (r.state = .loaded → r.draining = false → r.effective = .load → r.outstanding = [] →
        ∃ t, exec (.idleUnloadExpiry i) s = .next t ∧ t = { s with plant := t.plant } ∧
          (t.plant.slot i).motion = r.motion.unloading (.unload false) r.lane.nextOrder
            ⟨s.clock, s.tables.unloadMs i⟩ .normal)) ∧
    (r.idleStop.due s.clock = true →
      (∃ d1 : Plant, exec (.idleStopExpiry i) s = .next (s.respond (fun _ _ => d1)) ∧
        (d1.slot i).requested = .stop ∧ (d1.slot i).pinned = r.pinned) ∧
      (r.state = .spun → r.effective = .spin →
        ∃ t, exec (.idleStopExpiry i) s = .next t ∧ t = { s with plant := t.plant } ∧
          (t.plant.slot i).motion = r.motion.stopping false r.lane.nextOrder ⟨s.clock, s.tables.spinDownMs i⟩ false)) ∧
    (∀ t : Tables,
      (r.unloadIdle t i = true ↔ r.state = .loaded ∧ r.draining = false ∧ r.hold = [] ∧ r.outstanding = [] ∧
        r.pinned = false ∧ r.suspension = none ∧ t.idleUnloadMs i ≠ 0) ∧
      (r.stopIdle t i = true ↔ r.state = .spun ∧ r.requested = .spin ∧ r.hold = [] ∧ r.outstanding = [] ∧
        r.pinned = false ∧ r.suspension = none ∧ t.idleStopMs i ≠ 0)) ∧
    (∀ (e : Env) (q : Slot) (d : Plant), let w := (d.put e i q).slot i
      (q.idleUnload = .idle → q.unloadIdle e.tables i = true →
        w.idleUnload = .running ⟨e.clock, e.tables.idleUnloadMs i⟩) ∧
      (q.idleStop = .idle → q.stopIdle e.tables i = true → w.idleStop = .running ⟨e.clock, e.tables.idleStopMs i⟩) ∧
      (∀ m, q.idleUnload = .running m → w.idleUnload = if q.unloadIdle e.tables i then .running m else .idle) ∧
      (∀ m, q.idleStop = .running m → w.idleStop = if q.stopIdle e.tables i then .running m else .idle) ∧
      (q.idleUnload = .idle → q.unloadIdle e.tables i = false → w.idleUnload = .idle) ∧
      (q.idleStop = .idle → q.stopIdle e.tables i = false → w.idleStop = .idle))

/-- The stagger timer's expiry lets the arbiter present its candidate again; the settle timer's clears the latch with cause
AUTOMATIC, the cap of every slot becoming none and the record emptied. After every response the settle timer runs exactly while
the latch is set, the phase PARKED, no source condition present and auto-clear on: it starts with the full settle time of the
unit configuration table, keeps a deadline that runs, and is idle when one of them fails. -/
def Obligations.StaggerAndSettleExpiries : Prop :=
  ∀ s : State,
    (dueOpt s.plant.arb.stagger s.clock = true → exec .staggerExpiry s =
      .next (s.respond (fun _ d => { d with arb := { d.arb with stagger := none } }))) ∧
    (dueOpt s.plant.emg.settle s.clock = true → ∃ d1 : Plant,
      exec .settleExpiry s = .next (s.respond (fun _ _ => d1)) ∧
      d1.emg = ⟨false, SourceSet.empty, none, none, none, .none, none⟩ ∧ (∀ i, (d1.slot i).emergencyCap = .none) ∧
      (s.plant.link.events.length < 32 → d1.link.events = s.plant.link.events ++
        [⟨s.clock, .emergencyCleared .automatic s.plant.emg.sources⟩])) ∧
    (∀ (e : Env) (d : Plant), let t := react e d
      let present := ((e.cls = .jolt ∨ e.cls = .fall) ∧ e.tables.emergencyFlag e.cls = true) ∨
        t.budget.powerState = .holdup
      let runs := t.emg.latched = true ∧ t.emg.phase = some .parked ∧ ¬present ∧ e.tables.autoClear = true
      (runs → d.emg.settle = none → t.emg.settle = some ⟨e.clock, e.tables.settleMs⟩) ∧
      (runs → ∀ m, d.emg.settle = some m → t.emg.settle = some m) ∧ (¬runs → t.emg.settle = none)) ∧
    (∀ f : Env → Plant → Plant, (s.respond f).plant.emg = (react s.env (f s.env s.plant)).emg)

/-- The model's choices of logs 2, 6, 16 and 17: during a break no downstream frame is received; outside one, a frame that
could not have begun with the ready line high is discarded and sets link-error; an expiry that is not due is no event; no frame
ends where none is sent. -/
def Obligations.EventsThatCannotOccur : Prop :=
  ∀ s : State,
    (∀ c, isFrame c = true → s.plant.link.broken = true → exec c s = .next s) ∧
    (∀ c, isFrame c = true → s.plant.link.broken = false → s.plant.free < 15 →
      exec c s = .next { s with plant := { s.plant with link := { s.plant.link with framer := none, linkError := true } } }) ∧
    (∀ cause, s.plant.link.broken = true → exec (.downstreamFrameDiscarded cause) s = .next s) ∧
    (dueOpt s.plant.arb.stagger s.clock = false → exec .staggerExpiry s = .next s) ∧
    (dueOpt s.plant.emg.settle s.clock = false → exec .settleExpiry s = .next s) ∧
    (dueOpt s.monitor.sensorTimer s.clock = false → exec .sensorTimeout s = .next s) ∧
    (s.plant.link.tx = none → exec .upstreamFrameSent s = .next s) ∧
    (dueOpt s.monitor.poised.releaseTimer s.clock = false → exec .poisedReleaseExpiry s = .next s) ∧
    (dueOpt s.monitor.rolling.releaseTimer s.clock = false → exec .rollingReleaseExpiry s = .next s) ∧
    (dueOpt s.monitor.tilted.assertTimer s.clock = false → exec .tiltedAssertionExpiry s = .next s) ∧
    (dueOpt s.monitor.tilted.releaseTimer s.clock = false → exec .tiltedReleaseExpiry s = .next s) ∧
    (dueOpt s.monitor.jolt.releaseTimer s.clock = false → exec .joltHoldExpiry s = .next s) ∧
    (dueOpt s.monitor.fall.assertTimer s.clock = false → exec .fallAssertionExpiry s = .next s) ∧
    (dueOpt s.monitor.fall.releaseTimer s.clock = false → exec .fallReleaseExpiry s = .next s) ∧
    (∀ l, dueOpt (s.power.line l).timer s.clock = false → exec (.powerFilterExpiry l) s = .next s) ∧
    (∀ w, dueOpt (s.monitor.switch w).timer s.clock = false → exec (.switchFilterExpiry w) s = .next s) ∧
    ∀ i, let r := s.plant.slot i
      (r.lane.tx = none → exec (.laneFrameSent i) s = .next s) ∧
      (dueOpt r.presenceFilter s.clock = false → exec (.insertion i) s = .next s ∧ exec (.removal i) s = .next s) ∧
      ((∀ o, r.lane.inFlight = some o → o.timer.due s.clock = false) → exec (.orderTimeout i) s = .next s) ∧
      (dueOpt r.dwell s.clock = false → exec (.dwellExpiry i) s = .next s) ∧
      (dueOpt r.drainTimer s.clock = false → exec (.drainExpiry i) s = .next s) ∧
      (∀ tag, (∀ h ∈ r.hold, h.tag = tag → h.timer.due s.clock = false) → exec (.holdTimerExpiry i tag) s = .next s) ∧
      (r.idleUnload.due s.clock = false → exec (.idleUnloadExpiry i) s = .next s) ∧
      (r.idleStop.due s.clock = false → exec (.idleStopExpiry i) s = .next s)

/-! ### Starts -/

/-- The candidate: in ARRIVAL the head of the queue, in PRIORITY the lowest priority number and among equals the longest
waiting, in ROUND the first queued slot counting from the one after the last granted. Its claim is presented while there is
one, the hold is clear, fewer slots are in STARTING than the table allows, and the stagger timer is not running. A start is
granted only to a queued candidate that is presented and fits, and to no candidate in another state: it leaves the queue for
STARTING with SPIN_UP issued, the stagger timer runs, and it is the last granted. A slot whose overcurrent input is asserted
faults after the whole grant: log 23. A load claim that fits is granted before the start, in ascending slot number: the slot
enters LOADING with LOAD issued, or, no longer SPUN at LOAD, acts on its level with the grant unused. Choices and amounts read
the tables in force; while the transit controller takes a commit first, the candidate of a queue that has not changed, the
draws that no change of state has changed and the amounts of claims that waited at the commit are those before it: the model's
choice, log 27. -/
def Obligations.StartGranted : Prop :=
  (∀ (t : Tables) (a : Arbiter),
    (a.queue = [] → chooseCandidate t a = none) ∧
    (t.mode = .arrival → chooseCandidate t a = a.queue.head?) ∧
    (t.mode = .priority → ∀ i, chooseCandidate t a = some i → ∃ before after, a.queue = before ++ i :: after ∧
      (∀ j ∈ before, t.priority i < t.priority j) ∧ (∀ j ∈ after, t.priority i ≤ t.priority j)) ∧
    (t.mode = .round → ∀ i, chooseCandidate t a = some i → i ∈ a.queue ∧
      ∀ j ∈ a.queue, (i.val + 15 - a.lastGranted.val) % 16 ≤ (j.val + 15 - a.lastGranted.val) % 16) ∧
    (a.queue ≠ [] → (chooseCandidate t a).isSome = true)) ∧
  (∀ (e : Env) (a : Arbiter) (i : SlotId) (r : Slot), let now := e.tables
    (e.unread = none → e.choose a = chooseCandidate now a ∧ e.drawOf i r = r.draw now i ∧
      e.loadAmount i = now.loadDraw i ∧ e.startAmount i = now.spinDraw i) ∧
    (∀ u, e.unread = some u → let before := u.plant
      let q := before.slot i
      e.choose a = (if a.queue = before.arb.queue ∧ a.lastGranted = before.arb.lastGranted then before.arb.candidate
        else chooseCandidate now a) ∧
      e.drawOf i r = (if r.draw now i = q.draw now i then q.draw u.tables i else r.draw now i) ∧
      e.loadAmount i = (if q.loadClaim = true then u.tables else now).loadDraw i ∧
      e.startAmount i =
        (if before.budget.startClaim = true ∧ before.arb.candidate = some i then u.tables else now).spinDraw i)) ∧
  (∀ (e : Env) (d : Plant),
    (∀ i, d.arb.candidate = some i → d.budget.startClaim = true →
      d.budget.committed + e.startAmount i ≤ d.budget.budget → (d.slot i).state = .queued →
      (d.slot i).overcurrentIn = false →
      let t := serveStart e d
      let r := d.slot i
      (t.slot i).state = .starting ∧
      (t.slot i).lane.inFlight = some ⟨.spinUp, r.lane.nextOrder, ⟨e.clock, e.tables.spinUpMs i⟩⟩ ∧
      (t.slot i).motorEnable = true ∧ t.arb.queue = d.arb.queue.filter (fun j => j != i) ∧
      t.arb.stagger = some ⟨e.clock, e.tables.staggerMs⟩ ∧ t.arb.lastGranted = i ∧ t.budget.startClaim = false ∧
      t.budget.committed = t.reportedDraw e ∧ ∀ j, j ≠ i → t.slot j = d.slot j) ∧
    ((d.arb.candidate = none ∨ d.budget.startClaim = false ∨
      (∃ i, d.arb.candidate = some i ∧ d.budget.budget < d.budget.committed + e.startAmount i)) →
      serveStart e d = d) ∧
    (∀ i, d.arb.candidate = some i → (d.slot i).state ≠ .queued → serveStart e d = d) ∧
    (∀ t, refreshArbiter e d = t →
      t.arb = { d.arb with candidate := e.choose d.arb } ∧
      (t.budget.startClaim = true ↔ t.arb.candidate ≠ none ∧ d.arb.hold = false ∧
        allSlots.countP (fun i => (d.slot i).state == .starting) < e.tables.maxStarts ∧ d.arb.stagger = none) ∧
      t = { d with arb := t.arb, budget := { d.budget with startClaim := t.budget.startClaim } }) ∧
    (d.budget.shed = true ∨ d.emg.latched = true → servePass e d = d) ∧
    (d.budget.shed = false → d.emg.latched = false → servePass e d = serveStart e (allSlots.foldl (serveLoad e) d)) ∧
    allSlots.map Fin.val = List.range 16 ∧
    (∀ i, let r := d.slot i
      let t := serveLoad e d i
      let served := r.loadClaim = true ∧ d.budget.committed + e.loadAmount i ≤ d.budget.budget
      (¬served → t = d) ∧
      (served → r.state = .spun → r.effective = .load →
        (t.slot i).motion = { r.motion with
          state := .loading, inFlight := some ⟨.load, r.lane.nextOrder, ⟨e.clock, e.tables.loadMs i⟩⟩ } ∧
        (t.slot i).loadClaim = false ∧ t.budget = { d.budget with committed := t.reportedDraw e } ∧
        t.arb = d.arb ∧ t.link = d.link ∧ ∀ j, j ≠ i → t.slot j = d.slot j) ∧
      (served → r.state ≠ .spun ∨ r.effective ≠ .load → t = act e i (d.put e i { r with loadClaim := false }))) ∧
    (∀ i, d.arb.candidate = some i → d.budget.startClaim = true →
      d.budget.committed + e.startAmount i ≤ d.budget.budget → (d.slot i).state = .queued →
      (d.slot i).overcurrentIn = true →
      let t := serveStart e d
      let r := d.slot i
      (t.slot i).motion = r.motion.faulted .overcurrent none ∧ (t.slot i).lane.nextOrder = r.lane.nextOrder + 1 ∧
      (t.slot i).motorEnable = false ∧ t.arb.queue = d.arb.queue.filter (fun j => j != i) ∧
      t.arb.stagger = some ⟨e.clock, e.tables.staggerMs⟩ ∧ t.arb.lastGranted = i ∧
      (t.slot i).lane.orderSlot = none ∧ (t.slot i).lane.cmdQueue = [] ∧ t.budget.committed = t.reportedDraw e ∧
      (∀ j, j ≠ i → t.slot j = d.slot j) ∧
      d.link.queue ++ answersTo e.tables i .slotFault (r.outstanding.map OutEntry.tag ++ r.hold.map HoldEntry.tag)
        <+: t.link.queue))

/-! ### What every command keeps -/

/-- Table 1-4: every slot has in flight the order that its state allows. -/
def Obligations.OrdersMatchStates : Prop :=
  ∀ (c : Instr) (s t : State), exec c s = .next t → s.plant.ordersMatch → t.plant.ordersMatch

/-- A slot is in the start queue, and once, exactly when its state is QUEUED. -/
def Obligations.StartQueueIsTheQueuedSlots : Prop :=
  ∀ (c : Instr) (s t : State), exec c s = .next t → s.plant.ordersMatch → s.plant.queueMatches → t.plant.queueMatches

/-- No tag twice in a slot, at most four outstanding, all of the present epoch, nothing inside an EMPTY or FAULTED slot, and at
most 48 held. -/
def Obligations.HoldListsSound : Prop :=
  ∀ (c : Instr) (s t : State), exec c s = .next t → s.plant.ordersMatch → s.plant.listsSound → t.plant.listsSound

/-- The upstream queue never overflows: its frames and its reserved entries are at most 128; and the ready line is low below 16
free entries and high from 32. -/
def Obligations.UpstreamQueueAndReadyLine : Prop :=
  ∀ (c : Instr) (s t : State), exec c s = .next t →
    (s.plant.ordersMatch → s.plant.entries ≤ 128 → t.plant.entries ≤ 128) ∧
    (s.plant.readyFollows → t.plant.readyFollows)

/-- Accepted COMMAND frames and COMPLETION frames balance in number: the count of the commands inside the part and the
COMPLETION frames queued changes only by a command that enters and a COMPLETION that is sent, power-on reset apart. -/
def Obligations.CommandsConservedInNumber : Prop :=
  ∀ (c : Instr) (s t : State), exec c s = .next t → c ≠ .powerOnReset → s.plant.ordersMatch →
    t.plant.accounted + s.leaves c = s.plant.accounted + s.enters c

/-- While the emergency latch is set, no slot begins a start or a load. -/
def Obligations.LatchStopsStartsAndLoads : Prop :=
  ∀ (c : Instr) (s t : State), exec c s = .next t → s.plant.ordersMatch →
    s.plant.emg.latched = true → t.plant.emg.latched = true →
    ∀ i, ((t.plant.slot i).state = .starting → (s.plant.slot i).state = .starting) ∧
      ((t.plant.slot i).state = .loading → (s.plant.slot i).state = .loading)

/-- The committed draw is the sum of the slots' draws, and does not exceed the budget while no shed is in progress. -/
def Obligations.BudgetIsKept : Prop :=
  ∀ (c : Instr) (s t : State), exec c s = .next t → s.budgetKept → t.budgetKept

/-- Every table holds permitted values, 0 in its reserved bits, and no slot named twice by valid entries of the logical map;
the staged range has 1 to 64 bytes within its table (R164). -/
def Obligations.TablesStaySound : Prop :=
  ∀ (c : Instr) (s t : State), exec c s = .next t → s.tablesSound → t.tablesSound

/-- The invariants hold right after reset. -/
def Obligations.InvariantsHoldAtReset : Prop :=
  State.reset.plant.ordersMatch ∧ State.reset.plant.queueMatches ∧ State.reset.plant.listsSound ∧
    State.reset.plant.entries ≤ 128 ∧ State.reset.budgetKept ∧ State.reset.tablesSound ∧ State.reset.plant.readyFollows

/-- A frame laid out by Tables 11-1 and 11-9 with its check is received as the command it stands for, whatever its flags byte:
COMMAND, UNIT_REQUEST, the three frames of a lane, and a sample. -/
def Obligations.FramesReceivedAsSent : Prop :=
  (∀ (f : CommandFrame) (flags : Byte), f.wellFormed = true →
    receiveLink true (wireFrame 0x01 f.unit f.tag flags f.payload) = .command f) ∧
  (∀ (code : Byte) (r : Request) (flags : Byte), r.wellFormed = true →
    receiveLink true (wireFrame 0x02 0xFF r.tag flags (code :: r.args)) = requestOf code r) ∧
  (∀ (i : SlotId) (unit tag flags number code : Byte) (result : ReportResult) (mech : MechState),
    receiveLane i (wireFrame 0x90 unit tag flags [number, match result with | .done => 0 | .fail => 1, code,
      match mech with | .stopped => 0 | .atSpeed => 1 | .loaded => 2 | .unloaded => 3]) =
      .report i number result code mech) ∧
  (∀ (i : SlotId) (unit tag flags code : Byte), receiveLane i (wireFrame 0x91 unit tag flags [code]) = .fault i code) ∧
  (∀ (i : SlotId) (unit tag flags epoch status : Byte) (payload : List Byte), payload.length ≤ 48 →
    receiveLane i (wireFrame 0x92 unit tag flags (epoch :: status :: payload)) =
      .sledCompletion i epoch tag status payload) ∧
  (∀ x y z : Word16, (Instr.sample x y z).wellFormed = true →
    let axes := be16 x.toNat ++ be16 y.toNat ++ be16 z.toNat
    receiveSample (axes ++ be16 (check16 axes).toNat) = .sample x y z)
end

