-- ==== Sys2Proof/Laws/State.lean ====
section
/-! SUPPORT. Beside the state: what each named update leaves and what it writes, one lemma a field, each true by `rfl`. -/

namespace Sys2Proof.Machine

/-! ### The state -/

@[simp] theorem State.onPlant_clock (f : Env → Plant → Plant) (s : State) : (s.onPlant f).clock = (s).clock := by unfold State.onPlant; rfl
@[simp] theorem State.onPlant_tables (f : Env → Plant → Plant) (s : State) : (s.onPlant f).tables = (s).tables := by unfold State.onPlant; rfl
@[simp] theorem State.onPlant_staging (f : Env → Plant → Plant) (s : State) : (s.onPlant f).staging = (s).staging := by unfold State.onPlant; rfl
@[simp] theorem State.onPlant_power (f : Env → Plant → Plant) (s : State) : (s.onPlant f).power = (s).power := by unfold State.onPlant; rfl
@[simp] theorem State.onPlant_monitor (f : Env → Plant → Plant) (s : State) : (s.onPlant f).monitor = (s).monitor := by unfold State.onPlant; rfl
@[simp] theorem State.onPlant_freeCount (f : Env → Plant → Plant) (s : State) : (s.onPlant f).freeCount = (s).freeCount := by unfold State.onPlant; rfl
@[simp] theorem State.onPlant_pending (f : Env → Plant → Plant) (s : State) : (s.onPlant f).pending = (s).pending := by unfold State.onPlant; rfl
@[simp] theorem State.onPlant_plant (f : Env → Plant → Plant) (s : State) : (s.onPlant f).plant = (f s.env s.plant).settleLink := by simp only [State.onPlant]
@[simp] theorem State.onPlant_env (f : Env → Plant → Plant) (s : State) : (s.onPlant f).env = s.env := by simp only [State.env, State.onPlant_clock, State.onPlant_tables, State.onPlant_monitor]
@[simp] theorem State.onMonitor_clock (f : Monitor → Monitor) (s : State) : (s.onMonitor f).clock = (s).clock := rfl
@[simp] theorem State.onMonitor_tables (f : Monitor → Monitor) (s : State) : (s.onMonitor f).tables = (s).tables := rfl
@[simp] theorem State.onMonitor_staging (f : Monitor → Monitor) (s : State) : (s.onMonitor f).staging = (s).staging := rfl
@[simp] theorem State.onMonitor_power (f : Monitor → Monitor) (s : State) : (s.onMonitor f).power = (s).power := rfl
@[simp] theorem State.onMonitor_plant (f : Monitor → Monitor) (s : State) : (s.onMonitor f).plant = (s).plant := rfl
@[simp] theorem State.onMonitor_freeCount (f : Monitor → Monitor) (s : State) : (s.onMonitor f).freeCount = (s).freeCount := rfl
@[simp] theorem State.onMonitor_pending (f : Monitor → Monitor) (s : State) : (s.onMonitor f).pending = (s).pending := rfl
@[simp] theorem State.onMonitor_monitor (f : Monitor → Monitor) (s : State) : (s.onMonitor f).monitor = f s.monitor := rfl
@[simp] theorem State.onLink_clock (f : Link → Link) (s : State) : (s.onLink f).clock = (s).clock := rfl
@[simp] theorem State.onLink_tables (f : Link → Link) (s : State) : (s.onLink f).tables = (s).tables := rfl
@[simp] theorem State.onLink_staging (f : Link → Link) (s : State) : (s.onLink f).staging = (s).staging := rfl
@[simp] theorem State.onLink_power (f : Link → Link) (s : State) : (s.onLink f).power = (s).power := rfl
@[simp] theorem State.onLink_monitor (f : Link → Link) (s : State) : (s.onLink f).monitor = (s).monitor := rfl
@[simp] theorem State.onLink_freeCount (f : Link → Link) (s : State) : (s.onLink f).freeCount = (s).freeCount := rfl
@[simp] theorem State.onLink_pending (f : Link → Link) (s : State) : (s.onLink f).pending = (s).pending := rfl
@[simp] theorem State.onLink_plant_slots (f : Link → Link) (s : State) : (s.onLink f).plant.slots = (s).plant.slots := rfl
@[simp] theorem State.onLink_plant_arb (f : Link → Link) (s : State) : (s.onLink f).plant.arb = (s).plant.arb := rfl
@[simp] theorem State.onLink_plant_budget (f : Link → Link) (s : State) : (s.onLink f).plant.budget = (s).plant.budget := rfl
@[simp] theorem State.onLink_plant_emg (f : Link → Link) (s : State) : (s.onLink f).plant.emg = (s).plant.emg := rfl
@[simp] theorem State.onLink_plant_link (f : Link → Link) (s : State) : (s.onLink f).plant.link = f s.plant.link := rfl
@[simp] theorem State.onLink_env (f : Link → Link) (s : State) : (s.onLink f).env = s.env := rfl
@[simp] theorem State.useFree_clock (s : State) : (s.useFree).clock = (s).clock := rfl
@[simp] theorem State.useFree_tables (s : State) : (s.useFree).tables = (s).tables := rfl
@[simp] theorem State.useFree_staging (s : State) : (s.useFree).staging = (s).staging := rfl
@[simp] theorem State.useFree_power (s : State) : (s.useFree).power = (s).power := rfl
@[simp] theorem State.useFree_monitor (s : State) : (s.useFree).monitor = (s).monitor := rfl
@[simp] theorem State.useFree_plant (s : State) : (s.useFree).plant = (s).plant := rfl
@[simp] theorem State.useFree_pending (s : State) : (s.useFree).pending = (s).pending := rfl
@[simp] theorem State.useFree_freeCount (s : State) : s.useFree.freeCount = s.freeCount + 1 := rfl
@[simp] theorem State.useFree_env (s : State) : s.useFree.env = s.env := rfl
@[simp] theorem State.reply_clock (tag code : Byte) (st : UnitStatus) (data : List Byte) (s : State) : (s.reply tag code st data).clock = (s).clock := by unfold State.reply State.onPlant; rfl
@[simp] theorem State.reply_tables (tag code : Byte) (st : UnitStatus) (data : List Byte) (s : State) : (s.reply tag code st data).tables = (s).tables := by unfold State.reply State.onPlant; rfl
@[simp] theorem State.reply_staging (tag code : Byte) (st : UnitStatus) (data : List Byte) (s : State) : (s.reply tag code st data).staging = (s).staging := by unfold State.reply State.onPlant; rfl
@[simp] theorem State.reply_power (tag code : Byte) (st : UnitStatus) (data : List Byte) (s : State) : (s.reply tag code st data).power = (s).power := by unfold State.reply State.onPlant; rfl
@[simp] theorem State.reply_monitor (tag code : Byte) (st : UnitStatus) (data : List Byte) (s : State) : (s.reply tag code st data).monitor = (s).monitor := by unfold State.reply State.onPlant; rfl
@[simp] theorem State.reply_freeCount (tag code : Byte) (st : UnitStatus) (data : List Byte) (s : State) : (s.reply tag code st data).freeCount = (s).freeCount := by unfold State.reply State.onPlant; rfl
@[simp] theorem State.reply_pending (tag code : Byte) (st : UnitStatus) (data : List Byte) (s : State) : (s.reply tag code st data).pending = (s).pending := by unfold State.reply State.onPlant; rfl
@[simp] theorem State.record_clock (ev : Event) (s : State) : (s.record ev).clock = (s).clock := by unfold State.record State.onPlant; rfl
@[simp] theorem State.record_tables (ev : Event) (s : State) : (s.record ev).tables = (s).tables := by unfold State.record State.onPlant; rfl
@[simp] theorem State.record_staging (ev : Event) (s : State) : (s.record ev).staging = (s).staging := by unfold State.record State.onPlant; rfl
@[simp] theorem State.record_power (ev : Event) (s : State) : (s.record ev).power = (s).power := by unfold State.record State.onPlant; rfl
@[simp] theorem State.record_monitor (ev : Event) (s : State) : (s.record ev).monitor = (s).monitor := by unfold State.record State.onPlant; rfl
@[simp] theorem State.record_freeCount (ev : Event) (s : State) : (s.record ev).freeCount = (s).freeCount := by unfold State.record State.onPlant; rfl
@[simp] theorem State.record_pending (ev : Event) (s : State) : (s.record ev).pending = (s).pending := by unfold State.record State.onPlant; rfl
@[simp] theorem State.advance_tables (s : State) : (s.advance).tables = (s).tables := rfl
@[simp] theorem State.advance_staging (s : State) : (s.advance).staging = (s).staging := rfl
@[simp] theorem State.advance_power (s : State) : (s.advance).power = (s).power := rfl
@[simp] theorem State.advance_monitor (s : State) : (s.advance).monitor = (s).monitor := rfl
@[simp] theorem State.advance_plant (s : State) : (s.advance).plant = (s).plant := rfl
@[simp] theorem State.advance_freeCount (s : State) : (s.advance).freeCount = (s).freeCount := rfl
@[simp] theorem State.advance_pending (s : State) : (s.advance).pending = (s).pending := rfl
@[simp] theorem State.advance_clock (s : State) : s.advance.clock = s.clock + 1 := rfl
@[simp] theorem State.powerOn_freeCount (s : State) : (s.powerOn).freeCount = (s).freeCount := rfl
@[simp] theorem State.powerOn_pending (s : State) : (s.powerOn).pending = (s).pending := rfl

/-! ### The plant -/

@[simp] theorem Plant.put_arb (e : Env) (i : SlotId) (r : Slot) (d : Plant) : (d.put e i r).arb = (d).arb := rfl
@[simp] theorem Plant.put_budget (e : Env) (i : SlotId) (r : Slot) (d : Plant) : (d.put e i r).budget = (d).budget := rfl
@[simp] theorem Plant.put_emg (e : Env) (i : SlotId) (r : Slot) (d : Plant) : (d.put e i r).emg = (d).emg := rfl
@[simp] theorem Plant.put_link (e : Env) (i : SlotId) (r : Slot) (d : Plant) : (d.put e i r).link = (d).link := rfl
@[simp] theorem Plant.push_slots (f : UpFrame) (d : Plant) : (d.push f).slots = (d).slots := rfl
@[simp] theorem Plant.push_arb (f : UpFrame) (d : Plant) : (d.push f).arb = (d).arb := rfl
@[simp] theorem Plant.push_budget (f : UpFrame) (d : Plant) : (d.push f).budget = (d).budget := rfl
@[simp] theorem Plant.push_emg (f : UpFrame) (d : Plant) : (d.push f).emg = (d).emg := rfl
@[simp] theorem Plant.push_link (f : UpFrame) (d : Plant) : (d.push f).link = d.link.push f := rfl
@[simp] theorem Plant.joinQueue_slots (i : SlotId) (d : Plant) : (d.joinQueue i).slots = (d).slots := rfl
@[simp] theorem Plant.joinQueue_budget (i : SlotId) (d : Plant) : (d.joinQueue i).budget = (d).budget := rfl
@[simp] theorem Plant.joinQueue_emg (i : SlotId) (d : Plant) : (d.joinQueue i).emg = (d).emg := rfl
@[simp] theorem Plant.joinQueue_link (i : SlotId) (d : Plant) : (d.joinQueue i).link = (d).link := rfl
@[simp] theorem Plant.leaveQueue_slots (i : SlotId) (d : Plant) : (d.leaveQueue i).slots = (d).slots := rfl
@[simp] theorem Plant.leaveQueue_budget (i : SlotId) (d : Plant) : (d.leaveQueue i).budget = (d).budget := rfl
@[simp] theorem Plant.leaveQueue_emg (i : SlotId) (d : Plant) : (d.leaveQueue i).emg = (d).emg := rfl
@[simp] theorem Plant.leaveQueue_link (i : SlotId) (d : Plant) : (d.leaveQueue i).link = (d).link := rfl
@[simp] theorem Plant.joinQueue_queue (i : SlotId) (d : Plant) : (d.joinQueue i).arb.queue = d.arb.queue ++ [i] := rfl
@[simp] theorem Plant.leaveQueue_queue (i : SlotId) (d : Plant) : (d.leaveQueue i).arb.queue = d.arb.queue.filter (fun j => j != i) := rfl
@[simp] theorem recommit_slots (e : Env) (d : Plant) : (recommit e d).slots = (d).slots := by unfold recommit; rfl
@[simp] theorem recommit_arb (e : Env) (d : Plant) : (recommit e d).arb = (d).arb := by unfold recommit; rfl
@[simp] theorem recommit_emg (e : Env) (d : Plant) : (recommit e d).emg = (d).emg := by unfold recommit; rfl
@[simp] theorem recommit_link (e : Env) (d : Plant) : (recommit e d).link = (d).link := by unfold recommit; rfl
@[simp] theorem refreshArbiter_slots (e : Env) (d : Plant) : (refreshArbiter e d).slots = (d).slots := by unfold refreshArbiter; rfl
@[simp] theorem refreshArbiter_emg (e : Env) (d : Plant) : (refreshArbiter e d).emg = (d).emg := by unfold refreshArbiter; rfl
@[simp] theorem refreshArbiter_link (e : Env) (d : Plant) : (refreshArbiter e d).link = (d).link := by unfold refreshArbiter; rfl
@[simp] theorem refreshArbiter_queue (e : Env) (d : Plant) : (refreshArbiter e d).arb.queue = d.arb.queue := by unfold refreshArbiter; rfl
@[simp] theorem recommit_committed (e : Env) (d : Plant) : (recommit e d).budget.committed = d.reportedDraw e := by unfold recommit; rfl

/-! ### What the arbiter and the budget unit keep, once every block has taken the tables -/

@[simp] theorem State.env_unread (s : State) : s.env.unread = none := rfl
theorem Env.choose_read {e : Env} (h : e.unread = none) (a : Arbiter) : e.choose a = chooseCandidate e.tables a := by
  unfold Env.choose; rw [h]
theorem Env.drawOf_read {e : Env} (h : e.unread = none) (i : SlotId) (r : Slot) : e.drawOf i r = r.draw e.tables i := by
  unfold Env.drawOf; rw [h]
theorem Env.loadAmount_read {e : Env} (h : e.unread = none) (i : SlotId) : e.loadAmount i = e.tables.loadDraw i := by
  unfold Env.loadAmount; rw [h]
theorem Env.startAmount_read {e : Env} (h : e.unread = none) (i : SlotId) : e.startAmount i = e.tables.spinDraw i := by
  unfold Env.startAmount; rw [h]
theorem Plant.reportedDraw_read {e : Env} (h : e.unread = none) (d : Plant) : d.reportedDraw e = d.totalDraw e.tables := by
  unfold Plant.reportedDraw Plant.totalDraw; simp only [Env.drawOf_read h]

/-! ### The case link -/

@[simp] theorem Link.acceptFrame_queue (l : Link) : (l.acceptFrame).queue = (l).queue := rfl
@[simp] theorem Link.acceptFrame_tx (l : Link) : (l.acceptFrame).tx = (l).tx := rfl
@[simp] theorem Link.acceptFrame_broken (l : Link) : (l.acceptFrame).broken = (l).broken := rfl
@[simp] theorem Link.acceptFrame_ready (l : Link) : (l.acceptFrame).ready = (l).ready := rfl
@[simp] theorem Link.acceptFrame_linkError (l : Link) : (l.acceptFrame).linkError = (l).linkError := rfl
@[simp] theorem Link.acceptFrame_events (l : Link) : (l.acceptFrame).events = (l).events := rfl
@[simp] theorem Link.acceptFrame_overrun (l : Link) : (l.acceptFrame).overrun = (l).overrun := rfl
@[simp] theorem Link.discardFrame_queue (l : Link) : (l.discardFrame).queue = (l).queue := rfl
@[simp] theorem Link.discardFrame_tx (l : Link) : (l.discardFrame).tx = (l).tx := rfl
@[simp] theorem Link.discardFrame_broken (l : Link) : (l.discardFrame).broken = (l).broken := rfl
@[simp] theorem Link.discardFrame_ready (l : Link) : (l.discardFrame).ready = (l).ready := rfl
@[simp] theorem Link.discardFrame_events (l : Link) : (l.discardFrame).events = (l).events := rfl
@[simp] theorem Link.discardFrame_overrun (l : Link) : (l.discardFrame).overrun = (l).overrun := rfl
@[simp] theorem Link.readEvents_framer (n : Nat) (l : Link) : (l.readEvents n).framer = (l).framer := rfl
@[simp] theorem Link.readEvents_queue (n : Nat) (l : Link) : (l.readEvents n).queue = (l).queue := rfl
@[simp] theorem Link.readEvents_tx (n : Nat) (l : Link) : (l.readEvents n).tx = (l).tx := rfl
@[simp] theorem Link.readEvents_broken (n : Nat) (l : Link) : (l.readEvents n).broken = (l).broken := rfl
@[simp] theorem Link.readEvents_ready (n : Nat) (l : Link) : (l.readEvents n).ready = (l).ready := rfl
@[simp] theorem Link.readEvents_linkError (n : Nat) (l : Link) : (l.readEvents n).linkError = (l).linkError := rfl
@[simp] theorem Link.takeBreak_queue (l : Link) : (l.takeBreak).queue = (l).queue := rfl
@[simp] theorem Link.takeBreak_ready (l : Link) : (l.takeBreak).ready = (l).ready := rfl
@[simp] theorem Link.takeBreak_linkError (l : Link) : (l.takeBreak).linkError = (l).linkError := rfl
@[simp] theorem Link.takeBreak_events (l : Link) : (l.takeBreak).events = (l).events := rfl
@[simp] theorem Link.takeBreak_overrun (l : Link) : (l.takeBreak).overrun = (l).overrun := rfl

/-! ### Slot records -/

@[simp] theorem Slot.examineCountdowns_state (e : Env) (i : SlotId) (r : Slot) : (r.examineCountdowns e i).state = (r).state := rfl
@[simp] theorem Slot.examineCountdowns_requested (e : Env) (i : SlotId) (r : Slot) : (r.examineCountdowns e i).requested = (r).requested := rfl
@[simp] theorem Slot.examineCountdowns_pinned (e : Env) (i : SlotId) (r : Slot) : (r.examineCountdowns e i).pinned = (r).pinned := rfl
@[simp] theorem Slot.examineCountdowns_transitCap (e : Env) (i : SlotId) (r : Slot) : (r.examineCountdowns e i).transitCap = (r).transitCap := rfl
@[simp] theorem Slot.examineCountdowns_transitDisposition (e : Env) (i : SlotId) (r : Slot) : (r.examineCountdowns e i).transitDisposition = (r).transitDisposition := rfl
@[simp] theorem Slot.examineCountdowns_budgetCap (e : Env) (i : SlotId) (r : Slot) : (r.examineCountdowns e i).budgetCap = (r).budgetCap := rfl
@[simp] theorem Slot.examineCountdowns_emergencyCap (e : Env) (i : SlotId) (r : Slot) : (r.examineCountdowns e i).emergencyCap = (r).emergencyCap := rfl
@[simp] theorem Slot.examineCountdowns_draining (e : Env) (i : SlotId) (r : Slot) : (r.examineCountdowns e i).draining = (r).draining := rfl
@[simp] theorem Slot.examineCountdowns_drainTimer (e : Env) (i : SlotId) (r : Slot) : (r.examineCountdowns e i).drainTimer = (r).drainTimer := rfl
@[simp] theorem Slot.examineCountdowns_stoppingFromStart (e : Env) (i : SlotId) (r : Slot) : (r.examineCountdowns e i).stoppingFromStart = (r).stoppingFromStart := rfl
@[simp] theorem Slot.examineCountdowns_unloadMark (e : Env) (i : SlotId) (r : Slot) : (r.examineCountdowns e i).unloadMark = (r).unloadMark := rfl
@[simp] theorem Slot.examineCountdowns_unloadReissued (e : Env) (i : SlotId) (r : Slot) : (r.examineCountdowns e i).unloadReissued = (r).unloadReissued := rfl
@[simp] theorem Slot.examineCountdowns_faultReason (e : Env) (i : SlotId) (r : Slot) : (r.examineCountdowns e i).faultReason = (r).faultReason := rfl
@[simp] theorem Slot.examineCountdowns_sledCode (e : Env) (i : SlotId) (r : Slot) : (r.examineCountdowns e i).sledCode = (r).sledCode := rfl
@[simp] theorem Slot.examineCountdowns_epoch (e : Env) (i : SlotId) (r : Slot) : (r.examineCountdowns e i).epoch = (r).epoch := rfl
@[simp] theorem Slot.examineCountdowns_outstanding (e : Env) (i : SlotId) (r : Slot) : (r.examineCountdowns e i).outstanding = (r).outstanding := rfl
@[simp] theorem Slot.examineCountdowns_hold (e : Env) (i : SlotId) (r : Slot) : (r.examineCountdowns e i).hold = (r).hold := rfl
@[simp] theorem Slot.examineCountdowns_dwell (e : Env) (i : SlotId) (r : Slot) : (r.examineCountdowns e i).dwell = (r).dwell := rfl
@[simp] theorem Slot.examineCountdowns_presenceFilter (e : Env) (i : SlotId) (r : Slot) : (r.examineCountdowns e i).presenceFilter = (r).presenceFilter := rfl
@[simp] theorem Slot.examineCountdowns_suspension (e : Env) (i : SlotId) (r : Slot) : (r.examineCountdowns e i).suspension = (r).suspension := rfl
@[simp] theorem Slot.examineCountdowns_exposures (e : Env) (i : SlotId) (r : Slot) : (r.examineCountdowns e i).exposures = (r).exposures := rfl
@[simp] theorem Slot.examineCountdowns_strays (e : Env) (i : SlotId) (r : Slot) : (r.examineCountdowns e i).strays = (r).strays := rfl
@[simp] theorem Slot.examineCountdowns_loadClaim (e : Env) (i : SlotId) (r : Slot) : (r.examineCountdowns e i).loadClaim = (r).loadClaim := rfl
@[simp] theorem Slot.examineCountdowns_lane (e : Env) (i : SlotId) (r : Slot) : (r.examineCountdowns e i).lane = (r).lane := rfl
@[simp] theorem Slot.examineCountdowns_presenceIn (e : Env) (i : SlotId) (r : Slot) : (r.examineCountdowns e i).presenceIn = (r).presenceIn := rfl
@[simp] theorem Slot.examineCountdowns_overcurrentIn (e : Env) (i : SlotId) (r : Slot) : (r.examineCountdowns e i).overcurrentIn = (r).overcurrentIn := rfl
@[simp] theorem Slot.issue_state (e : Env) (i : SlotId) (kind : OrderKind) (r : Slot) : (r.issue e i kind).state = (r).state := rfl
@[simp] theorem Slot.issue_requested (e : Env) (i : SlotId) (kind : OrderKind) (r : Slot) : (r.issue e i kind).requested = (r).requested := rfl
@[simp] theorem Slot.issue_pinned (e : Env) (i : SlotId) (kind : OrderKind) (r : Slot) : (r.issue e i kind).pinned = (r).pinned := rfl
@[simp] theorem Slot.issue_transitCap (e : Env) (i : SlotId) (kind : OrderKind) (r : Slot) : (r.issue e i kind).transitCap = (r).transitCap := rfl
@[simp] theorem Slot.issue_transitDisposition (e : Env) (i : SlotId) (kind : OrderKind) (r : Slot) : (r.issue e i kind).transitDisposition = (r).transitDisposition := rfl
@[simp] theorem Slot.issue_budgetCap (e : Env) (i : SlotId) (kind : OrderKind) (r : Slot) : (r.issue e i kind).budgetCap = (r).budgetCap := rfl
@[simp] theorem Slot.issue_emergencyCap (e : Env) (i : SlotId) (kind : OrderKind) (r : Slot) : (r.issue e i kind).emergencyCap = (r).emergencyCap := rfl
@[simp] theorem Slot.issue_draining (e : Env) (i : SlotId) (kind : OrderKind) (r : Slot) : (r.issue e i kind).draining = (r).draining := rfl
@[simp] theorem Slot.issue_drainTimer (e : Env) (i : SlotId) (kind : OrderKind) (r : Slot) : (r.issue e i kind).drainTimer = (r).drainTimer := rfl
@[simp] theorem Slot.issue_stoppingFromStart (e : Env) (i : SlotId) (kind : OrderKind) (r : Slot) : (r.issue e i kind).stoppingFromStart = (r).stoppingFromStart := rfl
@[simp] theorem Slot.issue_unloadMark (e : Env) (i : SlotId) (kind : OrderKind) (r : Slot) : (r.issue e i kind).unloadMark = (r).unloadMark := rfl
@[simp] theorem Slot.issue_unloadReissued (e : Env) (i : SlotId) (kind : OrderKind) (r : Slot) : (r.issue e i kind).unloadReissued = (r).unloadReissued := rfl
@[simp] theorem Slot.issue_faultReason (e : Env) (i : SlotId) (kind : OrderKind) (r : Slot) : (r.issue e i kind).faultReason = (r).faultReason := rfl
@[simp] theorem Slot.issue_sledCode (e : Env) (i : SlotId) (kind : OrderKind) (r : Slot) : (r.issue e i kind).sledCode = (r).sledCode := rfl
@[simp] theorem Slot.issue_epoch (e : Env) (i : SlotId) (kind : OrderKind) (r : Slot) : (r.issue e i kind).epoch = (r).epoch := rfl
@[simp] theorem Slot.issue_outstanding (e : Env) (i : SlotId) (kind : OrderKind) (r : Slot) : (r.issue e i kind).outstanding = (r).outstanding := rfl
@[simp] theorem Slot.issue_hold (e : Env) (i : SlotId) (kind : OrderKind) (r : Slot) : (r.issue e i kind).hold = (r).hold := rfl
@[simp] theorem Slot.issue_idleUnload (e : Env) (i : SlotId) (kind : OrderKind) (r : Slot) : (r.issue e i kind).idleUnload = (r).idleUnload := rfl
@[simp] theorem Slot.issue_idleStop (e : Env) (i : SlotId) (kind : OrderKind) (r : Slot) : (r.issue e i kind).idleStop = (r).idleStop := rfl
@[simp] theorem Slot.issue_dwell (e : Env) (i : SlotId) (kind : OrderKind) (r : Slot) : (r.issue e i kind).dwell = (r).dwell := rfl
@[simp] theorem Slot.issue_presenceFilter (e : Env) (i : SlotId) (kind : OrderKind) (r : Slot) : (r.issue e i kind).presenceFilter = (r).presenceFilter := rfl
@[simp] theorem Slot.issue_suspension (e : Env) (i : SlotId) (kind : OrderKind) (r : Slot) : (r.issue e i kind).suspension = (r).suspension := rfl
@[simp] theorem Slot.issue_exposures (e : Env) (i : SlotId) (kind : OrderKind) (r : Slot) : (r.issue e i kind).exposures = (r).exposures := rfl
@[simp] theorem Slot.issue_strays (e : Env) (i : SlotId) (kind : OrderKind) (r : Slot) : (r.issue e i kind).strays = (r).strays := rfl
@[simp] theorem Slot.issue_loadClaim (e : Env) (i : SlotId) (kind : OrderKind) (r : Slot) : (r.issue e i kind).loadClaim = (r).loadClaim := rfl
@[simp] theorem Slot.issue_presenceIn (e : Env) (i : SlotId) (kind : OrderKind) (r : Slot) : (r.issue e i kind).presenceIn = (r).presenceIn := rfl
@[simp] theorem Slot.issue_overcurrentIn (e : Env) (i : SlotId) (kind : OrderKind) (r : Slot) : (r.issue e i kind).overcurrentIn = (r).overcurrentIn := rfl
@[simp] theorem Slot.endOrder_state (r : Slot) : (r.endOrder).state = (r).state := rfl
@[simp] theorem Slot.endOrder_requested (r : Slot) : (r.endOrder).requested = (r).requested := rfl
@[simp] theorem Slot.endOrder_pinned (r : Slot) : (r.endOrder).pinned = (r).pinned := rfl
@[simp] theorem Slot.endOrder_transitCap (r : Slot) : (r.endOrder).transitCap = (r).transitCap := rfl
@[simp] theorem Slot.endOrder_transitDisposition (r : Slot) : (r.endOrder).transitDisposition = (r).transitDisposition := rfl
@[simp] theorem Slot.endOrder_budgetCap (r : Slot) : (r.endOrder).budgetCap = (r).budgetCap := rfl
@[simp] theorem Slot.endOrder_emergencyCap (r : Slot) : (r.endOrder).emergencyCap = (r).emergencyCap := rfl
@[simp] theorem Slot.endOrder_draining (r : Slot) : (r.endOrder).draining = (r).draining := rfl
@[simp] theorem Slot.endOrder_drainTimer (r : Slot) : (r.endOrder).drainTimer = (r).drainTimer := rfl
@[simp] theorem Slot.endOrder_stoppingFromStart (r : Slot) : (r.endOrder).stoppingFromStart = (r).stoppingFromStart := rfl
@[simp] theorem Slot.endOrder_unloadMark (r : Slot) : (r.endOrder).unloadMark = (r).unloadMark := rfl
@[simp] theorem Slot.endOrder_unloadReissued (r : Slot) : (r.endOrder).unloadReissued = (r).unloadReissued := rfl
@[simp] theorem Slot.endOrder_faultReason (r : Slot) : (r.endOrder).faultReason = (r).faultReason := rfl
@[simp] theorem Slot.endOrder_sledCode (r : Slot) : (r.endOrder).sledCode = (r).sledCode := rfl
@[simp] theorem Slot.endOrder_epoch (r : Slot) : (r.endOrder).epoch = (r).epoch := rfl
@[simp] theorem Slot.endOrder_outstanding (r : Slot) : (r.endOrder).outstanding = (r).outstanding := rfl
@[simp] theorem Slot.endOrder_hold (r : Slot) : (r.endOrder).hold = (r).hold := rfl
@[simp] theorem Slot.endOrder_idleUnload (r : Slot) : (r.endOrder).idleUnload = (r).idleUnload := rfl
@[simp] theorem Slot.endOrder_idleStop (r : Slot) : (r.endOrder).idleStop = (r).idleStop := rfl
@[simp] theorem Slot.endOrder_dwell (r : Slot) : (r.endOrder).dwell = (r).dwell := rfl
@[simp] theorem Slot.endOrder_presenceFilter (r : Slot) : (r.endOrder).presenceFilter = (r).presenceFilter := rfl
@[simp] theorem Slot.endOrder_suspension (r : Slot) : (r.endOrder).suspension = (r).suspension := rfl
@[simp] theorem Slot.endOrder_exposures (r : Slot) : (r.endOrder).exposures = (r).exposures := rfl
@[simp] theorem Slot.endOrder_strays (r : Slot) : (r.endOrder).strays = (r).strays := rfl
@[simp] theorem Slot.endOrder_loadClaim (r : Slot) : (r.endOrder).loadClaim = (r).loadClaim := rfl
@[simp] theorem Slot.endOrder_presenceIn (r : Slot) : (r.endOrder).presenceIn = (r).presenceIn := rfl
@[simp] theorem Slot.endOrder_overcurrentIn (r : Slot) : (r.endOrder).overcurrentIn = (r).overcurrentIn := rfl
@[simp] theorem Slot.dropOrder_state (r : Slot) : (r.dropOrder).state = (r).state := rfl
@[simp] theorem Slot.dropOrder_requested (r : Slot) : (r.dropOrder).requested = (r).requested := rfl
@[simp] theorem Slot.dropOrder_pinned (r : Slot) : (r.dropOrder).pinned = (r).pinned := rfl
@[simp] theorem Slot.dropOrder_transitCap (r : Slot) : (r.dropOrder).transitCap = (r).transitCap := rfl
@[simp] theorem Slot.dropOrder_transitDisposition (r : Slot) : (r.dropOrder).transitDisposition = (r).transitDisposition := rfl
@[simp] theorem Slot.dropOrder_budgetCap (r : Slot) : (r.dropOrder).budgetCap = (r).budgetCap := rfl
@[simp] theorem Slot.dropOrder_emergencyCap (r : Slot) : (r.dropOrder).emergencyCap = (r).emergencyCap := rfl
@[simp] theorem Slot.dropOrder_draining (r : Slot) : (r.dropOrder).draining = (r).draining := rfl
@[simp] theorem Slot.dropOrder_drainTimer (r : Slot) : (r.dropOrder).drainTimer = (r).drainTimer := rfl
@[simp] theorem Slot.dropOrder_stoppingFromStart (r : Slot) : (r.dropOrder).stoppingFromStart = (r).stoppingFromStart := rfl
@[simp] theorem Slot.dropOrder_unloadMark (r : Slot) : (r.dropOrder).unloadMark = (r).unloadMark := rfl
@[simp] theorem Slot.dropOrder_unloadReissued (r : Slot) : (r.dropOrder).unloadReissued = (r).unloadReissued := rfl
@[simp] theorem Slot.dropOrder_faultReason (r : Slot) : (r.dropOrder).faultReason = (r).faultReason := rfl
@[simp] theorem Slot.dropOrder_sledCode (r : Slot) : (r.dropOrder).sledCode = (r).sledCode := rfl
@[simp] theorem Slot.dropOrder_epoch (r : Slot) : (r.dropOrder).epoch = (r).epoch := rfl
@[simp] theorem Slot.dropOrder_outstanding (r : Slot) : (r.dropOrder).outstanding = (r).outstanding := rfl
@[simp] theorem Slot.dropOrder_hold (r : Slot) : (r.dropOrder).hold = (r).hold := rfl
@[simp] theorem Slot.dropOrder_idleUnload (r : Slot) : (r.dropOrder).idleUnload = (r).idleUnload := rfl
@[simp] theorem Slot.dropOrder_idleStop (r : Slot) : (r.dropOrder).idleStop = (r).idleStop := rfl
@[simp] theorem Slot.dropOrder_dwell (r : Slot) : (r.dropOrder).dwell = (r).dwell := rfl
@[simp] theorem Slot.dropOrder_presenceFilter (r : Slot) : (r.dropOrder).presenceFilter = (r).presenceFilter := rfl
@[simp] theorem Slot.dropOrder_suspension (r : Slot) : (r.dropOrder).suspension = (r).suspension := rfl
@[simp] theorem Slot.dropOrder_exposures (r : Slot) : (r.dropOrder).exposures = (r).exposures := rfl
@[simp] theorem Slot.dropOrder_strays (r : Slot) : (r.dropOrder).strays = (r).strays := rfl
@[simp] theorem Slot.dropOrder_loadClaim (r : Slot) : (r.dropOrder).loadClaim = (r).loadClaim := rfl
@[simp] theorem Slot.dropOrder_presenceIn (r : Slot) : (r.dropOrder).presenceIn = (r).presenceIn := rfl
@[simp] theorem Slot.dropOrder_overcurrentIn (r : Slot) : (r.dropOrder).overcurrentIn = (r).overcurrentIn := rfl
@[simp] theorem Slot.nextEpoch_state (r : Slot) : (r.nextEpoch).state = (r).state := rfl
@[simp] theorem Slot.nextEpoch_requested (r : Slot) : (r.nextEpoch).requested = (r).requested := rfl
@[simp] theorem Slot.nextEpoch_pinned (r : Slot) : (r.nextEpoch).pinned = (r).pinned := rfl
@[simp] theorem Slot.nextEpoch_transitCap (r : Slot) : (r.nextEpoch).transitCap = (r).transitCap := rfl
@[simp] theorem Slot.nextEpoch_transitDisposition (r : Slot) : (r.nextEpoch).transitDisposition = (r).transitDisposition := rfl
@[simp] theorem Slot.nextEpoch_budgetCap (r : Slot) : (r.nextEpoch).budgetCap = (r).budgetCap := rfl
@[simp] theorem Slot.nextEpoch_emergencyCap (r : Slot) : (r.nextEpoch).emergencyCap = (r).emergencyCap := rfl
@[simp] theorem Slot.nextEpoch_draining (r : Slot) : (r.nextEpoch).draining = (r).draining := rfl
@[simp] theorem Slot.nextEpoch_drainTimer (r : Slot) : (r.nextEpoch).drainTimer = (r).drainTimer := rfl
@[simp] theorem Slot.nextEpoch_stoppingFromStart (r : Slot) : (r.nextEpoch).stoppingFromStart = (r).stoppingFromStart := rfl
@[simp] theorem Slot.nextEpoch_unloadMark (r : Slot) : (r.nextEpoch).unloadMark = (r).unloadMark := rfl
@[simp] theorem Slot.nextEpoch_unloadReissued (r : Slot) : (r.nextEpoch).unloadReissued = (r).unloadReissued := rfl
@[simp] theorem Slot.nextEpoch_faultReason (r : Slot) : (r.nextEpoch).faultReason = (r).faultReason := rfl
@[simp] theorem Slot.nextEpoch_sledCode (r : Slot) : (r.nextEpoch).sledCode = (r).sledCode := rfl
@[simp] theorem Slot.nextEpoch_outstanding (r : Slot) : (r.nextEpoch).outstanding = (r).outstanding := rfl
@[simp] theorem Slot.nextEpoch_hold (r : Slot) : (r.nextEpoch).hold = (r).hold := rfl
@[simp] theorem Slot.nextEpoch_idleUnload (r : Slot) : (r.nextEpoch).idleUnload = (r).idleUnload := rfl
@[simp] theorem Slot.nextEpoch_idleStop (r : Slot) : (r.nextEpoch).idleStop = (r).idleStop := rfl
@[simp] theorem Slot.nextEpoch_dwell (r : Slot) : (r.nextEpoch).dwell = (r).dwell := rfl
@[simp] theorem Slot.nextEpoch_presenceFilter (r : Slot) : (r.nextEpoch).presenceFilter = (r).presenceFilter := rfl
@[simp] theorem Slot.nextEpoch_suspension (r : Slot) : (r.nextEpoch).suspension = (r).suspension := rfl
@[simp] theorem Slot.nextEpoch_exposures (r : Slot) : (r.nextEpoch).exposures = (r).exposures := rfl
@[simp] theorem Slot.nextEpoch_strays (r : Slot) : (r.nextEpoch).strays = (r).strays := rfl
@[simp] theorem Slot.nextEpoch_loadClaim (r : Slot) : (r.nextEpoch).loadClaim = (r).loadClaim := rfl
@[simp] theorem Slot.nextEpoch_presenceIn (r : Slot) : (r.nextEpoch).presenceIn = (r).presenceIn := rfl
@[simp] theorem Slot.nextEpoch_overcurrentIn (r : Slot) : (r.nextEpoch).overcurrentIn = (r).overcurrentIn := rfl
@[simp] theorem Slot.forward_state (e : Env) (tag : Byte) (payload : List Byte) (r : Slot) : (r.forward e tag payload).state = (r).state := rfl
@[simp] theorem Slot.forward_requested (e : Env) (tag : Byte) (payload : List Byte) (r : Slot) : (r.forward e tag payload).requested = (r).requested := rfl
@[simp] theorem Slot.forward_pinned (e : Env) (tag : Byte) (payload : List Byte) (r : Slot) : (r.forward e tag payload).pinned = (r).pinned := rfl
@[simp] theorem Slot.forward_transitCap (e : Env) (tag : Byte) (payload : List Byte) (r : Slot) : (r.forward e tag payload).transitCap = (r).transitCap := rfl
@[simp] theorem Slot.forward_transitDisposition (e : Env) (tag : Byte) (payload : List Byte) (r : Slot) : (r.forward e tag payload).transitDisposition = (r).transitDisposition := rfl
@[simp] theorem Slot.forward_budgetCap (e : Env) (tag : Byte) (payload : List Byte) (r : Slot) : (r.forward e tag payload).budgetCap = (r).budgetCap := rfl
@[simp] theorem Slot.forward_emergencyCap (e : Env) (tag : Byte) (payload : List Byte) (r : Slot) : (r.forward e tag payload).emergencyCap = (r).emergencyCap := rfl
@[simp] theorem Slot.forward_draining (e : Env) (tag : Byte) (payload : List Byte) (r : Slot) : (r.forward e tag payload).draining = (r).draining := rfl
@[simp] theorem Slot.forward_drainTimer (e : Env) (tag : Byte) (payload : List Byte) (r : Slot) : (r.forward e tag payload).drainTimer = (r).drainTimer := rfl
@[simp] theorem Slot.forward_stoppingFromStart (e : Env) (tag : Byte) (payload : List Byte) (r : Slot) : (r.forward e tag payload).stoppingFromStart = (r).stoppingFromStart := rfl
@[simp] theorem Slot.forward_unloadMark (e : Env) (tag : Byte) (payload : List Byte) (r : Slot) : (r.forward e tag payload).unloadMark = (r).unloadMark := rfl
@[simp] theorem Slot.forward_unloadReissued (e : Env) (tag : Byte) (payload : List Byte) (r : Slot) : (r.forward e tag payload).unloadReissued = (r).unloadReissued := rfl
@[simp] theorem Slot.forward_faultReason (e : Env) (tag : Byte) (payload : List Byte) (r : Slot) : (r.forward e tag payload).faultReason = (r).faultReason := rfl
@[simp] theorem Slot.forward_sledCode (e : Env) (tag : Byte) (payload : List Byte) (r : Slot) : (r.forward e tag payload).sledCode = (r).sledCode := rfl
@[simp] theorem Slot.forward_epoch (e : Env) (tag : Byte) (payload : List Byte) (r : Slot) : (r.forward e tag payload).epoch = (r).epoch := rfl
@[simp] theorem Slot.forward_hold (e : Env) (tag : Byte) (payload : List Byte) (r : Slot) : (r.forward e tag payload).hold = (r).hold := rfl
@[simp] theorem Slot.forward_idleUnload (e : Env) (tag : Byte) (payload : List Byte) (r : Slot) : (r.forward e tag payload).idleUnload = (r).idleUnload := rfl
@[simp] theorem Slot.forward_idleStop (e : Env) (tag : Byte) (payload : List Byte) (r : Slot) : (r.forward e tag payload).idleStop = (r).idleStop := rfl
@[simp] theorem Slot.forward_dwell (e : Env) (tag : Byte) (payload : List Byte) (r : Slot) : (r.forward e tag payload).dwell = (r).dwell := rfl
@[simp] theorem Slot.forward_presenceFilter (e : Env) (tag : Byte) (payload : List Byte) (r : Slot) : (r.forward e tag payload).presenceFilter = (r).presenceFilter := rfl
@[simp] theorem Slot.forward_suspension (e : Env) (tag : Byte) (payload : List Byte) (r : Slot) : (r.forward e tag payload).suspension = (r).suspension := rfl
@[simp] theorem Slot.forward_exposures (e : Env) (tag : Byte) (payload : List Byte) (r : Slot) : (r.forward e tag payload).exposures = (r).exposures := rfl
@[simp] theorem Slot.forward_strays (e : Env) (tag : Byte) (payload : List Byte) (r : Slot) : (r.forward e tag payload).strays = (r).strays := rfl
@[simp] theorem Slot.forward_loadClaim (e : Env) (tag : Byte) (payload : List Byte) (r : Slot) : (r.forward e tag payload).loadClaim = (r).loadClaim := rfl
@[simp] theorem Slot.forward_presenceIn (e : Env) (tag : Byte) (payload : List Byte) (r : Slot) : (r.forward e tag payload).presenceIn = (r).presenceIn := rfl
@[simp] theorem Slot.forward_overcurrentIn (e : Env) (tag : Byte) (payload : List Byte) (r : Slot) : (r.forward e tag payload).overcurrentIn = (r).overcurrentIn := rfl
@[simp] theorem Slot.toUnloading_requested (e : Env) (i : SlotId) (kind : OrderKind) (mark : UnloadMark) (r : Slot) : (r.toUnloading e i kind mark).requested = (r).requested := rfl
@[simp] theorem Slot.toUnloading_pinned (e : Env) (i : SlotId) (kind : OrderKind) (mark : UnloadMark) (r : Slot) : (r.toUnloading e i kind mark).pinned = (r).pinned := rfl
@[simp] theorem Slot.toUnloading_transitCap (e : Env) (i : SlotId) (kind : OrderKind) (mark : UnloadMark) (r : Slot) : (r.toUnloading e i kind mark).transitCap = (r).transitCap := rfl
@[simp] theorem Slot.toUnloading_transitDisposition (e : Env) (i : SlotId) (kind : OrderKind) (mark : UnloadMark) (r : Slot) : (r.toUnloading e i kind mark).transitDisposition = (r).transitDisposition := rfl
@[simp] theorem Slot.toUnloading_budgetCap (e : Env) (i : SlotId) (kind : OrderKind) (mark : UnloadMark) (r : Slot) : (r.toUnloading e i kind mark).budgetCap = (r).budgetCap := rfl
@[simp] theorem Slot.toUnloading_emergencyCap (e : Env) (i : SlotId) (kind : OrderKind) (mark : UnloadMark) (r : Slot) : (r.toUnloading e i kind mark).emergencyCap = (r).emergencyCap := rfl
@[simp] theorem Slot.toUnloading_stoppingFromStart (e : Env) (i : SlotId) (kind : OrderKind) (mark : UnloadMark) (r : Slot) : (r.toUnloading e i kind mark).stoppingFromStart = (r).stoppingFromStart := rfl
@[simp] theorem Slot.toUnloading_faultReason (e : Env) (i : SlotId) (kind : OrderKind) (mark : UnloadMark) (r : Slot) : (r.toUnloading e i kind mark).faultReason = (r).faultReason := rfl
@[simp] theorem Slot.toUnloading_sledCode (e : Env) (i : SlotId) (kind : OrderKind) (mark : UnloadMark) (r : Slot) : (r.toUnloading e i kind mark).sledCode = (r).sledCode := rfl
@[simp] theorem Slot.toUnloading_epoch (e : Env) (i : SlotId) (kind : OrderKind) (mark : UnloadMark) (r : Slot) : (r.toUnloading e i kind mark).epoch = (r).epoch := rfl
@[simp] theorem Slot.toUnloading_outstanding (e : Env) (i : SlotId) (kind : OrderKind) (mark : UnloadMark) (r : Slot) : (r.toUnloading e i kind mark).outstanding = (r).outstanding := rfl
@[simp] theorem Slot.toUnloading_hold (e : Env) (i : SlotId) (kind : OrderKind) (mark : UnloadMark) (r : Slot) : (r.toUnloading e i kind mark).hold = (r).hold := rfl
@[simp] theorem Slot.toUnloading_idleUnload (e : Env) (i : SlotId) (kind : OrderKind) (mark : UnloadMark) (r : Slot) : (r.toUnloading e i kind mark).idleUnload = (r).idleUnload := rfl
@[simp] theorem Slot.toUnloading_idleStop (e : Env) (i : SlotId) (kind : OrderKind) (mark : UnloadMark) (r : Slot) : (r.toUnloading e i kind mark).idleStop = (r).idleStop := rfl
@[simp] theorem Slot.toUnloading_dwell (e : Env) (i : SlotId) (kind : OrderKind) (mark : UnloadMark) (r : Slot) : (r.toUnloading e i kind mark).dwell = (r).dwell := rfl
@[simp] theorem Slot.toUnloading_presenceFilter (e : Env) (i : SlotId) (kind : OrderKind) (mark : UnloadMark) (r : Slot) : (r.toUnloading e i kind mark).presenceFilter = (r).presenceFilter := rfl
@[simp] theorem Slot.toUnloading_suspension (e : Env) (i : SlotId) (kind : OrderKind) (mark : UnloadMark) (r : Slot) : (r.toUnloading e i kind mark).suspension = (r).suspension := rfl
@[simp] theorem Slot.toUnloading_exposures (e : Env) (i : SlotId) (kind : OrderKind) (mark : UnloadMark) (r : Slot) : (r.toUnloading e i kind mark).exposures = (r).exposures := rfl
@[simp] theorem Slot.toUnloading_strays (e : Env) (i : SlotId) (kind : OrderKind) (mark : UnloadMark) (r : Slot) : (r.toUnloading e i kind mark).strays = (r).strays := rfl
@[simp] theorem Slot.toUnloading_loadClaim (e : Env) (i : SlotId) (kind : OrderKind) (mark : UnloadMark) (r : Slot) : (r.toUnloading e i kind mark).loadClaim = (r).loadClaim := rfl
@[simp] theorem Slot.toUnloading_presenceIn (e : Env) (i : SlotId) (kind : OrderKind) (mark : UnloadMark) (r : Slot) : (r.toUnloading e i kind mark).presenceIn = (r).presenceIn := rfl
@[simp] theorem Slot.toUnloading_overcurrentIn (e : Env) (i : SlotId) (kind : OrderKind) (mark : UnloadMark) (r : Slot) : (r.toUnloading e i kind mark).overcurrentIn = (r).overcurrentIn := rfl
@[simp] theorem Slot.toStopping_requested (e : Env) (i : SlotId) (retry fromStart : Bool) (r : Slot) : (r.toStopping e i retry fromStart).requested = (r).requested := rfl
@[simp] theorem Slot.toStopping_pinned (e : Env) (i : SlotId) (retry fromStart : Bool) (r : Slot) : (r.toStopping e i retry fromStart).pinned = (r).pinned := rfl
@[simp] theorem Slot.toStopping_transitCap (e : Env) (i : SlotId) (retry fromStart : Bool) (r : Slot) : (r.toStopping e i retry fromStart).transitCap = (r).transitCap := rfl
@[simp] theorem Slot.toStopping_transitDisposition (e : Env) (i : SlotId) (retry fromStart : Bool) (r : Slot) : (r.toStopping e i retry fromStart).transitDisposition = (r).transitDisposition := rfl
@[simp] theorem Slot.toStopping_budgetCap (e : Env) (i : SlotId) (retry fromStart : Bool) (r : Slot) : (r.toStopping e i retry fromStart).budgetCap = (r).budgetCap := rfl
@[simp] theorem Slot.toStopping_emergencyCap (e : Env) (i : SlotId) (retry fromStart : Bool) (r : Slot) : (r.toStopping e i retry fromStart).emergencyCap = (r).emergencyCap := rfl
@[simp] theorem Slot.toStopping_draining (e : Env) (i : SlotId) (retry fromStart : Bool) (r : Slot) : (r.toStopping e i retry fromStart).draining = (r).draining := rfl
@[simp] theorem Slot.toStopping_drainTimer (e : Env) (i : SlotId) (retry fromStart : Bool) (r : Slot) : (r.toStopping e i retry fromStart).drainTimer = (r).drainTimer := rfl
@[simp] theorem Slot.toStopping_unloadMark (e : Env) (i : SlotId) (retry fromStart : Bool) (r : Slot) : (r.toStopping e i retry fromStart).unloadMark = (r).unloadMark := rfl
@[simp] theorem Slot.toStopping_unloadReissued (e : Env) (i : SlotId) (retry fromStart : Bool) (r : Slot) : (r.toStopping e i retry fromStart).unloadReissued = (r).unloadReissued := rfl
@[simp] theorem Slot.toStopping_faultReason (e : Env) (i : SlotId) (retry fromStart : Bool) (r : Slot) : (r.toStopping e i retry fromStart).faultReason = (r).faultReason := rfl
@[simp] theorem Slot.toStopping_sledCode (e : Env) (i : SlotId) (retry fromStart : Bool) (r : Slot) : (r.toStopping e i retry fromStart).sledCode = (r).sledCode := rfl
@[simp] theorem Slot.toStopping_epoch (e : Env) (i : SlotId) (retry fromStart : Bool) (r : Slot) : (r.toStopping e i retry fromStart).epoch = (r).epoch := rfl
@[simp] theorem Slot.toStopping_outstanding (e : Env) (i : SlotId) (retry fromStart : Bool) (r : Slot) : (r.toStopping e i retry fromStart).outstanding = (r).outstanding := rfl
@[simp] theorem Slot.toStopping_hold (e : Env) (i : SlotId) (retry fromStart : Bool) (r : Slot) : (r.toStopping e i retry fromStart).hold = (r).hold := rfl
@[simp] theorem Slot.toStopping_idleUnload (e : Env) (i : SlotId) (retry fromStart : Bool) (r : Slot) : (r.toStopping e i retry fromStart).idleUnload = (r).idleUnload := rfl
@[simp] theorem Slot.toStopping_idleStop (e : Env) (i : SlotId) (retry fromStart : Bool) (r : Slot) : (r.toStopping e i retry fromStart).idleStop = (r).idleStop := rfl
@[simp] theorem Slot.toStopping_dwell (e : Env) (i : SlotId) (retry fromStart : Bool) (r : Slot) : (r.toStopping e i retry fromStart).dwell = (r).dwell := rfl
@[simp] theorem Slot.toStopping_presenceFilter (e : Env) (i : SlotId) (retry fromStart : Bool) (r : Slot) : (r.toStopping e i retry fromStart).presenceFilter = (r).presenceFilter := rfl
@[simp] theorem Slot.toStopping_suspension (e : Env) (i : SlotId) (retry fromStart : Bool) (r : Slot) : (r.toStopping e i retry fromStart).suspension = (r).suspension := rfl
@[simp] theorem Slot.toStopping_exposures (e : Env) (i : SlotId) (retry fromStart : Bool) (r : Slot) : (r.toStopping e i retry fromStart).exposures = (r).exposures := rfl
@[simp] theorem Slot.toStopping_strays (e : Env) (i : SlotId) (retry fromStart : Bool) (r : Slot) : (r.toStopping e i retry fromStart).strays = (r).strays := rfl
@[simp] theorem Slot.toStopping_presenceIn (e : Env) (i : SlotId) (retry fromStart : Bool) (r : Slot) : (r.toStopping e i retry fromStart).presenceIn = (r).presenceIn := rfl
@[simp] theorem Slot.toStopping_overcurrentIn (e : Env) (i : SlotId) (retry fromStart : Bool) (r : Slot) : (r.toStopping e i retry fromStart).overcurrentIn = (r).overcurrentIn := rfl
@[simp] theorem Slot.toDraining_state (e : Env) (r : Slot) : (r.toDraining e).state = (r).state := rfl
@[simp] theorem Slot.toDraining_requested (e : Env) (r : Slot) : (r.toDraining e).requested = (r).requested := rfl
@[simp] theorem Slot.toDraining_pinned (e : Env) (r : Slot) : (r.toDraining e).pinned = (r).pinned := rfl
@[simp] theorem Slot.toDraining_transitCap (e : Env) (r : Slot) : (r.toDraining e).transitCap = (r).transitCap := rfl
@[simp] theorem Slot.toDraining_transitDisposition (e : Env) (r : Slot) : (r.toDraining e).transitDisposition = (r).transitDisposition := rfl
@[simp] theorem Slot.toDraining_budgetCap (e : Env) (r : Slot) : (r.toDraining e).budgetCap = (r).budgetCap := rfl
@[simp] theorem Slot.toDraining_emergencyCap (e : Env) (r : Slot) : (r.toDraining e).emergencyCap = (r).emergencyCap := rfl
@[simp] theorem Slot.toDraining_stoppingFromStart (e : Env) (r : Slot) : (r.toDraining e).stoppingFromStart = (r).stoppingFromStart := rfl
@[simp] theorem Slot.toDraining_unloadMark (e : Env) (r : Slot) : (r.toDraining e).unloadMark = (r).unloadMark := rfl
@[simp] theorem Slot.toDraining_unloadReissued (e : Env) (r : Slot) : (r.toDraining e).unloadReissued = (r).unloadReissued := rfl
@[simp] theorem Slot.toDraining_faultReason (e : Env) (r : Slot) : (r.toDraining e).faultReason = (r).faultReason := rfl
@[simp] theorem Slot.toDraining_sledCode (e : Env) (r : Slot) : (r.toDraining e).sledCode = (r).sledCode := rfl
@[simp] theorem Slot.toDraining_epoch (e : Env) (r : Slot) : (r.toDraining e).epoch = (r).epoch := rfl
@[simp] theorem Slot.toDraining_outstanding (e : Env) (r : Slot) : (r.toDraining e).outstanding = (r).outstanding := rfl
@[simp] theorem Slot.toDraining_hold (e : Env) (r : Slot) : (r.toDraining e).hold = (r).hold := rfl
@[simp] theorem Slot.toDraining_idleUnload (e : Env) (r : Slot) : (r.toDraining e).idleUnload = (r).idleUnload := rfl
@[simp] theorem Slot.toDraining_idleStop (e : Env) (r : Slot) : (r.toDraining e).idleStop = (r).idleStop := rfl
@[simp] theorem Slot.toDraining_dwell (e : Env) (r : Slot) : (r.toDraining e).dwell = (r).dwell := rfl
@[simp] theorem Slot.toDraining_presenceFilter (e : Env) (r : Slot) : (r.toDraining e).presenceFilter = (r).presenceFilter := rfl
@[simp] theorem Slot.toDraining_suspension (e : Env) (r : Slot) : (r.toDraining e).suspension = (r).suspension := rfl
@[simp] theorem Slot.toDraining_exposures (e : Env) (r : Slot) : (r.toDraining e).exposures = (r).exposures := rfl
@[simp] theorem Slot.toDraining_strays (e : Env) (r : Slot) : (r.toDraining e).strays = (r).strays := rfl
@[simp] theorem Slot.toDraining_loadClaim (e : Env) (r : Slot) : (r.toDraining e).loadClaim = (r).loadClaim := rfl
@[simp] theorem Slot.toDraining_lane (e : Env) (r : Slot) : (r.toDraining e).lane = (r).lane := rfl
@[simp] theorem Slot.toDraining_presenceIn (e : Env) (r : Slot) : (r.toDraining e).presenceIn = (r).presenceIn := rfl
@[simp] theorem Slot.toDraining_overcurrentIn (e : Env) (r : Slot) : (r.toDraining e).overcurrentIn = (r).overcurrentIn := rfl
@[simp] theorem Slot.cease_state (r : Slot) : (r.cease).state = (r).state := rfl
@[simp] theorem Slot.cease_requested (r : Slot) : (r.cease).requested = (r).requested := rfl
@[simp] theorem Slot.cease_pinned (r : Slot) : (r.cease).pinned = (r).pinned := rfl
@[simp] theorem Slot.cease_transitCap (r : Slot) : (r.cease).transitCap = (r).transitCap := rfl
@[simp] theorem Slot.cease_transitDisposition (r : Slot) : (r.cease).transitDisposition = (r).transitDisposition := rfl
@[simp] theorem Slot.cease_budgetCap (r : Slot) : (r.cease).budgetCap = (r).budgetCap := rfl
@[simp] theorem Slot.cease_emergencyCap (r : Slot) : (r.cease).emergencyCap = (r).emergencyCap := rfl
@[simp] theorem Slot.cease_faultReason (r : Slot) : (r.cease).faultReason = (r).faultReason := rfl
@[simp] theorem Slot.cease_sledCode (r : Slot) : (r.cease).sledCode = (r).sledCode := rfl
@[simp] theorem Slot.cease_epoch (r : Slot) : (r.cease).epoch = (r).epoch := rfl
@[simp] theorem Slot.cease_outstanding (r : Slot) : (r.cease).outstanding = (r).outstanding := rfl
@[simp] theorem Slot.cease_hold (r : Slot) : (r.cease).hold = (r).hold := rfl
@[simp] theorem Slot.cease_presenceFilter (r : Slot) : (r.cease).presenceFilter = (r).presenceFilter := rfl
@[simp] theorem Slot.cease_exposures (r : Slot) : (r.cease).exposures = (r).exposures := rfl
@[simp] theorem Slot.cease_strays (r : Slot) : (r.cease).strays = (r).strays := rfl
@[simp] theorem Slot.cease_presenceIn (r : Slot) : (r.cease).presenceIn = (r).presenceIn := rfl
@[simp] theorem Slot.cease_overcurrentIn (r : Slot) : (r.cease).overcurrentIn = (r).overcurrentIn := rfl
@[simp] theorem Slot.freezeHold_state (now : Clock) (r : Slot) : (r.freezeHold now).state = (r).state := rfl
@[simp] theorem Slot.freezeHold_requested (now : Clock) (r : Slot) : (r.freezeHold now).requested = (r).requested := rfl
@[simp] theorem Slot.freezeHold_pinned (now : Clock) (r : Slot) : (r.freezeHold now).pinned = (r).pinned := rfl
@[simp] theorem Slot.freezeHold_transitCap (now : Clock) (r : Slot) : (r.freezeHold now).transitCap = (r).transitCap := rfl
@[simp] theorem Slot.freezeHold_transitDisposition (now : Clock) (r : Slot) : (r.freezeHold now).transitDisposition = (r).transitDisposition := rfl
@[simp] theorem Slot.freezeHold_budgetCap (now : Clock) (r : Slot) : (r.freezeHold now).budgetCap = (r).budgetCap := rfl
@[simp] theorem Slot.freezeHold_emergencyCap (now : Clock) (r : Slot) : (r.freezeHold now).emergencyCap = (r).emergencyCap := rfl
@[simp] theorem Slot.freezeHold_draining (now : Clock) (r : Slot) : (r.freezeHold now).draining = (r).draining := rfl
@[simp] theorem Slot.freezeHold_drainTimer (now : Clock) (r : Slot) : (r.freezeHold now).drainTimer = (r).drainTimer := rfl
@[simp] theorem Slot.freezeHold_stoppingFromStart (now : Clock) (r : Slot) : (r.freezeHold now).stoppingFromStart = (r).stoppingFromStart := rfl
@[simp] theorem Slot.freezeHold_unloadMark (now : Clock) (r : Slot) : (r.freezeHold now).unloadMark = (r).unloadMark := rfl
@[simp] theorem Slot.freezeHold_unloadReissued (now : Clock) (r : Slot) : (r.freezeHold now).unloadReissued = (r).unloadReissued := rfl
@[simp] theorem Slot.freezeHold_faultReason (now : Clock) (r : Slot) : (r.freezeHold now).faultReason = (r).faultReason := rfl
@[simp] theorem Slot.freezeHold_sledCode (now : Clock) (r : Slot) : (r.freezeHold now).sledCode = (r).sledCode := rfl
@[simp] theorem Slot.freezeHold_epoch (now : Clock) (r : Slot) : (r.freezeHold now).epoch = (r).epoch := rfl
@[simp] theorem Slot.freezeHold_outstanding (now : Clock) (r : Slot) : (r.freezeHold now).outstanding = (r).outstanding := rfl
@[simp] theorem Slot.freezeHold_idleUnload (now : Clock) (r : Slot) : (r.freezeHold now).idleUnload = (r).idleUnload := rfl
@[simp] theorem Slot.freezeHold_idleStop (now : Clock) (r : Slot) : (r.freezeHold now).idleStop = (r).idleStop := rfl
@[simp] theorem Slot.freezeHold_dwell (now : Clock) (r : Slot) : (r.freezeHold now).dwell = (r).dwell := rfl
@[simp] theorem Slot.freezeHold_presenceFilter (now : Clock) (r : Slot) : (r.freezeHold now).presenceFilter = (r).presenceFilter := rfl
@[simp] theorem Slot.freezeHold_suspension (now : Clock) (r : Slot) : (r.freezeHold now).suspension = (r).suspension := rfl
@[simp] theorem Slot.freezeHold_exposures (now : Clock) (r : Slot) : (r.freezeHold now).exposures = (r).exposures := rfl
@[simp] theorem Slot.freezeHold_strays (now : Clock) (r : Slot) : (r.freezeHold now).strays = (r).strays := rfl
@[simp] theorem Slot.freezeHold_loadClaim (now : Clock) (r : Slot) : (r.freezeHold now).loadClaim = (r).loadClaim := rfl
@[simp] theorem Slot.freezeHold_lane (now : Clock) (r : Slot) : (r.freezeHold now).lane = (r).lane := rfl
@[simp] theorem Slot.freezeHold_presenceIn (now : Clock) (r : Slot) : (r.freezeHold now).presenceIn = (r).presenceIn := rfl
@[simp] theorem Slot.freezeHold_overcurrentIn (now : Clock) (r : Slot) : (r.freezeHold now).overcurrentIn = (r).overcurrentIn := rfl
@[simp] theorem Slot.resumeHold_state (now : Clock) (r : Slot) : (r.resumeHold now).state = (r).state := rfl
@[simp] theorem Slot.resumeHold_requested (now : Clock) (r : Slot) : (r.resumeHold now).requested = (r).requested := rfl
@[simp] theorem Slot.resumeHold_pinned (now : Clock) (r : Slot) : (r.resumeHold now).pinned = (r).pinned := rfl
@[simp] theorem Slot.resumeHold_transitCap (now : Clock) (r : Slot) : (r.resumeHold now).transitCap = (r).transitCap := rfl
@[simp] theorem Slot.resumeHold_transitDisposition (now : Clock) (r : Slot) : (r.resumeHold now).transitDisposition = (r).transitDisposition := rfl
@[simp] theorem Slot.resumeHold_budgetCap (now : Clock) (r : Slot) : (r.resumeHold now).budgetCap = (r).budgetCap := rfl
@[simp] theorem Slot.resumeHold_emergencyCap (now : Clock) (r : Slot) : (r.resumeHold now).emergencyCap = (r).emergencyCap := rfl
@[simp] theorem Slot.resumeHold_draining (now : Clock) (r : Slot) : (r.resumeHold now).draining = (r).draining := rfl
@[simp] theorem Slot.resumeHold_drainTimer (now : Clock) (r : Slot) : (r.resumeHold now).drainTimer = (r).drainTimer := rfl
@[simp] theorem Slot.resumeHold_stoppingFromStart (now : Clock) (r : Slot) : (r.resumeHold now).stoppingFromStart = (r).stoppingFromStart := rfl
@[simp] theorem Slot.resumeHold_unloadMark (now : Clock) (r : Slot) : (r.resumeHold now).unloadMark = (r).unloadMark := rfl
@[simp] theorem Slot.resumeHold_unloadReissued (now : Clock) (r : Slot) : (r.resumeHold now).unloadReissued = (r).unloadReissued := rfl
@[simp] theorem Slot.resumeHold_faultReason (now : Clock) (r : Slot) : (r.resumeHold now).faultReason = (r).faultReason := rfl
@[simp] theorem Slot.resumeHold_sledCode (now : Clock) (r : Slot) : (r.resumeHold now).sledCode = (r).sledCode := rfl
@[simp] theorem Slot.resumeHold_epoch (now : Clock) (r : Slot) : (r.resumeHold now).epoch = (r).epoch := rfl
@[simp] theorem Slot.resumeHold_outstanding (now : Clock) (r : Slot) : (r.resumeHold now).outstanding = (r).outstanding := rfl
@[simp] theorem Slot.resumeHold_idleUnload (now : Clock) (r : Slot) : (r.resumeHold now).idleUnload = (r).idleUnload := rfl
@[simp] theorem Slot.resumeHold_idleStop (now : Clock) (r : Slot) : (r.resumeHold now).idleStop = (r).idleStop := rfl
@[simp] theorem Slot.resumeHold_dwell (now : Clock) (r : Slot) : (r.resumeHold now).dwell = (r).dwell := rfl
@[simp] theorem Slot.resumeHold_presenceFilter (now : Clock) (r : Slot) : (r.resumeHold now).presenceFilter = (r).presenceFilter := rfl
@[simp] theorem Slot.resumeHold_suspension (now : Clock) (r : Slot) : (r.resumeHold now).suspension = (r).suspension := rfl
@[simp] theorem Slot.resumeHold_exposures (now : Clock) (r : Slot) : (r.resumeHold now).exposures = (r).exposures := rfl
@[simp] theorem Slot.resumeHold_strays (now : Clock) (r : Slot) : (r.resumeHold now).strays = (r).strays := rfl
@[simp] theorem Slot.resumeHold_loadClaim (now : Clock) (r : Slot) : (r.resumeHold now).loadClaim = (r).loadClaim := rfl
@[simp] theorem Slot.resumeHold_lane (now : Clock) (r : Slot) : (r.resumeHold now).lane = (r).lane := rfl
@[simp] theorem Slot.resumeHold_presenceIn (now : Clock) (r : Slot) : (r.resumeHold now).presenceIn = (r).presenceIn := rfl
@[simp] theorem Slot.resumeHold_overcurrentIn (now : Clock) (r : Slot) : (r.resumeHold now).overcurrentIn = (r).overcurrentIn := rfl
@[simp] theorem Slot.setRequested_state (lv : Level) (pin : Bool) (r : Slot) : (r.setRequested lv pin).state = (r).state := rfl
@[simp] theorem Slot.setRequested_transitCap (lv : Level) (pin : Bool) (r : Slot) : (r.setRequested lv pin).transitCap = (r).transitCap := rfl
@[simp] theorem Slot.setRequested_transitDisposition (lv : Level) (pin : Bool) (r : Slot) : (r.setRequested lv pin).transitDisposition = (r).transitDisposition := rfl
@[simp] theorem Slot.setRequested_budgetCap (lv : Level) (pin : Bool) (r : Slot) : (r.setRequested lv pin).budgetCap = (r).budgetCap := rfl
@[simp] theorem Slot.setRequested_emergencyCap (lv : Level) (pin : Bool) (r : Slot) : (r.setRequested lv pin).emergencyCap = (r).emergencyCap := rfl
@[simp] theorem Slot.setRequested_draining (lv : Level) (pin : Bool) (r : Slot) : (r.setRequested lv pin).draining = (r).draining := rfl
@[simp] theorem Slot.setRequested_drainTimer (lv : Level) (pin : Bool) (r : Slot) : (r.setRequested lv pin).drainTimer = (r).drainTimer := rfl
@[simp] theorem Slot.setRequested_stoppingFromStart (lv : Level) (pin : Bool) (r : Slot) : (r.setRequested lv pin).stoppingFromStart = (r).stoppingFromStart := rfl
@[simp] theorem Slot.setRequested_unloadMark (lv : Level) (pin : Bool) (r : Slot) : (r.setRequested lv pin).unloadMark = (r).unloadMark := rfl
@[simp] theorem Slot.setRequested_unloadReissued (lv : Level) (pin : Bool) (r : Slot) : (r.setRequested lv pin).unloadReissued = (r).unloadReissued := rfl
@[simp] theorem Slot.setRequested_faultReason (lv : Level) (pin : Bool) (r : Slot) : (r.setRequested lv pin).faultReason = (r).faultReason := rfl
@[simp] theorem Slot.setRequested_sledCode (lv : Level) (pin : Bool) (r : Slot) : (r.setRequested lv pin).sledCode = (r).sledCode := rfl
@[simp] theorem Slot.setRequested_epoch (lv : Level) (pin : Bool) (r : Slot) : (r.setRequested lv pin).epoch = (r).epoch := rfl
@[simp] theorem Slot.setRequested_outstanding (lv : Level) (pin : Bool) (r : Slot) : (r.setRequested lv pin).outstanding = (r).outstanding := rfl
@[simp] theorem Slot.setRequested_hold (lv : Level) (pin : Bool) (r : Slot) : (r.setRequested lv pin).hold = (r).hold := rfl
@[simp] theorem Slot.setRequested_dwell (lv : Level) (pin : Bool) (r : Slot) : (r.setRequested lv pin).dwell = (r).dwell := rfl
@[simp] theorem Slot.setRequested_presenceFilter (lv : Level) (pin : Bool) (r : Slot) : (r.setRequested lv pin).presenceFilter = (r).presenceFilter := rfl
@[simp] theorem Slot.setRequested_suspension (lv : Level) (pin : Bool) (r : Slot) : (r.setRequested lv pin).suspension = (r).suspension := rfl
@[simp] theorem Slot.setRequested_exposures (lv : Level) (pin : Bool) (r : Slot) : (r.setRequested lv pin).exposures = (r).exposures := rfl
@[simp] theorem Slot.setRequested_strays (lv : Level) (pin : Bool) (r : Slot) : (r.setRequested lv pin).strays = (r).strays := rfl
@[simp] theorem Slot.setRequested_loadClaim (lv : Level) (pin : Bool) (r : Slot) : (r.setRequested lv pin).loadClaim = (r).loadClaim := rfl
@[simp] theorem Slot.setRequested_lane (lv : Level) (pin : Bool) (r : Slot) : (r.setRequested lv pin).lane = (r).lane := rfl
@[simp] theorem Slot.setRequested_presenceIn (lv : Level) (pin : Bool) (r : Slot) : (r.setRequested lv pin).presenceIn = (r).presenceIn := rfl
@[simp] theorem Slot.setRequested_overcurrentIn (lv : Level) (pin : Bool) (r : Slot) : (r.setRequested lv pin).overcurrentIn = (r).overcurrentIn := rfl
@[simp] theorem Slot.endByCapRise_state (e : Env) (r : Slot) : (r.endByCapRise e).state = (r).state := rfl
@[simp] theorem Slot.endByCapRise_requested (e : Env) (r : Slot) : (r.endByCapRise e).requested = (r).requested := rfl
@[simp] theorem Slot.endByCapRise_pinned (e : Env) (r : Slot) : (r.endByCapRise e).pinned = (r).pinned := rfl
@[simp] theorem Slot.endByCapRise_transitCap (e : Env) (r : Slot) : (r.endByCapRise e).transitCap = (r).transitCap := rfl
@[simp] theorem Slot.endByCapRise_transitDisposition (e : Env) (r : Slot) : (r.endByCapRise e).transitDisposition = (r).transitDisposition := rfl
@[simp] theorem Slot.endByCapRise_budgetCap (e : Env) (r : Slot) : (r.endByCapRise e).budgetCap = (r).budgetCap := rfl
@[simp] theorem Slot.endByCapRise_emergencyCap (e : Env) (r : Slot) : (r.endByCapRise e).emergencyCap = (r).emergencyCap := rfl
@[simp] theorem Slot.endByCapRise_draining (e : Env) (r : Slot) : (r.endByCapRise e).draining = (r).draining := rfl
@[simp] theorem Slot.endByCapRise_drainTimer (e : Env) (r : Slot) : (r.endByCapRise e).drainTimer = (r).drainTimer := rfl
@[simp] theorem Slot.endByCapRise_stoppingFromStart (e : Env) (r : Slot) : (r.endByCapRise e).stoppingFromStart = (r).stoppingFromStart := rfl
@[simp] theorem Slot.endByCapRise_unloadMark (e : Env) (r : Slot) : (r.endByCapRise e).unloadMark = (r).unloadMark := rfl
@[simp] theorem Slot.endByCapRise_unloadReissued (e : Env) (r : Slot) : (r.endByCapRise e).unloadReissued = (r).unloadReissued := rfl
@[simp] theorem Slot.endByCapRise_faultReason (e : Env) (r : Slot) : (r.endByCapRise e).faultReason = (r).faultReason := rfl
@[simp] theorem Slot.endByCapRise_sledCode (e : Env) (r : Slot) : (r.endByCapRise e).sledCode = (r).sledCode := rfl
@[simp] theorem Slot.endByCapRise_epoch (e : Env) (r : Slot) : (r.endByCapRise e).epoch = (r).epoch := rfl
@[simp] theorem Slot.endByCapRise_outstanding (e : Env) (r : Slot) : (r.endByCapRise e).outstanding = (r).outstanding := rfl
@[simp] theorem Slot.endByCapRise_idleUnload (e : Env) (r : Slot) : (r.endByCapRise e).idleUnload = (r).idleUnload := rfl
@[simp] theorem Slot.endByCapRise_idleStop (e : Env) (r : Slot) : (r.endByCapRise e).idleStop = (r).idleStop := rfl
@[simp] theorem Slot.endByCapRise_dwell (e : Env) (r : Slot) : (r.endByCapRise e).dwell = (r).dwell := rfl
@[simp] theorem Slot.endByCapRise_presenceFilter (e : Env) (r : Slot) : (r.endByCapRise e).presenceFilter = (r).presenceFilter := rfl
@[simp] theorem Slot.endByCapRise_exposures (e : Env) (r : Slot) : (r.endByCapRise e).exposures = (r).exposures := rfl
@[simp] theorem Slot.endByCapRise_strays (e : Env) (r : Slot) : (r.endByCapRise e).strays = (r).strays := rfl
@[simp] theorem Slot.endByCapRise_loadClaim (e : Env) (r : Slot) : (r.endByCapRise e).loadClaim = (r).loadClaim := rfl
@[simp] theorem Slot.endByCapRise_lane (e : Env) (r : Slot) : (r.endByCapRise e).lane = (r).lane := rfl
@[simp] theorem Slot.endByCapRise_presenceIn (e : Env) (r : Slot) : (r.endByCapRise e).presenceIn = (r).presenceIn := rfl
@[simp] theorem Slot.endByCapRise_overcurrentIn (e : Env) (r : Slot) : (r.endByCapRise e).overcurrentIn = (r).overcurrentIn := rfl
@[simp] theorem Slot.endByLowering_state (e : Env) (r : Slot) : (r.endByLowering e).state = (r).state := rfl
@[simp] theorem Slot.endByLowering_requested (e : Env) (r : Slot) : (r.endByLowering e).requested = (r).requested := rfl
@[simp] theorem Slot.endByLowering_pinned (e : Env) (r : Slot) : (r.endByLowering e).pinned = (r).pinned := rfl
@[simp] theorem Slot.endByLowering_transitCap (e : Env) (r : Slot) : (r.endByLowering e).transitCap = (r).transitCap := rfl
@[simp] theorem Slot.endByLowering_transitDisposition (e : Env) (r : Slot) : (r.endByLowering e).transitDisposition = (r).transitDisposition := rfl
@[simp] theorem Slot.endByLowering_budgetCap (e : Env) (r : Slot) : (r.endByLowering e).budgetCap = (r).budgetCap := rfl
@[simp] theorem Slot.endByLowering_emergencyCap (e : Env) (r : Slot) : (r.endByLowering e).emergencyCap = (r).emergencyCap := rfl
@[simp] theorem Slot.endByLowering_draining (e : Env) (r : Slot) : (r.endByLowering e).draining = (r).draining := rfl
@[simp] theorem Slot.endByLowering_drainTimer (e : Env) (r : Slot) : (r.endByLowering e).drainTimer = (r).drainTimer := rfl
@[simp] theorem Slot.endByLowering_stoppingFromStart (e : Env) (r : Slot) : (r.endByLowering e).stoppingFromStart = (r).stoppingFromStart := rfl
@[simp] theorem Slot.endByLowering_unloadMark (e : Env) (r : Slot) : (r.endByLowering e).unloadMark = (r).unloadMark := rfl
@[simp] theorem Slot.endByLowering_unloadReissued (e : Env) (r : Slot) : (r.endByLowering e).unloadReissued = (r).unloadReissued := rfl
@[simp] theorem Slot.endByLowering_faultReason (e : Env) (r : Slot) : (r.endByLowering e).faultReason = (r).faultReason := rfl
@[simp] theorem Slot.endByLowering_sledCode (e : Env) (r : Slot) : (r.endByLowering e).sledCode = (r).sledCode := rfl
@[simp] theorem Slot.endByLowering_epoch (e : Env) (r : Slot) : (r.endByLowering e).epoch = (r).epoch := rfl
@[simp] theorem Slot.endByLowering_outstanding (e : Env) (r : Slot) : (r.endByLowering e).outstanding = (r).outstanding := rfl
@[simp] theorem Slot.endByLowering_dwell (e : Env) (r : Slot) : (r.endByLowering e).dwell = (r).dwell := rfl
@[simp] theorem Slot.endByLowering_presenceFilter (e : Env) (r : Slot) : (r.endByLowering e).presenceFilter = (r).presenceFilter := rfl
@[simp] theorem Slot.endByLowering_exposures (e : Env) (r : Slot) : (r.endByLowering e).exposures = (r).exposures := rfl
@[simp] theorem Slot.endByLowering_strays (e : Env) (r : Slot) : (r.endByLowering e).strays = (r).strays := rfl
@[simp] theorem Slot.endByLowering_loadClaim (e : Env) (r : Slot) : (r.endByLowering e).loadClaim = (r).loadClaim := rfl
@[simp] theorem Slot.endByLowering_lane (e : Env) (r : Slot) : (r.endByLowering e).lane = (r).lane := rfl
@[simp] theorem Slot.endByLowering_presenceIn (e : Env) (r : Slot) : (r.endByLowering e).presenceIn = (r).presenceIn := rfl
@[simp] theorem Slot.endByLowering_overcurrentIn (e : Env) (r : Slot) : (r.endByLowering e).overcurrentIn = (r).overcurrentIn := rfl

end Sys2Proof.Machine
end

