-- ==== Sys2Proof/Laws/Slots.lean ====
section
/-! SUPPORT. Reading a slot back after a write of one, and folds over the slots. -/

namespace Sys2Proof.Machine

/-- The slot that was written reads as the record written, its countdowns examined. -/
@[simp] theorem Plant.slot_put_same (e : Env) (i : SlotId) (r : Slot) (d : Plant) :
    (d.put e i r).slot i = r.examineCountdowns e i := by
  simp [Plant.slot, Plant.put]

/-- Every other slot reads as before. -/
theorem Plant.slot_put_other (e : Env) {i j : SlotId} (h : j ≠ i) (r : Slot) (d : Plant) :
    (d.put e i r).slot j = d.slot j := by
  have h' : i.val ≠ j.val := fun hh => h (Fin.ext hh.symm)
  simp [Plant.slot, Plant.put, h']

/-- A slot after a write of one. -/
theorem Plant.slot_put (e : Env) (i j : SlotId) (r : Slot) (d : Plant) :
    (d.put e i r).slot j = if j = i then r.examineCountdowns e i else d.slot j := by
  by_cases h : j = i
  · subst h; simp
  · simp [h, Plant.slot_put_other]

/-- Slots depend on the vector of slots alone. -/
theorem Plant.slot_congr {d d' : Plant} (h : d'.slots = d.slots) (i : SlotId) : d'.slot i = d.slot i := by
  simp [Plant.slot, h]

@[simp] theorem Plant.slot_push (f : UpFrame) (d : Plant) (i : SlotId) : (d.push f).slot i = d.slot i := rfl
@[simp] theorem Plant.slot_joinQueue (j : SlotId) (d : Plant) (i : SlotId) : (d.joinQueue j).slot i = d.slot i := rfl
@[simp] theorem Plant.slot_leaveQueue (j : SlotId) (d : Plant) (i : SlotId) : (d.leaveQueue j).slot i = d.slot i := rfl
@[simp] theorem Plant.slot_arb (d : Plant) (a : Arbiter) (i : SlotId) : ({ d with arb := a } : Plant).slot i = d.slot i := rfl
@[simp] theorem Plant.slot_budget (d : Plant) (b : Budget) (i : SlotId) : ({ d with budget := b } : Plant).slot i = d.slot i := rfl
@[simp] theorem Plant.slot_emg (d : Plant) (g : Emergency) (i : SlotId) : ({ d with emg := g } : Plant).slot i = d.slot i := rfl
@[simp] theorem Plant.slot_link (d : Plant) (l : Link) (i : SlotId) : ({ d with link := l } : Plant).slot i = d.slot i := rfl

/-- The ready line is the one thing that settling it touches. -/
theorem Plant.settleReady_eq (d : Plant) : ∃ b, d.settleReady = { d with link := { d.link with ready := b } } := by
  unfold Plant.settleReady
  split
  · exact ⟨_, rfl⟩
  · split
    · exact ⟨_, rfl⟩
    · exact ⟨d.link.ready, rfl⟩

/-- Settling the case link touches the ready line and the frame being sent alone. -/
theorem Plant.settleLink_eq (d : Plant) :
    ∃ b x, d.settleLink = { d with link := { d.link with ready := b, tx := x } } := by
  obtain ⟨b, h⟩ := d.settleReady_eq
  unfold Plant.settleLink Link.begin
  rw [h]
  split
  · exact ⟨b, d.link.tx, rfl⟩
  · exact ⟨b, _, rfl⟩

@[simp] theorem Plant.slots_settleLink (d : Plant) : d.settleLink.slots = d.slots := by
  obtain ⟨b, x, h⟩ := d.settleLink_eq; rw [h]
@[simp] theorem Plant.arb_settleLink (d : Plant) : d.settleLink.arb = d.arb := by
  obtain ⟨b, x, h⟩ := d.settleLink_eq; rw [h]
@[simp] theorem Plant.budget_settleLink (d : Plant) : d.settleLink.budget = d.budget := by
  obtain ⟨b, x, h⟩ := d.settleLink_eq; rw [h]
@[simp] theorem Plant.emg_settleLink (d : Plant) : d.settleLink.emg = d.emg := by
  obtain ⟨b, x, h⟩ := d.settleLink_eq; rw [h]
@[simp] theorem Plant.slot_settleLink (d : Plant) (i : SlotId) : d.settleLink.slot i = d.slot i := by
  obtain ⟨b, x, h⟩ := d.settleLink_eq; rw [h]; rfl
@[simp] theorem Plant.queue_settleLink (d : Plant) : d.settleLink.link.queue = d.link.queue := by
  obtain ⟨b, x, h⟩ := d.settleLink_eq; rw [h]
@[simp] theorem Plant.events_settleLink (d : Plant) : d.settleLink.link.events = d.link.events := by
  obtain ⟨b, x, h⟩ := d.settleLink_eq; rw [h]
@[simp] theorem Plant.overrun_settleLink (d : Plant) : d.settleLink.link.overrun = d.link.overrun := by
  obtain ⟨b, x, h⟩ := d.settleLink_eq; rw [h]
@[simp] theorem Plant.linkError_settleLink (d : Plant) : d.settleLink.link.linkError = d.link.linkError := by
  obtain ⟨b, x, h⟩ := d.settleLink_eq; rw [h]
@[simp] theorem Plant.framer_settleLink (d : Plant) : d.settleLink.link.framer = d.link.framer := by
  obtain ⟨b, x, h⟩ := d.settleLink_eq; rw [h]
@[simp] theorem Plant.broken_settleLink (d : Plant) : d.settleLink.link.broken = d.link.broken := by
  obtain ⟨b, x, h⟩ := d.settleLink_eq; rw [h]

/-- Reading a slot of a mapped vector. -/
theorem Plant.slot_reset (slots : Vector Slot 16) (i : SlotId) : (Plant.reset slots).slot i = slots[i.val] := rfl

end Sys2Proof.Machine
end

