-- ==== Sys2Proof/Laws/Moves.lean ====
section
/-! SUPPORT. What any event can do to the plant, said once: the moves of a slot and of the blocks, and the closure of them.
Every shared operation of Machine is such a sequence of moves (Laws/Reach.lean). -/

namespace Sys2Proof.Machine

/-- What an entry captured at its arrival (R44). -/
def HoldEntry.captured (h : HoldEntry) : Byte × CmdClass × Level × List Byte × Option TrapAction :=
  (h.tag, h.cls, h.requirement, h.payload, h.action)

/-- What a move of a slot's record keeps: the commands inside, the epoch, the counts and the pins. -/
structure Slot.Keeps (r r' : Slot) : Prop where
  captured : r'.hold.map HoldEntry.captured = r.hold.map HoldEntry.captured
  outstanding : r'.outstanding = r.outstanding
  epoch : r'.epoch = r.epoch
  exposures : r'.exposures = r.exposures
  strays : r'.strays = r.strays
  presenceIn : r'.presenceIn = r.presenceIn
  overcurrentIn : r'.overcurrentIn = r.overcurrentIn

/-- The transitions that issue an order: the state left, the order, the state entered (R13, R15, R16, R17, R18, R20, R21,
R151). The start and the load have moves of their own. -/
inductive OrderMove : SlotState → OrderKind → SlotState → Prop where
  | stopStarting (retry : Bool) : OrderMove .starting (.spinDown retry) .stopping
  | stopSpun : OrderMove .spun (.spinDown false) .stopping
  | unloadLoading (k : Bool) : OrderMove .loading (.unload k) .unloading
  | unloadLoaded (k : Bool) : OrderMove .loaded (.unload k) .unloading
  | unloadAgain (k : Bool) : OrderMove .unloading (.unload k) .unloading
  | parkLoading : OrderMove .loading .emergencyUnload .unloading
  | parkLoaded : OrderMove .loaded .emergencyUnload .unloading
  | parkUnloading : OrderMove .unloading .emergencyUnload .unloading

/-- The transitions at the end of an order: the state left and the state entered (R13, R14, R16, R19). -/
inductive EndMove : SlotState → SlotState → Prop where
  | spun : EndMove .starting .spun
  | stopped : EndMove .stopping .stopped
  | loaded : EndMove .loading .loaded
  | unloaded : EndMove .unloading .spun

/-- States with no order in flight (Table 1-4). -/
def SlotState.resting : SlotState → Bool
  | .empty | .stopped | .queued | .spun | .loaded | .faulted => true
  | .starting | .loading | .unloading | .stopping => false

/-- What a move does to a slot's state and order in flight. -/
inductive Slot.Moves (r r' : Slot) : Prop where
  | same (hs : r'.state = r.state) (ho : r'.lane.inFlight = r.lane.inFlight)
  | order (k : OrderKind) (h : OrderMove r.state k r'.state)
      (ho : ∃ n t, r'.lane.inFlight = some ⟨k, n, t⟩)
  | ends (h : EndMove r.state r'.state) (ho : r'.lane.inFlight = none)
  | rests (h : r.state.resting = true) (hs : r'.state = r.state) (ho : r'.lane.inFlight = none)
  | recovers (h : r.state = .faulted) (hs : r'.state = .stopped) (ho : r'.lane.inFlight = r.lane.inFlight)

/-- A slot that is granted its start (R11). -/
def Plant.started (e : Env) (i : SlotId) (d : Plant) : Plant :=
  (d.put e i (Slot.issue e i .spinUp { d.slot i with state := .starting })).leaveQueue i

/-- A slot whose load claim is granted (R15). -/
def Plant.loadGranted (e : Env) (i : SlotId) (d : Plant) : Plant :=
  d.put e i (Slot.issue e i .load { d.slot i with loadClaim := false, state := .loading })

/-- One move of the plant. -/
inductive Plant.Move (e : Env) : Plant → Plant → Prop where
  | slot (d : Plant) (i : SlotId) (r' : Slot) (k : (d.slot i).Keeps r') (m : (d.slot i).Moves r') :
      Plant.Move e d (d.put e i r')
  | queueUp (d : Plant) (i : SlotId) (h : (d.slot i).state = .stopped) :
      Plant.Move e d ((d.put e i { d.slot i with state := .queued }).joinQueue i)
  | queueDown (d : Plant) (i : SlotId) (h : (d.slot i).state = .queued) :
      Plant.Move e d ((d.put e i { d.slot i with state := .stopped }).leaveQueue i)
  | start (d : Plant) (i : SlotId) (h : (d.slot i).state = .queued) (hl : d.emg.latched = false)
      (hs : d.budget.shed = false) : Plant.Move e d (d.started e i)
  | load (d : Plant) (i : SlotId) (h : (d.slot i).state = .spun) (he : (d.slot i).effective = .load)
      (hl : d.emg.latched = false) (hs : d.budget.shed = false) : Plant.Move e d (d.loadGranted e i)
  | cease (d : Plant) (i : SlotId) (disp : Disposition) (r' : Slot) (k : (d.slot i).Keeps r')
      (hs : r'.state = .faulted ∨ r'.state = .empty) (ho : r'.lane.inFlight = none) :
      Plant.Move e d (answerAll e i disp ((d.put e i r').leaveQueue i))
  | blocks (d : Plant) (a : Arbiter) (b : Budget) (g : Emergency) (ha : a.queue = d.arb.queue)
      (hb : b.powerState = d.budget.powerState) (hg : d.emg.latched = true → g.latched = true) :
      Plant.Move e d { d with arb := a, budget := b, emg := g }
  | record (d : Plant) (ev : Event) : Plant.Move e d (d.record e.clock ev)
  | abort (d : Plant) (i : SlotId) (disp : Disposition) : Plant.Move e d (Machine.abort e i disp d)
  | answerHeld (d : Plant) (i : SlotId) (disp : Disposition) (named : HoldEntry → Bool) :
      Plant.Move e d (Machine.answerHeld e i disp named d)
  | answerHead (d : Plant) (i : SlotId) (disp : Disposition) (status : Byte) (payload : List Byte) (h : HoldEntry)
      (rest : List HoldEntry) (hh : (d.slot i).hold = h :: rest) :
      Plant.Move e d (dropHead e i (answer e i h.tag disp status payload d))
  | release (d : Plant) (i : SlotId) (h : HoldEntry) (rest : List HoldEntry) (hh : (d.slot i).hold = h :: rest)
      (hf : (d.slot i).mayForward h.requirement = true) : Plant.Move e d (releaseHead e i h d)
  | complete (d : Plant) (i : SlotId) (epoch tag status : Byte) (payload : List Byte)
      (h : (d.slot i).outstanding.any (OutEntry.matches epoch tag) = true) :
      Plant.Move e d (answer e i tag .done status payload
        (d.put e i { d.slot i with outstanding := (d.slot i).outstanding.eraseP (OutEntry.matches epoch tag) }))

/-- A sequence of moves. -/
abbrev Plant.Reach (e : Env) : Plant → Plant → Prop := Relation.ReflTransGen (Plant.Move e)

/-- What a move does does not depend on whether the budget unit has taken a commit. -/
theorem Plant.Move.ofBeforeBudget {old : Tables} {p : Plant} {e : Env} {d d' : Plant}
    (h : Plant.Move (e.beforeBudget old p) d d') :
    Plant.Move e d d' := by
  cases h with
  | slot i r' k m => exact .slot d i r' k m
  | queueUp i h => exact .queueUp d i h
  | queueDown i h => exact .queueDown d i h
  | start i h hl hs => exact .start d i h hl hs
  | load i h he hl hs => exact .load d i h he hl hs
  | cease i disp r' k hs ho => exact .cease d i disp r' k hs ho
  | blocks a b g ha hb hg => exact .blocks d a b g ha hb hg
  | record ev => exact .record d ev
  | abort i disp => exact .abort d i disp
  | answerHeld i disp named => exact .answerHeld d i disp named
  | answerHead i disp status payload h rest hh => exact .answerHead d i disp status payload h rest hh
  | release i h rest hh hf => exact .release d i h rest hh hf
  | complete i epoch tag status payload h => exact .complete d i epoch tag status payload h

theorem Plant.Reach.ofBeforeBudget {old : Tables} {p : Plant} {e : Env} {d d' : Plant}
    (h : Plant.Reach (e.beforeBudget old p) d d') :
    Plant.Reach e d d' := by
  induction h with
  | refl => exact .refl
  | tail _ m ih => exact ih.tail m.ofBeforeBudget

end Sys2Proof.Machine
end

