-- ==== Sys2Proof/Laws/Answers.lean ====
section
/-! SUPPORT. What an answer leaves of the slots: nothing but the answered entries changes. -/

namespace Sys2Proof.Machine

variable {e : Env}

theorem answerTags_frame (i : SlotId) (disp : Disposition) : ∀ (tags : List Byte) (d : Plant),
    (answerTags e i disp tags d).slots = d.slots ∧ (answerTags e i disp tags d).arb = d.arb ∧
      (answerTags e i disp tags d).budget = d.budget ∧ (answerTags e i disp tags d).emg = d.emg
  | [], _ => ⟨rfl, rfl, rfl, rfl⟩
  | t :: tags, d => by
    have h := answerTags_frame i disp tags (answer e i t disp 0 [] d)
    exact ⟨h.1, h.2.1, h.2.2.1, h.2.2.2⟩

@[simp] theorem answerTags_slot (i : SlotId) (disp : Disposition) (tags : List Byte) (d : Plant) (j : SlotId) :
    (answerTags e i disp tags d).slot j = d.slot j := Plant.slot_congr (answerTags_frame i disp tags d).1 j

@[simp] theorem answer_slot (i : SlotId) (tag : Byte) (disp : Disposition) (status : Byte) (payload : List Byte) (d : Plant)
    (j : SlotId) : (answer e i tag disp status payload d).slot j = d.slot j := rfl

/-- The slots after an abort (R64). -/
theorem abort_slot (i : SlotId) (disp : Disposition) (d : Plant) (j : SlotId) :
    (abort e i disp d).slot j =
      if j = i then (Slot.nextEpoch { d.slot i with outstanding := [] }).examineCountdowns e i else d.slot j := by
  unfold abort
  simp only [Plant.slot_put, answerTags_slot]

/-- The slots after an answer to held entries (R65). -/
theorem answerHeld_slot (i : SlotId) (disp : Disposition) (named : HoldEntry → Bool) (d : Plant) (j : SlotId) :
    (answerHeld e i disp named d).slot j =
      if j = i then ({ d.slot i with hold := (d.slot i).hold.filter (fun h => !named h) } : Slot).examineCountdowns e i
      else d.slot j := by
  unfold answerHeld
  simp only [Plant.slot_put, answerTags_slot]

@[simp] theorem abort_state (i : SlotId) (disp : Disposition) (d : Plant) (j : SlotId) :
    ((abort e i disp d).slot j).state = (d.slot j).state := by
  rw [abort_slot]; split
  · next h => subst h; rfl
  · rfl

@[simp] theorem answerHeld_state (i : SlotId) (disp : Disposition) (named : HoldEntry → Bool) (d : Plant) (j : SlotId) :
    ((answerHeld e i disp named d).slot j).state = (d.slot j).state := by
  rw [answerHeld_slot]; split
  · next h => subst h; rfl
  · rfl

@[simp] theorem answerAll_state (i : SlotId) (disp : Disposition) (d : Plant) (j : SlotId) :
    ((answerAll e i disp d).slot j).state = (d.slot j).state := by
  unfold answerAll; simp

@[simp] theorem abort_arb (i : SlotId) (disp : Disposition) (d : Plant) : (abort e i disp d).arb = d.arb :=
  (answerTags_frame i disp _ d).2.1
@[simp] theorem abort_budget (i : SlotId) (disp : Disposition) (d : Plant) : (abort e i disp d).budget = d.budget :=
  (answerTags_frame i disp _ d).2.2.1
@[simp] theorem abort_emg (i : SlotId) (disp : Disposition) (d : Plant) : (abort e i disp d).emg = d.emg :=
  (answerTags_frame i disp _ d).2.2.2
@[simp] theorem answerHeld_arb (i : SlotId) (disp : Disposition) (named : HoldEntry → Bool) (d : Plant) :
    (answerHeld e i disp named d).arb = d.arb := (answerTags_frame i disp _ d).2.1
@[simp] theorem answerHeld_budget (i : SlotId) (disp : Disposition) (named : HoldEntry → Bool) (d : Plant) :
    (answerHeld e i disp named d).budget = d.budget := (answerTags_frame i disp _ d).2.2.1
@[simp] theorem answerHeld_emg (i : SlotId) (disp : Disposition) (named : HoldEntry → Bool) (d : Plant) :
    (answerHeld e i disp named d).emg = d.emg := (answerTags_frame i disp _ d).2.2.2

/-- An append to the event list touches the case link alone. -/
theorem Plant.record_frame (now : Clock) (ev : Event) (d : Plant) :
    (d.record now ev).slots = d.slots ∧ (d.record now ev).arb = d.arb ∧ (d.record now ev).budget = d.budget ∧
      (d.record now ev).emg = d.emg := by
  unfold Plant.record
  simp only
  split <;> exact ⟨rfl, rfl, rfl, rfl⟩

@[simp] theorem Plant.record_slot (now : Clock) (ev : Event) (d : Plant) (j : SlotId) :
    (d.record now ev).slot j = d.slot j := Plant.slot_congr (Plant.record_frame now ev d).1 j
@[simp] theorem Plant.record_arb (now : Clock) (ev : Event) (d : Plant) : (d.record now ev).arb = d.arb :=
  (Plant.record_frame now ev d).2.1
@[simp] theorem Plant.record_budget (now : Clock) (ev : Event) (d : Plant) : (d.record now ev).budget = d.budget :=
  (Plant.record_frame now ev d).2.2.1
@[simp] theorem Plant.record_emg (now : Clock) (ev : Event) (d : Plant) : (d.record now ev).emg = d.emg :=
  (Plant.record_frame now ev d).2.2.2

end Sys2Proof.Machine
end

