-- ==== Sys2Proof/Laws/Reach.lean ====
section
/-! SUPPORT. Every shared operation of Machine is a sequence of moves: one lemma an operation. -/

namespace Sys2Proof.Machine

open Relation

variable {e : Env}

theorem Plant.Reach.one {d d' : Plant} (h : Plant.Move e d d') : Plant.Reach e d d' := ReflTransGen.single h

theorem Plant.Reach.foldl {α : Type} (f : Plant → α → Plant) (hf : ∀ d x, Plant.Reach e d (f d x)) :
    ∀ (l : List α) (d : Plant), Plant.Reach e d (l.foldl f d)
  | [], _ => ReflTransGen.refl
  | x :: l, d => (hf d x).trans (Plant.Reach.foldl f hf l (f d x))

/-- A write of a slot's record that keeps its commands, state and order. -/
theorem Plant.Reach.same (d : Plant) (i : SlotId) (r' : Slot) (k : (d.slot i).Keeps r')
    (hs : r'.state = (d.slot i).state) (ho : r'.lane.inFlight = (d.slot i).lane.inFlight) :
    Plant.Reach e d (d.put e i r') := Plant.Reach.one (.slot d i r' k (.same hs ho))

theorem Plant.Reach.order (d : Plant) (i : SlotId) (r' : Slot) (kind : OrderKind) (k : (d.slot i).Keeps r')
    (h : OrderMove (d.slot i).state kind r'.state) (ho : ∃ n t, r'.lane.inFlight = some ⟨kind, n, t⟩) :
    Plant.Reach e d (d.put e i r') := Plant.Reach.one (.slot d i r' k (.order kind h ho))

theorem Plant.Reach.arb (d : Plant) (a : Arbiter) (ha : a.queue = d.arb.queue) : Plant.Reach e d { d with arb := a } :=
  Plant.Reach.one (.blocks d a d.budget d.emg ha rfl id)

theorem Plant.Reach.budget (d : Plant) (b : Budget) (hb : b.powerState = d.budget.powerState) :
    Plant.Reach e d { d with budget := b } := Plant.Reach.one (.blocks d d.arb b d.emg rfl hb id)

theorem Plant.Reach.emg (d : Plant) (g : Emergency) (hg : d.emg.latched = true → g.latched = true) :
    Plant.Reach e d { d with emg := g } := Plant.Reach.one (.blocks d d.arb d.budget g rfl rfl hg)

theorem Slot.Keeps.rfl' (r : Slot) : r.Keeps r := ⟨rfl, rfl, rfl, rfl, rfl, rfl, rfl⟩

/-- The order of an `issue` is in flight. -/
theorem Slot.issue_inFlight (i : SlotId) (kind : OrderKind) (r : Slot) :
    (r.issue e i kind).lane.inFlight = some ⟨kind, r.lane.nextOrder, ⟨e.clock, e.tables.orderMs i kind⟩⟩ := by
  unfold Slot.issue Lane.begin
  cases r.lane.tx <;> rfl

/-- Issuing an order keeps the commands inside the slot. -/
theorem Slot.issue_keeps (i : SlotId) (kind : OrderKind) (r : Slot) : r.Keeps (r.issue e i kind) :=
  ⟨rfl, rfl, rfl, rfl, rfl, rfl, rfl⟩

/-! ### Answers -/

theorem abort_reach (i : SlotId) (disp : Disposition) (d : Plant) : Plant.Reach e d (abort e i disp d) :=
  Plant.Reach.one (.abort d i disp)

theorem answerHeld_reach (i : SlotId) (disp : Disposition) (named : HoldEntry → Bool) (d : Plant) :
    Plant.Reach e d (answerHeld e i disp named d) := Plant.Reach.one (.answerHeld d i disp named)

theorem answerAll_reach (i : SlotId) (disp : Disposition) (d : Plant) : Plant.Reach e d (answerAll e i disp d) :=
  (abort_reach i disp d).trans (answerHeld_reach i disp _ _)

theorem answerEmulated_reach (i : SlotId) (h : HoldEntry) (rest : List HoldEntry) (d : Plant)
    (hh : (d.slot i).hold = h :: rest) : Plant.Reach e d (answerEmulated e i h.tag d) :=
  Plant.Reach.one (.answerHead d i .emulated 0 _ h rest hh)

theorem emulationCheck_reach (i : SlotId) (d : Plant) : Plant.Reach e d (emulationCheck e i d) := by
  unfold emulationCheck
  split
  · rename_i h rest hh
    split
    · exact answerEmulated_reach i h rest d hh
    · exact .refl
  · exact .refl

theorem refuseSweep_reach (i : SlotId) (cap : Level) (d : Plant) : Plant.Reach e d (refuseSweep e i cap d) :=
  answerHeld_reach i _ _ d

theorem record_reach (ev : Event) (d : Plant) : Plant.Reach e d (d.record e.clock ev) := Plant.Reach.one (.record d ev)

/-! ### The slot sequencer -/

theorem act_reach (i : SlotId) (d : Plant) : Plant.Reach e d (act e i d) := by
  unfold act
  simp only
  split
  · rename_i hs
    split
    · exact Plant.Reach.one (.queueUp d i hs)
    · exact .refl
  · rename_i hs
    split
    · exact (Plant.Reach.one (.queueDown d i hs)).trans (emulationCheck_reach i _)
    · exact .refl
  · rename_i hs
    split
    · refine Plant.Reach.order d i _ (.spinDown false) ⟨rfl, rfl, rfl, rfl, rfl, rfl, rfl⟩ ?_ ⟨_, _, Slot.issue_inFlight _ _ _⟩
      rw [hs]; exact .stopStarting false
    · exact .refl
  · rename_i hs
    split
    · exact Plant.Reach.same d i _ ⟨rfl, rfl, rfl, rfl, rfl, rfl, rfl⟩ rfl rfl
    · exact Plant.Reach.same d i _ ⟨rfl, rfl, rfl, rfl, rfl, rfl, rfl⟩ rfl rfl
    · refine Plant.Reach.order d i _ (.spinDown false) ⟨rfl, rfl, rfl, rfl, rfl, rfl, rfl⟩ ?_ ⟨_, _, Slot.issue_inFlight _ _ _⟩
      rw [hs]; exact .stopSpun
  · rename_i hs
    split
    · exact .refl
    · refine Plant.Reach.order d i _ (.unload false) ⟨rfl, rfl, rfl, rfl, rfl, rfl, rfl⟩ ?_ ⟨_, _, Slot.issue_inFlight _ _ _⟩
      rw [hs]; exact .unloadLoading false
  · rename_i hs
    split
    · split
      · exact Plant.Reach.same d i _ ⟨rfl, rfl, rfl, rfl, rfl, rfl, rfl⟩ rfl rfl
      · exact .refl
    · split
      · exact .refl
      · split
        · refine Plant.Reach.order d i _ (.unload false) ⟨rfl, rfl, rfl, rfl, rfl, rfl, rfl⟩ ?_ ⟨_, _, Slot.issue_inFlight _ _ _⟩
          rw [hs]; exact .unloadLoaded false
        · exact Plant.Reach.same d i _ ⟨rfl, rfl, rfl, rfl, rfl, rfl, rfl⟩ rfl rfl
  all_goals exact .refl

theorem actIfChanged_reach (i : SlotId) (old : Level) (d : Plant) : Plant.Reach e d (actIfChanged e i old d) := by
  unfold actIfChanged
  split
  · exact .refl
  · exact act_reach i d

/-- The end of a transition into a state: the record is written, an emulating head answered, and the slot acts. -/
theorem enter_reach (i : SlotId) (r' : Slot) (d : Plant) (h : Plant.Reach e d (d.put e i r')) :
    Plant.Reach e d (act e i (emulationCheck e i (d.put e i r'))) :=
  (h.trans (emulationCheck_reach i _)).trans (act_reach i _)

/-- The record of a ceased slot keeps its commands. -/
theorem Slot.cease_keeps (r : Slot) : r.Keeps r.cease := ⟨rfl, rfl, rfl, rfl, rfl, rfl, rfl⟩

theorem enterFaulted_reach (i : SlotId) (reason : FaultReason) (code : Option Byte) (d : Plant) :
    Plant.Reach e d (enterFaulted e i reason code d) := by
  unfold enterFaulted
  refine Relation.ReflTransGen.trans ?_ (record_reach _ _)
  exact Plant.Reach.one (.cease d i _ _ ⟨rfl, rfl, rfl, rfl, rfl, rfl, rfl⟩ (Or.inl rfl) rfl)

theorem removeSled_reach (i : SlotId) (d : Plant) : Plant.Reach e d (removeSled e i d) := by
  unfold removeSled
  refine Relation.ReflTransGen.trans ?_ (record_reach _ _)
  exact Plant.Reach.one (.cease d i _ _ ⟨rfl, rfl, rfl, rfl, rfl, rfl, rfl⟩ (Or.inr rfl) rfl)

theorem recoverSlot_reach (i : SlotId) (d : Plant) (h : (d.slot i).state = .faulted) :
    Plant.Reach e d (recoverSlot e i d) := by
  unfold recoverSlot
  refine Relation.ReflTransGen.trans ?_ (act_reach i _)
  refine Relation.ReflTransGen.trans ?_ (record_reach _ _)
  exact Plant.Reach.one (.slot d i _ ⟨rfl, rfl, rfl, rfl, rfl, rfl, rfl⟩ (.recovers h rfl rfl))

theorem orderSuccess_reach (i : SlotId) (d : Plant) : Plant.Reach e d (orderSuccess e i d) := by
  unfold orderSuccess
  simp only [Slot.endOrder_state]
  split
  · rename_i hs
    refine enter_reach i _ d (Plant.Reach.one (.slot d i _ ⟨rfl, rfl, rfl, rfl, rfl, rfl, rfl⟩ (.ends ?_ rfl)))
    rw [hs]; exact .spun
  · rename_i hs
    split
    · exact enterFaulted_reach i _ _ d
    · refine enter_reach i _ d (Plant.Reach.one (.slot d i _ ⟨rfl, rfl, rfl, rfl, rfl, rfl, rfl⟩ (.ends ?_ rfl)))
      rw [hs]; exact .stopped
  · rename_i hs
    refine enter_reach i _ d (Plant.Reach.one (.slot d i _ ⟨rfl, rfl, rfl, rfl, rfl, rfl, rfl⟩ (.ends ?_ rfl)))
    rw [hs]; exact .loaded
  · rename_i hs
    split
    · exact enterFaulted_reach i _ _ d
    · split
      · exact enterFaulted_reach i _ _ d
      · refine enter_reach i _ d (Plant.Reach.one (.slot d i _ ⟨rfl, rfl, rfl, rfl, rfl, rfl, rfl⟩ (.ends ?_ rfl)))
        rw [hs]; exact .unloaded
  all_goals
    rename_i hs
    exact Plant.Reach.one (.slot d i _ ⟨rfl, rfl, rfl, rfl, rfl, rfl, rfl⟩ (.rests (by rw [hs]; rfl) rfl rfl))

theorem orderFailure_reach (i : SlotId) (kind : OrderKind) (d : Plant)
    (hk : (d.slot i).state = .unloading → (∃ b, kind = .unload b) ∨ kind = .emergencyUnload) :
    Plant.Reach e d (orderFailure e i kind d) := by
  unfold orderFailure
  simp only [Slot.endOrder_state]
  split
  · rename_i hs
    refine Plant.Reach.order d i _ (.spinDown true) ⟨rfl, rfl, rfl, rfl, rfl, rfl, rfl⟩ ?_
      ⟨_, _, Slot.issue_inFlight _ _ _⟩
    rw [hs]; exact .stopStarting true
  · exact enterFaulted_reach i _ _ d
  · rename_i hs
    refine Plant.Reach.order d i _ (.unload false) ⟨rfl, rfl, rfl, rfl, rfl, rfl, rfl⟩ ?_
      ⟨_, _, Slot.issue_inFlight _ _ _⟩
    rw [hs]; exact .unloadLoading false
  · rename_i hs
    split
    · split
      · exact enterFaulted_reach i _ _ d
      · exact enterFaulted_reach i _ _ d
    · refine Plant.Reach.order d i _ kind ⟨rfl, rfl, rfl, rfl, rfl, rfl, rfl⟩ ?_ ⟨_, _, Slot.issue_inFlight _ _ _⟩
      simp only [Slot.issue_state, hs]
      rcases hk hs with ⟨b, rfl⟩ | rfl
      · exact .unloadAgain b
      · exact .parkUnloading
  all_goals
    rename_i hs
    exact Plant.Reach.one (.slot d i _ ⟨rfl, rfl, rfl, rfl, rfl, rfl, rfl⟩ (.rests (by rw [hs]; rfl) rfl rfl))

/-! ### The lane's and the sled's events -/

/-- A failed order that leaves the slot in UNLOADING is an unload. -/
theorem Slot.unload_of_matches {r : Slot} {o : OrderInFlight} (h : r.orderMatches = true) (ho : r.lane.inFlight = some o)
    (hs : r.state = .unloading) : (∃ b, o.kind = .unload b) ∨ o.kind = .emergencyUnload := by
  unfold Slot.orderMatches at h
  rw [ho, hs] at h
  cases hk : o.kind <;> simp_all

theorem takeReport_reach (i : SlotId) (number : Byte) (result : ReportResult) (mech : MechState) (d : Plant)
    (h : (d.slot i).orderMatches = true) : Plant.Reach e d (takeReport e i number result mech d) := by
  unfold takeReport
  split
  · rename_i o ho
    split
    · split
      · exact orderSuccess_reach i d
      · exact orderFailure_reach i _ d (Slot.unload_of_matches h ho)
    · exact .refl
  · exact .refl

/-- A slot issues an unload of any kind and enters UNLOADING. -/
theorem Plant.Reach.unload (d : Plant) (i : SlotId) (kind : OrderKind) (mark : UnloadMark)
    (h : OrderMove (d.slot i).state kind .unloading) :
    Plant.Reach e d (d.put e i ((d.slot i).toUnloading e i kind mark)) :=
  Plant.Reach.order d i _ kind ⟨rfl, rfl, rfl, rfl, rfl, rfl, rfl⟩ h ⟨_, _, Slot.issue_inFlight _ _ _⟩

theorem takeSledFault_reach (i : SlotId) (code : Byte) (d : Plant) :
    Plant.Reach e d (takeSledFault e i code d) := by
  have parks : ∀ {st : SlotState}, (d.slot i).state = st → OrderMove st .emergencyUnload .unloading →
      Plant.Reach e d (answerAll e i .slotFault (d.put e i
        (Slot.toUnloading e i .emergencyUnload .fault { d.slot i with sledCode := some code }))) := by
    intro st hs hm
    refine Relation.ReflTransGen.trans ?_ (answerAll_reach i _ _)
    refine Plant.Reach.order d i _ .emergencyUnload ⟨rfl, rfl, rfl, rfl, rfl, rfl, rfl⟩ ?_
      ⟨_, _, Slot.issue_inFlight _ _ _⟩
    rw [hs]; exact hm
  unfold takeSledFault
  simp only
  split
  · rename_i hs
    split
    · exact .refl
    · exact parks hs .parkLoading
  · rename_i hs
    split
    · exact .refl
    · exact parks hs .parkLoaded
  · rename_i hs
    split
    · exact .refl
    · exact parks hs .parkUnloading
  all_goals first | exact enterFaulted_reach i _ _ d | exact .refl

theorem takeOvercurrent_reach (i : SlotId) (d : Plant) : Plant.Reach e d (takeOvercurrent e i d) := by
  unfold takeOvercurrent
  split
  · exact enterFaulted_reach i _ _ d
  · exact .refl

theorem drainDone_reach (i : SlotId) (d : Plant) : Plant.Reach e d (drainDone e i d) := by
  unfold drainDone
  simp only
  split
  · rename_i h
    refine Plant.Reach.order _ i _ (.unload false) ⟨rfl, rfl, rfl, rfl, rfl, rfl, rfl⟩ ?_
      ⟨_, _, Slot.issue_inFlight _ _ _⟩
    rw [h.1]; exact .unloadLoaded false
  · exact .refl

theorem drainExpired_reach (i : SlotId) (d : Plant) (h : (d.slot i).state = .loaded) :
    Plant.Reach e d (drainExpired e i d) := by
  unfold drainExpired
  simp only
  refine Relation.ReflTransGen.trans ?_ (record_reach _ _)
  refine (abort_reach i .abortedDrain d).trans ?_
  refine Plant.Reach.order _ i _ (.unload true) ⟨rfl, rfl, rfl, rfl, rfl, rfl, rfl⟩ ?_
    ⟨_, _, Slot.issue_inFlight _ _ _⟩
  rw [abort_state, h]; exact .unloadLoaded true

/-! ### Levels and suspensions -/

theorem Slot.freezeHold_captured (now : Clock) (r : Slot) :
    (r.freezeHold now).hold.map HoldEntry.captured = r.hold.map HoldEntry.captured := by
  simp [Slot.freezeHold, HoldEntry.captured, Function.comp_def]

theorem Slot.resumeHold_captured (now : Clock) (r : Slot) :
    (r.resumeHold now).hold.map HoldEntry.captured = r.hold.map HoldEntry.captured := by
  simp [Slot.resumeHold, HoldEntry.captured, Function.comp_def]

/-- What the suspension operations leave of a slot: all but the timers, the countdowns and the suspension record. -/
structure Slot.Quiet (r r' : Slot) : Prop where
  keeps : r.Keeps r'
  state : r'.state = r.state
  lane : r'.lane = r.lane

theorem Slot.Quiet.refl (r : Slot) : r.Quiet r := ⟨Slot.Keeps.rfl' r, rfl, rfl⟩

theorem Slot.suspend_quiet (r : Slot) : r.Quiet (r.suspend e) := by
  unfold Slot.suspend
  simp only
  split
  · exact ⟨⟨Slot.freezeHold_captured _ _, rfl, rfl, rfl, rfl, rfl, rfl⟩, rfl, rfl⟩
  · exact ⟨⟨rfl, rfl, rfl, rfl, rfl, rfl, rfl⟩, rfl, rfl⟩

theorem Slot.resuspend_quiet (rec : Suspension) (r : Slot) : r.Quiet (r.resuspend e rec) := by
  unfold Slot.resuspend Slot.holdBy
  split
  · exact ⟨⟨Slot.freezeHold_captured _ _, rfl, rfl, rfl, rfl, rfl, rfl⟩, rfl, rfl⟩
  · exact ⟨⟨Slot.resumeHold_captured _ _, rfl, rfl, rfl, rfl, rfl, rfl⟩, rfl, rfl⟩
  · exact ⟨⟨Slot.resumeHold_captured _ _, rfl, rfl, rfl, rfl, rfl, rfl⟩, rfl, rfl⟩

theorem Slot.endByCapRise_quiet (r : Slot) : r.Quiet (r.endByCapRise e) :=
  ⟨⟨Slot.resumeHold_captured _ _, rfl, rfl, rfl, rfl, rfl, rfl⟩, rfl, rfl⟩

theorem Slot.endByLowering_quiet (r : Slot) : r.Quiet (r.endByLowering e) :=
  ⟨⟨Slot.resumeHold_captured _ _, rfl, rfl, rfl, rfl, rfl, rfl⟩, rfl, rfl⟩

theorem Slot.settleForCap_quiet (cap : Level) (r : Slot) : r.Quiet (r.settleForCap e cap) := by
  unfold Slot.settleForCap
  split
  · exact Slot.Quiet.refl r
  · split
    · split
      · exact Slot.suspend_quiet r
      · exact Slot.resuspend_quiet _ r
    · split
      · exact Slot.Quiet.refl r
      · exact Slot.endByCapRise_quiet r

theorem Plant.Reach.quiet (d : Plant) (i : SlotId) (r' : Slot) (h : (d.slot i).Quiet r') :
    Plant.Reach e d (d.put e i r') := Plant.Reach.same d i r' h.keeps h.state (by rw [h.lane])

theorem settleSuspension_reach (i : SlotId) (d : Plant) : Plant.Reach e d (settleSuspension e i d) := by
  unfold settleSuspension
  simp only
  split
  · exact .refl
  · split
    · split
      · exact .refl
      · split
        · exact (Plant.Reach.quiet d i _ (Slot.suspend_quiet _)).trans (refuseSweep_reach i _ _)
        · exact Plant.Reach.quiet d i _ (Slot.suspend_quiet _)
    · split
      · exact Plant.Reach.quiet d i _ (Slot.endByLowering_quiet _)
      · exact .refl

theorem writeRequested_reach (i : SlotId) (lv : Level) (pin : Bool) (d : Plant) :
    Plant.Reach e d (writeRequested e i lv pin d) := by
  unfold writeRequested
  refine Relation.ReflTransGen.trans ?_ (settleSuspension_reach i _)
  refine Relation.ReflTransGen.trans ?_ (actIfChanged_reach i _ _)
  exact Plant.Reach.same d i _ ⟨rfl, rfl, rfl, rfl, rfl, rfl, rfl⟩ rfl rfl

theorem writeBudgetCap_reach (i : SlotId) (cap : BudgetCap) (d : Plant) :
    Plant.Reach e d (writeBudgetCap e i cap d) := by
  unfold writeBudgetCap
  refine Relation.ReflTransGen.trans ?_ (actIfChanged_reach i _ _)
  exact Plant.Reach.same d i _ ⟨rfl, rfl, rfl, rfl, rfl, rfl, rfl⟩ rfl rfl

theorem writeEmergencyCap_reach (cap : EmergencyCap) (d : Plant) (i : SlotId) :
    Plant.Reach e d (writeEmergencyCap e cap d i) := by
  unfold writeEmergencyCap
  refine Relation.ReflTransGen.trans ?_ (actIfChanged_reach i _ _)
  exact Plant.Reach.same d i _ ⟨rfl, rfl, rfl, rfl, rfl, rfl, rfl⟩ rfl rfl

theorem writeTransitCap_reach (i : SlotId) (cap : Level) (d : Plant) :
    Plant.Reach e d (writeTransitCap e i cap d) := by
  unfold writeTransitCap
  refine Relation.ReflTransGen.trans ?_ (actIfChanged_reach i _ _)
  exact Plant.Reach.same d i _ ⟨rfl, rfl, rfl, rfl, rfl, rfl, rfl⟩ rfl rfl

/-! ### The start arbiter and the budget unit -/

theorem refreshArbiter_reach (d : Plant) : Plant.Reach e d (refreshArbiter e d) := by
  unfold refreshArbiter
  exact Plant.Reach.one (.blocks d _ _ d.emg rfl rfl id)

theorem recommit_reach (d : Plant) : Plant.Reach e d (recommit e d) := by
  unfold recommit
  exact Plant.Reach.budget d _ rfl

theorem grantLoad_reach (i : SlotId) (d : Plant) (hl : d.emg.latched = false) (hs : d.budget.shed = false) :
    Plant.Reach e d (grantLoad e i d) := by
  unfold grantLoad
  simp only
  split
  · rename_i h
    exact (Plant.Reach.one (.load d i h.1 h.2 hl hs)).trans (recommit_reach _)
  · refine Relation.ReflTransGen.trans ?_ (act_reach i _)
    exact Plant.Reach.same d i _ ⟨rfl, rfl, rfl, rfl, rfl, rfl, rfl⟩ rfl rfl

theorem serveLoad_reach (d : Plant) (i : SlotId) (hl : d.emg.latched = false) (hs : d.budget.shed = false) :
    Plant.Reach e d (serveLoad e d i) := by
  unfold serveLoad
  split
  · exact grantLoad_reach i d hl hs
  · exact .refl

end Sys2Proof.Machine
end

