-- ==== Sys2Proof/Laws/Reach2.lean ====
section
/-! SUPPORT. Every shared operation of Machine is a sequence of moves, continued: the budget unit, the head rules, the
emergency park logic, the transit controller, and the operations of the requests. -/

namespace Sys2Proof.Machine

open Relation

variable {e : Env}

/-! ### The serving pass -/

/-- A fold whose every step keeps a condition and is a sequence of moves under it. -/
theorem Plant.Reach.foldl_of {α : Type} (P : Plant → Prop) (f : Plant → α → Plant)
    (hf : ∀ d x, P d → Plant.Reach e d (f d x) ∧ P (f d x)) :
    ∀ (l : List α) (d : Plant), P d → Plant.Reach e d (l.foldl f d) ∧ P (l.foldl f d)
  | [], _, h => ⟨ReflTransGen.refl, h⟩
  | x :: l, d, h =>
    let r := Plant.Reach.foldl_of P f hf l (f d x) (hf d x h).2
    ⟨(hf d x h).1.trans r.1, r.2⟩

theorem emulationCheck_blocks (i : SlotId) (d : Plant) :
    (emulationCheck e i d).budget = d.budget ∧ (emulationCheck e i d).emg = d.emg := by
  unfold emulationCheck
  split
  · split <;> exact ⟨rfl, rfl⟩
  · exact ⟨rfl, rfl⟩

/-- Acting on the effective level touches neither the budget unit nor the emergency record. -/
theorem act_blocks (i : SlotId) (d : Plant) : (act e i d).budget = d.budget ∧ (act e i d).emg = d.emg := by
  unfold act
  simp only
  repeat' split
  all_goals first
    | exact ⟨rfl, rfl⟩
    | exact emulationCheck_blocks i _

theorem grantLoad_blocks (i : SlotId) (d : Plant) :
    (grantLoad e i d).budget.shed = d.budget.shed ∧ (grantLoad e i d).emg = d.emg := by
  unfold grantLoad
  simp only
  split
  · constructor
    · simp only [recommit, Plant.put_budget]
    · simp only [recommit_emg, Plant.put_emg]
  · constructor
    · rw [(act_blocks i _).1, Plant.put_budget]
    · rw [(act_blocks i _).2, Plant.put_emg]

/-- No claim is served while the latch is set or a shed is in progress (R103): the condition of a pass. -/
def Plant.serving (d : Plant) : Prop := d.emg.latched = false ∧ d.budget.shed = false

theorem serveLoad_serving (d : Plant) (i : SlotId) (h : d.serving) :
    Plant.Reach e d (serveLoad e d i) ∧ (serveLoad e d i).serving := by
  refine ⟨serveLoad_reach d i h.1 h.2, ?_⟩
  unfold serveLoad
  split
  · exact ⟨by rw [(grantLoad_blocks i d).2]; exact h.1, by rw [(grantLoad_blocks i d).1]; exact h.2⟩
  · exact h

theorem grantStart_reach (i : SlotId) (d : Plant) (hq : (d.slot i).state = .queued) (h : d.serving) :
    Plant.Reach e d (grantStart e i d) := by
  unfold grantStart
  simp only
  refine ReflTransGen.trans ?_ (refreshArbiter_reach _)
  refine ReflTransGen.trans ?_ (recommit_reach _)
  refine ReflTransGen.trans ?_ (takeOvercurrent_reach i _)
  refine ReflTransGen.trans ?_ (refreshArbiter_reach _)
  refine ReflTransGen.trans ?_ (recommit_reach _)
  refine ReflTransGen.trans (Plant.Reach.one (.start d i hq h.1 h.2)) ?_
  exact Plant.Reach.arb (d.started e i) _ rfl

theorem serveStart_reach (d : Plant) (h : d.serving) : Plant.Reach e d (serveStart e d) := by
  unfold serveStart
  split
  · rename_i i _
    split
    · rename_i hc
      simp only [Bool.and_eq_true, decide_eq_true_eq] at hc
      exact grantStart_reach i d hc.2 h
    · exact .refl
  · exact .refl

theorem servePass_reach (d : Plant) : Plant.Reach e d (servePass e d) := by
  unfold servePass
  split
  · exact .refl
  · rename_i h
    simp only [Bool.or_eq_true, not_or, Bool.not_eq_true] at h
    have hs : d.serving := ⟨h.2, h.1⟩
    have hf := Plant.Reach.foldl_of Plant.serving (serveLoad e) (fun d i h => serveLoad_serving d i h) allSlots d hs
    exact hf.1.trans (serveStart_reach _ hf.2)

/-! ### Sheds -/

theorem takeVictim_reach (d : Plant) (i : SlotId) : Plant.Reach e d (takeVictim e d i) := by
  unfold takeVictim
  split
  · exact writeBudgetCap_reach i _ d
  · exact .refl

theorem takeVictims_reach (d : Plant) : Plant.Reach e d (takeVictims e d) :=
  Plant.Reach.foldl _ takeVictim_reach _ d

theorem beginShed_reach (d : Plant) : Plant.Reach e d (beginShed e d) := by
  unfold beginShed
  simp only
  refine ReflTransGen.trans ?_ (record_reach _ _)
  refine ReflTransGen.trans ?_ (takeVictims_reach _)
  exact Plant.Reach.budget d _ rfl

theorem endShed_reach (d : Plant) : Plant.Reach e d (endShed e d) := by
  unfold endShed
  simp only
  refine ReflTransGen.trans ?_ (Plant.Reach.foldl _ (fun d i => writeBudgetCap_reach i .none d) _ _)
  refine ReflTransGen.trans ?_ (record_reach _ _)
  exact Plant.Reach.budget d _ rfl

theorem rewriteCaps_reach (chosen : List SlotId) (d : Plant) (i : SlotId) :
    Plant.Reach e d (rewriteCaps e chosen d i) := by
  unfold rewriteCaps
  split
  · exact writeBudgetCap_reach i _ d
  · split
    · exact writeBudgetCap_reach i _ d
    · exact .refl

theorem changeBudget_reach (new : Nat) (d : Plant) : Plant.Reach e d (changeBudget e new d) := by
  unfold changeBudget
  simp only
  split
  · refine ReflTransGen.trans ?_ (Plant.Reach.foldl _ (rewriteCaps_reach _) _ _)
    exact Plant.Reach.budget d _ rfl
  · exact Plant.Reach.budget d _ rfl

theorem shedReact_reach (d : Plant) : Plant.Reach e d (shedReact e d) := by
  unfold shedReact
  repeat' split
  · exact endShed_reach d
  · exact takeVictims_reach d
  · exact .refl
  · exact beginShed_reach d
  · exact .refl

theorem budgetReact_reach (d : Plant) : Plant.Reach e d (budgetReact e d) := by
  unfold budgetReact
  refine ReflTransGen.trans ?_ (servePass_reach _)
  refine ReflTransGen.trans ?_ (refreshArbiter_reach _)
  refine ReflTransGen.trans ?_ (shedReact_reach _)
  refine ReflTransGen.trans ?_ (refreshArbiter_reach _)
  exact recommit_reach d

/-! ### The head rules -/

theorem Slot.markHead_keeps (r : Slot) : r.Keeps r.markHead := by
  unfold Slot.markHead
  split
  · rename_i h rest hh
    exact ⟨by simp [hh, HoldEntry.captured], rfl, rfl, rfl, rfl, rfl, rfl⟩
  · exact Slot.Keeps.rfl' r

theorem Slot.markHead_state (r : Slot) : r.markHead.state = r.state ∧ r.markHead.lane = r.lane := by
  unfold Slot.markHead; split <;> exact ⟨rfl, rfl⟩

theorem Slot.markEmulating_keeps (r : Slot) : r.Keeps r.markEmulating := by
  unfold Slot.markEmulating
  split
  · rename_i h rest hh
    exact ⟨by simp [hh, HoldEntry.captured], rfl, rfl, rfl, rfl, rfl, rfl⟩
  · exact Slot.Keeps.rfl' r

theorem Slot.markEmulating_state (r : Slot) : r.markEmulating.state = r.state ∧ r.markEmulating.lane = r.lane := by
  unfold Slot.markEmulating; split <;> exact ⟨rfl, rfl⟩

theorem becomeHead_reach (i : SlotId) (h : HoldEntry) (rest : List HoldEntry) (d : Plant)
    (hh : (d.slot i).hold = h :: rest) : Plant.Reach e d (becomeHead e i h d) := by
  have mark : Plant.Reach e d (d.put e i (d.slot i).markHead) :=
    Plant.Reach.same d i _ (Slot.markHead_keeps _) (Slot.markHead_state _).1 (by rw [(Slot.markHead_state _).2])
  unfold becomeHead
  simp only
  split
  · exact mark
  · split
    · unfold demand
      exact mark.trans (writeRequested_reach i _ _ _)
    · refine mark.trans (Plant.Reach.one ?_)
      refine Plant.Move.answerHead _ i .notReady 0 [] { h with asHead := true } rest ?_
      simp [Slot.markHead, hh]

theorem releaseHead_reach (i : SlotId) (h : HoldEntry) (rest : List HoldEntry) (d : Plant)
    (hh : (d.slot i).hold = h :: rest) (hf : (d.slot i).mayForward h.requirement = true) :
    Plant.Reach e d (releaseHead e i h d) := Plant.Reach.one (.release d i h rest hh hf)

theorem trapAct_reach (i : SlotId) (h : HoldEntry) (rest : List HoldEntry) (d : Plant)
    (hh : (d.slot i).hold = h :: rest) : Plant.Reach e d (trapAct e i h d) := by
  have go : Plant.Reach e d (writeRequested e i h.requirement false (d.put e i (d.slot i).markEmulating)) := by
    refine ReflTransGen.trans ?_ (writeRequested_reach i _ _ _)
    exact Plant.Reach.same d i _ (Slot.markEmulating_keeps _) (Slot.markEmulating_state _).1
      (by rw [(Slot.markEmulating_state _).2])
  have both : Plant.Reach e d (if (d.slot i).state = h.requirement.targetState then
      emulationCheck e i (writeRequested e i h.requirement false (d.put e i (d.slot i).markEmulating))
      else writeRequested e i h.requirement false (d.put e i (d.slot i).markEmulating)) := by
    split
    · exact go.trans (emulationCheck_reach i _)
    · exact go
  unfold trapAct
  simp only
  split
  · exact answerEmulated_reach i h rest d hh
  · exact answerEmulated_reach i h rest d hh
  all_goals simpa using both

theorem headStep_reach (i : SlotId) (d d' : Plant) (h : headStep e i d = some d') : Plant.Reach e d d' := by
  unfold headStep at h
  split at h
  · simp at h
  · rename_i x rest hh
    split at h
    · injection h with h; subst h; exact becomeHead_reach i x rest d hh
    · split at h
      · split at h
        · simp at h
        · injection h with h; subst h; exact trapAct_reach i x rest d hh
      · split at h
        · rename_i hf
          injection h with h; subst h; exact releaseHead_reach i x rest d hh hf
        · simp at h

theorem headLoop_reach (i : SlotId) : ∀ (n : Nat) (d : Plant), Plant.Reach e d (headLoop e i n d)
  | 0, _ => .refl
  | n + 1, d => by
    unfold headLoop
    split
    · exact .refl
    · rename_i d' h
      exact (headStep_reach i d d' h).trans (headLoop_reach i n d')

theorem serveHead_reach (i : SlotId) (d : Plant) : Plant.Reach e d (serveHead e i d) := headLoop_reach i _ d

theorem serveHeads_reach (d : Plant) : Plant.Reach e d (serveHeads e d) :=
  Plant.Reach.foldl _ (fun d i => serveHead_reach i d) _ d

theorem expireHeld_reach (i : SlotId) (tag : Byte) (d : Plant) : Plant.Reach e d (expireHeld e i tag d) :=
  answerHeld_reach i _ _ d

/-- A completion that matches is answered, and may end a drain (R61). -/
theorem takeCompletion_reach (i : SlotId) (epoch tag status : Byte) (payload : List Byte) (d : Plant)
    (h : (d.slot i).outstanding.any (OutEntry.matches epoch tag) = true) :
    Plant.Reach e d (takeCompletion e i epoch tag status payload d) := by
  unfold takeCompletion
  simp only [h, if_true]
  exact (Plant.Reach.one (.complete d i epoch tag status payload h)).trans (drainDone_reach i _)

/-! ### The emergency park logic -/

theorem examinePhase_reach (d : Plant) : Plant.Reach e d (examinePhase e d) := by
  unfold examinePhase
  split
  · refine ReflTransGen.trans ?_ (record_reach _ _)
    exact Plant.Reach.emg d _ id
  · exact .refl

theorem refreshSettle_reach (d : Plant) : Plant.Reach e d (refreshSettle e d) := by
  unfold refreshSettle
  split
  · split
    · exact .refl
    · exact Plant.Reach.emg d _ id
  · exact Plant.Reach.emg d _ id

/-- The response of the plant is a sequence of moves. -/
theorem react_reach (d : Plant) : Plant.Reach e d (react e d) := by
  unfold react
  refine ReflTransGen.trans ?_ (refreshSettle_reach _)
  refine ReflTransGen.trans ?_ (examinePhase_reach _)
  refine ReflTransGen.trans ?_ (serveHeads_reach _)
  refine ReflTransGen.trans ?_ (budgetReact_reach _)
  refine ReflTransGen.trans ?_ (serveHeads_reach _)
  exact budgetReact_reach d

theorem parkSlot_reach (d : Plant) (i : SlotId) : Plant.Reach e d (parkSlot e d i) := by
  unfold parkSlot
  split
  · rename_i h
    refine ReflTransGen.trans ?_ (serveHead_reach i _)
    refine ReflTransGen.trans ?_ (abort_reach i .abortedEmergency _)
    refine Plant.Reach.unload d i _ _ ?_
    simp only [Slot.toBeParked, Slot.headsOut, Bool.and_eq_true, Bool.or_eq_true, decide_eq_true_eq] at h
    rcases h.1 with (h | h) | h <;> rw [h]
    · exact .parkLoading
    · exact .parkLoaded
    · exact .parkUnloading
  · exact .refl

theorem writeEmergencyCaps_reach (cap : EmergencyCap) (d : Plant) : Plant.Reach e d (writeEmergencyCaps e cap d) :=
  Plant.Reach.foldl _ (writeEmergencyCap_reach cap) _ d

theorem setPhase_reach (p : Option EmgPhase) (d : Plant) :
    Plant.Reach e d { d with emg := { d.emg with phase := p } } := Plant.Reach.emg d _ id

theorem setCap_reach (c : EmergencyCap) (d : Plant) :
    Plant.Reach e d { d with emg := { d.emg with cap := c } } := Plant.Reach.emg d _ id

theorem latchEmergency_reach (q : EmgSource) (d : Plant) : Plant.Reach e d (latchEmergency e q d) := by
  unfold latchEmergency
  simp only
  refine ReflTransGen.trans ?_ (examinePhase_reach _)
  refine ReflTransGen.trans ?_ (record_reach _ _)
  refine ReflTransGen.trans ?_ (setPhase_reach _ _)
  refine ReflTransGen.trans ?_ (writeEmergencyCaps_reach _ _)
  refine ReflTransGen.trans ?_ (setCap_reach _ _)
  refine ReflTransGen.trans ?_ (Plant.Reach.foldl _ parkSlot_reach _ _)
  exact Plant.Reach.emg d _ (fun _ => rfl)

theorem addSource_reach (q : EmgSource) (d : Plant) : Plant.Reach e d (addSource e q d) := by
  unfold addSource
  split
  · exact .refl
  · simp only
    have one : ∀ cap, Plant.Reach e d (Plant.record e.clock (.emergencySourceAdded q cap)
        { d with emg := { d.emg with sources := d.emg.sources.add q, cap := cap } }) := by
      intro cap
      refine ReflTransGen.trans ?_ (record_reach _ _)
      exact Plant.Reach.emg d _ id
    split
    · exact (one _).trans (writeEmergencyCaps_reach _ _)
    · exact one _

theorem takeSource_reach (q : EmgSource) (d : Plant) : Plant.Reach e d (takeSource e q d) := by
  unfold takeSource
  split
  · exact addSource_reach q d
  · exact latchEmergency_reach q d

/-! ### The transit controller -/

theorem applyPolicy_reach (i : SlotId) (d : Plant) : Plant.Reach e d (applyPolicy e i d) := by
  unfold applyPolicy
  simp only
  refine ReflTransGen.trans ?_ (writeTransitCap_reach i _ _)
  have one : Plant.Reach e d (d.put e i (Slot.settleForCap e (e.tables.policyCap e.cls (e.tables.group i))
      { d.slot i with transitDisposition := e.tables.policyDisposition e.cls (e.tables.group i) })) := by
    have q := Slot.settleForCap_quiet (e := e) (e.tables.policyCap e.cls (e.tables.group i))
      { d.slot i with transitDisposition := e.tables.policyDisposition e.cls (e.tables.group i) }
    exact Plant.Reach.same d i _ ⟨q.keeps.captured, q.keeps.outstanding, q.keeps.epoch, q.keeps.exposures,
      q.keeps.strays, q.keeps.presenceIn, q.keeps.overcurrentIn⟩ q.state (by rw [q.lane])
  split
  · exact one.trans (refuseSweep_reach i _ _)
  · exact one

theorem applyPolicyAt_reach (d : Plant) (i : SlotId) : Plant.Reach e d (applyPolicyAt e d i) := by
  unfold applyPolicyAt
  exact ((applyPolicy_reach i d).trans (serveHead_reach i _)).trans (budgetReact_reach _)

theorem applyPolicyAll_reach (d : Plant) : Plant.Reach e d (applyPolicyAll e d) := by
  unfold applyPolicyAll
  exact (Plant.Reach.foldl _ applyPolicyAt_reach _ d).trans (react_reach _)

theorem emergencyTakesClass_reach (d : Plant) : Plant.Reach e d (emergencyTakesClass e d) := by
  unfold emergencyTakesClass
  split
  · exact (takeSource_reach _ d).trans (react_reach _)
  · exact react_reach d

theorem budgetTakes_reach (new : Nat) (d : Plant) : Plant.Reach e d (budgetTakes e new d) := by
  unfold budgetTakes
  exact (changeBudget_reach new d).trans (react_reach _)

theorem emergencyTakesPower_reach (d : Plant) : Plant.Reach e d (emergencyTakesPower e d) := by
  unfold emergencyTakesPower
  split
  · exact (takeSource_reach _ d).trans (react_reach _)
  · exact react_reach d

/-! ### Requests and timers -/

theorem motionSlot_reach (lv : Level) (keep : Bool) (i : SlotId) (d : Plant) :
    Plant.Reach e d (motionSlot e lv keep i d) := by
  unfold motionSlot
  refine ReflTransGen.trans ?_ (budgetReact_reach _)
  refine ReflTransGen.trans ?_ (serveHead_reach i _)
  exact (writeRequested_reach i lv keep d).trans (answerHeld_reach i _ _ _)

theorem motionAt_reach (m : Word16) (lv : Level) (keep : Bool) (d : Plant) (i : SlotId) :
    Plant.Reach e d (motionAt e m lv keep d i) := by
  unfold motionAt
  split
  · exact motionSlot_reach lv keep i d
  · exact .refl

theorem motionAll_reach (m : Word16) (lv : Level) (keep : Bool) :
    ∀ (l : List SlotId) (d : Plant), Plant.Reach e d (motionAll e m lv keep l d).1
  | [], _ => .refl
  | i :: l, d => by
    unfold motionAll
    exact (motionAt_reach m lv keep d i).trans (motionAll_reach m lv keep l _)

theorem clearStart_reach (d : Plant) (i : SlotId) : Plant.Reach e d (clearStart e d i) := by
  unfold clearStart
  refine ReflTransGen.trans ?_ (serveHead_reach i _)
  exact (writeRequested_reach i .stop false d).trans (answerHeld_reach i _ _ _)

theorem setHold_reach (hold : Bool) (d : Plant) : Plant.Reach e d (setHold e hold d) := by
  unfold setHold
  refine ReflTransGen.trans ?_ (react_reach _)
  exact Plant.Reach.arb d _ rfl

theorem recountdown_reach (d : Plant) : Plant.Reach e d (recountdown e d) :=
  Plant.Reach.foldl _ (fun d i => Plant.Reach.same d i _ (Slot.Keeps.rfl' _) rfl rfl) _ d

theorem transitTakesGroups_reach (old : Tables) (d : Plant) : Plant.Reach e d (transitTakesGroups old e d) :=
  Plant.Reach.foldl _ applyPolicyAt_reach _ _

theorem slotCfgCommitted_reach (old : Tables) (b c : Bool) (d : Plant) :
    Plant.Reach e d (slotCfgCommitted old b c e d) := by
  have first : Plant.Reach e d (if c then recountdown e d else d) := by
    split
    · exact recountdown_reach d
    · exact .refl
  have second : ∀ d1, Plant.Reach e d1 (if b then transitTakesGroups old (e.beforeBudget old d1) d1
      else transitTakesGroups old e (react e d1)) := fun d1 => by
    split
    · exact (transitTakesGroups_reach old d1).ofBeforeBudget
    · exact (react_reach d1).trans (transitTakesGroups_reach old _)
  unfold slotCfgCommitted
  refine ReflTransGen.trans ?_ (react_reach _)
  refine ReflTransGen.trans ?_ (recountdown_reach _)
  exact first.trans (second _)

theorem budgetsCommitted_reach (old : Tables) (d : Plant) : Plant.Reach e d (budgetsCommitted old e d) := by
  unfold budgetsCommitted
  simp only
  split
  · exact .refl
  · exact budgetTakes_reach _ d

theorem Lane.begin_inFlight (l : Lane) : l.begin.inFlight = l.inFlight := by
  unfold Lane.begin; repeat' split
  all_goals rfl

theorem laneReceived_reach (i : SlotId) (d : Plant) : Plant.Reach e d (laneReceived e i d) :=
  Plant.Reach.same d i _ ⟨rfl, rfl, rfl, rfl, rfl, rfl, rfl⟩ rfl rfl

theorem laneSent_reach (i : SlotId) (d : Plant) : Plant.Reach e d (laneSent e i d) :=
  Plant.Reach.same d i _ ⟨rfl, rfl, rfl, rfl, rfl, rfl, rfl⟩ rfl (Lane.begin_inFlight _)

theorem dwellExpired_reach (i : SlotId) (d : Plant) : Plant.Reach e d (dwellExpired e i d) := by
  have one : Plant.Reach e d (d.put e i { d.slot i with dwell := none }) :=
    Plant.Reach.same d i _ ⟨rfl, rfl, rfl, rfl, rfl, rfl, rfl⟩ rfl rfl
  unfold dwellExpired
  simp only
  split
  · exact one.trans (act_reach i _)
  · exact one

end Sys2Proof.Machine
end

