-- ==== Sys2Proof/Laws/Kept.lean ====
section
/-! SUPPORT. What every move keeps: the orders, the start queue, the lists, the account of commands and of queue entries, the
pins and counts of the slots, and the case link's own state. -/

namespace Sys2Proof.Machine

open Relation

variable {e : Env}

/-- A condition that every move keeps is kept by a sequence of moves. -/
theorem Plant.Reach.keeps {P : Plant → Prop} (hm : ∀ d d', Plant.Move e d d' → P d → P d') {d d' : Plant}
    (h : Plant.Reach e d d') (hd : P d) : P d' := by
  induction h with
  | refl => exact hd
  | tail _ hm' ih => exact hm _ _ hm' ih

/-- A relation that is reflexive and transitive and holds of every move holds of a sequence of moves. -/
theorem Plant.Reach.relates {R : Plant → Plant → Prop} (hr : ∀ d, R d d) (ht : ∀ a b c, R a b → R b c → R a c)
    (hm : ∀ d d', Plant.Move e d d' → R d d') {d d' : Plant} (h : Plant.Reach e d d') : R d d' := by
  induction h with
  | refl => exact hr _
  | tail _ hm' ih => exact ht _ _ _ ih (hm _ _ hm')

/-! ### The upstream queue -/

@[simp] theorem Link.begin_queue (l : Link) : l.begin.queue = l.queue := by
  unfold Link.begin; split <;> rfl
@[simp] theorem Link.push_queue (f : UpFrame) (l : Link) : (l.push f).queue = l.queue ++ [f] := rfl
@[simp] theorem Link.store_queue (r : EventRecord) (l : Link) : (l.store r).queue = l.queue := by
  unfold Link.store; split <;> rfl

theorem answerTags_queue (i : SlotId) (disp : Disposition) : ∀ (tags : List Byte) (d : Plant),
    (answerTags e i disp tags d).link.queue =
      d.link.queue ++ tags.map (fun t => completionFrame (e.tables.unitOfSlot i) t disp 0 [])
  | [], d => by simp [answerTags]
  | t :: tags, d => by
    have h := answerTags_queue i disp tags (answer e i t disp 0 [] d)
    have h' : (answerTags e i disp (t :: tags) d) = answerTags e i disp tags (answer e i t disp 0 [] d) := rfl
    rw [h', h]
    simp [answer]

/-- The frames that an abort appends, in order (R64). -/
theorem abort_queue (i : SlotId) (disp : Disposition) (d : Plant) :
    (abort e i disp d).link.queue = d.link.queue ++
      ((d.slot i).outstanding.map OutEntry.tag).map
        (fun t => completionFrame (e.tables.unitOfSlot i) t disp 0 []) := by
  unfold abort
  simp only [Plant.put_link]
  exact answerTags_queue i disp _ d

/-- The frames that an answer to held entries appends, in order (R65). -/
theorem answerHeld_queue (i : SlotId) (disp : Disposition) (named : HoldEntry → Bool) (d : Plant) :
    (answerHeld e i disp named d).link.queue = d.link.queue ++
      (((d.slot i).hold.filter named).map HoldEntry.tag).map
        (fun t => completionFrame (e.tables.unitOfSlot i) t disp 0 []) := by
  unfold answerHeld
  simp only [Plant.put_link]
  exact answerTags_queue i disp _ d

/-- An append to the event list appends at most one frame, an ATTENTION, and only into a free entry (R182, R178). -/
theorem Plant.record_queue (now : Clock) (ev : Event) (d : Plant) :
    (d.record now ev).link.queue = d.link.queue ∨
      ((d.record now ev).link.queue = d.link.queue ++ [attentionFrame] ∧ d.free ≠ 0) := by
  unfold Plant.record
  simp only
  split
  · left; simp
  · rename_i h
    right
    simp only [Bool.or_eq_true, not_or, decide_eq_true_eq] at h
    refine ⟨by simp [Plant.push], ?_⟩
    have h2 := h.2
    simpa [Plant.free, Plant.reserved, Plant.slot] using h2

/-! ### Sums over the slots -/

theorem sum_allSlots (f : SlotId → Nat) : (allSlots.map f).sum = ∑ j, f j := by
  simp [allSlots, Fin.sum_univ_succ]

/-- A sum over the slots when one slot's part changes. -/
theorem sum_change (f g : SlotId → Nat) (i : SlotId) (h : ∀ j, j ≠ i → g j = f j) :
    (allSlots.map g).sum + f i = (allSlots.map f).sum + g i := by
  rw [sum_allSlots, sum_allSlots, ← Finset.add_sum_erase _ g (Finset.mem_univ i),
    ← Finset.add_sum_erase _ f (Finset.mem_univ i)]
  have : ∑ x ∈ Finset.univ.erase i, g x = ∑ x ∈ Finset.univ.erase i, f x :=
    Finset.sum_congr rfl (fun j hj => h j (Finset.ne_of_mem_erase hj))
  rw [this]; omega

/-- The reserved entries after a change of one slot. -/
theorem Plant.reserved_change {d d' : Plant} (i : SlotId) (h : ∀ j, j ≠ i → d'.slot j = d.slot j) :
    d'.reserved + (d.slot i).inside = d.reserved + (d'.slot i).inside := by
  unfold Plant.reserved
  exact sum_change (fun j => (d.slot j).inside) (fun j => (d'.slot j).inside) i (fun j hj => by simp only [h j hj])

/-- The pool occupancy after a change of one slot. -/
theorem Plant.poolUsed_change {d d' : Plant} (i : SlotId) (h : ∀ j, j ≠ i → d'.slot j = d.slot j) :
    d'.poolUsed + (d.slot i).hold.length = d.poolUsed + (d'.slot i).hold.length := by
  unfold Plant.poolUsed
  exact sum_change (fun j => (d.slot j).hold.length) (fun j => (d'.slot j).hold.length) i
    (fun j hj => by simp only [h j hj])

theorem Plant.reserved_congr {d d' : Plant} (h : d'.slots = d.slots) : d'.reserved = d.reserved := by
  unfold Plant.reserved; simp only [Plant.slot, h]
theorem Plant.poolUsed_congr {d d' : Plant} (h : d'.slots = d.slots) : d'.poolUsed = d.poolUsed := by
  unfold Plant.poolUsed; simp only [Plant.slot, h]

theorem Slot.Keeps.hold_length {r r' : Slot} (k : r.Keeps r') : r'.hold.length = r.hold.length := by
  have := congrArg List.length k.captured
  simpa using this

theorem Slot.Keeps.inside {r r' : Slot} (k : r.Keeps r') : r'.inside = r.inside := by
  unfold Slot.inside; rw [k.hold_length, k.outstanding]

theorem Slot.Keeps.tags {r r' : Slot} (k : r.Keeps r') : r'.tags = r.tags := by
  have h : r'.hold.map HoldEntry.tag = r.hold.map HoldEntry.tag := by
    have := congrArg (List.map Prod.fst) k.captured
    simpa [HoldEntry.captured, Function.comp_def] using this
  unfold Slot.tags; rw [h, k.outstanding]

/-! ### The shape of a move -/

/-- What a move does to a slot's lists, and to the account that goes with them: how many frames of each kind it appends. -/
structure Plant.Shape (d d' : Plant) : Prop where
  prefix_ : d.link.queue <+: d'.link.queue
  broken : d'.link.broken = d.link.broken
  framer : d'.link.framer = d.link.framer
  linkError : d'.link.linkError = d.link.linkError
  ready : d'.link.ready = d.link.ready
  events : d.link.events <+: d'.link.events
  powerState : d'.budget.powerState = d.budget.powerState
  latched : d.emg.latched = true → d'.emg.latched = true
  slots : ∀ j, (d'.slot j).exposures = (d.slot j).exposures ∧ (d'.slot j).strays = (d.slot j).strays ∧
    (d'.slot j).presenceIn = (d.slot j).presenceIn ∧ (d'.slot j).overcurrentIn = (d.slot j).overcurrentIn

theorem Plant.Shape.refl (d : Plant) : d.Shape d :=
  ⟨List.prefix_rfl, rfl, rfl, rfl, rfl, List.prefix_rfl, rfl, id, fun _ => ⟨rfl, rfl, rfl, rfl⟩⟩

theorem Plant.Shape.trans {a b c : Plant} (h : a.Shape b) (g : b.Shape c) : a.Shape c :=
  ⟨h.prefix_.trans g.prefix_, g.broken.trans h.broken, g.framer.trans h.framer, g.linkError.trans h.linkError,
    g.ready.trans h.ready, h.events.trans g.events, g.powerState.trans h.powerState, fun x => g.latched (h.latched x),
    fun j => ⟨(g.slots j).1.trans (h.slots j).1, (g.slots j).2.1.trans (h.slots j).2.1,
      (g.slots j).2.2.1.trans (h.slots j).2.2.1, (g.slots j).2.2.2.trans (h.slots j).2.2.2⟩⟩

/-- A write of one slot that keeps its counts and pins. -/
theorem Plant.Shape.put (d : Plant) (i : SlotId) (r' : Slot)
    (h : r'.exposures = (d.slot i).exposures ∧ r'.strays = (d.slot i).strays ∧
      r'.presenceIn = (d.slot i).presenceIn ∧ r'.overcurrentIn = (d.slot i).overcurrentIn) :
    d.Shape (d.put e i r') := by
  refine ⟨List.prefix_rfl, rfl, rfl, rfl, rfl, List.prefix_rfl, rfl, id, fun j => ?_⟩
  rw [Plant.slot_put]
  split
  · next hj => subst hj; exact h
  · exact ⟨rfl, rfl, rfl, rfl⟩

theorem Link.begin_shape (l : Link) : l.begin.broken = l.broken ∧ l.begin.framer = l.framer ∧
    l.begin.linkError = l.linkError ∧ l.begin.ready = l.ready ∧ l.begin.events = l.events ∧
    l.begin.overrun = l.overrun := by
  unfold Link.begin; split <;> exact ⟨rfl, rfl, rfl, rfl, rfl, rfl⟩

theorem Plant.Shape.push (d : Plant) (f : UpFrame) : d.Shape (d.push f) := by
  exact ⟨List.prefix_append _ _, rfl, rfl, rfl, rfl, List.prefix_rfl, rfl, id, fun _ => ⟨rfl, rfl, rfl, rfl⟩⟩

theorem answerTags_shape (i : SlotId) (disp : Disposition) : ∀ (tags : List Byte) (d : Plant),
    d.Shape (answerTags e i disp tags d)
  | [], d => Plant.Shape.refl d
  | _ :: tags, d => (Plant.Shape.push d _).trans (answerTags_shape i disp tags _)

theorem abort_shape (i : SlotId) (disp : Disposition) (d : Plant) : d.Shape (abort e i disp d) := by
  unfold abort
  exact (answerTags_shape i disp _ d).trans (Plant.Shape.put _ i _ (by simp))

theorem answerHeld_shape (i : SlotId) (disp : Disposition) (named : HoldEntry → Bool) (d : Plant) :
    d.Shape (answerHeld e i disp named d) := by
  unfold answerHeld
  exact (answerTags_shape i disp _ d).trans (Plant.Shape.put _ i _ (by simp))

theorem Link.store_shape (l : Link) (r : EventRecord) : (l.store r).broken = l.broken ∧ (l.store r).framer = l.framer ∧
    (l.store r).linkError = l.linkError ∧ (l.store r).ready = l.ready ∧ l.events <+: (l.store r).events := by
  unfold Link.store; split
  · exact ⟨rfl, rfl, rfl, rfl, List.prefix_append _ _⟩
  · exact ⟨rfl, rfl, rfl, rfl, List.prefix_rfl⟩

theorem Plant.Shape.link (d : Plant) (l : Link) (hq : d.link.queue <+: l.queue) (hb : l.broken = d.link.broken)
    (hf : l.framer = d.link.framer) (he : l.linkError = d.link.linkError) (hr : l.ready = d.link.ready)
    (hv : d.link.events <+: l.events) : d.Shape { d with link := l } :=
  ⟨hq, hb, hf, he, hr, hv, rfl, id, fun _ => ⟨rfl, rfl, rfl, rfl⟩⟩

theorem Plant.record_shape (now : Clock) (ev : Event) (d : Plant) : d.Shape (d.record now ev) := by
  have h := Link.store_shape d.link ⟨now, ev⟩
  have s := Plant.Shape.link d (d.link.store ⟨now, ev⟩) (by rw [Link.store_queue]) h.1 h.2.1 h.2.2.1 h.2.2.2.1 h.2.2.2.2
  unfold Plant.record
  simp only
  split
  · exact s
  · exact s.trans (Plant.Shape.push _ _)

/-- Every move has the shape. -/
theorem Plant.Move.shape {d d' : Plant} (h : Plant.Move e d d') : d.Shape d' := by
  cases h with
  | slot i r' k m => exact Plant.Shape.put d i r' ⟨k.exposures, k.strays, k.presenceIn, k.overcurrentIn⟩
  | queueUp i h =>
    have s := Plant.Shape.put (e := e) d i { d.slot i with state := .queued } ⟨rfl, rfl, rfl, rfl⟩
    exact ⟨s.prefix_, s.broken, s.framer, s.linkError, s.ready, s.events, s.powerState, s.latched, s.slots⟩
  | queueDown i h =>
    have s := Plant.Shape.put (e := e) d i { d.slot i with state := .stopped } ⟨rfl, rfl, rfl, rfl⟩
    exact ⟨s.prefix_, s.broken, s.framer, s.linkError, s.ready, s.events, s.powerState, s.latched, s.slots⟩
  | start i h hl hs =>
    have s := Plant.Shape.put (e := e) d i (Slot.issue e i .spinUp { d.slot i with state := .starting }) ⟨rfl, rfl, rfl, rfl⟩
    exact ⟨s.prefix_, s.broken, s.framer, s.linkError, s.ready, s.events, s.powerState, s.latched, s.slots⟩
  | load i h he hl hs => exact Plant.Shape.put d i _ ⟨rfl, rfl, rfl, rfl⟩
  | cease i disp r' k hs ho =>
    have s := Plant.Shape.put (e := e) d i r' ⟨k.exposures, k.strays, k.presenceIn, k.overcurrentIn⟩
    have s' : d.Shape ((d.put e i r').leaveQueue i) :=
      ⟨s.prefix_, s.broken, s.framer, s.linkError, s.ready, s.events, s.powerState, s.latched, s.slots⟩
    exact (s'.trans (abort_shape i disp _)).trans (answerHeld_shape i disp _ _)
  | blocks a b g ha hb hg =>
    exact ⟨List.prefix_rfl, rfl, rfl, rfl, rfl, List.prefix_rfl, hb, hg, fun _ => ⟨rfl, rfl, rfl, rfl⟩⟩
  | record ev => exact Plant.record_shape _ _ d
  | abort i disp => exact abort_shape i disp d
  | answerHeld i disp named => exact answerHeld_shape i disp named d
  | answerHead i disp status payload h rest hh =>
    exact (Plant.Shape.push d _).trans (Plant.Shape.put _ i _ ⟨rfl, rfl, rfl, rfl⟩)
  | release i h rest hh hf => exact Plant.Shape.put d i _ ⟨rfl, rfl, rfl, rfl⟩
  | complete i epoch tag status payload h =>
    refine Plant.Shape.trans ?_ (Plant.Shape.push _ _)
    exact Plant.Shape.put d i _ ⟨rfl, rfl, rfl, rfl⟩

theorem Plant.Reach.shape {d d' : Plant} (h : Plant.Reach e d d') : d.Shape d' :=
  h.relates Plant.Shape.refl (fun _ _ _ => Plant.Shape.trans) (fun _ _ => Plant.Move.shape)

end Sys2Proof.Machine
end

