-- ==== Sys2Proof/Laws/Invariants.lean ====
section
/-! SUPPORT. The invariants of the plant under every move: the orders, the start queue, the lists, and the two accounts. -/

namespace Sys2Proof.Machine

open Relation

variable {e : Env}

/-! ### Orders and states (Table 1-4) -/

theorem Slot.orderMatches_congr {r r' : Slot} (hs : r'.state = r.state) (ho : r'.lane.inFlight = r.lane.inFlight) :
    r'.orderMatches = r.orderMatches := by
  unfold Slot.orderMatches; rw [hs, ho]

theorem Slot.orderMatches_resting {r : Slot} (hs : r.state.resting = true) (ho : r.lane.inFlight = none) :
    r.orderMatches = true := by
  unfold Slot.orderMatches; rw [ho]
  cases h : r.state <;> simp_all [SlotState.resting]

theorem Slot.inFlight_of_resting {r : Slot} (hs : r.state.resting = true) (h : r.orderMatches = true) :
    r.lane.inFlight = none := by
  unfold Slot.orderMatches at h
  cases ho : r.lane.inFlight with
  | none => rfl
  | some o => cases hst : r.state <;> simp_all [SlotState.resting]

theorem Slot.Moves.orderMatches {r r' : Slot} (m : r.Moves r') (h : r.orderMatches = true) : r'.orderMatches = true := by
  cases m with
  | same hs ho => rw [Slot.orderMatches_congr hs ho]; exact h
  | order k hm ho =>
    obtain ⟨n, t, ho⟩ := ho
    unfold Slot.orderMatches
    rw [ho]
    revert hm
    generalize r.state = a
    generalize r'.state = b
    intro hm
    cases hm <;> rfl
  | ends hm ho =>
    refine Slot.orderMatches_resting ?_ ho
    revert hm
    generalize r.state = a
    generalize r'.state = b
    intro hm
    cases hm <;> rfl
  | rests hr hs ho => exact Slot.orderMatches_resting (by rw [hs]; exact hr) ho
  | recovers hf hs ho =>
    exact Slot.orderMatches_resting (by rw [hs]; rfl) (by rw [ho]; exact Slot.inFlight_of_resting (by rw [hf]; rfl) h)

theorem Plant.ordersMatch_put {d : Plant} {i : SlotId} {r' : Slot} (h : d.ordersMatch) (hr : r'.orderMatches = true) :
    (d.put e i r').ordersMatch := by
  intro j
  rw [Plant.slot_put]
  split
  · rw [Slot.orderMatches_congr (Slot.examineCountdowns_state e i r') (by rw [Slot.examineCountdowns_lane])]; exact hr
  · exact h j

theorem abort_inFlight (i : SlotId) (disp : Disposition) (d : Plant) (j : SlotId) :
    ((abort e i disp d).slot j).lane.inFlight = (d.slot j).lane.inFlight := by
  rw [abort_slot]; split
  · next h => subst h; rfl
  · rfl

theorem answerHeld_inFlight (i : SlotId) (disp : Disposition) (named : HoldEntry → Bool) (d : Plant) (j : SlotId) :
    ((answerHeld e i disp named d).slot j).lane.inFlight = (d.slot j).lane.inFlight := by
  rw [answerHeld_slot]; split
  · next h => subst h; rfl
  · rfl

/-- Forwarding a command leaves the order in flight. -/
theorem Slot.forward_inFlight (tag : Byte) (payload : List Byte) (r : Slot) :
    (r.forward e tag payload).lane.inFlight = r.lane.inFlight := by
  unfold Slot.forward
  exact Lane.begin_inFlight _

theorem Plant.Move.ordersMatch {d d' : Plant} (h : Plant.Move e d d') (hd : d.ordersMatch) : d'.ordersMatch := by
  cases h with
  | slot i r' k m => exact Plant.ordersMatch_put hd (m.orderMatches (hd i))
  | queueUp i h =>
    have := Plant.ordersMatch_put (e := e) (i := i) (r' := { d.slot i with state := .queued }) hd
      (Slot.orderMatches_resting rfl (Slot.inFlight_of_resting (r := d.slot i) (by rw [h]; rfl) (hd i)))
    exact this
  | queueDown i h =>
    have := Plant.ordersMatch_put (e := e) (i := i) (r' := { d.slot i with state := .stopped }) hd
      (Slot.orderMatches_resting rfl (Slot.inFlight_of_resting (r := d.slot i) (by rw [h]; rfl) (hd i)))
    exact this
  | start i h hl hs =>
    have := Plant.ordersMatch_put (e := e) (i := i)
      (r' := Slot.issue e i .spinUp { d.slot i with state := .starting }) hd
      (by unfold Slot.orderMatches; rw [Slot.issue_inFlight]; rfl)
    exact this
  | load i h he hl hs =>
    exact Plant.ordersMatch_put hd (by unfold Slot.orderMatches; rw [Slot.issue_inFlight]; rfl)
  | cease i disp r' k hs ho =>
    intro j
    unfold answerAll
    have h1 : ((d.put e i r').leaveQueue i).ordersMatch :=
      Plant.ordersMatch_put hd (Slot.orderMatches_resting (by rcases hs with h | h <;> rw [h] <;> rfl) ho)
    rw [Slot.orderMatches_congr (answerHeld_state i disp _ _ j) (answerHeld_inFlight i disp _ _ j),
      Slot.orderMatches_congr (abort_state i disp _ j) (abort_inFlight i disp _ j)]
    exact h1 j
  | blocks a b g ha hb hg => exact hd
  | record ev => intro j; rw [Plant.record_slot]; exact hd j
  | abort i disp =>
    intro j
    rw [Slot.orderMatches_congr (abort_state i disp _ j) (abort_inFlight i disp _ j)]; exact hd j
  | answerHeld i disp named =>
    intro j
    rw [Slot.orderMatches_congr (answerHeld_state i disp _ _ j) (answerHeld_inFlight i disp _ _ j)]; exact hd j
  | answerHead i disp status payload h rest hh =>
    exact Plant.ordersMatch_put (d := answer e i h.tag disp status payload d) hd
      ((Slot.orderMatches_congr (r := d.slot i) rfl rfl).trans (hd i))
  | release i h rest hh hf =>
    exact Plant.ordersMatch_put hd
      ((Slot.orderMatches_congr (r := d.slot i)
        (r' := Slot.forward e h.tag h.payload { d.slot i with hold := (d.slot i).hold.tail })
        rfl (Slot.forward_inFlight _ _ _)).trans (hd i))
  | complete i epoch tag status payload h =>
    have := Plant.ordersMatch_put (e := e) (i := i)
      (r' := { d.slot i with outstanding := (d.slot i).outstanding.eraseP (OutEntry.matches epoch tag) }) hd
      ((Slot.orderMatches_congr (r := d.slot i) rfl rfl).trans (hd i))
    exact this

theorem Plant.Reach.ordersMatch {d d' : Plant} (h : Plant.Reach e d d') (hd : d.ordersMatch) : d'.ordersMatch :=
  h.keeps (fun _ _ m => m.ordersMatch) hd

/-! ### The start queue (R89) -/

theorem Slot.Moves.queued_iff {r r' : Slot} (m : r.Moves r') : r'.state = .queued ↔ r.state = .queued := by
  cases m with
  | same hs ho => rw [hs]
  | order k hm ho =>
    revert hm
    generalize r.state = a
    generalize r'.state = b
    intro hm
    cases hm <;> simp
  | ends hm ho =>
    revert hm
    generalize r.state = a
    generalize r'.state = b
    intro hm
    cases hm <;> simp
  | rests hr hs ho => rw [hs]
  | recovers hf hs ho => rw [hf, hs]; simp

theorem Plant.queueMatches_of {d d' : Plant} (hd : d.queueMatches) (hq : d'.arb.queue = d.arb.queue)
    (hs : ∀ j, (d'.slot j).state = .queued ↔ (d.slot j).state = .queued) : d'.queueMatches :=
  ⟨by rw [hq]; exact hd.1, fun j => by rw [hq, hd.2 j, hs j]⟩

theorem Plant.queueMatches_leave {d d' : Plant} (hd : d.queueMatches) (i : SlotId)
    (hq : d'.arb.queue = d.arb.queue.filter (fun j => j != i)) (hi : (d'.slot i).state ≠ .queued)
    (hs : ∀ j, j ≠ i → ((d'.slot j).state = .queued ↔ (d.slot j).state = .queued)) : d'.queueMatches := by
  refine ⟨by rw [hq]; exact hd.1.filter _, fun j => ?_⟩
  rw [hq]
  by_cases h : j = i
  · subst h; simp [hi]
  · rw [hs j h, ← hd.2 j]; simp [h]

theorem Plant.Move.queueMatches {d d' : Plant} (h : Plant.Move e d d') (hd : d.queueMatches) : d'.queueMatches := by
  cases h with
  | slot i r' k m =>
    refine Plant.queueMatches_of hd rfl (fun j => ?_)
    rw [Plant.slot_put]; split
    · next hj => subst hj; exact m.queued_iff
    · exact Iff.rfl
  | queueUp i h =>
    have hni : i ∉ d.arb.queue := by rw [hd.2 i, h]; simp
    refine ⟨?_, fun j => ?_⟩
    · show (d.arb.queue ++ [i]).Nodup
      exact List.nodup_append.2 ⟨hd.1, List.nodup_singleton i, by
        intro a ha b hb hab; simp only [List.mem_singleton] at hb; subst hb; subst hab; exact hni ha⟩
    · show j ∈ d.arb.queue ++ [i] ↔ ((d.put e i { d.slot i with state := .queued }).slot j).state = .queued
      rw [Plant.slot_put]
      by_cases hj : j = i
      · subst hj; simp
      · simp [hj, hd.2 j]
  | queueDown i h =>
    refine Plant.queueMatches_leave hd i rfl ?_ (fun j hj => ?_)
    · show ((d.put e i { d.slot i with state := .stopped }).slot i).state ≠ .queued
      simp
    · show ((d.put e i { d.slot i with state := .stopped }).slot j).state = .queued ↔ _
      rw [Plant.slot_put_other e hj]
  | start i h hl hs =>
    refine Plant.queueMatches_leave hd i rfl ?_ (fun j hj => ?_)
    · show ((d.put e i (Slot.issue e i .spinUp { d.slot i with state := .starting })).slot i).state ≠ .queued
      simp
    · show ((d.put e i (Slot.issue e i .spinUp { d.slot i with state := .starting })).slot j).state = .queued ↔ _
      rw [Plant.slot_put_other e hj]
  | load i h he hl hs =>
    refine Plant.queueMatches_of hd rfl (fun j => ?_)
    unfold Plant.loadGranted
    rw [Plant.slot_put]; split
    · next hj => subst hj; simp [h]
    · exact Iff.rfl
  | cease i disp r' k hs ho =>
    have hq : (answerAll e i disp ((d.put e i r').leaveQueue i)).arb.queue = d.arb.queue.filter (fun j => j != i) := by
      unfold answerAll; simp
    refine Plant.queueMatches_leave hd i hq ?_ (fun j hj => ?_)
    · rw [answerAll_state]; simp only [Plant.slot_leaveQueue, Plant.slot_put_same, Slot.examineCountdowns_state]
      rcases hs with h | h <;> rw [h] <;> simp
    · rw [answerAll_state]; simp only [Plant.slot_leaveQueue, Plant.slot_put_other e hj]
  | blocks a b g ha hb hg => exact Plant.queueMatches_of hd ha (fun _ => Iff.rfl)
  | record ev =>
    exact Plant.queueMatches_of hd (by rw [Plant.record_arb]) (fun j => by rw [Plant.record_slot])
  | abort i disp => exact Plant.queueMatches_of hd (by rw [abort_arb]) (fun j => by rw [abort_state])
  | answerHeld i disp named =>
    exact Plant.queueMatches_of hd (by rw [answerHeld_arb]) (fun j => by rw [answerHeld_state])
  | answerHead i disp status payload h rest hh =>
    refine Plant.queueMatches_of hd rfl (fun j => ?_)
    unfold dropHead
    rw [Plant.slot_put]; split
    · next hj => subst hj; exact Iff.rfl
    · exact Iff.rfl
  | release i h rest hh hf =>
    refine Plant.queueMatches_of hd rfl (fun j => ?_)
    unfold releaseHead
    simp only
    rw [Plant.slot_put]; split
    · next hj => subst hj; exact Iff.rfl
    · exact Iff.rfl
  | complete i epoch tag status payload h =>
    refine Plant.queueMatches_of hd rfl (fun j => ?_)
    rw [answer_slot, Plant.slot_put]; split
    · next hj => subst hj; exact Iff.rfl
    · exact Iff.rfl

theorem Plant.Reach.queueMatches {d d' : Plant} (h : Plant.Reach e d d') (hd : d.queueMatches) : d'.queueMatches :=
  h.keeps (fun _ _ m => m.queueMatches) hd

end Sys2Proof.Machine
end

