-- ==== Sys2Proof/Laws/Accounts.lean ====
section
/-! SUPPORT. The lists of a slot, the hold pool, the entries of the upstream queue and the account of commands under every
move of the plant. -/

namespace Sys2Proof.Machine

variable {e : Env}

/-! ### What each move does to the lists -/

/-- A write of one slot, and what it does to the sums. -/
theorem Plant.poolUsed_put {d : Plant} {i : SlotId} {r' : Slot} (h : r'.hold.length ≤ (d.slot i).hold.length) :
    (d.put e i r').poolUsed ≤ d.poolUsed := by
  have c := Plant.poolUsed_change (d := d) (d' := d.put e i r') i (fun j hj => Plant.slot_put_other e hj _ _)
  rw [Plant.slot_put_same, Slot.examineCountdowns_hold] at c
  omega

theorem Plant.reserved_put {d : Plant} {i : SlotId} {r' : Slot} :
    (d.put e i r').reserved + (d.slot i).inside = d.reserved + r'.inside := by
  have c := Plant.reserved_change (d := d) (d' := d.put e i r') i (fun j hj => Plant.slot_put_other e hj _ _)
  rw [Plant.slot_put_same] at c
  unfold Slot.inside at *
  rw [Slot.examineCountdowns_hold, Slot.examineCountdowns_outstanding] at c
  exact c

theorem Slot.listsSound_congr {r r' : Slot} (hk : r'.tags = r.tags) (ho : r'.outstanding = r.outstanding)
    (he : r'.epoch = r.epoch) (hl : r'.hold.length = r.hold.length) (hs : r'.outOfService = true → r.outOfService = true)
    (h : r.listsSound) : r'.listsSound := by
  obtain ⟨h1, h2, h3, h4⟩ := h
  refine ⟨by rw [hk]; exact h1, by rw [ho]; exact h2, by rw [ho, he]; exact h3, fun hh => ?_⟩
  obtain ⟨h5, h6⟩ := h4 (hs hh)
  exact ⟨List.eq_nil_of_length_eq_zero (by rw [hl, h5]; rfl), by rw [ho]; exact h6⟩

theorem Slot.listsSound_examine {i : SlotId} {r : Slot} (h : r.listsSound) : (r.examineCountdowns e i).listsSound :=
  Slot.listsSound_congr rfl rfl rfl rfl id h

theorem Plant.listsSound_put {d : Plant} {i : SlotId} {r' : Slot} (hd : d.listsSound) (hr : r'.listsSound)
    (hl : r'.hold.length ≤ (d.slot i).hold.length) : (d.put e i r').listsSound := by
  refine ⟨fun j => ?_, (Plant.poolUsed_put hl).trans hd.2⟩
  rw [Plant.slot_put]; split
  · exact Slot.listsSound_examine hr
  · exact hd.1 j

theorem Plant.listsSound_slots {d d' : Plant} (hd : d.listsSound) (h : d'.slots = d.slots) : d'.listsSound :=
  ⟨fun j => by rw [Plant.slot_congr h]; exact hd.1 j, by rw [Plant.poolUsed_congr h]; exact hd.2⟩

theorem Slot.Moves.outOfService {r r' : Slot} (m : r.Moves r') (h : r'.outOfService = true) : r.outOfService = true := by
  unfold Slot.outOfService at *
  cases m with
  | same hs ho => rw [← hs]; exact h
  | order k hm ho =>
    revert hm h; generalize r.state = a; generalize r'.state = b; intro h hm; cases hm <;> simp at h
  | ends hm ho =>
    revert hm h; generalize r.state = a; generalize r'.state = b; intro h hm; cases hm <;> simp at h
  | rests hr hs ho => rw [← hs]; exact h
  | recovers hf hs ho => rw [hs] at h; simp at h

/-- The lists after an abort. -/
theorem abort_listsSound (i : SlotId) (disp : Disposition) {d : Plant} (hd : d.listsSound) :
    (abort e i disp d).listsSound := by
  have h := hd.1 i
  have hs : (answerTags e i disp ((d.slot i).outstanding.map (fun o => o.tag)) d).listsSound :=
    Plant.listsSound_slots hd (answerTags_frame i disp _ d).1
  refine Plant.listsSound_put hs ?_ (by rw [answerTags_slot]; exact le_refl _)
  refine ⟨?_, by simp [Slot.nextEpoch], by simp [Slot.nextEpoch], fun hh => ⟨(h.2.2.2 hh).1, rfl⟩⟩
  have h1 : (List.map HoldEntry.tag (d.slot i).hold).Nodup := (List.nodup_append.1 h.1).1
  show (List.map HoldEntry.tag (d.slot i).hold ++ List.map OutEntry.tag []).Nodup
  simpa using h1

/-- The lists after an answer to held entries. -/
theorem answerHeld_listsSound (i : SlotId) (disp : Disposition) (named : HoldEntry → Bool) {d : Plant}
    (hd : d.listsSound) : (answerHeld e i disp named d).listsSound := by
  have h := hd.1 i
  have hs : (answerTags e i disp (((d.slot i).hold.filter named).map (fun h => h.tag)) d).listsSound :=
    Plant.listsSound_slots hd (answerTags_frame i disp _ d).1
  refine Plant.listsSound_put hs ?_ (by rw [answerTags_slot]; exact List.length_filter_le _ _)
  refine ⟨?_, h.2.1, h.2.2.1, fun hh => ?_⟩
  · show (List.map HoldEntry.tag ((d.slot i).hold.filter fun h => !named h) ++ _).Nodup
    exact h.1.sublist (List.Sublist.append_right (List.filter_sublist.map _) _)
  · have := h.2.2.2 hh
    exact ⟨by show (d.slot i).hold.filter _ = []; rw [this.1]; rfl, this.2⟩

theorem abort_hold (i : SlotId) (disp : Disposition) (d : Plant) :
    ((abort e i disp d).slot i).hold = (d.slot i).hold := by
  rw [abort_slot, if_pos rfl]; rfl
theorem abort_outstanding (i : SlotId) (disp : Disposition) (d : Plant) :
    ((abort e i disp d).slot i).outstanding = [] := by
  rw [abort_slot, if_pos rfl]; rfl

/-- After every command of a slot has been answered, nothing of it is inside the part. -/
theorem answerAll_empty (i : SlotId) (disp : Disposition) (d : Plant) :
    ((answerAll e i disp d).slot i).hold = [] ∧ ((answerAll e i disp d).slot i).outstanding = [] := by
  unfold answerAll
  constructor
  · rw [answerHeld_slot, if_pos rfl]
    simp
  · rw [answerHeld_slot, if_pos rfl]
    simp [abort_outstanding]

theorem answerAll_slot_other {i j : SlotId} (h : j ≠ i) (disp : Disposition) (d : Plant) :
    (answerAll e i disp d).slot j = d.slot j := by
  unfold answerAll
  rw [answerHeld_slot, if_neg h, abort_slot, if_neg h]

/-- Every move keeps the lists sound. -/
theorem Plant.Move.listsSound {d d' : Plant} (h : Plant.Move e d d') (hd : d.listsSound) : d'.listsSound := by
  cases h with
  | slot i r' k m =>
    exact Plant.listsSound_put hd
      (Slot.listsSound_congr k.tags k.outstanding k.epoch k.hold_length m.outOfService (hd.1 i)) (le_of_eq k.hold_length)
  | queueUp i h =>
    have := Plant.listsSound_put (e := e) (r' := { d.slot i with state := .queued }) hd
      (Slot.listsSound_congr (r := d.slot i) rfl rfl rfl rfl (by simp [Slot.outOfService]) (hd.1 i)) (le_refl _)
    exact Plant.listsSound_slots this rfl
  | queueDown i h =>
    have := Plant.listsSound_put (e := e) (r' := { d.slot i with state := .stopped }) hd
      (Slot.listsSound_congr (r := d.slot i) rfl rfl rfl rfl (by simp [Slot.outOfService]) (hd.1 i)) (le_refl _)
    exact Plant.listsSound_slots this rfl
  | start i h hl hs =>
    have := Plant.listsSound_put (e := e) (r' := Slot.issue e i .spinUp { d.slot i with state := .starting }) hd
      (Slot.listsSound_congr (r := d.slot i) rfl rfl rfl rfl (by simp [Slot.outOfService, Slot.issue]) (hd.1 i)) (le_refl _)
    exact Plant.listsSound_slots this rfl
  | load i h he hl hs =>
    exact Plant.listsSound_put hd
      (Slot.listsSound_congr (r := d.slot i) rfl rfl rfl rfl (by simp [Slot.outOfService, Slot.issue]) (hd.1 i)) (le_refl _)
  | cease i disp r' k hs ho =>
    have hempty := answerAll_empty (e := e) i disp ((d.put e i r').leaveQueue i)
    have hother : ∀ j, j ≠ i → (answerAll e i disp ((d.put e i r').leaveQueue i)).slot j = d.slot j := fun j hj => by
      rw [answerAll_slot_other hj, Plant.slot_leaveQueue, Plant.slot_put_other e hj]
    refine ⟨fun j => ?_, ?_⟩
    · by_cases hj : j = i
      · subst hj
        refine ⟨?_, ?_, ?_, fun _ => hempty⟩
        · unfold Slot.tags; rw [hempty.1, hempty.2]; exact List.nodup_nil
        · rw [hempty.2]; exact Nat.zero_le _
        · rw [hempty.2]; intro o ho; exact absurd ho (List.not_mem_nil)
      · rw [hother j hj]; exact hd.1 j
    · have c := Plant.poolUsed_change i hother
      rw [hempty.1] at c
      have := hd.2
      simp only [List.length_nil] at c
      omega
  | blocks a b g ha hb hg => exact Plant.listsSound_slots hd rfl
  | record ev => exact Plant.listsSound_slots hd (Plant.record_frame _ _ _).1
  | abort i disp => exact abort_listsSound i disp hd
  | answerHeld i disp named => exact answerHeld_listsSound i disp named hd
  | answerHead i disp status payload h rest hh =>
    have hi := hd.1 i
    refine Plant.listsSound_put (d := answer e i h.tag disp status payload d) (Plant.listsSound_slots hd rfl) ?_ ?_
    · refine ⟨?_, hi.2.1, hi.2.2.1, fun hx => ?_⟩
      · show (List.map HoldEntry.tag (d.slot i).hold.tail ++ _).Nodup
        exact hi.1.sublist (List.Sublist.append_right ((List.tail_sublist _).map _) _)
      · have := hi.2.2.2 hx
        exact ⟨by show (d.slot i).hold.tail = []; rw [this.1]; rfl, this.2⟩
    · show (d.slot i).hold.tail.length ≤ (d.slot i).hold.length
      rw [List.length_tail]; omega
  | release i h rest hh hf =>
    have hi := hd.1 i
    have hlen : (d.slot i).outstanding.length < Config.outstandingMax := by
      unfold Slot.mayForward at hf; simp only [Bool.and_eq_true, decide_eq_true_eq] at hf; exact hf.1.2
    have hserv : (d.slot i).outOfService = false := by
      cases hs : (d.slot i).outOfService with
      | false => rfl
      | true =>
        have := (hi.2.2.2 hs).1
        rw [hh] at this; exact absurd this (by simp)
    refine Plant.listsSound_put hd ?_ ?_
    · refine ⟨?_, ?_, ?_, fun hx => ?_⟩
      · show (List.map HoldEntry.tag (d.slot i).hold.tail ++
          List.map OutEntry.tag ((d.slot i).outstanding ++ [⟨h.tag, (d.slot i).epoch, e.clock⟩])).Nodup
        have h1 := hi.1
        unfold Slot.tags at h1
        rw [hh] at h1 ⊢
        simp only [List.map_cons, List.cons_append, List.tail_cons, List.map_append, List.map_nil,
          List.nodup_cons, ← List.append_assoc] at h1 ⊢
        rw [List.nodup_append]
        refine ⟨h1.2, List.nodup_singleton _, ?_⟩
        intro a ha b hb hab
        simp only [List.mem_singleton] at hb
        subst hb; subst hab
        exact h1.1 ha
      · show ((d.slot i).outstanding ++ [_]).length ≤ _
        simp; omega
      · intro o ho
        have : o ∈ (d.slot i).outstanding ++ [⟨h.tag, (d.slot i).epoch, e.clock⟩] := ho
        rcases List.mem_append.1 this with hm | hm
        · exact hi.2.2.1 o hm
        · simp only [List.mem_singleton] at hm; subst hm; rfl
      · have hx' : (d.slot i).outOfService = true := hx
        rw [hserv] at hx'; exact absurd hx' (by simp)
    · show (d.slot i).hold.tail.length ≤ (d.slot i).hold.length
      rw [List.length_tail]; omega
  | complete i epoch tag status payload h =>
    have hi := hd.1 i
    have hsub : ((d.slot i).outstanding.eraseP (OutEntry.matches epoch tag)).Sublist (d.slot i).outstanding :=
      List.eraseP_sublist
    have : (d.put e i { d.slot i with
        outstanding := (d.slot i).outstanding.eraseP (OutEntry.matches epoch tag) }).listsSound := by
      refine Plant.listsSound_put hd ?_ (le_refl _)
      refine ⟨?_, hsub.length_le.trans hi.2.1, fun o ho => hi.2.2.1 o (hsub.subset ho), fun hx => ?_⟩
      · show (_ ++ List.map OutEntry.tag ((d.slot i).outstanding.eraseP _)).Nodup
        exact hi.1.sublist (List.Sublist.append_left (hsub.map _) _)
      · have := hi.2.2.2 hx
        exact ⟨this.1, by show (d.slot i).outstanding.eraseP _ = []; rw [this.2]; rfl⟩
    exact Plant.listsSound_slots this rfl

theorem Plant.Reach.listsSound {d d' : Plant} (h : Plant.Reach e d d') (hd : d.listsSound) : d'.listsSound :=
  h.keeps (fun _ _ m => m.listsSound) hd

/-! ### ATTENTION frames (R182) -/

/-- The entries taken, and one more while attention is false: the entry that an ATTENTION frame may still take. -/
def Plant.potential (d : Plant) : Nat := d.entries + (if d.link.attention then 0 else 1)

theorem Link.attention_congr {l l' : Link} (he : l'.events = l.events) (ho : l'.overrun = l.overrun) :
    l'.attention = l.attention := by
  unfold Link.attention; rw [he, ho]

theorem Link.store_attention (rec : EventRecord) (l : Link) : (l.store rec).attention = true := by
  unfold Link.store Link.attention; split <;> simp

@[simp] theorem Link.push_attention (f : UpFrame) (l : Link) : (l.push f).attention = l.attention := rfl

/-- An append to the event list takes at most the entry that was to be had for an ATTENTION frame. -/
theorem Plant.record_potential (now : Clock) (ev : Event) (d : Plant) :
    (d.record now ev).potential ≤ d.potential := by
  have hr : (d.record now ev).reserved = d.reserved := Plant.reserved_congr (Plant.record_frame _ _ _).1
  have ha : (d.record now ev).link.attention = true := by
    unfold Plant.record
    simp only
    split
    · exact Link.store_attention _ _
    · show (Link.push _ _).attention = true
      rw [Link.push_attention]; exact Link.store_attention _ _
  unfold Plant.potential Plant.entries
  rw [hr, ha, if_pos rfl]
  by_cases hw : d.link.attention = true
  · have hq : (d.record now ev).link.queue = d.link.queue := by
      unfold Plant.record; simp only [hw, Bool.true_or, if_true]; exact Link.store_queue _ _
    rw [hq]; omega
  · rw [if_neg hw]
    rcases Plant.record_queue now ev d with hq | ⟨hq, -⟩ <;> (rw [hq]; simp; try omega)

/-! ### The two accounts -/

/-- The COMPLETION frames of a queue. -/
def completionsIn (q : List UpFrame) : Nat := (q.filter (fun f => f.kind = .completion)).length

theorem completionsIn_tags (unit : Byte) (disp : Disposition) (q : List UpFrame) (tags : List Byte) :
    completionsIn (q ++ tags.map (fun t => completionFrame unit t disp 0 [])) = completionsIn q + tags.length := by
  unfold completionsIn
  rw [List.filter_append, List.length_append]
  congr 1
  rw [List.filter_eq_self.2 (by intro f hf; obtain ⟨t, -, rfl⟩ := List.mem_map.1 hf; rfl), List.length_map]

/-- What every move but an append to the event list does to the account of commands and to the entries of the queue: the
account stays, the entries do not rise, and attention stays. -/
structure Plant.Balance (d d' : Plant) : Prop where
  accounted : d'.accounted = d.accounted
  entries : d'.entries ≤ d.entries
  attention : d'.link.attention = d.link.attention

theorem Plant.balance_of {d d' : Plant} {k : Nat} (unit : Byte) (disp : Disposition) (tags : List Byte)
    (hq : d'.link.queue = d.link.queue ++ tags.map (fun t => completionFrame unit t disp 0 [])) (hk : tags.length = k)
    (hr : d'.reserved + k = d.reserved) (ha : d'.link.attention = d.link.attention) : d.Balance d' := by
  refine ⟨?_, ?_, ha⟩
  · have := completionsIn_tags unit disp d.link.queue tags
    unfold Plant.accounted
    unfold completionsIn at this
    rw [hq, this]; omega
  · unfold Plant.entries; rw [hq]; simp; omega

theorem Plant.balance_frame {d d' : Plant} (hq : d'.link.queue = d.link.queue) (hr : d'.reserved = d.reserved)
    (ha : d'.link.attention = d.link.attention) : d.Balance d' :=
  Plant.balance_of (k := 0) 0 .done [] (by simpa using hq) rfl (by omega) ha

theorem Plant.balance_put {d : Plant} {i : SlotId} {r' : Slot} (h : r'.inside = (d.slot i).inside) :
    d.Balance (d.put e i r') :=
  Plant.balance_frame rfl (by have := Plant.reserved_put (e := e) (d := d) (i := i) (r' := r'); omega) rfl

theorem answerTags_attention (i : SlotId) (disp : Disposition) : ∀ (tags : List Byte) (d : Plant),
    (answerTags e i disp tags d).link.attention = d.link.attention
  | [], _ => rfl
  | _ :: tags, _ => (answerTags_attention i disp tags _).trans (Link.push_attention _ _)

theorem abort_reserved (i : SlotId) (disp : Disposition) (d : Plant) :
    (abort e i disp d).reserved + (d.slot i).outstanding.length = d.reserved := by
  have c := Plant.reserved_change (d := d) (d' := abort e i disp d) i (fun j hj => by rw [abort_slot, if_neg hj])
  have h : ((abort e i disp d).slot i).inside = (d.slot i).hold.length := by
    unfold Slot.inside; rw [abort_hold, abort_outstanding]; simp
  rw [h] at c; unfold Slot.inside at c; omega

theorem answerHeld_reserved (i : SlotId) (disp : Disposition) (named : HoldEntry → Bool) (d : Plant) :
    (answerHeld e i disp named d).reserved + ((d.slot i).hold.filter named).length = d.reserved := by
  have c := Plant.reserved_change (d := d) (d' := answerHeld e i disp named d) i
    (fun j hj => by rw [answerHeld_slot, if_neg hj])
  have h : ((answerHeld e i disp named d).slot i).inside =
      ((d.slot i).hold.filter (fun h => !named h)).length + (d.slot i).outstanding.length := by
    rw [answerHeld_slot, if_pos rfl]; rfl
  have hl : ((d.slot i).hold.filter named).length + ((d.slot i).hold.filter (fun h => !named h)).length
      = (d.slot i).hold.length := by
    rw [← List.countP_eq_length_filter, ← List.countP_eq_length_filter]
    have := List.length_eq_countP_add_countP (l := (d.slot i).hold) named
    simp only [Bool.not_eq_true, Bool.decide_eq_false] at this
    omega
  rw [h] at c; unfold Slot.inside at c; omega

theorem abort_balance (i : SlotId) (disp : Disposition) (d : Plant) : d.Balance (abort e i disp d) :=
  Plant.balance_of (k := (d.slot i).outstanding.length) _ _ _ (abort_queue i disp d) (by simp) (abort_reserved i disp d)
    (answerTags_attention i disp _ d)

theorem answerHeld_balance (i : SlotId) (disp : Disposition) (named : HoldEntry → Bool) (d : Plant) :
    d.Balance (answerHeld e i disp named d) :=
  Plant.balance_of (k := ((d.slot i).hold.filter named).length) _ _ _ (answerHeld_queue i disp named d) (by simp)
    (answerHeld_reserved i disp named d) (answerTags_attention i disp _ d)

theorem completionsIn_one (q : List UpFrame) (unit tag : Byte) (disp : Disposition) (status : Byte) (payload : List Byte) :
    completionsIn (q ++ [completionFrame unit tag disp status payload]) = completionsIn q + 1 := by
  unfold completionsIn; rw [List.filter_append, List.length_append]; rfl

/-- One COMPLETION is appended and one command leaves. -/
theorem Plant.balance_one {d d' : Plant} (unit tag : Byte) (disp : Disposition) (status : Byte) (payload : List Byte)
    (hq : d'.link.queue = d.link.queue ++ [completionFrame unit tag disp status payload])
    (hr : d'.reserved + 1 = d.reserved) (ha : d'.link.attention = d.link.attention) : d.Balance d' := by
  refine ⟨?_, ?_, ha⟩
  · have := completionsIn_one d.link.queue unit tag disp status payload
    unfold Plant.accounted
    unfold completionsIn at this
    rw [hq, this]; omega
  · unfold Plant.entries; rw [hq]; simp; omega

theorem Plant.Balance.potential_le {d d' : Plant} (b : d.Balance d') : d'.potential ≤ d.potential := by
  unfold Plant.potential; rw [b.attention]; have := b.entries; omega

/-- What every move does to the accounts: the account of commands stays, the entries stay within the queue's 128, and they
rise only by the entry of an ATTENTION frame. -/
theorem Plant.Move.balance {d d' : Plant} (h : Plant.Move e d d') :
    d'.accounted = d.accounted ∧ (d.entries ≤ Config.queueEntries → d'.entries ≤ Config.queueEntries) ∧
      d'.potential ≤ d.potential := by
  have fin : ∀ {a b : Plant}, a.Balance b → b.accounted = a.accounted ∧
      (a.entries ≤ Config.queueEntries → b.entries ≤ Config.queueEntries) ∧ b.potential ≤ a.potential :=
    fun b => ⟨b.accounted, b.entries.trans, b.potential_le⟩
  cases h with
  | slot i r' k m => exact fin (Plant.balance_put k.inside)
  | queueUp i h =>
    have := Plant.balance_put (e := e) (d := d) (i := i) (r' := { d.slot i with state := .queued }) rfl
    exact fin ⟨this.accounted, this.entries, this.attention⟩
  | queueDown i h =>
    have := Plant.balance_put (e := e) (d := d) (i := i) (r' := { d.slot i with state := .stopped }) rfl
    exact fin ⟨this.accounted, this.entries, this.attention⟩
  | start i h hl hs =>
    have := Plant.balance_put (e := e) (d := d) (i := i)
      (r' := Slot.issue e i .spinUp { d.slot i with state := .starting }) rfl
    exact fin ⟨this.accounted, this.entries, this.attention⟩
  | load i h he hl hs => exact fin (Plant.balance_put rfl)
  | cease i disp r' k hs ho =>
    have b1 := Plant.balance_put (e := e) (d := d) k.inside
    have b1' : d.Balance ((d.put e i r').leaveQueue i) := ⟨b1.accounted, b1.entries, b1.attention⟩
    have b2 := abort_balance (e := e) i disp ((d.put e i r').leaveQueue i)
    have b3 := answerHeld_balance (e := e) i disp (fun _ => true) (Machine.abort e i disp ((d.put e i r').leaveQueue i))
    exact fin ⟨b3.accounted.trans (b2.accounted.trans b1'.accounted), b3.entries.trans (b2.entries.trans b1'.entries),
      b3.attention.trans (b2.attention.trans b1'.attention)⟩
  | blocks a b g ha hb hg => exact fin (Plant.balance_frame rfl rfl rfl)
  | record ev =>
    have hr : (d.record e.clock ev).reserved = d.reserved := Plant.reserved_congr (Plant.record_frame _ _ _).1
    refine ⟨?_, fun he => ?_, Plant.record_potential _ _ _⟩
    · unfold Plant.accounted
      rcases Plant.record_queue e.clock ev d with hq | ⟨hq, -⟩
      · rw [hq, hr]
      · rw [hq, hr]; simp [attentionFrame]
    · unfold Plant.entries at he ⊢
      rcases Plant.record_queue e.clock ev d with hq | ⟨hq, hf⟩
      · rw [hq, hr]; exact he
      · unfold Plant.free at hf
        rw [hq, hr]; simp; omega
  | abort i disp => exact fin (abort_balance i disp d)
  | answerHeld i disp named => exact fin (answerHeld_balance i disp named d)
  | answerHead i disp status payload h rest hh =>
    refine fin (Plant.balance_one (e.tables.unitOfSlot i) h.tag disp status payload ?_ ?_ (Link.push_attention _ _))
    · show (d.link.push _).queue = _
      rw [Link.push_queue]
    · have c := Plant.reserved_put (e := e) (d := answer e i h.tag disp status payload d) (i := i)
        (r' := { d.slot i with hold := (d.slot i).hold.tail })
      have h0 : (answer e i h.tag disp status payload d).reserved = d.reserved := Plant.reserved_congr rfl
      rw [h0, answer_slot] at c
      have h1 : ({ d.slot i with hold := (d.slot i).hold.tail } : Slot).inside + 1 = (d.slot i).inside := by
        unfold Slot.inside; rw [hh]; simp; omega
      show ((answer e i h.tag disp status payload d).put e i { d.slot i with hold := (d.slot i).hold.tail }).reserved + 1 = _
      omega
  | release i h rest hh hf =>
    refine fin (Plant.balance_put ?_)
    show (d.slot i).hold.tail.length + ((d.slot i).outstanding ++ [_]).length = _
    unfold Slot.inside; rw [hh]; simp; omega
  | complete i epoch tag status payload h =>
    refine fin (Plant.balance_one (e.tables.unitOfSlot i) tag .done status payload ?_ ?_ (Link.push_attention _ _))
    · show (d.link.push _).queue = _
      rw [Link.push_queue]
    · have c := Plant.reserved_put (e := e) (d := d) (i := i)
        (r' := { d.slot i with outstanding := (d.slot i).outstanding.eraseP (OutEntry.matches epoch tag) })
      have hl : ((d.slot i).outstanding.eraseP (OutEntry.matches epoch tag)).length + 1 = (d.slot i).outstanding.length := by
        obtain ⟨o, ho, hm⟩ := List.any_eq_true.1 h
        have := List.length_eraseP_of_mem ho hm
        have hp : 0 < (d.slot i).outstanding.length := List.length_pos_of_mem ho
        omega
      have h1 : ({ d.slot i with
          outstanding := (d.slot i).outstanding.eraseP (OutEntry.matches epoch tag) } : Slot).inside + 1
          = (d.slot i).inside := by
        show (d.slot i).hold.length + ((d.slot i).outstanding.eraseP (OutEntry.matches epoch tag)).length + 1 =
          (d.slot i).hold.length + (d.slot i).outstanding.length
        omega
      have h0 : ∀ x : Plant, (answer e i tag .done status payload x).reserved = x.reserved :=
        fun x => Plant.reserved_congr rfl
      rw [h0]; omega

/-- A sequence of moves keeps the account of commands. -/
theorem Plant.Reach.accounted {d d' : Plant} (h : Plant.Reach e d d') : d'.accounted = d.accounted :=
  h.relates (R := fun a b => b.accounted = a.accounted) (fun _ => rfl) (fun _ _ _ h1 h2 => h2.trans h1)
    (fun _ _ m => m.balance.1)

/-- A sequence of moves keeps the upstream queue within its entries. -/
theorem Plant.Reach.entries {d d' : Plant} (h : Plant.Reach e d d') (hd : d.entries ≤ Config.queueEntries) :
    d'.entries ≤ Config.queueEntries :=
  h.keeps (P := fun a => a.entries ≤ Config.queueEntries) (fun _ _ m => m.balance.2.1) hd

/-- A sequence of moves takes at most the entry of one ATTENTION frame. -/
theorem Plant.Reach.potential {d d' : Plant} (h : Plant.Reach e d d') : d'.potential ≤ d.potential :=
  h.relates (R := fun a b => b.potential ≤ a.potential) (fun _ => le_refl _) (fun _ _ _ h1 h2 => h2.trans h1)
    (fun _ _ m => m.balance.2.2)

end Sys2Proof.Machine
end

