-- ==== Sys2Proof/Laws/Calm.lean ====
section
/-! SUPPORT. What the response of the blocks leaves alone: the motion of inert slots and the lanes of those that hold no
command, the arbiter hold, the budget, and the emergency record (`react_responds`). -/

namespace Sys2Proof.Machine

variable {e : Env}

/-- A slot keeps its motion, and, holding no command, its lane. -/
structure Slot.Rests (r r' : Slot) : Prop where
  motion : r'.motion = r.motion
  lane : r.hold = [] → r'.lane = r.lane ∧ r'.hold = []

theorem Slot.Rests.rfl' (r : Slot) : r.Rests r := ⟨rfl, fun h => ⟨rfl, h⟩⟩

theorem Slot.Rests.trans {a b c : Slot} (h : a.Rests b) (g : b.Rests c) : a.Rests c :=
  ⟨g.motion.trans h.motion, fun e =>
    ⟨(g.lane (h.lane e).2).1.trans (h.lane e).1, (g.lane (h.lane e).2).2⟩⟩

/-- Every inert slot rests, and the blocks' own values stay. -/
structure Plant.Calm (d d' : Plant) : Prop where
  rests : ∀ j, (d.slot j).inert = true → (d.slot j).Rests (d'.slot j)
  hold : d'.arb.hold = d.arb.hold
  budget : d'.budget.budget = d.budget.budget
  emg : d'.emg.latched = d.emg.latched ∧ d'.emg.sources = d.emg.sources ∧ d'.emg.firstSource = d.emg.firstSource ∧
    d'.emg.firstTime = d.emg.firstTime ∧ d'.emg.cap = d.emg.cap

/-- Inertness is read from the motion. -/
theorem Slot.inert_congr {r r' : Slot} (h : r'.motion = r.motion) : r'.inert = r.inert := by
  have hs : r'.state = r.state := congrArg Slot.Motion.state h
  have hd : r'.dwell = r.dwell := congrArg Slot.Motion.dwell h
  unfold Slot.inert; rw [hs, hd]

theorem Plant.Calm.refl (d : Plant) : d.Calm d := ⟨fun _ _ => Slot.Rests.rfl' _, rfl, rfl, ⟨rfl, rfl, rfl, rfl, rfl⟩⟩

theorem Plant.Calm.trans {a b c : Plant} (h : a.Calm b) (g : b.Calm c) : a.Calm c := by
  refine ⟨fun j hj => ?_, g.hold.trans h.hold, g.budget.trans h.budget, ?_⟩
  · have h1 := h.rests j hj
    exact h1.trans (g.rests j (by rw [Slot.inert_congr h1.motion]; exact hj))
  · exact ⟨g.emg.1.trans h.emg.1, g.emg.2.1.trans h.emg.2.1, g.emg.2.2.1.trans h.emg.2.2.1,
      g.emg.2.2.2.1.trans h.emg.2.2.2.1, g.emg.2.2.2.2.trans h.emg.2.2.2.2⟩

theorem Plant.Calm.foldl {α : Type} (f : Plant → α → Plant) (hf : ∀ d x, Plant.Calm d (f d x)) :
    ∀ (l : List α) (d : Plant), Plant.Calm d (l.foldl f d)
  | [], d => .refl d
  | x :: l, d => (hf d x).trans (Plant.Calm.foldl f hf l (f d x))

/-- A change of one slot that keeps its motion, or of one that is not inert. -/
theorem Plant.Calm.one {d d' : Plant} (i : SlotId) (ho : ∀ j, j ≠ i → d'.slot j = d.slot j)
    (hi : (d.slot i).inert = true → (d.slot i).Rests (d'.slot i)) (ha : d'.arb.hold = d.arb.hold)
    (hb : d'.budget.budget = d.budget.budget) (he : d'.emg = d.emg) : d.Calm d' := by
  refine ⟨fun j hj => ?_, ha, hb, by rw [he]; exact ⟨rfl, rfl, rfl, rfl, rfl⟩⟩
  by_cases h : j = i
  · subst h; exact hi hj
  · rw [ho j h]; exact Slot.Rests.rfl' _

theorem Slot.examineCountdowns_rests {r r' : Slot} (i : SlotId) (h : r.Rests r') : r.Rests (r'.examineCountdowns e i) :=
  ⟨h.motion, h.lane⟩

theorem Plant.Calm.put {d : Plant} (i : SlotId) (r' : Slot)
    (hi : (d.slot i).inert = true → (d.slot i).Rests r') : d.Calm (d.put e i r') :=
  Plant.Calm.one i (fun _ hj => Plant.slot_put_other e hj _ _)
    (fun h => by rw [Plant.slot_put_same]; exact Slot.examineCountdowns_rests i (hi h)) rfl rfl rfl

theorem Plant.Calm.slots {d d' : Plant} (hs : d'.slots = d.slots) (ha : d'.arb.hold = d.arb.hold)
    (hb : d'.budget.budget = d.budget.budget) (he : d'.emg.latched = d.emg.latched ∧ d'.emg.sources = d.emg.sources ∧
      d'.emg.firstSource = d.emg.firstSource ∧ d'.emg.firstTime = d.emg.firstTime ∧ d'.emg.cap = d.emg.cap) :
    d.Calm d' := ⟨fun j _ => by rw [Plant.slot_congr hs]; exact Slot.Rests.rfl' _, ha, hb, he⟩

theorem record_calm (now : Clock) (ev : Event) (d : Plant) : d.Calm (d.record now ev) := by
  have h := Plant.record_frame now ev d
  exact Plant.Calm.slots h.1 (by rw [h.2.1]) (by rw [h.2.2.1]) (by rw [h.2.2.2]; exact ⟨rfl, rfl, rfl, rfl, rfl⟩)

theorem answerTags_calm (i : SlotId) (disp : Disposition) (tags : List Byte) (d : Plant) :
    d.Calm (answerTags e i disp tags d) := by
  have h := answerTags_frame (e := e) i disp tags d
  exact Plant.Calm.slots h.1 (by rw [h.2.1]) (by rw [h.2.2.1]) (by rw [h.2.2.2]; exact ⟨rfl, rfl, rfl, rfl, rfl⟩)

theorem answerHeld_calm (i : SlotId) (disp : Disposition) (named : HoldEntry → Bool) (d : Plant) :
    d.Calm (answerHeld e i disp named d) := by
  unfold answerHeld
  exact (answerTags_calm i disp _ d).trans (Plant.Calm.put i _ (fun _ => by
    simp only [answerTags_slot]; exact ⟨rfl, fun h => ⟨rfl, by simp [h]⟩⟩))

theorem dropHead_calm (i : SlotId) (d : Plant) : d.Calm (dropHead e i d) := Plant.Calm.put i _ (fun _ => ⟨rfl, fun h => ⟨rfl, by simp [h]⟩⟩)

theorem answer_calm (i : SlotId) (tag : Byte) (disp : Disposition) (status : Byte) (payload : List Byte) (d : Plant) :
    d.Calm (answer e i tag disp status payload d) := Plant.Calm.slots rfl rfl rfl ⟨rfl, rfl, rfl, rfl, rfl⟩

theorem answerEmulated_calm (i : SlotId) (tag : Byte) (d : Plant) : d.Calm (answerEmulated e i tag d) :=
  (answer_calm i tag .emulated 0 _ d).trans (dropHead_calm i _)

theorem emulationCheck_calm (i : SlotId) (d : Plant) : d.Calm (emulationCheck e i d) := by
  unfold emulationCheck
  split
  · split
    · exact answerEmulated_calm i _ d
    · exact .refl d
  · exact .refl d

theorem emulationCheck_other (i : SlotId) (d : Plant) (j : SlotId) (hj : j ≠ i) :
    (emulationCheck e i d).slot j = d.slot j := by
  unfold emulationCheck
  split
  · split
    · exact Plant.slot_put_other e hj _ _
    · rfl
  · rfl

theorem emulationCheck_arb (i : SlotId) (d : Plant) : (emulationCheck e i d).arb = d.arb := by
  unfold emulationCheck
  split
  · split <;> rfl
  · rfl

/-- Acting on the effective level touches the slot alone. -/
theorem act_other (i : SlotId) (d : Plant) (j : SlotId) (hj : j ≠ i) : (act e i d).slot j = d.slot j := by
  unfold act
  simp only
  repeat' split
  all_goals first
    | rfl
    | exact Plant.slot_put_other e hj _ _
    | exact (emulationCheck_other i _ j hj).trans (Plant.slot_put_other e hj _ _)

/-- An inert slot does not act on its effective level (R5, R10). -/
theorem act_inert (i : SlotId) (d : Plant) (h : (d.slot i).inert = true) : act e i d = d := by
  unfold Slot.inert at h
  unfold act
  simp only
  split at h <;> rename_i hs <;> simp only [hs]
  · rw [if_neg]
    rintro ⟨-, hd⟩
    rw [hd] at h; exact absurd h (by simp)
  all_goals exact absurd h (by simp)

theorem act_hold (i : SlotId) (d : Plant) : (act e i d).arb.hold = d.arb.hold := by
  unfold act
  simp only
  repeat' split
  all_goals first
    | rfl
    | (rw [emulationCheck_arb]; rfl)

theorem act_calm (i : SlotId) (d : Plant) : d.Calm (act e i d) :=
  Plant.Calm.one i (act_other i d) (fun h => by rw [act_inert i d h]; exact Slot.Rests.rfl' _) (act_hold i d) (by rw [(act_blocks i d).1])
    (act_blocks i d).2

theorem actIfChanged_calm (i : SlotId) (old : Level) (d : Plant) : d.Calm (actIfChanged e i old d) := by
  unfold actIfChanged; split
  · exact .refl d
  · exact act_calm i d

theorem Slot.suspend_rests (r : Slot) : r.Rests (r.suspend e) := by
  unfold Slot.suspend
  simp only
  split
  · exact ⟨rfl, fun h => ⟨rfl, by simp [Slot.freezeHold, h]⟩⟩
  · exact ⟨rfl, fun h => ⟨rfl, h⟩⟩

theorem settleSuspension_calm (i : SlotId) (d : Plant) : d.Calm (settleSuspension e i d) := by
  unfold settleSuspension
  simp only
  split
  · exact .refl d
  · split
    · split
      · exact .refl d
      · split
        · exact (Plant.Calm.put i _ (fun _ => Slot.suspend_rests _)).trans (answerHeld_calm i _ _ _)
        · exact Plant.Calm.put i _ (fun _ => Slot.suspend_rests _)
    · split
      · exact Plant.Calm.put i _ (fun _ => ⟨rfl, fun h => ⟨rfl, by simp [Slot.endByLowering, Slot.resumeHold, h]⟩⟩)
      · exact .refl d

theorem writeRequested_calm (i : SlotId) (lv : Level) (pin : Bool) (d : Plant) :
    d.Calm (writeRequested e i lv pin d) := by
  unfold writeRequested
  refine Plant.Calm.trans ?_ (settleSuspension_calm i _)
  refine Plant.Calm.trans ?_ (actIfChanged_calm i _ _)
  exact Plant.Calm.put i _ (fun _ => ⟨rfl, fun h => ⟨rfl, h⟩⟩)

theorem writeBudgetCap_calm (i : SlotId) (cap : BudgetCap) (d : Plant) : d.Calm (writeBudgetCap e i cap d) := by
  unfold writeBudgetCap
  refine Plant.Calm.trans ?_ (actIfChanged_calm i _ _)
  exact Plant.Calm.put i _ (fun _ => ⟨rfl, fun h => ⟨rfl, h⟩⟩)

theorem recommit_calm (d : Plant) : d.Calm (recommit e d) := by
  unfold recommit
  exact Plant.Calm.slots rfl rfl rfl ⟨rfl, rfl, rfl, rfl, rfl⟩

theorem refreshArbiter_calm (d : Plant) : d.Calm (refreshArbiter e d) := by
  unfold refreshArbiter
  exact Plant.Calm.slots rfl rfl rfl ⟨rfl, rfl, rfl, rfl, rfl⟩

theorem grantLoad_calm (i : SlotId) (d : Plant) : d.Calm (grantLoad e i d) := by
  unfold grantLoad
  simp only
  split
  · rename_i h
    refine Plant.Calm.trans ?_ (recommit_calm _)
    refine Plant.Calm.put i _ (fun hi => ?_)
    have hs : (d.slot i).state = .spun := h.1
    unfold Slot.inert at hi; rw [hs] at hi; exact absurd hi (by simp)
  · refine Plant.Calm.trans ?_ (act_calm i _)
    exact Plant.Calm.put i _ (fun _ => ⟨rfl, fun h => ⟨rfl, h⟩⟩)

theorem serveLoad_calm (d : Plant) (i : SlotId) : d.Calm (serveLoad e d i) := by
  unfold serveLoad; split
  · exact grantLoad_calm i d
  · exact .refl d

theorem enterFaulted_other (i : SlotId) (reason : FaultReason) (code : Option Byte) (d : Plant) (j : SlotId) (hj : j ≠ i) :
    (enterFaulted e i reason code d).slot j = d.slot j := by
  unfold enterFaulted
  simp only
  rw [Plant.record_slot, answerAll_slot_other hj, Plant.slot_leaveQueue, Plant.slot_put_other e hj]

theorem answerAll_blocks (i : SlotId) (disp : Disposition) (d : Plant) :
    (answerAll e i disp d).arb = d.arb ∧ (answerAll e i disp d).budget = d.budget ∧ (answerAll e i disp d).emg = d.emg := by
  unfold answerAll; simp

theorem enterFaulted_blocks (i : SlotId) (reason : FaultReason) (code : Option Byte) (d : Plant) :
    (enterFaulted e i reason code d).arb.hold = d.arb.hold ∧ (enterFaulted e i reason code d).budget = d.budget ∧
      (enterFaulted e i reason code d).emg = d.emg := by
  unfold enterFaulted
  simp only [Plant.record_arb, Plant.record_budget, Plant.record_emg, (answerAll_blocks i _ _).1,
    (answerAll_blocks i _ _).2.1, (answerAll_blocks i _ _).2.2]
  exact ⟨rfl, rfl, rfl⟩

theorem takeOvercurrent_other (i : SlotId) (d : Plant) (j : SlotId) (hj : j ≠ i) :
    (takeOvercurrent e i d).slot j = d.slot j := by
  unfold takeOvercurrent; split
  · exact enterFaulted_other i _ _ d j hj
  · rfl

theorem takeOvercurrent_blocks (i : SlotId) (d : Plant) :
    (takeOvercurrent e i d).arb.hold = d.arb.hold ∧ (takeOvercurrent e i d).budget = d.budget ∧
      (takeOvercurrent e i d).emg = d.emg := by
  unfold takeOvercurrent; split
  · exact enterFaulted_blocks i _ _ d
  · exact ⟨rfl, rfl, rfl⟩

/-- A slot that is not inert is granted its start. -/
theorem started_calm (i : SlotId) (d : Plant) (hq : (d.slot i).state = .queued) : d.Calm (d.started e i) := by
  unfold Plant.started
  refine Plant.Calm.trans (Plant.Calm.put (e := e) i (Slot.issue e i .spinUp { d.slot i with state := .starting })
    (fun hi => ?_)) ?_
  · unfold Slot.inert at hi; rw [hq] at hi; exact absurd hi (by simp)
  · unfold Plant.leaveQueue
    exact Plant.Calm.slots rfl rfl rfl ⟨rfl, rfl, rfl, rfl, rfl⟩

/-- An overcurrent taken at a motor-enabled slot, which is not inert unless its heads or spindle are coming to rest. -/
theorem takeOvercurrent_calm (i : SlotId) (d : Plant) (hq : (d.slot i).inert = false) : d.Calm (takeOvercurrent e i d) :=
  Plant.Calm.one i (takeOvercurrent_other i d) (fun h => by rw [hq] at h; exact absurd h (by simp))
    (takeOvercurrent_blocks i d).1 (by rw [(takeOvercurrent_blocks i d).2.1]) (takeOvercurrent_blocks i d).2.2

theorem started_state (i : SlotId) (d : Plant) : ((d.started e i).slot i).state = .starting := by
  unfold Plant.started
  rw [Plant.slot_leaveQueue, Plant.slot_put_same, Slot.examineCountdowns_state]
  rfl

theorem refreshArbiter_slot (d : Plant) (j : SlotId) : (refreshArbiter e d).slot j = d.slot j :=
  Plant.slot_congr (refreshArbiter_slots e d) j
theorem recommit_slot (d : Plant) (j : SlotId) : (recommit e d).slot j = d.slot j :=
  Plant.slot_congr (recommit_slots e d) j

theorem grantStart_calm (i : SlotId) (d : Plant) (hq : (d.slot i).state = .queued) : d.Calm (grantStart e i d) := by
  have key : ∀ d1 : Plant, d.Calm d1 → (d1.slot i).state = .starting → ∀ a : Arbiter, a.hold = d1.arb.hold →
      d.Calm (refreshArbiter e (recommit e (takeOvercurrent e i (refreshArbiter e (recommit e { d1 with arb := a }))))) := by
    intro d1 h1 hs a ha
    refine Plant.Calm.trans ?_ (refreshArbiter_calm _)
    refine Plant.Calm.trans ?_ (recommit_calm _)
    refine Plant.Calm.trans ?_ (takeOvercurrent_calm i _ ?_)
    · refine Plant.Calm.trans ?_ (refreshArbiter_calm _)
      refine Plant.Calm.trans ?_ (recommit_calm _)
      exact h1.trans (Plant.Calm.slots rfl ha rfl ⟨rfl, rfl, rfl, rfl, rfl⟩)
    · rw [refreshArbiter_slot, recommit_slot, Plant.slot_arb]
      unfold Slot.inert; rw [hs]
  unfold grantStart
  exact key (d.started e i) (started_calm i d hq) (started_state i d) _ rfl

theorem serveStart_calm (d : Plant) : d.Calm (serveStart e d) := by
  unfold serveStart
  split
  · split
    · rename_i hc
      simp only [Bool.and_eq_true, decide_eq_true_eq] at hc
      exact grantStart_calm _ d hc.2
    · exact .refl d
  · exact .refl d

theorem servePass_calm (d : Plant) : d.Calm (servePass e d) := by
  unfold servePass
  split
  · exact .refl d
  · exact (Plant.Calm.foldl _ serveLoad_calm _ d).trans (serveStart_calm _)

theorem takeVictims_calm (d : Plant) : d.Calm (takeVictims e d) := by
  refine Plant.Calm.foldl _ (fun d i => ?_) _ d
  unfold takeVictim; split
  · exact writeBudgetCap_calm i _ d
  · exact .refl d

theorem shedReact_calm (d : Plant) : d.Calm (shedReact e d) := by
  have flag : ∀ b, d.Calm { d with budget := { d.budget with shed := b } } :=
    fun b => Plant.Calm.slots rfl rfl rfl ⟨rfl, rfl, rfl, rfl, rfl⟩
  unfold shedReact
  repeat' split
  · unfold endShed
    exact ((flag false).trans (record_calm _ _ _)).trans (Plant.Calm.foldl _ (fun d i => writeBudgetCap_calm i _ d) _ _)
  · exact takeVictims_calm d
  · exact .refl d
  · unfold beginShed
    exact ((flag true).trans (takeVictims_calm _)).trans (record_calm _ _ _)
  · exact .refl d

theorem budgetReact_calm (d : Plant) : d.Calm (budgetReact e d) := by
  unfold budgetReact
  exact ((((recommit_calm d).trans (refreshArbiter_calm _)).trans (shedReact_calm _)).trans
    (refreshArbiter_calm _)).trans (servePass_calm _)

theorem Slot.markHead_rests (r : Slot) : r.Rests r.markHead := by
  unfold Slot.markHead; split
  · rename_i hh; exact ⟨rfl, fun h => by rw [h] at hh; simp at hh⟩
  · exact Slot.Rests.rfl' r
theorem Slot.markEmulating_rests (r : Slot) : r.Rests r.markEmulating := by
  unfold Slot.markEmulating; split
  · rename_i hh; exact ⟨rfl, fun h => by rw [h] at hh; simp at hh⟩
  · exact Slot.Rests.rfl' r

theorem Slot.forward_motion (tag : Byte) (payload : List Byte) (r : Slot) : (r.forward e tag payload).motion = r.motion := by
  unfold Slot.forward Lane.begin
  simp only
  split
  · rfl
  · split
    · rfl
    · split <;> rfl

theorem headStep_calm (i : SlotId) (d d' : Plant) (h : headStep e i d = some d') : d.Calm d' := by
  unfold headStep at h
  split at h
  · simp at h
  · rename_i x rest hh
    split at h
    · injection h with h; subst h
      unfold becomeHead
      have m : d.Calm (d.put e i (d.slot i).markHead) := Plant.Calm.put i _ (fun _ => Slot.markHead_rests _)
      simp only
      split
      · exact m
      · split
        · exact m.trans (writeRequested_calm i _ _ _)
        · exact m.trans ((answer_calm i _ _ _ _ _).trans (dropHead_calm i _))
    · split at h
      · split at h
        · simp at h
        · injection h with h; subst h
          have m : d.Calm (writeRequested e i x.requirement false (d.put e i (d.slot i).markEmulating)) :=
            (Plant.Calm.put i _ (fun _ => Slot.markEmulating_rests _)).trans (writeRequested_calm i _ _ _)
          unfold trapAct
          simp only
          split
          · exact answerEmulated_calm i _ d
          · exact answerEmulated_calm i _ d
          all_goals
            split
            · exact m.trans (emulationCheck_calm i _)
            · exact m
      · split at h
        · injection h with h; subst h
          exact Plant.Calm.put i _ (fun _ => ⟨Slot.forward_motion _ _ _, fun h => by rw [hh] at h; simp at h⟩)
        · simp at h

theorem headLoop_calm (i : SlotId) : ∀ (n : Nat) (d : Plant), d.Calm (headLoop e i n d)
  | 0, d => .refl d
  | n + 1, d => by
    unfold headLoop
    split
    · exact .refl d
    · rename_i d' h
      exact (headStep_calm i d d' h).trans (headLoop_calm i n d')

theorem serveHead_calm (i : SlotId) (d : Plant) : d.Calm (serveHead e i d) := headLoop_calm i _ d

theorem react_calm (d : Plant) : d.Calm (react e d) := by
  unfold react
  have h1 : ∀ d : Plant, d.Calm (serveHeads e d) := fun d => Plant.Calm.foldl _ (fun d i => serveHead_calm i d) _ d
  have h2 : ∀ d : Plant, d.Calm (examinePhase e d) := fun d => by
    unfold examinePhase; split
    · refine Plant.Calm.trans ?_ (record_calm _ _ _)
      exact Plant.Calm.slots rfl rfl rfl ⟨rfl, rfl, rfl, rfl, rfl⟩
    · exact .refl d
  have h3 : ∀ d : Plant, d.Calm (refreshSettle e d) := fun d => by
    unfold refreshSettle; split
    · split
      · exact .refl d
      · exact Plant.Calm.slots rfl rfl rfl ⟨rfl, rfl, rfl, rfl, rfl⟩
    · exact Plant.Calm.slots rfl rfl rfl ⟨rfl, rfl, rfl, rfl, rfl⟩
  exact (((((budgetReact_calm d).trans (h1 _)).trans (budgetReact_calm _)).trans (h1 _)).trans (h2 _)).trans (h3 _)

/-- The one lemma on `react` that later proofs cite. -/
theorem react_responds (d : Plant) : d.Responds (react e d) :=
  let c := react_calm (e := e) d
  let s := (react_reach (e := e) d).shape
  ⟨fun j h => (c.rests j h).motion, fun j h g => (c.rests j h).lane g, c.hold, ⟨s.powerState, c.budget⟩, c.emg, s.slots, s.prefix_, s.events⟩

end Sys2Proof.Machine
end

