-- ==== Sys2Proof/Tests/Slice0.lean ====
section
/-! SUPPORT. Smoke tests of the well-formedness check, small tests of commands and layouts, and a witness for the hypotheses of
each statement. -/

namespace Sys2Proof.Tests

set_option Elab.async false

open Sys2Proof.Machine

/-! ### Well-formedness: an ill-formed term for each check -/

theorem test_wf_command : (Instr.command ⟨15, 1, List.replicate 48 0⟩).wellFormed = true := by decide
theorem test_wf_commandUnit : (Instr.command ⟨16, 1, [0]⟩).wellFormed = false := by decide
theorem test_wf_commandEmpty : (Instr.command ⟨0, 1, []⟩).wellFormed = false := by decide
theorem test_wf_commandLong : (Instr.command ⟨0, 1, List.replicate 49 0⟩).wellFormed = false := by decide
theorem test_wf_request : (Instr.stageWrite ⟨1, List.replicate 63 0⟩).wellFormed = true := by decide
theorem test_wf_requestLong : (Instr.stageWrite ⟨1, List.replicate 64 0⟩).wellFormed = false := by decide
theorem test_wf_unknownCode : (Instr.unknownRequest 0x05 ⟨1, []⟩).wellFormed = true := by decide
theorem test_wf_knownCode : (Instr.unknownRequest 0x30 ⟨1, []⟩).wellFormed = false := by decide
theorem test_wf_unknownLong : (Instr.unknownRequest 0x05 ⟨1, List.replicate 64 0⟩).wellFormed = false := by decide
theorem test_wf_completionLong : (Instr.sledCompletion 0 0 0 0 (List.replicate 49 0)).wellFormed = false := by decide
theorem test_wf_sample : (Instr.sample 16000 0xC180 0).wellFormed = true := by decide
theorem test_wf_sampleX : (Instr.sample 16001 0 0).wellFormed = false := by decide
theorem test_wf_sampleY : (Instr.sample 0 0xC17F 0).wellFormed = false := by decide
theorem test_wf_sampleZ : (Instr.sample 0 0 0x8000).wellFormed = false := by decide

/-! ### States for the tests -/

/-- The state after reset with one slot's record replaced. -/
def withSlot (i : SlotId) (r : Slot) : State :=
  { State.reset with plant := { State.reset.plant with slots := State.reset.plant.slots.set i.val r i.isLt } }

/-- A seated slot in a state, every level at LOAD. -/
def seated (st : SlotState) : Slot :=
  { Slot.reset true false with state := st, requested := .load, transitCap := .load, transitDisposition := .hold }

/-- The state that a command leaves. -/
def after (c : Instr) (s : State) : State :=
  match exec c s with
  | .next t => t
  | .fault _ => s
  | .refused _ => s

/-- A record for the event list. -/
def someRecord : EventRecord := ⟨0, .sensorRestored⟩

/-- An upstream frame. -/
def someFrame : UpFrame := attentionFrame

/-- The state after reset with its case link changed. -/
def withLink (f : Link → Link) : State := { State.reset with plant := { State.reset.plant with link := f Link.reset } }

/-- The state after reset with a staging buffer. -/
def withStaged (g : Staged) : State := { State.reset with staging := some g }

/-- The state after reset at a later time. -/
def later (ms : Clock) (s : State) : State := { s with clock := ms }

/-- A held entry of class MEDIA. -/
def heldRead (tag : Byte) : HoldEntry := ⟨tag, .media, .load, [0], .running ⟨0, 100⟩, none, false, false⟩

/-- The conditions under which a downstream frame is taken, computed. -/
def mayTake (s : State) : Bool := !s.plant.link.broken && decide (Config.acceptFree ≤ s.plant.free)

theorem accepts_of_mayTake {s : State} (h : mayTake s = true) : s.accepts := by
  unfold mayTake at h
  simp only [Bool.and_eq_true, Bool.not_eq_true', decide_eq_true_eq] at h
  exact h

theorem reset_accepts : State.reset.accepts := accepts_of_mayTake (by decide +kernel)

/-! ### Layouts -/

theorem test_check16 : check16 [0x31, 0x32, 0x33, 0x34, 0x35, 0x36, 0x37, 0x38, 0x39] = 0xD64E := by decide +kernel
theorem test_emptyWord : decodeTableWord 16 0 = none := by decide
theorem test_withFetchWord : (State.reset.withFetchWord 16 0).pending = [] := by decide
theorem test_receiveCommand :
    receiveLink true (wireFrame 0x01 3 7 0 [0x28, 0]) = .command ⟨3, 7, [0x28, 0]⟩ := by decide +kernel
theorem test_receiveRequest : receiveLink true (wireFrame 0x02 0xFF 7 3 [0x04, 5]) = .eventRead ⟨7, [5]⟩ := by decide +kernel
theorem test_receiveReadyLow :
    receiveLink false (wireFrame 0x02 0xFF 7 3 [0x04, 5]) = .downstreamFrameDiscarded .readyLow := by decide +kernel
theorem test_receiveBadCheck :
    receiveLink true ((wireFrame 0x02 0xFF 7 3 [0x04, 5]).set 6 6) = .downstreamFrameDiscarded .checkFails := by decide +kernel
theorem test_receiveBadUnit :
    receiveLink true (wireFrame 0x01 16 7 0 [0]) = .downstreamFrameDiscarded .unitUnsuited := by decide +kernel
theorem test_receiveBadLength :
    receiveLink true (wireFrame 0x01 0 7 0 []) = .downstreamFrameDiscarded .lengthUnsuited := by decide +kernel
theorem test_receiveBadKind :
    receiveLink true (wireFrame 0x81 0 7 0 [0]) = .downstreamFrameDiscarded .kindNotDownstream := by decide +kernel
theorem test_receiveShort : receiveLink true [1, 2, 3] = .downstreamFrameDiscarded .malformed := by decide +kernel
theorem test_receiveReport :
    receiveLane 2 (wireFrame 0x90 0 0 0 [5, 0, 0, 1]) = .report 2 5 .done 0 .atSpeed := by decide +kernel
theorem test_receiveLaneJunk : receiveLane 2 (wireFrame 0x90 0 0 0 [5, 0, 0, 4]) = .laneFrameDiscarded 2 := by decide +kernel
theorem test_receiveSample :
    receiveSample ([0, 0, 0, 0, 0x03, 0xE8] ++ be16 (check16 [0, 0, 0, 0, 0x03, 0xE8]).toNat) = .sample 0 0 1000 := by
  decide +kernel
theorem test_orderFrame :
    (LaneFrame.order (.spinDown true) 9).wire.take 8 = [0x10, 0, 0, 0, 3, 2, 9, 1] := by decide +kernel
theorem test_eventBytes :
    (EventRecord.bytes ⟨0x01020304, .sledRemoved 5 .loaded⟩) = [1, 2, 3, 4, 2, 5, 6, 0, 0, 0, 0, 0] := by decide +kernel
theorem test_magnitude : magnitudeOf 16000 (-16000) 16000 = 27712 := by decide +kernel

/-! ### Commands -/

theorem test_powerOnReset : after .powerOnReset State.reset = State.reset := by decide +kernel
theorem test_tick : (step State.reset matches .next _) = true := by decide +kernel
theorem test_presenceEdge :
    ((after (.presenceEdge 3 true) State.reset).plant.slot 3).presenceFilter = some ⟨0, 200⟩ := by decide +kernel
theorem test_insertion :
    let t := after (.insertion 3) (later 200 (after (.presenceEdge 3 true) State.reset))
    ((t.plant.slot 3).state, (t.plant.slot 3).dwell) = (.stopped, some ⟨200, 5000⟩) := by decide +kernel
theorem test_removal :
    ((after (.removal 0) (withSlot 0 { seated .spun with presenceFilter := some ⟨0, 0⟩ })).plant.slot 0).state = .empty := by
  decide +kernel
theorem test_removalFlags :
    let t := after (.removal 0) (withSlot 0 { seated .loaded with
      outstanding := [⟨7, 0, 0⟩], presenceFilter := some ⟨0, 0⟩ })
    (t.plant.link.tx, t.plant.link.queue.map UpFrame.kind) = (some 1, [.completion, .attention]) := by decide +kernel
theorem test_unitQuery :
    (after (.unitQuery ⟨9, []⟩) State.reset).plant.link.queue =
      [⟨.unitReply, 255, 9, [1, 0, 0x4B, 0x16, 1, 16, 16, 48, 12, 4, 128, 32, 64, 8, 8, 4]⟩] := by decide +kernel
theorem test_unknownRequest :
    (after (.unknownRequest 5 ⟨9, []⟩) State.reset).plant.link.queue = [⟨.unitReply, 255, 9, [5, 1]⟩] := by decide +kernel
theorem test_commandNoSled :
    (after (.command ⟨2, 7, [0]⟩) State.reset).plant.link.queue = [⟨.completion, 2, 7, [3, 0]⟩] := by decide +kernel
theorem test_commandForwarded :
    ((after (.command ⟨2, 7, [0]⟩) (withSlot 2 (seated .loaded))).plant.slot 2).outstanding = [⟨7, 0, 0⟩] := by decide +kernel
theorem test_motionStarts :
    ((after (.motion ⟨1, [0, 1, 0xFF, 0xFE, 1, 0]⟩) (withSlot 0 { seated .stopped with requested := .stop })).plant.slot 0).state
      = .starting := by decide +kernel
theorem test_report :
    ((after (.report 0 0 .done 0 .atSpeed)
      (withSlot 0 { seated .starting with lane := { Lane.reset with inFlight := some ⟨.spinUp, 0, ⟨0, 20000⟩⟩ } })).plant.slot 0).state
      = .loading := by decide +kernel
theorem test_sledFault :
    ((after (.fault 0 4) (withSlot 0 (seated .loaded))).plant.slot 0).unloadMark = .fault := by decide +kernel
theorem test_overcurrent : ((after (.overcurrent 0 true) (withSlot 0 (seated .spun))).plant.slot 0).state = .faulted := by
  decide +kernel
theorem test_panicPark :
    let t := after (.panicPark ⟨1, []⟩) (withSlot 0 (seated .loaded))
    ((t.plant.slot 0).unloadMark, t.plant.emg.phase) = (.emergency, some .parking) := by decide +kernel
theorem test_panicParkKeepsCountdown :
    ((after (.panicPark ⟨1, []⟩) (withSlot 0 { seated .loaded with
      outstanding := [⟨7, 0, 0⟩], idleUnload := .frozen 900 })).plant.slot 0).idleUnload = .frozen 900 := by decide +kernel
theorem test_stageWrite :
    (after (.stageWrite ⟨1, [7, 2, 0, 80]⟩) State.reset).staging = some ⟨.budgets, 2, [0, 80]⟩ := by decide +kernel
theorem test_commit :
    (after (.commit ⟨1, [7, 2, 3] ++ be16 (check16 [0, 80]).toNat⟩) (withStaged ⟨.budgets, 2, [0, 80]⟩)).tables.budgets =
      [0, 200, 0, 80, 0, 30] := by decide +kernel
theorem test_lineBreak : (after .lineBreak State.reset).plant.link.broken = true := by decide +kernel
theorem test_powerLine :
    (after (.powerLineEdge .fail true) State.reset).power.fail = ⟨true, false, some ⟨0, 10⟩⟩ := by decide +kernel
theorem test_sample : (after (.sample 0 0 1000) State.reset).monitor.window = [⟨0, 0, 1000, 1000, 0⟩] := by decide +kernel

/-! ### Witnesses: states and operands that meet the hypotheses of the statements, clause by clause -/

theorem witness_StepOnEmptyQueue :
    (State.reset.pending = [] ∧ State.reset.dueExpiries = []) ∧
      (later 50 State.reset).pending = [] ∧ (later 50 State.reset).dueExpiries = [.sensorTimeout] := by decide +kernel

theorem witness_FramesOfCommands : ∃ c s t, exec c s = .next t ∧ c ≠ .powerOnReset ∧ actsOnMonitor c = false ∧
    (∀ r, c ≠ .commit r) ∧ (∀ r, c ≠ .stageWrite r) ∧ (∀ i, c ≠ .insertion i) :=
  ⟨.staggerExpiry, State.reset, State.reset, by rfl, by decide, by decide, fun _ h => (by cases h), fun _ h => (by cases h),
    fun _ h => (by cases h)⟩

theorem witness_CommandRefusedAtArrival :
    State.reset.accepts ∧ (CommandFrame.mk 15 7 [0]).wellFormed = true ∧
      ({ State.reset with tables := { Tables.reset with logicalMap := List.replicate 16 0 } } : State).tables.slotOfUnit 15 = none ∧
      (withSlot 15 (seated .empty)).tables.slotOfUnit 15 = some 15 ∧
      ((withSlot 15 (seated .empty)).plant.slot 15).state = .empty ∧
      ((withSlot 15 (seated .faulted)).plant.slot 15).state = .faulted ∧
      (seated .loaded).state ≠ .empty ∧ (seated .loaded).state ≠ .faulted ∧
      (∃ o ∈ ({ seated .loaded with outstanding := [⟨7, 0, 0⟩] } : Slot).outstanding, o.tag = 7) ∧
      (∃ h ∈ ({ seated .loaded with hold := [heldRead 7] } : Slot).hold, h.tag = 7) ∧
      ({ seated .loaded with transitDisposition := .refuse, transitCap := .spin } : Slot).transitCap.rank <
        (requirementOf (Tables.reset.cmdClass 0) (actionOf Tables.reset 0)).rank :=
  ⟨reset_accepts, by decide +kernel⟩

theorem witness_CommandForwarded : ∃ (s : State) (f : CommandFrame), s.accepts ∧ f.wellFormed = true ∧
    s.tables.slotOfUnit f.unit.toNat = some 0 ∧ (s.plant.slot 0).state ≠ .empty ∧ (s.plant.slot 0).state ≠ .faulted ∧
    (s.plant.slot 0).hold = [] ∧ (s.plant.slot 0).outstanding.length = 3 ∧ (s.plant.slot 0).serves .load = true ∧
    (s.plant.slot 0).draining = false ∧ s.tables.cmdClass (f.payload.headD 0) = .media :=
  ⟨withSlot 0 { seated .loaded with outstanding := [⟨1, 0, 0⟩, ⟨2, 0, 0⟩, ⟨3, 0, 0⟩] }, ⟨0, 7, [0]⟩,
    accepts_of_mayTake (by decide +kernel), by decide +kernel⟩

theorem witness_CommandHeld : ∃ (s : State) (f : CommandFrame), s.accepts ∧ f.wellFormed = true ∧
    s.tables.slotOfUnit f.unit.toNat = some 0 ∧ (s.plant.slot 0).state ≠ .empty ∧ (s.plant.slot 0).state ≠ .faulted ∧
    (s.plant.slot 0).outstanding.length = 4 ∧ s.plant.poolUsed < 48 ∧
    (s.plant.slot 0).hold.length < s.tables.holdListLimit 0 :=
  ⟨withSlot 0 { seated .loaded with outstanding := [⟨1, 0, 0⟩, ⟨2, 0, 0⟩, ⟨3, 0, 0⟩, ⟨4, 0, 0⟩] }, ⟨0, 7, [0]⟩,
    accepts_of_mayTake (by decide +kernel), by decide +kernel⟩

theorem witness_CommandHoldFull : ∃ (s : State) (f : CommandFrame), s.accepts ∧ f.wellFormed = true ∧
    s.tables.slotOfUnit f.unit.toNat = some 0 ∧ (s.plant.slot 0).state ≠ .empty ∧ (s.plant.slot 0).state ≠ .faulted ∧
    (s.plant.slot 0).hold.length = s.tables.holdListLimit 0 :=
  ⟨withSlot 0 { seated .stopped with hold := [heldRead 1, heldRead 2, heldRead 3, heldRead 4, heldRead 5, heldRead 6] },
    ⟨0, 7, [0]⟩, accepts_of_mayTake (by decide +kernel), by decide +kernel⟩

theorem witness_LinkErrorFlag : State.reset.plant.link.broken = false ∧ State.reset.accepts :=
  ⟨by decide, reset_accepts⟩

theorem witness_BreakAndItsEnd :
    State.reset.plant.link.broken = false ∧ (withLink Link.takeBreak).plant.link.broken = true := by decide +kernel

theorem witness_UpstreamFrameSentNext :
    (withLink (fun l => (l.push someFrame).begin)).plant.link.tx = some 0 ∧ State.reset.plant.link.tx = none ∧
      (after .upstreamFrameSent (withLink (fun l => { l with queue := List.replicate 114 someFrame, tx := some 0 }))).plant.free = 15 ∧
      (after .upstreamFrameSent (withLink (fun l => { l with queue := List.replicate 97 someFrame, tx := some 0 }))).plant.free = 32 ∧
      (after .upstreamFrameSent (withLink (fun l => { l with queue := List.replicate 113 someFrame, tx := some 0 }))).plant.free = 16 ∧
      (after .upstreamFrameSent (withLink (fun l => { l with queue := List.replicate 98 someFrame, tx := some 0 }))).plant.free = 31 := by
  decide +kernel

theorem witness_EventAppended :
    (withLink (fun l => { l with events := List.replicate 31 someRecord })).plant.link.events.length < 32 ∧
      32 ≤ (withLink (fun l => { l with events := List.replicate 32 someRecord })).plant.link.events.length := by decide +kernel

theorem witness_RequestRefused : State.reset.accepts ∧ (Request.mk 1 (List.replicate 63 0)).wellFormed = true ∧
    knownRequestCodes.contains 0x05 = false ∧ ([0] : List Byte).length + 1 ≠ 1 ∧ ([0, 0] : List Byte).length + 1 < 4 ∧
    BitVec.ofNat 16 (u16At [0, 1, 0xFF, 0xFF, 0, 0] 2) ≠ ~~~ (BitVec.ofNat 16 (u16At [0, 1, 0xFF, 0xFF, 0, 0] 0)) ∧
    BitVec.ofNat 16 (u16At [0, 1, 0xFF, 0xFF] 2) ≠ ~~~ (BitVec.ofNat 16 (u16At [0, 1, 0xFF, 0xFF] 0)) :=
  ⟨reset_accepts, by decide +kernel⟩

theorem witness_ReadRequestsAnswered : State.reset.accepts ∧ State.reset.staging = none ∧
    (withStaged ⟨.unit, 0, [1]⟩).staging = some ⟨.unit, 0, [1]⟩ ∧ 7 < (8 : Byte).toNat ∧ TableId.ofCode 7 = some .budgets ∧
    (1 ≤ (60 : Byte).toNat ∧ (60 : Byte).toNat ≤ 60 ∧ (196 : Byte).toNat + (60 : Byte).toNat - 1 < TableId.classMap.size) ∧
    ¬(0 + (7 : Byte).toNat - 1 < TableId.budgets.size) ∧ ¬((61 : Byte).toNat ≤ 60) ∧ ¬(1 ≤ (0 : Byte).toNat) :=
  ⟨reset_accepts, by decide +kernel⟩

theorem witness_UnitStatusReply : State.reset.accepts := reset_accepts

theorem witness_SlotStatusReply : State.reset.accepts ∧ 15 < (16 : Byte).toNat ∧ 1 < (2 : Byte).toNat ∧
    (15 : Byte).toNat = (15 : SlotId).val := ⟨reset_accepts, by decide⟩

theorem witness_EventReadReply : State.reset.accepts ∧ (0 : Byte).toNat < 1 ∧ 5 < (6 : Byte).toNat ∧
    (1 ≤ (1 : Byte).toNat ∧ (1 : Byte).toNat ≤ 5) ∧ (1 ≤ (5 : Byte).toNat ∧ (5 : Byte).toNat ≤ 5) :=
  ⟨reset_accepts, by decide⟩

theorem witness_MotionRequestTaken : State.reset.accepts ∧
    (reqMaskOk ⟨1, [0x80, 1, 0x7F, 0xFE, 3, 0]⟩ = true ∧ 2 < u8At [0x80, 1, 0x7F, 0xFE, 3, 0] 4) ∧
    (reqMaskOk ⟨1, [0x80, 1, 0x7F, 0xFE, 2, 2]⟩ = true ∧ 1 < u8At [0x80, 1, 0x7F, 0xFE, 2, 2] 5) ∧
    (Level.ofCode (u8At [0x80, 1, 0x7F, 0xFE, 2, 1] 4) = some .load ∧ u8At [0x80, 1, 0x7F, 0xFE, 2, 1] 5 ≤ 1) :=
  ⟨reset_accepts, by decide +kernel⟩

theorem witness_SlotRecoverTaken : (withSlot 15 (seated .faulted)).accepts ∧ 15 < (16 : Byte).toNat ∧
    (15 : Byte).toNat = (15 : SlotId).val ∧ ((withSlot 15 (seated .faulted)).plant.slot 15).state = .faulted ∧
    (State.reset.plant.slot 15).state ≠ .faulted ∧ (withSlot 15 (seated .faulted)).plant.link.events.length < 32 :=
  ⟨accepts_of_mayTake (by decide +kernel), by decide +kernel⟩

/-- Slots on which a changed effective level acts, and on which it does not. -/
theorem witness_MotionRequestTaken_levels : (seated .starting).effective = .load ∧
    ({ seated .starting with requested := .stop } : Slot).effective = .stop ∧ (seated .stopped).dwell = none ∧
    ({ seated .stopped with dwell := some ⟨0, 5⟩ } : Slot).dwell ≠ none ∧
    ({ seated .loaded with requested := .spin } : Slot).effective ≠ .load ∧ (seated .loaded).draining = false ∧
    (seated .loaded).outstanding = [] ∧
    ({ seated .loaded with draining := true, outstanding := [⟨7, 0, 0⟩] } : Slot).outstanding ≠ [] := by decide

theorem witness_StartHoldAndRelease : State.reset.accepts := reset_accepts

theorem witness_StartClearTaken : State.reset.accepts ∧
    ((withSlot 0 (seated .queued)).plant.slot 0).state = .queued ∧
    ((withSlot 0 (seated .queued)).plant.slot 0).effective ≠ .stop ∧
    ({ heldRead 7 with cls := .trap, requirement := .stop, action := some .toStop, emulating := true } : HoldEntry).requirement
      = .stop := ⟨reset_accepts, by decide +kernel⟩

/-- A latched state. -/
def latched (phase : EmgPhase) (cap : EmergencyCap) (r : Slot) : State :=
  { withSlot 0 r with plant := { (withSlot 0 r).plant with
      emg := ⟨true, ⟨true, false, false, false⟩, some .fall, some 0, some phase, cap, none⟩ } }

theorem witness_PanicParkTaken :
    ((withSlot 0 (seated .loaded)).accepts ∧ (withSlot 0 (seated .loaded)).plant.emg.latched = false ∧
      ((withSlot 0 (seated .loaded)).plant.slot 0).headsOut = true ∧
      ({ seated .unloading with unloadMark := .fault } : Slot).headsOut = true) ∧
    ((latched .parked .spin (seated .spun)).accepts ∧ (latched .parked .spin (seated .spun)).plant.emg.latched = true ∧
      (latched .parked .spin (seated .spun)).plant.emg.phase = some .parked ∧
      ((latched .parked .spin (seated .spun)).plant.slot 1).inert = true) :=
  ⟨⟨accepts_of_mayTake (by decide +kernel), by decide +kernel⟩, accepts_of_mayTake (by decide +kernel), by decide +kernel⟩

theorem witness_SourceTaken :
    State.reset.plant.emg.latched = false ∧ (seated .loading).headsOut = true ∧ State.reset.plant.link.events.length < 32 ∧
      (latched .parked .spin (seated .spun)).plant.emg.latched = true ∧
      (latched .parked .spin (seated .spun)).plant.emg.sources.has .fall = true ∧
      (latched .parked .spin (seated .spun)).plant.emg.sources.has .power = false ∧
      (latched .parked .spin (seated .spun)).plant.emg.cap = .spin ∧
      (latched .parked .stop (seated .spun)).plant.emg.cap ≠ .spin := by decide +kernel

/-- Slots that are parked and not, and a phase that ends and one that goes on. -/
theorem witness_SourceTaken_phase :
    ((seated .loaded).headsOut = true ∧ (seated .spun).headsOut = false ∧ (seated .unloading).unloadMark ≠ .fault) ∧
    ((latched .parking .spin (seated .spun)).plant.emg.phase = some .parking ∧
      (latched .parking .spin (seated .spun)).plant.emg.firstTime = some 0 ∧
      (∀ i, ((latched .parking .spin (seated .spun)).plant.slot i).parking = false) ∧
      (react State.reset.env (latched .parking .spin (seated .spun)).plant).link.overrun = false ∧
      (react State.reset.env (latched .parking .spin (seated .spun)).plant).emg.phase = some .parked) ∧
    ((latched .parking .spin { seated .unloading with unloadMark := .emergency }).plant.slot 0).parking = true ∧
    (latched .parked .spin (seated .spun)).plant.emg.phase ≠ some .parking := by decide +kernel

theorem witness_EmergencyClearTaken : State.reset.accepts ∧ State.reset.plant.emg.latched = false ∧
    (latched .parked .spin (seated .spun)).accepts ∧
    (latched .parking .spin (seated .unloading)).plant.emg.phase ≠ some .parked ∧
    (latched .parked .spin (seated .spun)).plant.emg.phase = some .parked ∧
    (latched .parked .spin (seated .spun)).monitor.cls = .rolling ∧
    (latched .parked .spin (seated .spun)).plant.budget.powerState = .battery ∧
    Tables.reset.emergencyFlag .jolt = true :=
  ⟨reset_accepts, by decide +kernel, accepts_of_mayTake (by decide +kernel), by decide +kernel⟩

theorem witness_ExposureClearTaken : State.reset.accepts ∧ (Request.mk 1 [0x80, 1, 0x7F, 0xFE, 0]).args.length ≠ 4 ∧
    reqMaskOk ⟨1, [0x80, 1, 0x7F, 0xFF]⟩ = false ∧ reqMaskOk ⟨1, [0x80, 1, 0x7F, 0xFE]⟩ = true :=
  ⟨reset_accepts, by decide +kernel⟩

theorem witness_StageWriteTaken : (withStaged ⟨.profiles, 0, List.replicate 61 0⟩).accepts ∧
    61 < (List.replicate 62 (0 : Byte)).length ∧ (List.replicate 61 (0 : Byte)).length ≤ 61 ∧ 7 < (8 : Byte).toNat ∧
    TableId.ofCode 7 = some .budgets ∧ TableId.budgets.size ≤ (5 : Byte).toNat + ([0, 0] : List Byte).length - 1 ∧
    (5 : Byte).toNat + ([0] : List Byte).length - 1 < TableId.budgets.size ∧
    (61 : Byte).toNat = 0 + (List.replicate 61 (0 : Byte)).length - 1 + 1 ∧
    (List.replicate 61 (0 : Byte)).length + ([0, 0, 0] : List Byte).length ≤ 64 ∧
    ¬((List.replicate 61 (0 : Byte)).length + ([0, 0, 0, 0] : List Byte).length ≤ 64) :=
  ⟨accepts_of_mayTake (by decide +kernel), by decide +kernel⟩

/-- The COMMIT that echoes a staging buffer. -/
def echoOf (g : Staged) : Request :=
  ⟨1, [g.table.code, byteOf g.start, byteOf (g.start + g.data.length - 1)] ++ be16 (check16 g.data).toNat⟩

theorem witness_CommitRefused :
    (withStaged ⟨.unit, 0, [3]⟩).accepts ∧ State.reset.staging = none ∧ (echoOf ⟨.unit, 0, [3]⟩).args.length = 5 ∧
      (withStaged ⟨.unit, 0, [3]⟩).staging = some ⟨.unit, 0, [3]⟩ ∧
      firstBadField .unit (overlay Tables.reset.unit 0 [3]) 0 0 = some 0 ∧
      (echoOf ⟨.unit, 0, [3]⟩).args.take 3 ≠ [TableId.unit.code, 0, 1] ∧
      firstBadField .logicalMap (overlay Tables.reset.logicalMap 0 [0x81]) 0 0 = none ∧
      mapDuplicate (overlay Tables.reset.logicalMap 0 [0x81]) = true ∧
      mapDuplicate (overlay Tables.reset.logicalMap 15 [0x0F]) = false ∧
      mapEntrySlot (u8At Tables.reset.logicalMap 15) = some 15 ∧
      mapEntrySlot (u8At (overlay Tables.reset.logicalMap 15 [0x0F]) 15) ≠ some 15 ∧
      ({ seated .loaded with outstanding := [⟨7, 0, 0⟩] } : Slot).inside ≠ 0 :=
  ⟨accepts_of_mayTake (by decide +kernel), by decide +kernel⟩

theorem witness_CommitDone : ∃ s g, s.accepts ∧ s.staging = some g ∧ (echoOf g).args.length = 5 ∧
    echoMatches (echoOf g) g = true ∧ commitRefusal g s = none :=
  ⟨withStaged ⟨.classMap, 255, [0x43]⟩, ⟨.classMap, 255, [0x43]⟩, accepts_of_mayTake (by decide +kernel), by decide +kernel⟩

/-- A commit of the transit policy re-applies it, and so does one of the slot configuration that changes a group. -/
theorem witness_CommitDone_transit : ∀ g ∈ ([⟨.policy, 16, [0x22]⟩, ⟨.slotCfg, 1, [3]⟩] : List Staged),
    (withStaged g).staging = some g ∧ echoMatches (echoOf g) g = true ∧ commitRefusal g (withStaged g) = none ∧
      (g.table = .policy ∨ g.table = .slotCfg ∧
        (Tables.reset.setBytes g.table (commitImage Tables.reset g)).group 0 ≠ Tables.reset.group 0) := by decide +kernel

/-- A slot with an order in flight. -/
def moving (st : SlotState) (k : OrderKind) : Slot :=
  { seated st with lane := { Lane.reset with inFlight := some ⟨k, 15, ⟨0, 100⟩⟩ } }

theorem witness_OrderEnds :
    ((withSlot 0 (moving .starting .spinUp)).plant.slot 0).lane.inFlight = some ⟨.spinUp, 15, ⟨0, 100⟩⟩ ∧
      (15 : Fin 16).val = (15 : Byte).toNat ∧ (15 : Fin 16).val ≠ (14 : Byte).toNat ∧
      (State.reset.plant.slot 0).lane.inFlight = none ∧
      (⟨0, 100⟩ : Timer).len ≤ ((later 100 State.reset).clock - (⟨0, 100⟩ : Timer).start).toNat := by decide +kernel

theorem witness_OrderFailureByState : (moving .starting .spinUp).state = .starting ∧
    (moving .stopping (.spinDown false)).state = .stopping ∧ (moving .loading .load).state = .loading ∧
    (moving .unloading .emergencyUnload).state = .unloading ∧ (moving .unloading .emergencyUnload).unloadReissued = false ∧
    ({ moving .unloading .emergencyUnload with unloadReissued := true } : Slot).unloadReissued = true := by decide

theorem witness_OrderSuccessByState : (moving .starting .spinUp).state = .starting ∧ (seated .spun).effective = .load ∧
    ({ seated .spun with requested := .spin } : Slot).effective = .spin ∧
    ({ seated .spun with requested := .stop } : Slot).effective = .stop ∧
    Tables.reset.spinRetries 0 < ({ Lane.reset with spinAttempts := 3 } : Lane).spinAttempts ∧
    ({ Lane.reset with spinAttempts := 2 } : Lane).spinAttempts ≤ Tables.reset.spinRetries 0 ∧ Tables.reset.dwellMs 0 ≠ 0 ∧
    ({ Tables.reset with profiles := Tables.reset.profiles.set 11 0 } : Tables).dwellMs 0 = 0 ∧
    (moving .loading .load).draining = false ∧ (moving .unloading (.unload false)).unloadMark ≠ .fault ∧
    Tables.reset.loadRetries 0 < ({ Lane.reset with loadAttempts := 3 } : Lane).loadAttempts ∧
    ({ Lane.reset with loadAttempts := 2 } : Lane).loadAttempts ≤ Tables.reset.loadRetries 0 := by decide +kernel

theorem witness_SledFaultTaken :
    ((withSlot 0 (seated .loaded)).plant.slot 0).headsOut = true ∧ ((withSlot 0 (seated .spun)).plant.slot 0).state = .spun ∧
      (State.reset.plant.slot 0).state = .empty ∧
      ((withSlot 0 { seated .unloading with unloadMark := .fault }).plant.slot 0).unloadMark = .fault := by decide +kernel

theorem witness_SledCompletionTaken : (List.replicate 48 (0 : Byte)).length ≤ 48 ∧
    ((seated .loaded).outstanding = [] ∧ (OutEntry.mk 7 15 0).tag = 7 ∧ (OutEntry.mk 7 15 0).epoch.val = (15 : Byte).toNat) ∧
    [OutEntry.mk 7 15 0].eraseP (OutEntry.matches 15 7) = [] ∧
    ({ seated .loaded with draining := true } : Slot).draining = true ∧
    (∀ o ∈ [OutEntry.mk 7 15 0], OutEntry.matches 14 7 o = false) := by decide +kernel

/-- A head of a hold list that emulates nothing yet, of class TRAP. -/
def trapHead (a : TrapAction) : HoldEntry := { heldRead 7 with cls := .trap, requirement := a.target, action := some a, asHead := true }

/-- Heads that wait, are released, act, and are answered. -/
theorem witness_SledCompletionTaken_heads :
    ((heldRead 7).asHead = false ∧ (heldRead 7).cls ≠ .trap ∧ Level.spin.rank < (heldRead 7).requirement.rank ∧
      (heldRead 7).requirement.rank ≤ (seated .spun).requested.rank) ∧
    (Tables.reset.wake 0 = true ∧
      ({ Tables.reset with slotCfg := Tables.reset.slotCfg.set 3 6 } : Tables).wake 0 = false) ∧
    ((seated .loaded).serves .load = true ∧ (seated .loaded).draining = false ∧ (seated .spun).serves .load = false) ∧
    ((trapHead .toSpin).asHead = true ∧ (trapHead .toSpin).emulating = false ∧ (trapHead .report).action = some .report ∧
      (seated .spun).state = (trapHead .toSpin).requirement.targetState ∧
      (seated .loaded).state ≠ (trapHead .toSpin).requirement.targetState) ∧
    headStep State.reset.env 0 State.reset.plant = none ∧
    (headStep State.reset.env 0 (withSlot 0 { seated .loaded with hold := [heldRead 7] }).plant).isSome = true := by
  decide +kernel

theorem witness_LaneFramesTaken :
    ((withSlot 0 { seated .loaded with lane := { Lane.reset with tx := some (.order .load 0) } }).plant.slot 0).lane.tx =
      some (.order .load 0) ∧ (State.reset.plant.slot 0).lane.tx = none := by decide +kernel

theorem witness_InsertionTaken :
    ((withSlot 0 (Slot.reset true false)).plant.slot 0).state = .empty ∧
      dueOpt ((withSlot 0 (Slot.reset true false)).plant.slot 0).presenceFilter 200 = true ∧
      dueOpt ((withSlot 0 (Slot.reset true false)).plant.slot 0).presenceFilter 199 = false := by decide +kernel

theorem witness_RemovalTaken :
    ((withSlot 0 { seated .loaded with presenceFilter := some ⟨0, 200⟩ }).plant.slot 0).state ≠ .empty ∧
      dueOpt ((withSlot 0 { seated .loaded with presenceFilter := some ⟨0, 200⟩ }).plant.slot 0).presenceFilter 200 = true := by
  decide +kernel

theorem witness_OvercurrentTaken :
    (seated .stopping).state ∈ [SlotState.starting, .spun, .loading, .loaded, .unloading, .stopping] ∧
      (seated .queued).state ∉ [SlotState.starting, .spun, .loading, .loaded, .unloading, .stopping] := by decide

theorem witness_PowerLinesTaken : dueOpt (⟨true, false, some ⟨0, 10⟩⟩ : LineFilter).timer 10 = true ∧
    (PowerLines.derived ⟨⟨false, false, none⟩, ⟨false, false, none⟩, ⟨true, true, none⟩⟩ = .holdup) ∧
    State.reset.plant.budget.powerState = .battery ∧ State.reset.plant.link.events.length < 32 := by decide +kernel

/-- A plant with one LOADED slot, which draws 10, under a budget. -/
def drawing (budget : Nat) (shed : Bool) (cap : BudgetCap) : Plant :=
  { (withSlot 0 { seated .loaded with budgetCap := cap }).plant with budget := ⟨.reserve, budget, 10, shed, false⟩ }

/-- A victim is taken, a shed begins, goes on with nothing to take, ends, and is reconsidered by a rise of the budget. -/
theorem witness_PowerLinesTaken_sheds : (∀ i, Tables.reset.priority i ≤ 7) ∧
    (drawing 9 false .none).budget.budget < (drawing 9 false .none).projected State.reset.env ∧
    0 < State.reset.env.drawOf 0 ((drawing 9 false .none).slot 0) ∧
    (drawing 9 false .none).budget.budget < (drawing 9 false .none).budget.committed ∧
    ¬((drawing 9 true .stop).budget.budget < (drawing 9 true .stop).projected State.reset.env) ∧
    (drawing 10 true .stop).budget.committed ≤ (drawing 10 true .stop).budget.budget ∧
    (drawing 3 true .stop).budget.budget < 5 ∧ 5 < (drawing 3 true .stop).budget.committed := by decide +kernel

theorem witness_SwitchesTaken : dueOpt (⟨true, false, some ⟨0, 20⟩⟩ : LineFilter).timer 20 = true := by decide

theorem witness_ConditionsExamined : Condition.reset.asserted = false ∧ Condition.reset.assertTimer = none ∧
    (⟨true, none, none⟩ : Condition).releaseTimer = none ∧
    (⟨true, none, some ⟨0, 5⟩⟩ : Condition).releaseTimer = some ⟨0, 5⟩ ∧
    (⟨false, some ⟨0, 5⟩, none⟩ : Condition).assertTimer = some ⟨0, 5⟩ := by decide

theorem witness_SampleTaken : (Instr.sample 16000 0xC180 16000).wellFormed = true ∧
    State.reset.plant.link.events.length < 32 ∧ (32 ≤ ((List.replicate 31 (sampleOf 0 0 1000)) ++ [sampleOf 0 0 1000]).length) := by
  decide +kernel

theorem witness_MonitorExpiriesTaken : State.reset.monitor.sensor ≠ .lost ∧ dueOpt State.reset.monitor.sensorTimer 50 = true ∧
    dueOpt (⟨true, none, some ⟨0, 5⟩⟩ : Condition).releaseTimer 5 = true ∧
    dueOpt (⟨false, some ⟨0, 5⟩, none⟩ : Condition).assertTimer 5 = true := by decide

theorem witness_ClassChangeTaken : State.reset.monitor.derivedClass State.reset.tables = State.reset.monitor.cls ∧
    ({ State.reset.monitor with jolt := ⟨true, none, none⟩ } : Monitor).derivedClass State.reset.tables ≠ .rolling ∧
    Tables.reset.emergencyFlag .jolt = true ∧ Tables.reset.emergencyFlag .fall = true := by decide +kernel

/-- Slots whose suspension begins, goes on and ends, under each disposition. -/
theorem witness_ClassChangeTaken_transit :
    (seated .empty).outOfService = true ∧ (seated .loaded).outOfService = false ∧
    (Tables.reset.policyCap .rolling 0).rank < (seated .loaded).requested.rank ∧
    Tables.reset.policyDisposition .rolling 0 = .freeze ∧ Tables.reset.policyDisposition .jolt 0 = .hold ∧
    ({ Tables.reset with policy := Tables.reset.policy.set 16 0x21 } : Tables).policyDisposition .rolling 0 = .refuse ∧
    ¬((Tables.reset.policyCap .still 0).rank < (seated .loaded).requested.rank) := by decide +kernel

theorem witness_HoldAndDrainExpiries :
    (∃ h ∈ ({ seated .stopped with hold := [heldRead 1] } : Slot).hold, (h.tag == 1 && h.timer.due 100) = true) ∧
      ({ seated .loaded with draining := true, drainTimer := some ⟨0, 5000⟩ } : Slot).draining = true ∧
      dueOpt ({ seated .loaded with draining := true, drainTimer := some ⟨0, 5000⟩ } : Slot).drainTimer 5000 = true := by
  decide +kernel

theorem witness_DwellAndIdleExpiries : (seated .stopped).effective ≠ .stop ∧
    ({ seated .stopped with requested := .stop } : Slot).effective = .stop ∧
    dueOpt ({ seated .stopped with dwell := some ⟨0, 5000⟩ } : Slot).dwell 5000 = true ∧
    ({ seated .loaded with idleUnload := .running ⟨0, 30000⟩ } : Slot).idleUnload.due 30000 = true ∧
    (seated .loaded).effective = .load ∧ (seated .loaded).outstanding = [] ∧
    ({ seated .spun with requested := .spin, idleStop := .running ⟨0, 300000⟩ } : Slot).idleStop.due 300000 = true ∧
    ({ seated .spun with requested := .spin } : Slot).effective = .spin ∧
    (seated .loaded).unloadIdle Tables.reset 0 = true ∧ (seated .loaded).idleUnload = .idle ∧
    ({ seated .loaded with pinned := true } : Slot).unloadIdle Tables.reset 0 = false ∧
    ({ seated .spun with requested := .spin } : Slot).stopIdle Tables.reset 0 = true ∧
    (seated .spun).stopIdle Tables.reset 0 = false := by decide +kernel

theorem witness_StaggerAndSettleExpiries : dueOpt (some (⟨0, 2000⟩ : Timer)) 2000 = true ∧
    dueOpt (some (⟨0, 30000⟩ : Timer)) 30000 = true := by decide

/-- The conditions of the settle timer hold with auto-clear on, and one fails with it off. -/
theorem witness_StaggerAndSettleExpiries_settle :
    let e : Env := { State.reset.env with tables := { Tables.reset with unit := Tables.reset.unit.set 8 1 } }
    let t := react e (latched .parked .spin (seated .spun)).plant
    (t.emg.latched = true ∧ t.emg.phase = some .parked ∧ e.cls = .rolling ∧ t.budget.powerState = .battery ∧
      e.tables.autoClear = true ∧ (latched .parked .spin (seated .spun)).plant.emg.settle = none ∧
      t.emg.settle = some ⟨0, 30000⟩ ∧ (react e t).emg.settle = some ⟨0, 30000⟩) ∧
    Tables.reset.autoClear = false := by decide +kernel

theorem witness_EventsThatCannotOccur : isFrame (.unitQuery ⟨1, []⟩) = true ∧
    (withLink Link.takeBreak).plant.link.broken = true ∧
    (withLink (fun l => { l with queue := List.replicate 114 someFrame })).plant.free < 15 ∧
    dueOpt State.reset.plant.arb.stagger 0 = false ∧ dueOpt State.reset.monitor.sensorTimer 49 = false ∧
    (State.reset.plant.slot 0).lane.inFlight = none ∧ (State.reset.plant.slot 0).idleUnload.due 0 = false ∧
    State.reset.plant.link.tx = none ∧ (State.reset.plant.slot 0).lane.tx = none ∧
    dueOpt (⟨true, none, some ⟨0, 5⟩⟩ : Condition).releaseTimer 4 = false ∧
    dueOpt (⟨false, some ⟨0, 5⟩, none⟩ : Condition).assertTimer 4 = false := by decide +kernel

/-- A state in which a start is about to be granted. -/
def startReady : State :=
  { withSlot 0 (seated .queued) with plant := { (withSlot 0 (seated .queued)).plant with
      arb := ⟨[0], some 0, 15, none, false⟩, budget := ⟨.battery, 90, 65, false, true⟩ } }

theorem witness_StartGranted : startReady.plant.arb.candidate = some 0 ∧ startReady.plant.budget.startClaim = true ∧
    startReady.plant.budget.committed + startReady.tables.spinDraw 0 = startReady.plant.budget.budget ∧
    (startReady.plant.slot 0).state = .queued ∧ (startReady.plant.slot 0).overcurrentIn = false ∧
    State.reset.plant.arb.candidate = none ∧ State.reset.tables.mode = .arrival ∧
    ({ Tables.reset with unit := Tables.reset.unit.set 0 1 } : Tables).mode = .priority ∧
    ({ Tables.reset with unit := Tables.reset.unit.set 0 2 } : Tables).mode = .round ∧
    mostUrgent Tables.reset [3, 1] = some 3 ∧
    ({ startReady.plant with arb := ⟨[1], some 1, 15, none, false⟩ } : Plant).slot 1 = Slot.reset false false ∧
    (Slot.reset false false).state ≠ .queued ∧
    ({ seated .queued with overcurrentIn := true } : Slot).overcurrentIn = true ∧
    ({ seated .spun with loadClaim := true } : Slot).loadClaim = true ∧ (seated .spun).effective = .load ∧
    startReady.plant.budget.committed + Tables.reset.loadDraw 0 ≤ startReady.plant.budget.budget ∧
    ({ seated .spun with loadClaim := true, requested := .spin } : Slot).effective ≠ .load ∧
    startReady.plant.budget.shed = false ∧ startReady.plant.emg.latched = false := by decide +kernel

/-- A commit that the budget unit and the arbiter have yet to take: a slot whose draw no change of state has changed, and one
whose draw has changed; claims that waited at it, and claims that did not. -/
theorem witness_StartGranted_unread :
    let old : Tables := { Tables.reset with profiles := Tables.reset.profiles.set 0 30 }
    let e := startReady.env.beforeBudget old startReady.plant
    e.unread = some ⟨old, startReady.plant⟩ ∧ startReady.env.unread = none ∧
    e.choose startReady.plant.arb = some 0 ∧ e.choose { startReady.plant.arb with queue := [] } = none ∧
    e.startAmount 0 = 30 ∧ e.startAmount 1 = 25 ∧ e.loadAmount 0 = 2 ∧
    e.drawOf 0 (seated .starting) = 25 ∧ e.drawOf 0 (startReady.plant.slot 0) = 0 := by decide +kernel

/-- The orders match at reset, so the premises of the statements that every command keeps can be met. -/
theorem witness_OrdersMatchStates : State.reset.plant.ordersMatch ∧
    ∃ t, exec .lineBreak State.reset = .next t := ⟨by unfold Plant.ordersMatch; decide +kernel, _, rfl⟩

theorem witness_StartQueueIsTheQueuedSlots : State.reset.plant.ordersMatch ∧ State.reset.plant.queueMatches :=
  ⟨by unfold Plant.ordersMatch; decide +kernel, by unfold Plant.queueMatches; decide +kernel⟩

theorem witness_HoldListsSound : State.reset.plant.ordersMatch ∧ State.reset.plant.listsSound :=
  ⟨by unfold Plant.ordersMatch; decide +kernel, by unfold Plant.listsSound Slot.listsSound; decide +kernel⟩

theorem witness_UpstreamQueueAndReadyLine : State.reset.plant.ordersMatch ∧ State.reset.plant.entries ≤ 128 ∧
    State.reset.plant.readyFollows :=
  ⟨by unfold Plant.ordersMatch; decide +kernel, by decide +kernel, by unfold Plant.readyFollows; decide +kernel⟩

theorem witness_CommandsConservedInNumber : ∃ t, exec (.command ⟨0, 7, [0]⟩) State.reset = .next t ∧
    State.reset.plant.ordersMatch ∧ State.reset.enters (.command ⟨0, 7, [0]⟩) = 1 :=
  ⟨_, rfl, by unfold Plant.ordersMatch; decide +kernel, by decide +kernel⟩

theorem witness_LatchStopsStartsAndLoads : ∃ t, exec .lineBreak (latched .parked .spin (seated .spun)) = .next t ∧
    (latched .parked .spin (seated .spun)).plant.ordersMatch ∧
    (latched .parked .spin (seated .spun)).plant.emg.latched = true ∧ t.plant.emg.latched = true :=
  ⟨_, rfl, by unfold Plant.ordersMatch; decide +kernel, by decide +kernel, by decide +kernel⟩

theorem witness_BudgetIsKept : State.reset.budgetKept := by unfold State.budgetKept; decide +kernel

theorem witness_TablesStaySound : (withStaged ⟨.budgets, 0, [0, 1, 0, 2, 0, 3]⟩).tablesSound :=
  ⟨by decide +kernel, fun g h => by
    have h' : (⟨.budgets, 0, [0, 1, 0, 2, 0, 3]⟩ : Staged) = g := Option.some.inj h
    rw [← h']; decide⟩

theorem witness_FramesReceivedAsSent : (CommandFrame.mk 15 255 (List.replicate 48 255)).wellFormed = true ∧
    (Request.mk 255 (List.replicate 63 255)).wellFormed = true ∧ (Instr.sample 16000 0xC180 16000).wellFormed = true := by decide

end Sys2Proof.Tests
end

section
/-! SUPPORT. The entries of a slot to EMPTY and to STOPPED: power-on reset (R1), insertion (R7), removal (R8) and recovery
(R24). First the facts about the shared operations, then the record each entry leaves, then the statements. -/

namespace Sys2Proof.Machine

variable {e : Env}

/-! ### Events of the plant, and requests that are taken -/

/-- An event of the plant reads the blocks and the plant as they stand in the state. -/
theorem State.respond_eq_const (f : Env → Plant → Plant) (s : State) :
    s.respond f = s.respond (fun _ _ => f s.env s.plant) := by
  simp only [State.respond, State.onPlant]

/-- INSERTION at an EMPTY slot whose presence filter is due (R7). -/
theorem execInsertion_of_due {i : SlotId} {s : State} (hs : (s.plant.slot i).state = .empty)
    (hdue : dueOpt (s.plant.slot i).presenceFilter s.clock = true) :
    execInsertion i s = .next (s.respond (fun e d => insertSled e i d)) := if_pos ⟨hs, hdue⟩

/-- REMOVAL at a slot that is not EMPTY and whose presence filter is due (R8). -/
theorem execRemoval_of_due {i : SlotId} {s : State} (hs : (s.plant.slot i).state ≠ .empty)
    (hdue : dueOpt (s.plant.slot i).presenceFilter s.clock = true) :
    execRemoval i s = .next (s.respond (fun e d => removeSled e i d)) := if_pos ⟨hs, hdue⟩

/-- A request that the case link takes and whose length is right is answered by its owner (R180). -/
theorem takeRequest_of_accepts {s : State} (hs : s.accepts) {r : Request} (hw : r.args.length ≤ 63) (code : Byte)
    {lengthOk : Nat → Bool} (hl : lengthOk (r.args.length + 1) = true) (owner : State → Answered) :
    takeRequest code lengthOk r owner s =
      (owner s.framed).state.reply r.tag code (owner s.framed).status (owner s.framed).data := by
  obtain ⟨hbroken, hfree⟩ := hs
  have hmay : s.mayAccept = true := decide_eq_true hfree
  simp [takeRequest, hbroken, hw, hmay, hl, State.framed]

theorem slotOfNat_val (i : SlotId) : slotOfNat i.val = some i := dif_pos i.isLt

theorem slotOfNat_of_lt {n : Nat} (h : 15 < n) : slotOfNat n = none := dif_neg (by omega)

/-- The owner of SLOT_RECOVER at a slot number that names no slot (R24). -/
theorem slotRecoverAnswer_outOfRange {r : Request} (h : 15 < reqU8 r 0) (s : State) :
    slotRecoverAnswer r s = ⟨s, .outOfRange, []⟩ := by
  simp [slotRecoverAnswer, slotOfNat_of_lt h]

/-- The owner of SLOT_RECOVER at a slot that is not FAULTED (R24). -/
theorem slotRecoverAnswer_notFaulted {r : Request} {i : SlotId} (hi : reqU8 r 0 = i.val) {s : State}
    (h : (s.plant.slot i).state ≠ .faulted) : slotRecoverAnswer r s = ⟨s, .notFaulted, []⟩ := by
  simp [slotRecoverAnswer, hi, slotOfNat_val, h]

/-- The owner of SLOT_RECOVER at a FAULTED slot (R24). -/
theorem slotRecoverAnswer_faulted {r : Request} {i : SlotId} (hi : reqU8 r 0 = i.val) {s : State}
    (h : (s.plant.slot i).state = .faulted) :
    slotRecoverAnswer r s = ⟨{ s with plant := react s.env (recoverSlot s.env i s.plant) }, .ok, []⟩ := by
  simp [slotRecoverAnswer, hi, slotOfNat_val, h]

/-! ### The event list -/

/-- A record goes to the tail of an event list with room (R181). -/
theorem Plant.record_events_of_room (now : Clock) (ev : Event) {d : Plant} (h : d.link.events.length < 32) :
    (d.record now ev).link.events = d.link.events ++ [⟨now, ev⟩] := by
  have hstore : (d.link.store ⟨now, ev⟩).events = d.link.events ++ [⟨now, ev⟩] := by
    simp [Link.store, Config.eventRecords, h]
  unfold Plant.record
  simp only
  split <;> exact hstore

theorem answerTags_events (i : SlotId) (disp : Disposition) : ∀ (tags : List Byte) (d : Plant),
    (answerTags e i disp tags d).link.events = d.link.events
  | [], _ => rfl
  | _ :: tags, _ => answerTags_events i disp tags _

@[simp] theorem answerAll_events (i : SlotId) (disp : Disposition) (d : Plant) :
    (answerAll e i disp d).link.events = d.link.events :=
  (answerTags_events i disp _ _).trans (answerTags_events i disp _ d)

/-! ### Every command of a slot answered -/

/-- The frames that answer every command of a slot, the outstanding ones first (R43). -/
theorem answerAll_queue (i : SlotId) (disp : Disposition) (d : Plant) :
    (answerAll e i disp d).link.queue = d.link.queue ++
      answersTo e.tables i disp ((d.slot i).outstanding.map OutEntry.tag ++ (d.slot i).hold.map HoldEntry.tag) := by
  unfold answerAll
  rw [answerHeld_queue, abort_queue, abort_hold]
  simp [answersTo]

/-- What answering every command does to the slot's record: both lists are empty and the lane epoch advances (R8, R23). -/
def Slot.answered (r : Slot) : Slot := Slot.nextEpoch { r with outstanding := [], hold := [] }

/-- The countdowns of an EMPTY slot that are idle stay so (R80, R81). -/
theorem Slot.examineCountdowns_of_empty {r : Slot} (i : SlotId) (hs : r.state = .empty) (hu : r.idleUnload = .idle)
    (ht : r.idleStop = .idle) : r.examineCountdowns e i = r := by
  have hunload : r.unloadIdle e.tables i = false := by simp [Slot.unloadIdle, hs]
  have hstop : r.stopIdle e.tables i = false := by simp [Slot.stopIdle, hs]
  simp only [Slot.examineCountdowns, hunload, hstop, hu, ht, Countdown.examine]
  cases r; simp_all

/-- The record of an EMPTY slot with idle countdowns after its commands have been answered. -/
theorem answerAll_slot_of_empty {i : SlotId} (disp : Disposition) {d : Plant} (hs : (d.slot i).state = .empty)
    (hu : (d.slot i).idleUnload = .idle) (ht : (d.slot i).idleStop = .idle) :
    (answerAll e i disp d).slot i = (d.slot i).answered := by
  have habort : (abort e i disp d).slot i = Slot.nextEpoch { d.slot i with outstanding := [] } := by
    rw [abort_slot, if_pos rfl]
    exact Slot.examineCountdowns_of_empty i hs hu ht
  unfold answerAll
  rw [answerHeld_slot, if_pos rfl, habort]
  refine (Slot.examineCountdowns_of_empty i ?_ ?_ ?_).trans ?_
  · exact hs
  · exact hu
  · exact ht
  · simp [Slot.answered, Slot.nextEpoch]

/-! ### Entries to STOPPED: insertion and recovery -/

/-- A slot that requests STOP has the effective level STOP, whatever its caps (R69). -/
theorem Slot.effective_of_requested_stop {r : Slot} (h : r.requested = .stop) : r.effective = .stop := by
  unfold Slot.effective
  rw [h]
  generalize r.transitCap.lower _ = cap
  cases cap <;> rfl

/-- A STOPPED slot that requests STOP does not queue for a start (R10). -/
theorem act_of_stopped {i : SlotId} {d : Plant} (hs : (d.slot i).state = .stopped) (hr : (d.slot i).requested = .stop) :
    act e i d = d := by
  simp [act, hs, Slot.effective_of_requested_stop hr]

/-- The record that an insertion writes (R7, R25). -/
def Slot.inserted (e : Env) (i : SlotId) (r : Slot) : Slot :=
  { r with
    state := .stopped, requested := .stop, pinned := false, epoch := 0, lane := Lane.reset, exposures := 0, strays := 0,
    draining := false, unloadMark := .none, unloadReissued := false, faultReason := none, sledCode := none,
    dwell := dwellTimer e i, presenceFilter := none }

/-- The record that a recovery writes (R24). -/
def Slot.recovered (e : Env) (i : SlotId) (r : Slot) : Slot :=
  { r with
    state := .stopped, faultReason := none, sledCode := none, requested := .stop, pinned := false, dwell := dwellTimer e i,
    lane := { r.lane with spinAttempts := 0, loadAttempts := 0 } }

/-- An insertion writes the one record and appends to the event list; the level STOP moves nothing further. -/
theorem insertSled_eq (i : SlotId) (d : Plant) :
    insertSled e i d = (d.put e i ((d.slot i).inserted e i)).record e.clock (.sledInserted i) :=
  act_of_stopped (by simp) (by simp)

/-- A recovery writes the one record and appends to the event list; the level STOP moves nothing further. -/
theorem recoverSlot_eq (i : SlotId) (d : Plant) :
    recoverSlot e i d = (d.put e i ((d.slot i).recovered e i)).record e.clock (.slotRecovered i) :=
  act_of_stopped (by simp) (by simp)

theorem insertSled_slot_same (i : SlotId) (d : Plant) :
    (insertSled e i d).slot i = ((d.slot i).inserted e i).examineCountdowns e i := by
  rw [insertSled_eq, Plant.record_slot, Plant.slot_put_same]

theorem insertSled_slot_other {i j : SlotId} (h : j ≠ i) (d : Plant) : (insertSled e i d).slot j = d.slot j := by
  rw [insertSled_eq, Plant.record_slot, Plant.slot_put_other e h]

theorem insertSled_events_of_room (i : SlotId) {d : Plant} (h : d.link.events.length < 32) :
    (insertSled e i d).link.events = d.link.events ++ [⟨e.clock, .sledInserted i⟩] := by
  rw [insertSled_eq]
  exact Plant.record_events_of_room _ _ h

theorem recoverSlot_slot_same (i : SlotId) (d : Plant) :
    (recoverSlot e i d).slot i = ((d.slot i).recovered e i).examineCountdowns e i := by
  rw [recoverSlot_eq, Plant.record_slot, Plant.slot_put_same]

theorem recoverSlot_slot_other {i j : SlotId} (h : j ≠ i) (d : Plant) : (recoverSlot e i d).slot j = d.slot j := by
  rw [recoverSlot_eq, Plant.record_slot, Plant.slot_put_other e h]

theorem recoverSlot_events_of_room (i : SlotId) {d : Plant} (h : d.link.events.length < 32) :
    (recoverSlot e i d).link.events = d.link.events ++ [⟨e.clock, .slotRecovered i⟩] := by
  rw [recoverSlot_eq]
  exact Plant.record_events_of_room _ _ h

/-! ### Entries to EMPTY: removal and power-on reset -/

/-- The record that a removal writes before the slot's commands are answered (R8). -/
def Slot.vacated (r : Slot) : Slot :=
  { r.cease with
    state := .empty, faultReason := none, sledCode := none, requested := .stop, pinned := false, presenceFilter := none }

/-- A removal vacates the slot, answers its commands NO_SLED, and appends to the event list. -/
theorem removeSled_eq (i : SlotId) (d : Plant) :
    removeSled e i d = Plant.record e.clock (.sledRemoved i (d.slot i).state)
      (answerAll e i .noSled ((d.put e i (d.slot i).vacated).leaveQueue i)) := rfl

/-- The record in the plant whose commands a removal answers. -/
theorem slot_put_vacated (i : SlotId) (d : Plant) :
    ((d.put e i (d.slot i).vacated).leaveQueue i).slot i = (d.slot i).vacated := by
  rw [Plant.slot_leaveQueue, Plant.slot_put_same]
  exact Slot.examineCountdowns_of_empty i rfl rfl rfl

theorem removeSled_slot_same (i : SlotId) (d : Plant) : (removeSled e i d).slot i = (d.slot i).vacated.answered := by
  have h := slot_put_vacated (e := e) i d
  rw [removeSled_eq, Plant.record_slot,
    answerAll_slot_of_empty .noSled (by rw [h]; rfl) (by rw [h]; rfl) (by rw [h]; rfl), h]

theorem removeSled_slot_other {i j : SlotId} (h : j ≠ i) (d : Plant) : (removeSled e i d).slot j = d.slot j := by
  rw [removeSled_eq, Plant.record_slot, answerAll_slot_other h, Plant.slot_leaveQueue, Plant.slot_put_other e h]

theorem removeSled_startQueue (i : SlotId) (d : Plant) :
    (removeSled e i d).arb.queue = d.arb.queue.filter (fun j => j != i) := by
  rw [removeSled_eq, Plant.record_arb, (answerAll_blocks i _ _).1, Plant.leaveQueue_queue, Plant.put_arb]

/-- The NO_SLED answers of a removal follow the frames already queued (R43). -/
theorem removeSled_answers (i : SlotId) (d : Plant) :
    d.link.queue ++ answersTo e.tables i .noSled
      ((d.slot i).outstanding.map OutEntry.tag ++ (d.slot i).hold.map HoldEntry.tag) <+:
        (removeSled e i d).link.queue := by
  obtain ⟨hqueue, -⟩ := Plant.record_shape e.clock (.sledRemoved i (d.slot i).state)
    (answerAll e i .noSled ((d.put e i (d.slot i).vacated).leaveQueue i))
  rw [answerAll_queue, slot_put_vacated] at hqueue
  exact hqueue

theorem removeSled_events_of_room (i : SlotId) {d : Plant} (h : d.link.events.length < 32) :
    (removeSled e i d).link.events = d.link.events ++ [⟨e.clock, .sledRemoved i (d.slot i).state⟩] := by
  have hkept : (answerAll e i .noSled ((d.put e i (d.slot i).vacated).leaveQueue i)).link.events = d.link.events := by
    rw [answerAll_events, Plant.leaveQueue_link, Plant.put_link]
  rw [removeSled_eq, Plant.record_events_of_room _ _ (by rw [hkept]; exact h), hkept]

/-- Every slot record at the end of a power-on reset, the pins at the levels they have (R1). -/
theorem State.powerOn_slot (s : State) (i : SlotId) :
    s.powerOn.plant.slot i = Slot.reset (s.plant.slot i).presenceIn (s.plant.slot i).overcurrentIn := by
  have hread : s.powerOn.plant.slot i = (resetSlots s.plant.slots)[i.val] := Plant.slot_reset _ i
  rw [hread]
  simp [resetSlots, Plant.slot]

/-! ### The statements -/

/-- Settles O19, by the owner's three answers; what is left of the slot is read off the record that a recovery writes. -/
theorem slotRecoverTaken : Obligations.SlotRecoverTaken := by
  intro tag slot s hs
  have hexec : ∀ a : Answered, slotRecoverAnswer ⟨tag, [slot]⟩ s.framed = a →
      exec (.slotRecover ⟨tag, [slot]⟩) s = .next (a.state.reply tag 0x11 a.status a.data) := by
    rintro a rfl
    exact congrArg _ (takeRequest_of_accepts hs (by simp) _ rfl _)
  have hfield : reqU8 ⟨tag, [slot]⟩ 0 = slot.toNat := rfl
  refine ⟨fun hslot => hexec _ (slotRecoverAnswer_outOfRange (hfield ▸ hslot) _),
    fun i hi => ⟨fun hstate => ?_, fun hstate => ?_⟩⟩
  · exact hexec _ (slotRecoverAnswer_notFaulted (hfield.trans hi) hstate)
  · refine ⟨recoverSlot s.env i s.framed.plant, hexec _ (slotRecoverAnswer_faulted (hfield.trans hi) hstate), ?_⟩
    rw [recoverSlot_slot_same]
    exact ⟨rfl, rfl, rfl, rfl, rfl, fun j hj => recoverSlot_slot_other hj _,
      recoverSlot_events_of_room (e := s.env) (d := s.framed.plant) i⟩

/-- Settles O5: every clause is read off the reset record that each slot takes. -/
theorem powerOnResetSlots : Obligations.PowerOnResetSlots := by
  intro s
  refine ⟨s.powerOn, rfl, fun i => ?_⟩
  rw [State.powerOn_slot]
  exact ⟨⟨rfl, rfl, rfl⟩, ⟨rfl, rfl, rfl, rfl⟩, ⟨rfl, rfl, rfl, rfl, rfl⟩, ⟨rfl, rfl⟩, ⟨rfl, rfl⟩, ⟨rfl, rfl, rfl⟩,
    ⟨rfl, rfl, rfl, rfl⟩, ⟨rfl, rfl, rfl⟩, rfl, rfl, rfl⟩

/-- Settles O36 with the plant that `insertSled` leaves; what is left of the slot is read off the record it writes. -/
theorem insertionTaken : Obligations.InsertionTaken := by
  intro i s r hempty hdue
  have hexec : exec (.insertion i) s = .next (s.respond (fun e d => insertSled e i d)) := execInsertion_of_due hempty hdue
  rw [State.respond_eq_const] at hexec
  refine ⟨insertSled s.env i s.plant, hexec, ?_⟩
  rw [insertSled_slot_same]
  exact ⟨rfl, rfl, rfl, rfl, rfl, rfl, rfl, rfl, rfl, rfl, rfl, rfl, rfl, rfl, rfl, rfl, rfl,
    fun j hj => insertSled_slot_other hj _, insertSled_events_of_room (e := s.env) (d := s.plant) i⟩

/-- Settles O37 with the plant that `removeSled` leaves; what is left of the slot is read off the vacated record. -/
theorem removalTaken : Obligations.RemovalTaken := by
  intro i s r hseated hdue
  have hexec : exec (.removal i) s = .next (s.respond (fun e d => removeSled e i d)) := execRemoval_of_due hseated hdue
  rw [State.respond_eq_const] at hexec
  refine ⟨removeSled s.env i s.plant, hexec, ?_⟩
  rw [removeSled_slot_same]
  exact ⟨rfl, rfl, rfl, rfl, rfl, rfl, rfl, rfl, rfl, rfl, rfl, rfl, rfl, rfl, removeSled_startQueue i s.plant,
    fun j hj => removeSled_slot_other hj _, removeSled_answers (e := s.env) i s.plant,
    removeSled_events_of_room (e := s.env) (d := s.plant) i⟩

end Sys2Proof.Machine
end

section
/-! SUPPORT. A COMMAND frame that passes the arrival checks (R45 to R48): first what each condition of the admission unit
says in the spec's words, then where such a command goes, then the statement. -/

namespace Sys2Proof.Machine

variable {e : Env}

/-! ### The conditions of the admission unit -/

theorem Slot.tagInUse_eq_false_iff (tag : Byte) (r : Slot) :
    r.tagInUse tag = false ↔ (∀ h ∈ r.hold, h.tag ≠ tag) ∧ ∀ o ∈ r.outstanding, o.tag ≠ tag := by
  simp [Slot.tagInUse]

theorem Level.below_eq_false_iff (a b : Level) : a.below b = false ↔ b.rank ≤ a.rank := by
  simp [Level.below]

/-- The slot's own arrival checks pass (R45). -/
theorem arrivalCheck_eq_none {tag : Byte} {req : Level} {r : Slot} (hempty : r.state ≠ .empty)
    (hfaulted : r.state ≠ .faulted) (htag : r.tagInUse tag = false)
    (hcap : r.transitDisposition = .refuse → req.rank ≤ r.transitCap.rank) : arrivalCheck tag req r = none := by
  have hbelow : ¬(r.transitDisposition = .refuse ∧ r.transitCap.below req = true) := fun ⟨hrefuse, hb⟩ => by
    rw [(Level.below_eq_false_iff _ _).mpr (hcap hrefuse)] at hb
    exact Bool.false_ne_true hb
  simp [arrivalCheck, hempty, hfaulted, htag, hbelow]

/-- The requirement reads the class map's action for TRAP alone, so it is the same by the action captured in an entry (R44). -/
theorem requirementOf_actionOf (t : Tables) (opcode : Byte) :
    requirementOf (t.cmdClass opcode) (actionOf t opcode) = requirementOf (t.cmdClass opcode) (t.trapAction opcode) := by
  unfold actionOf
  cases t.cmdClass opcode <;> rfl

/-- The five conditions of immediate forwarding (R46). -/
theorem forwardsAtOnce_iff (cls : CmdClass) (req : Level) (r : Slot) :
    forwardsAtOnce cls req r = true ↔
      r.hold = [] ∧ cls ≠ .trap ∧ r.serves req = true ∧ r.outstanding.length < 4 ∧ r.draining = false := by
  simp only [forwardsAtOnce, Slot.mayForward, Bool.and_eq_true, List.isEmpty_iff, bne_iff_ne, decide_eq_true_eq,
    Bool.not_eq_true', and_assoc]
  exact Iff.rfl

/-- The two bounds on the held entries (R47). -/
theorem holdRoom_iff (i : SlotId) (d : Plant) :
    holdRoom e i d = true ↔ d.poolUsed < 48 ∧ (d.slot i).hold.length < e.tables.holdListLimit i := by
  simp only [holdRoom, Bool.and_eq_true, decide_eq_true_eq]
  exact Iff.rfl

/-- Under a suspension whose disposition is FREEZE a joining entry's hold timer is frozen (R57). -/
theorem joinTimer_of_frozen {r : Slot} (h : r.suspension.map Suspension.disposition = some .freeze) :
    joinTimer e r = .frozen e.tables.holdLimitMs := by
  obtain ⟨q, hq, hfreeze⟩ := Option.map_eq_some_iff.mp h
  simp [joinTimer, hq, hfreeze]

/-- Without such a suspension it runs (R57). -/
theorem joinTimer_of_not_frozen {r : Slot} (h : r.suspension.map Suspension.disposition ≠ some .freeze) :
    joinTimer e r = .running ⟨e.clock, e.tables.holdLimitMs⟩ := by
  cases hq : r.suspension with
  | none => simp [joinTimer, hq]
  | some q =>
    have hfreeze : q.disposition ≠ .freeze := fun hd => h (by simp [hq, hd])
    simp [joinTimer, hq, hfreeze]

/-! ### Where a command goes that has passed the checks -/

/-- A command for a logical unit of the map that passes the slot's checks is placed (R45, R46). -/
theorem arrive_of_passes {f : CommandFrame} {i : SlotId} {d : Plant} (hunit : e.tables.slotOfUnit f.unit.toNat = some i)
    (hcheck : arrivalCheck f.tag (newEntry e f (d.slot i)).requirement (d.slot i) = none) :
    arrive e f d = placeCommand e f i d := by
  simp only [arrive, hunit, hcheck]

theorem placeCommand_of_forwards {f : CommandFrame} {i : SlotId} {d : Plant}
    (h : forwardsAtOnce (newEntry e f (d.slot i)).cls (newEntry e f (d.slot i)).requirement (d.slot i) = true) :
    placeCommand e f i d = d.put e i ((d.slot i).forward e f.tag f.payload) := if_pos h

theorem placeCommand_of_room {f : CommandFrame} {i : SlotId} {d : Plant}
    (h : ¬forwardsAtOnce (newEntry e f (d.slot i)).cls (newEntry e f (d.slot i)).requirement (d.slot i) = true)
    (hroom : holdRoom e i d = true) :
    placeCommand e f i d = d.put e i { d.slot i with hold := (d.slot i).hold ++ [newEntry e f (d.slot i)] } :=
  (if_neg h).trans (if_pos hroom)

theorem placeCommand_of_full {f : CommandFrame} {i : SlotId} {d : Plant}
    (h : ¬forwardsAtOnce (newEntry e f (d.slot i)).cls (newEntry e f (d.slot i)).requirement (d.slot i) = true)
    (hfull : ¬holdRoom e i d = true) : placeCommand e f i d = refuseArrival f .holdFull d :=
  (if_neg h).trans (if_neg hfull)

/-- An accepted COMMAND frame is an event of the plant: its arrival (R45, R175). -/
theorem exec_command_of_accepts {f : CommandFrame} {s : State} (hs : s.accepts) (hw : f.wellFormed = true) :
    exec (.command f) s = .next (s.framed.respond (fun e d => arrive e f d)) := by
  obtain ⟨hbroken, hfree⟩ := hs
  have hmay : s.mayAccept = true := decide_eq_true hfree
  have hexec : exec (.command f) s = execCommand f s := rfl
  simp [hexec, execCommand, hbroken, hw, hmay, State.respond, State.framed]

/-- An accepted COMMAND frame does what its arrival does to the plant as it stands. -/
theorem exec_command_of_arrive_eq {f : CommandFrame} {s : State} (hs : s.accepts) (hw : f.wellFormed = true)
    {g : Env → Plant → Plant} (h : arrive s.env f s.framed.plant = g s.env s.framed.plant) :
    exec (.command f) s = .next (s.framed.respond g) := by
  have henv : s.framed.env = s.env := rfl
  rw [exec_command_of_accepts hs hw, State.respond_eq_const, State.respond_eq_const g, henv, h]

/-! ### The statement -/

/-- Settles O8: the arrival places the command, and each of the three places is one case of `placeCommand`. -/
theorem commandForwardedOrHeld : Obligations.CommandForwardedOrHeld := by
  intro f s i hs hw hunit r opcode cls req limit suspendedFrozen hempty hfaulted hheld hout hcap
  have hreq : (newEntry s.env f r).requirement = req := by
    refine (requirementOf_actionOf s.tables opcode).trans ?_
    simp only [req, cls]
    cases s.tables.cmdClass opcode with
    | free | spindle | media => rfl
    | trap =>
      cases s.tables.trapAction opcode with
      | none => rfl
      | some action => cases action <;> rfl
  have htimer : joinTimer s.env r = if suspendedFrozen then .frozen limit else .running ⟨s.clock, limit⟩ := by
    by_cases h : suspendedFrozen
    · rw [if_pos h]; exact joinTimer_of_frozen h
    · rw [if_neg h]; exact joinTimer_of_not_frozen h
  have harrive : arrive s.env f s.framed.plant = placeCommand s.env f i s.framed.plant :=
    arrive_of_passes hunit (arrivalCheck_eq_none hempty hfaulted ((Slot.tagInUse_eq_false_iff _ _).mpr ⟨hheld, hout⟩)
      (hreq ▸ hcap))
  have hroom : holdRoom s.env i s.framed.plant = true ↔
      s.plant.poolUsed < 48 ∧ r.hold.length < s.tables.holdListLimit i := holdRoom_iff i s.framed.plant
  rw [← forwardsAtOnce_iff, ← hreq]
  refine ⟨fun h => ?_, fun h => ⟨fun hr => ?_, fun hr => ?_⟩⟩
  · exact exec_command_of_arrive_eq hs hw (harrive.trans (placeCommand_of_forwards h))
  · rw [← htimer]
    exact exec_command_of_arrive_eq hs hw (harrive.trans (placeCommand_of_room h (hroom.mpr hr)))
  · exact exec_command_of_arrive_eq hs hw (harrive.trans (placeCommand_of_full h (mt hroom.mp hr)))

end Sys2Proof.Machine
end

section
/-! SUPPORT. EXPOSURE_CLEAR (R129): what a fold of one-slot operations leaves of each slot, what a UNIT_REPLY leaves of the
state, then the sixteen exposure counts, then the statement. -/

namespace Sys2Proof.Machine

variable {e : Env}

/-! ### Folds over the slots -/

theorem mem_allSlots (i : SlotId) : i ∈ allSlots := by
  revert i
  decide

theorem nodup_allSlots : allSlots.Nodup := by decide

/-- A fold of operations, each on the record of its own slot, acts once on each slot of the list and on no other. -/
theorem Plant.slot_foldl_of_local {f : Plant → SlotId → Plant} {g : SlotId → Slot → Slot}
    (hf : ∀ d i j, (f d i).slot j = if j = i then g i (d.slot i) else d.slot j) (j : SlotId) :
    ∀ (l : List SlotId) (d : Plant), l.Nodup → (l.foldl f d).slot j = if j ∈ l then g j (d.slot j) else d.slot j
  | [], _, _ => rfl
  | i :: l, d, hl => by
    obtain ⟨hi, hl⟩ := List.nodup_cons.mp hl
    rw [List.foldl_cons, Plant.slot_foldl_of_local hf j l _ hl, hf]
    by_cases hj : j = i
    · subst hj
      simp [hi]
    · simp [hj]

/-- Over all sixteen slots such a fold acts once on every record. -/
theorem Plant.slot_foldl_allSlots {f : Plant → SlotId → Plant} {g : SlotId → Slot → Slot}
    (hf : ∀ d i j, (f d i).slot j = if j = i then g i (d.slot i) else d.slot j) (d : Plant) (j : SlotId) :
    (allSlots.foldl f d).slot j = g j (d.slot j) := by
  rw [Plant.slot_foldl_of_local hf j _ d nodup_allSlots, if_pos (mem_allSlots j)]

/-! ### Requests and their replies -/

/-- A request that the case link takes and whose length is wrong is refused BAD_LENGTH (R180). -/
theorem takeRequest_of_badLength {s : State} (hs : s.accepts) {r : Request} (hw : r.args.length ≤ 63) (code : Byte)
    {lengthOk : Nat → Bool} (hl : lengthOk (r.args.length + 1) = false) (owner : State → Answered) :
    takeRequest code lengthOk r owner s = s.answered r code .badLength [] := by
  obtain ⟨hbroken, hfree⟩ := hs
  have hmay : s.mayAccept = true := decide_eq_true hfree
  simp [takeRequest, hbroken, hw, hmay, hl, State.answered, State.framed]

/-- A UNIT_REPLY goes to the tail of the upstream queue (R180). -/
@[simp] theorem State.reply_queue (tag code : Byte) (st : UnitStatus) (data : List Byte) (s : State) :
    (s.reply tag code st data).plant.link.queue = s.plant.link.queue ++ [replyFrame tag code st data] := by
  simp [State.reply]

@[simp] theorem State.reply_events (tag code : Byte) (st : UnitStatus) (data : List Byte) (s : State) :
    (s.reply tag code st data).plant.link.events = s.plant.link.events := by
  simp [State.reply, Link.push]

@[simp] theorem State.reply_slot (tag code : Byte) (st : UnitStatus) (data : List Byte) (s : State) (i : SlotId) :
    (s.reply tag code st data).plant.slot i = s.plant.slot i := by
  simp [State.reply]

/-! ### The exposure counts -/

@[simp] theorem Slot.examineCountdowns_motion (i : SlotId) (r : Slot) : (r.examineCountdowns e i).motion = r.motion := rfl

/-- The record that EXPOSURE_CLEAR with a mask leaves of a slot's record (R129). -/
def Slot.exposuresCleared (e : Env) (m : Word16) (i : SlotId) (r : Slot) : Slot :=
  if inMask m i then Slot.examineCountdowns e i { r with exposures := 0 } else r

/-- The masked count is 0 and the other counts are kept; no slot moves, and no command inside one is touched (R129). -/
theorem Slot.exposuresCleared_frame (m : Word16) (i : SlotId) (r : Slot) :
    (r.exposuresCleared e m i).exposures = (if m.getLsbD i.val then 0 else r.exposures) ∧
      (r.exposuresCleared e m i).motion = r.motion ∧ (r.exposuresCleared e m i).requested = r.requested ∧
      (r.exposuresCleared e m i).hold = r.hold ∧ (r.exposuresCleared e m i).outstanding = r.outstanding := by
  unfold Slot.exposuresCleared inMask
  split <;> exact ⟨rfl, rfl, rfl, rfl, rfl⟩

theorem clearExposure_slot (m : Word16) (d : Plant) (i j : SlotId) :
    (clearExposure e m d i).slot j = if j = i then (d.slot i).exposuresCleared e m i else d.slot j := by
  unfold clearExposure Slot.exposuresCleared
  by_cases hm : inMask m i = true
  · simp only [if_pos hm, Plant.slot_put]
  · simp only [if_neg hm]
    split
    · next hj => rw [hj]
    · rfl

theorem clearExposure_link (m : Word16) (d : Plant) (i : SlotId) : (clearExposure e m d i).link = d.link := by
  unfold clearExposure
  split <;> rfl

/-- Clearing the counts of all masked slots leaves the case link alone. -/
theorem foldl_clearExposure_link (m : Word16) (l : List SlotId) (d : Plant) :
    (l.foldl (clearExposure e m) d).link = d.link :=
  List.foldlRecOn l (clearExposure e m) (motive := fun d' => d'.link = d.link) rfl
    (fun d' hd' i _ => (clearExposure_link m d' i).trans hd')

/-- Clearing the counts of all masked slots acts once on every slot's record. -/
theorem foldl_clearExposure_slot (m : Word16) (d : Plant) (i : SlotId) :
    (allSlots.foldl (clearExposure e m) d).slot i = (d.slot i).exposuresCleared e m i :=
  Plant.slot_foldl_allSlots (g := Slot.exposuresCleared e m) (clearExposure_slot m) d i

/-- The owner of EXPOSURE_CLEAR at a mask that fails its check (R129, R180). -/
theorem exposureClearAnswer_maskCheck {r : Request} (h : reqMaskOk r = false) (s : State) :
    exposureClearAnswer r s = ⟨s, .maskCheck, []⟩ := by
  simp [exposureClearAnswer, h]

/-- The owner of EXPOSURE_CLEAR at a mask that passes its check (R129). -/
theorem exposureClearAnswer_maskOk {r : Request} (h : reqMaskOk r = true) (s : State) :
    exposureClearAnswer r s = ⟨{ s with plant := allSlots.foldl (clearExposure s.env (reqMask r)) s.plant }, .ok, []⟩ := by
  simp [exposureClearAnswer, h]

/-! ### The statement -/

/-- Settles O25, by the owner's two answers; the slots after an OK are the records that clearing the counts leaves. -/
theorem exposureClearTaken : Obligations.ExposureClearTaken := by
  intro r s hs hwf
  have hw : r.args.length ≤ 63 := of_decide_eq_true hwf
  have hexec : ∀ a : Answered, r.args.length = 4 → exposureClearAnswer r s.framed = a →
      exec (.exposureClear r) s = .next (a.state.reply r.tag 0x30 a.status a.data) := by
    rintro a hlen rfl
    exact congrArg _ (takeRequest_of_accepts hs hw _ (by simp [hlen, exactly]) _)
  refine ⟨fun hlen => ?_, fun hlen hmask => ?_, fun hlen hmask => ?_⟩
  · exact congrArg _ (takeRequest_of_badLength hs hw _ (by simp [hlen, exactly]) _)
  · exact hexec _ hlen (exposureClearAnswer_maskCheck hmask _)
  · refine ⟨_, hexec _ hlen (exposureClearAnswer_maskOk hmask _), ?_, ?_, fun i => ?_⟩
    · rw [State.reply_queue, foldl_clearExposure_link]
      rfl
    · rw [State.reply_events, foldl_clearExposure_link]
      rfl
    · rw [State.reply_slot, foldl_clearExposure_slot]
      exact Slot.exposuresCleared_frame (reqMask r) i (s.plant.slot i)

end Sys2Proof.Machine
end

section
/-! SUPPORT. PANIC_PARK (R158): which operations stay at one slot and keep the emergency record, what the response of the
blocks leaves of the record and its phase, what the parking pass does to each slot (R151), what a source taken leaves (R150,
R154), then the statement. -/

namespace Sys2Proof.Machine

variable {e : Env}

/-! ### Operations on one slot -/

/-- An operation on one slot: every other slot and the emergency record stay. -/
structure Plant.OnlyAt (i : SlotId) (d d' : Plant) : Prop where
  slot : ∀ j, j ≠ i → d'.slot j = d.slot j
  emg : d'.emg = d.emg

theorem Plant.OnlyAt.refl (i : SlotId) (d : Plant) : d.OnlyAt i d := ⟨fun _ _ => rfl, rfl⟩

theorem Plant.OnlyAt.trans {i : SlotId} {a b c : Plant} (h : a.OnlyAt i b) (g : b.OnlyAt i c) : a.OnlyAt i c :=
  ⟨fun j hj => (g.slot j hj).trans (h.slot j hj), g.emg.trans h.emg⟩

theorem Plant.put_onlyAt (i : SlotId) (r : Slot) (d : Plant) : d.OnlyAt i (d.put e i r) :=
  ⟨fun _ hj => Plant.slot_put_other e hj r d, rfl⟩

theorem abort_onlyAt (i : SlotId) (disp : Disposition) (d : Plant) : d.OnlyAt i (abort e i disp d) :=
  ⟨fun j hj => by rw [abort_slot, if_neg hj], abort_emg i disp d⟩

theorem answerHeld_onlyAt (i : SlotId) (disp : Disposition) (named : HoldEntry → Bool) (d : Plant) :
    d.OnlyAt i (answerHeld e i disp named d) :=
  ⟨fun j hj => by rw [answerHeld_slot, if_neg hj], answerHeld_emg i disp named d⟩

/-- The head answered and removed. -/
theorem answerHead_onlyAt (i : SlotId) (tag : Byte) (disp : Disposition) (status : Byte) (payload : List Byte) (d : Plant) :
    d.OnlyAt i (dropHead e i (answer e i tag disp status payload d)) :=
  ⟨fun _ hj => Plant.slot_put_other e hj _ (answer e i tag disp status payload d), rfl⟩

theorem emulationCheck_onlyAt (i : SlotId) (d : Plant) : d.OnlyAt i (emulationCheck e i d) :=
  ⟨emulationCheck_other i d, (emulationCheck_blocks i d).2⟩

theorem act_onlyAt (i : SlotId) (d : Plant) : d.OnlyAt i (act e i d) := ⟨act_other i d, (act_blocks i d).2⟩

theorem actIfChanged_onlyAt (i : SlotId) (old : Level) (d : Plant) : d.OnlyAt i (actIfChanged e i old d) := by
  unfold actIfChanged
  split
  · exact .refl i d
  · exact act_onlyAt i d

theorem settleSuspension_onlyAt (i : SlotId) (d : Plant) : d.OnlyAt i (settleSuspension e i d) := by
  unfold settleSuspension
  simp only
  split
  · exact .refl i d
  · split
    · split
      · exact .refl i d
      · split
        · exact (Plant.put_onlyAt i _ d).trans (answerHeld_onlyAt i _ _ _)
        · exact Plant.put_onlyAt i _ d
    · split
      · exact Plant.put_onlyAt i _ d
      · exact .refl i d

theorem writeRequested_onlyAt (i : SlotId) (lv : Level) (pin : Bool) (d : Plant) :
    d.OnlyAt i (writeRequested e i lv pin d) :=
  ((Plant.put_onlyAt i _ d).trans (actIfChanged_onlyAt i _ _)).trans (settleSuspension_onlyAt i _)

theorem writeBudgetCap_onlyAt (i : SlotId) (cap : BudgetCap) (d : Plant) : d.OnlyAt i (writeBudgetCap e i cap d) :=
  (Plant.put_onlyAt i _ d).trans (actIfChanged_onlyAt i _ _)

theorem writeEmergencyCap_onlyAt (cap : EmergencyCap) (d : Plant) (i : SlotId) :
    d.OnlyAt i (writeEmergencyCap e cap d i) :=
  (Plant.put_onlyAt i _ d).trans (actIfChanged_onlyAt i _ _)

/-! ### The head rules at one slot -/

theorem becomeHead_onlyAt (i : SlotId) (h : HoldEntry) (d : Plant) : d.OnlyAt i (becomeHead e i h d) := by
  have hmark : d.OnlyAt i (d.put e i (d.slot i).markHead) := Plant.put_onlyAt i _ d
  unfold becomeHead
  simp only
  split
  · exact hmark
  · split
    · exact hmark.trans (writeRequested_onlyAt i _ _ _)
    · exact hmark.trans (answerHead_onlyAt i _ _ _ _ _)

theorem trapAct_onlyAt (i : SlotId) (h : HoldEntry) (d : Plant) : d.OnlyAt i (trapAct e i h d) := by
  have hwrite : d.OnlyAt i (writeRequested e i h.requirement false (d.put e i (d.slot i).markEmulating)) :=
    (Plant.put_onlyAt i _ d).trans (writeRequested_onlyAt i _ _ _)
  have hcheck := hwrite.trans (emulationCheck_onlyAt (e := e) i _)
  unfold trapAct
  cases h.action with
  | none => exact answerHead_onlyAt i _ _ _ _ d
  | some action =>
    cases action with
    | report => exact answerHead_onlyAt i _ _ _ _ d
    | toStop | toSpin | toLoad =>
      simp only
      split
      · exact hcheck
      · exact hwrite

theorem headStep_onlyAt {i : SlotId} {d d' : Plant} (h : headStep e i d = some d') : d.OnlyAt i d' := by
  unfold headStep at h
  split at h
  · cases h
  · split at h
    · cases h
      exact becomeHead_onlyAt i _ d
    · split at h
      · split at h
        · cases h
        · cases h
          exact trapAct_onlyAt i _ d
      · split at h
        · cases h
          exact Plant.put_onlyAt i _ d
        · cases h

theorem headLoop_onlyAt (i : SlotId) : ∀ (n : Nat) (d : Plant), d.OnlyAt i (headLoop e i n d)
  | 0, d => .refl i d
  | n + 1, d => by
    unfold headLoop
    split
    · exact .refl i d
    · next d' hstep => exact (headStep_onlyAt hstep).trans (headLoop_onlyAt i n d')

theorem serveHead_onlyAt (i : SlotId) (d : Plant) : d.OnlyAt i (serveHead e i d) := headLoop_onlyAt i _ d

/-! ### The emergency record under the response of the blocks -/

/-- A fold of operations that keep the emergency record keeps it. -/
theorem Plant.foldl_emg {α : Type} {f : Plant → α → Plant} (hf : ∀ d x, (f d x).emg = d.emg) (l : List α) (d : Plant) :
    (l.foldl f d).emg = d.emg :=
  List.foldlRecOn l f (motive := fun d' => d'.emg = d.emg) rfl (fun d' hd' x _ => (hf d' x).trans hd')

@[simp] theorem serveHeads_emg (d : Plant) : (serveHeads e d).emg = d.emg :=
  Plant.foldl_emg (fun d i => (serveHead_onlyAt i d).emg) allSlots d

@[simp] theorem writeEmergencyCaps_emg (cap : EmergencyCap) (d : Plant) : (writeEmergencyCaps e cap d).emg = d.emg :=
  Plant.foldl_emg (fun d i => (writeEmergencyCap_onlyAt cap d i).emg) allSlots d

theorem takeVictims_emg (d : Plant) : (takeVictims e d).emg = d.emg := by
  refine Plant.foldl_emg (fun d i => ?_) _ d
  unfold takeVictim
  split
  · exact (writeBudgetCap_onlyAt i .stop d).emg
  · rfl

theorem beginShed_emg (d : Plant) : (beginShed e d).emg = d.emg :=
  (Plant.record_emg _ _ _).trans (takeVictims_emg _)

theorem endShed_emg (d : Plant) : (endShed e d).emg = d.emg :=
  (Plant.foldl_emg (fun d i => (writeBudgetCap_onlyAt i .none d).emg) _ _).trans (Plant.record_emg _ _ _)

@[simp] theorem shedReact_emg (d : Plant) : (shedReact e d).emg = d.emg := by
  unfold shedReact
  split
  · split
    · exact endShed_emg d
    · split
      · exact takeVictims_emg d
      · rfl
  · split
    · exact beginShed_emg d
    · rfl

theorem serveLoad_emg (d : Plant) (i : SlotId) : (serveLoad e d i).emg = d.emg := by
  unfold serveLoad
  split
  · exact (grantLoad_blocks i d).2
  · rfl

theorem grantStart_emg (i : SlotId) (d : Plant) : (grantStart e i d).emg = d.emg := by
  simp [grantStart, (takeOvercurrent_blocks i _).2.2]

theorem serveStart_emg (d : Plant) : (serveStart e d).emg = d.emg := by
  unfold serveStart
  split
  · split
    · exact grantStart_emg _ d
    · rfl
  · rfl

@[simp] theorem servePass_emg (d : Plant) : (servePass e d).emg = d.emg := by
  unfold servePass
  split
  · rfl
  · exact (serveStart_emg _).trans (Plant.foldl_emg serveLoad_emg allSlots d)

@[simp] theorem budgetReact_emg (d : Plant) : (budgetReact e d).emg = d.emg := by
  simp [budgetReact]

/-- The examination of the phase changes nothing of the emergency record but the phase (R155). -/
theorem examinePhase_emg (d : Plant) : ∃ phase, (examinePhase e d).emg = { d.emg with phase := phase } := by
  unfold examinePhase
  split
  · exact ⟨some .parked, Plant.record_emg _ _ _⟩
  · exact ⟨d.emg.phase, rfl⟩

/-- The phase is examined only while it is PARKING (R155). -/
theorem examinePhase_of_not_parking {d : Plant} (h : d.emg.phase ≠ some .parking) : examinePhase e d = d := by
  simp [examinePhase, h]

theorem refreshSettle_phase (d : Plant) : (refreshSettle e d).emg.phase = d.emg.phase := by
  unfold refreshSettle
  split
  · split <;> rfl
  · rfl

/-- The response of the blocks leaves a phase that is not PARKING as it is (R155). -/
theorem react_phase_of_not_parking {d : Plant} (h : d.emg.phase ≠ some .parking) :
    (react e d).emg.phase = d.emg.phase := by
  have hemg : (serveHeads e (budgetReact e (serveHeads e (budgetReact e d)))).emg = d.emg := by
    simp
  unfold react
  rw [refreshSettle_phase, examinePhase_of_not_parking (by rw [hemg]; exact h), hemg]

@[simp] theorem examinePhase_slot (d : Plant) (i : SlotId) : (examinePhase e d).slot i = d.slot i := by
  unfold examinePhase
  split
  · exact Plant.record_slot _ _ _ i
  · rfl

/-! ### The parking pass (R151) -/

/-- A fold of operations, each on its own slot, acts on a slot of the list as the slot's operation does on some plant that
holds the slot's record as it stood. -/
theorem Plant.slot_foldl_of_others {f : Plant → SlotId → Plant} (hf : ∀ d i j, j ≠ i → (f d i).slot j = d.slot j)
    {j : SlotId} {l : List SlotId} (hl : l.Nodup) (hj : j ∈ l) (d : Plant) :
    ∃ d', d'.slot j = d.slot j ∧ (l.foldl f d).slot j = (f d' j).slot j := by
  induction l generalizing d with
  | nil => cases hj
  | cons i l ih =>
    obtain ⟨hi, hl⟩ := List.nodup_cons.mp hl
    by_cases hij : j = i
    · subst hij
      exact ⟨d, rfl, List.foldlRecOn l f (motive := fun d' => d'.slot j = (f d j).slot j) rfl
        (fun d' hd' k hk => (hf d' k j (fun h => hi (h ▸ hk))).trans hd')⟩
    · obtain ⟨d', hd', hfold⟩ := ih hl ((List.mem_cons.mp hj).resolve_left hij) (f d i)
      exact ⟨d', hd'.trans (hf d i j hij), hfold⟩

/-- A slot whose motion is that of a slot in UNLOADING is inert (R5). -/
theorem Slot.inert_of_motion {r : Slot} {m : Slot.Motion} (h : r.motion = m) (hm : m.state = .unloading) :
    r.inert = true := by
  have hs : r.state = .unloading := (congrArg Slot.Motion.state h).trans hm
  simp [Slot.inert, hs]

/-- The slots that the parking pass parks (Table 8-2). -/
theorem Slot.toBeParked_iff (r : Slot) :
    r.toBeParked = true ↔ r.headsOut = true ∧ ¬(r.state = .unloading ∧ r.unloadMark = .fault) := by
  simp [Slot.toBeParked, imp_iff_not_or]

/-- An unload order sends the slot to UNLOADING under the order's next number (R28). -/
theorem Slot.toUnloading_motion (i : SlotId) (kind : OrderKind) (mark : UnloadMark) (r : Slot) :
    (r.toUnloading e i kind mark).motion =
      r.motion.unloading kind r.lane.nextOrder ⟨e.clock, e.tables.orderMs i kind⟩ mark := by
  unfold Slot.toUnloading Slot.issue Lane.begin
  cases r.lane.tx <;> rfl

/-- The motion of a slot that is parked (R151): UNLOADING with mark EMERGENCY under an EMERGENCY_UNLOAD, in the next lane
epoch. -/
def Slot.parkedMotion (e : Env) (i : SlotId) (r : Slot) : Slot.Motion :=
  { r.motion.unloading .emergencyUnload r.lane.nextOrder ⟨e.clock, e.tables.unloadMs i⟩ .emergency with
    epoch := r.epoch + 1 }

/-- The motion that the parking pass leaves of a slot (Table 8-2). -/
def Slot.passedMotion (e : Env) (i : SlotId) (r : Slot) : Slot.Motion :=
  if r.toBeParked then r.parkedMotion e i else r.motion

/-- A slot whose heads may be out and that carries no FAULT mark is parked (Table 8-2). -/
theorem Slot.passedMotion_of_headsOut {i : SlotId} {r : Slot}
    (h : r.headsOut = true ∧ ¬(r.state = .unloading ∧ r.unloadMark = .fault)) :
    r.passedMotion e i = r.parkedMotion e i := if_pos (r.toBeParked_iff.mpr h)

/-- A slot in UNLOADING with mark FAULT keeps its motion (Table 8-2). -/
theorem Slot.passedMotion_of_fault {i : SlotId} {r : Slot} (h : r.state = .unloading ∧ r.unloadMark = .fault) :
    r.passedMotion e i = r.motion := if_neg (fun hpark => (r.toBeParked_iff.mp hpark).2 h)

/-- An abort changes nothing of a slot's motion but the lane epoch (R64). -/
theorem abort_motion (i : SlotId) (disp : Disposition) (d : Plant) :
    ((abort e i disp d).slot i).motion = { (d.slot i).motion with epoch := (d.slot i).epoch + 1 } := by
  rw [abort_slot, if_pos rfl]
  rfl

theorem parkSlot_onlyAt (d : Plant) (i : SlotId) : d.OnlyAt i (parkSlot e d i) := by
  unfold parkSlot
  split
  · exact ((Plant.put_onlyAt i _ d).trans (abort_onlyAt i _ _)).trans (serveHead_onlyAt i _)
  · exact .refl i d

/-- What the pass does to the motion of its slot; the head that is then examined does not move it. -/
theorem parkSlot_motion (d : Plant) (i : SlotId) :
    ((parkSlot e d i).slot i).motion = (d.slot i).passedMotion e i := by
  unfold parkSlot Slot.passedMotion
  split
  · have hparked : ((abort e i .abortedEmergency (d.put e i ((d.slot i).toUnloading e i .emergencyUnload .emergency))).slot
        i).motion = (d.slot i).parkedMotion e i := by
      rw [abort_motion, Plant.slot_put_same, Slot.examineCountdowns_motion, Slot.toUnloading_motion]
      rfl
    have hinert := Slot.inert_of_motion hparked rfl
    exact ((serveHead_calm i _).rests i hinert).motion.trans hparked
  · rfl

/-- What the whole pass does to the motion of every slot. -/
theorem parkSlots_motion (d : Plant) (i : SlotId) :
    ((allSlots.foldl (parkSlot e) d).slot i).motion = (d.slot i).passedMotion e i := by
  obtain ⟨d', hslot, hfold⟩ := Plant.slot_foldl_of_others (fun d i => (parkSlot_onlyAt (e := e) d i).slot)
    nodup_allSlots (mem_allSlots i) d
  rw [hfold, parkSlot_motion, hslot]

@[simp] theorem parkSlots_emg (d : Plant) : (allSlots.foldl (parkSlot e) d).emg = d.emg :=
  Plant.foldl_emg (fun d i => (parkSlot_onlyAt d i).emg) allSlots d

/-! ### A source taken (R150, R154) -/

theorem takeSource_of_clear {d : Plant} (h : d.emg.latched = false) (q : EmgSource) :
    takeSource e q d = latchEmergency e q d := by
  simp [takeSource, h]

theorem takeSource_of_latched {d : Plant} (h : d.emg.latched = true) (q : EmgSource) :
    takeSource e q d = addSource e q d := by
  simp [takeSource, h]

/-- The record that a first source leaves, the phase aside (R150). -/
theorem latchEmergency_emg (q : EmgSource) (d : Plant) : ∃ phase, (latchEmergency e q d).emg =
    ⟨true, SourceSet.empty.add q, some q, some e.clock, phase, sourceCap q, d.emg.settle⟩ := by
  unfold latchEmergency
  obtain ⟨phase, hphase⟩ := examinePhase_emg (e := e) _
  refine ⟨phase, hphase.trans ?_⟩
  simp only [Plant.record_emg, writeEmergencyCaps_emg, parkSlots_emg]

theorem writeEmergencyCap_calm (cap : EmergencyCap) (d : Plant) (i : SlotId) : d.Calm (writeEmergencyCap e cap d i) := by
  have hput : d.Calm (d.put e i { d.slot i with emergencyCap := cap }) :=
    Plant.Calm.put i _ (fun _ => ⟨rfl, fun h => ⟨rfl, h⟩⟩)
  exact hput.trans (actIfChanged_calm i _ _)

/-- The cap written into every slot moves no inert slot (R5, R153). -/
theorem writeEmergencyCaps_motion (cap : EmergencyCap) {d : Plant} {i : SlotId} (h : (d.slot i).inert = true) :
    ((writeEmergencyCaps e cap d).slot i).motion = (d.slot i).motion :=
  ((Plant.Calm.foldl _ (writeEmergencyCap_calm cap) allSlots d).rests i h).motion

/-- A slot that the parking pass leaves in UNLOADING has at the end of a first source the motion that the pass left it:
neither the cap written into it nor the examination of the phase moves it. -/
theorem latchEmergency_motion {i : SlotId} {d : Plant} (h : ((d.slot i).passedMotion e i).state = .unloading)
    (q : EmgSource) : ((latchEmergency e q d).slot i).motion = (d.slot i).passedMotion e i := by
  unfold latchEmergency
  simp only [examinePhase_slot, Plant.record_slot, Plant.slot_emg]
  rw [writeEmergencyCaps_motion, Plant.slot_emg, parkSlots_motion, Plant.slot_emg]
  rw [Plant.slot_emg]
  exact Slot.inert_of_motion (parkSlots_motion _ i) h

theorem SourceSet.add_of_has {q : SourceSet} {x : EmgSource} (h : q.has x = true) : q.add x = q := by
  obtain ⟨fall, jolt, power, panic⟩ := q
  cases x with
  | fall | jolt | power | panic =>
    cases h
    rfl

/-- A further source other than POWER leaves the cap (R154): it is in the set afterwards, and nothing else of the record
changes. -/
theorem addSource_emg {q : EmgSource} (hq : q ≠ .power) (d : Plant) :
    (addSource e q d).emg = { d.emg with sources := d.emg.sources.add q } := by
  unfold addSource
  split
  · next hhas => rw [SourceSet.add_of_has hhas]
  · simp [hq]

theorem addSource_slot {q : EmgSource} (hq : q ≠ .power) (d : Plant) (i : SlotId) :
    (addSource e q d).slot i = d.slot i := by
  unfold addSource
  split
  · rfl
  · simp [hq]

/-! ### A source taken, with the response of the blocks -/

/-- The record after a first source and the response to it (R150). -/
theorem react_takeSource_emg_of_clear {d : Plant} (h : d.emg.latched = false) (q : EmgSource) :
    let g := (react e (takeSource e q d)).emg
    g.latched = true ∧ g.sources = SourceSet.empty.add q ∧ g.firstSource = some q ∧ g.firstTime = some e.clock ∧
      g.cap = sourceCap q := by
  have hkept := (react_responds (e := e) (takeSource e q d)).emg
  obtain ⟨phase, hemg⟩ := latchEmergency_emg (e := e) q d
  rw [takeSource_of_clear h, hemg] at hkept
  rwa [takeSource_of_clear h]

/-- After a first source and the response to it every slot that the parking pass left in UNLOADING has the motion that the
pass left it (R151). -/
theorem react_takeSource_motion_of_clear {d : Plant} (h : d.emg.latched = false) (q : EmgSource) {i : SlotId}
    (hs : ((d.slot i).passedMotion e i).state = .unloading) :
    ((react e (takeSource e q d)).slot i).motion = (d.slot i).passedMotion e i := by
  have hlatch := latchEmergency_motion hs q
  rw [takeSource_of_clear h]
  exact ((react_responds _).motion i (Slot.inert_of_motion hlatch hs)).trans hlatch

/-- The record after a further source other than POWER and the response to it (R154). -/
theorem react_takeSource_emg_of_latched {d : Plant} (h : d.emg.latched = true) {q : EmgSource} (hq : q ≠ .power) :
    let g := (react e (takeSource e q d)).emg
    g.latched = d.emg.latched ∧ g.sources = d.emg.sources.add q ∧ g.firstSource = d.emg.firstSource ∧
      g.firstTime = d.emg.firstTime ∧ g.cap = d.emg.cap := by
  have hkept := (react_responds (e := e) (takeSource e q d)).emg
  rw [takeSource_of_latched h, addSource_emg hq] at hkept
  rwa [takeSource_of_latched h]

/-- A further source leaves the phase as it is once that is no longer PARKING (R155). -/
theorem react_takeSource_phase_of_latched {d : Plant} (h : d.emg.latched = true) {q : EmgSource} (hq : q ≠ .power)
    (hp : d.emg.phase ≠ some .parking) : (react e (takeSource e q d)).emg.phase = d.emg.phase := by
  have hphase : (addSource e q d).emg.phase = d.emg.phase := by rw [addSource_emg hq]
  rw [takeSource_of_latched h, react_phase_of_not_parking (by rwa [hphase]), hphase]

/-- A further source and the response to it move no inert slot (R154). -/
theorem react_takeSource_motion_of_latched {d : Plant} (h : d.emg.latched = true) {q : EmgSource} (hq : q ≠ .power)
    {i : SlotId} (hi : (d.slot i).inert = true) : ((react e (takeSource e q d)).slot i).motion = (d.slot i).motion := by
  have hkept := (react_responds (e := e) (takeSource e q d)).motion i
  rw [takeSource_of_latched h, addSource_slot hq] at hkept
  rw [takeSource_of_latched h]
  exact hkept hi

/-! ### Requests that change the plant -/

@[simp] theorem State.answeredWith_slot (f : Env → Plant → Plant) (r : Request) (code : Byte) (st : UnitStatus)
    (data : List Byte) (s : State) (i : SlotId) :
    (s.answeredWith f r code st data).plant.slot i = (f s.env s.framed.plant).slot i :=
  State.reply_slot _ _ _ _ _ i

@[simp] theorem State.answeredWith_emg (f : Env → Plant → Plant) (r : Request) (code : Byte) (st : UnitStatus)
    (data : List Byte) (s : State) : (s.answeredWith f r code st data).plant.emg = (f s.env s.framed.plant).emg := by
  simp [State.answeredWith, State.reply]

/-- The UNIT_REPLY follows every frame that the request's own moves have queued (R180; log 36). -/
theorem State.answeredWith_repliedTo {f : Env → Plant → Plant} (hf : ∀ e d, Plant.Reach e d (f e d)) (r : Request)
    (code : Byte) (st : UnitStatus) (data : List Byte) (s : State) :
    s.repliedTo (s.answeredWith f r code st data) r code st data := by
  obtain ⟨⟨fs, hfs⟩, -⟩ := (hf s.env s.framed.plant).shape
  refine ⟨fs, (State.reply_queue _ _ _ _ _).trans ?_⟩
  rw [← hfs]
  rfl

/-! ### The statement -/

/-- PANIC_PARK takes the source PANIC (R158). -/
theorem exec_panicPark_of_accepts {s : State} (hs : s.accepts) (tag : Byte) : exec (.panicPark ⟨tag, []⟩) s =
    .next (s.answeredWith (fun e d => react e (takeSource e .panic d)) ⟨tag, []⟩ 0x20 .ok []) :=
  congrArg _ (takeRequest_of_accepts hs (by simp) _ rfl _)

/-- Settles O22: with the latch clear by what a first source leaves, with the latch set by what a further source leaves. -/
theorem panicParkTaken : Obligations.PanicParkTaken := by
  intro tag s hs
  have hreach : ∀ e d, Plant.Reach e d (react e (takeSource e .panic d)) := fun _ d =>
    (takeSource_reach .panic d).trans (react_reach _)
  refine ⟨_, exec_panicPark_of_accepts hs tag, State.answeredWith_repliedTo hreach _ _ _ _ s, rfl, ?_⟩
  simp only [State.answeredWith_emg, State.answeredWith_slot]
  cases hlatch : s.plant.emg.latched with
  | false =>
    have hclear : s.framed.plant.emg.latched = false := hlatch
    obtain ⟨hlatched, hsources, hfirst, htime, hcap⟩ := react_takeSource_emg_of_clear (e := s.env) hclear .panic
    have hmotion : ∀ {i : SlotId} {m : Slot.Motion}, (s.plant.slot i).passedMotion s.env i = m → m.state = .unloading →
        ((react s.env (takeSource s.env .panic s.framed.plant)).slot i).motion = m := by
      rintro i m rfl hs
      exact react_takeSource_motion_of_clear hclear .panic hs
    exact ⟨hlatched, congrArg SourceSet.panic hsources, fun _ => ⟨hsources, hfirst, htime, hcap, fun i =>
      ⟨fun hpark => hmotion (Slot.passedMotion_of_headsOut hpark) rfl,
        fun hfault => hmotion (Slot.passedMotion_of_fault hfault) hfault.1⟩⟩, nofun⟩
  | true =>
    have hset : s.framed.plant.emg.latched = true := hlatch
    have hpanic : EmgSource.panic ≠ .power := nofun
    obtain ⟨hlatched, hsources, hfirst, htime, hcap⟩ := react_takeSource_emg_of_latched (e := s.env) hset hpanic
    refine ⟨hlatched.trans hset, congrArg SourceSet.panic hsources, nofun,
      fun _ => ⟨hsources, hfirst, htime, hcap, fun hparked => ?_, fun i hinert => ?_⟩⟩
    · have hphase : s.framed.plant.emg.phase = some .parked := hparked
      rw [react_takeSource_phase_of_latched hset hpanic (by rw [hphase]; nofun), hphase]
    · exact react_takeSource_motion_of_latched hset hpanic hinert

end Sys2Proof.Machine
end

section
/-! SUPPORT. STAGE_WRITE (R165, R166): a request too long for a frame, what the write makes of the staging buffer, the answers
of the owner, then the statement. -/

namespace Sys2Proof.Machine

/-- A request whose payload no frame can carry is discarded (R175). -/
theorem takeRequest_of_tooLong {s : State} (hs : s.accepts) {r : Request} (hw : 63 < r.args.length) (code : Byte)
    (lengthOk : Nat → Bool) (owner : State → Answered) :
    takeRequest code lengthOk r owner s = s.onLink Link.discardFrame := by
  have hlong : ¬ r.args.length ≤ 63 := by omega
  simp [takeRequest, hs.1, hlong]

theorem TableId.ofCode_of_lt {n : Nat} (h : 7 < n) : TableId.ofCode n = none := by
  obtain ⟨k, rfl⟩ := Nat.exists_eq_add_of_le' (show 8 ≤ n from h)
  rfl

/-- A range of at least one byte lies within a table exactly when its last byte does (R165). -/
theorem rangeInTable_iff {id : TableId} {offset length : Nat} (h : 1 ≤ length) :
    rangeInTable id offset length = true ↔ offset + length - 1 < id.size := by
  unfold rangeInTable
  rw [decide_eq_true_iff]
  omega

/-! ### The staging buffer after a write -/

/-- Data that meets the four conditions of R165 goes to the end of the buffer. -/
theorem stageInto_of_append {id : TableId} {offset : Nat} {data : List Byte} {g : Staged} (hid : g.table = id)
    (hoffset : offset = g.start + g.data.length - 1 + 1) (hroom : g.data.length + data.length ≤ 64) :
    stageInto id offset data (some g) = { g with data := g.data ++ data } :=
  if_pos ⟨hid, hoffset, hroom⟩

/-- Data that does not meet them all replaces what the buffer holds (R166). -/
theorem stageInto_of_replace {id : TableId} {offset : Nat} {data : List Byte} {buffer : Option Staged}
    (h : ∀ g, buffer = some g → ¬(g.table = id ∧ offset = g.start + g.data.length - 1 + 1 ∧
      g.data.length + data.length ≤ 64)) : stageInto id offset data buffer = ⟨id, offset, data⟩ := by
  cases buffer with
  | none => rfl
  | some g => exact if_neg (h g rfl)

/-! ### The answers of the owner -/

section Answers

variable {tag table offset : Byte} {data : List Byte}

theorem stageWriteAnswer_badTable (h : 7 < table.toNat) (s : State) :
    stageWriteAnswer ⟨tag, table :: offset :: data⟩ s = ⟨s, .badTable, []⟩ := by
  have hcode : TableId.ofCode (reqU8 ⟨tag, table :: offset :: data⟩ 0) = none := TableId.ofCode_of_lt h
  simp [stageWriteAnswer, hcode]

/-- With a known table, the write is taken when its range lies within the table. -/
theorem stageWriteAnswer_of_table {id : TableId} (h : TableId.ofCode table.toNat = some id) (s : State) :
    stageWriteAnswer ⟨tag, table :: offset :: data⟩ s =
      if rangeInTable id offset.toNat data.length then
        ⟨{ s with staging := some (stageInto id offset.toNat data s.staging) }, .ok,
          (stageInto id offset.toNat data s.staging).summary⟩
      else ⟨s, .outOfRange, []⟩ := by
  have hcode : TableId.ofCode (reqU8 ⟨tag, table :: offset :: data⟩ 0) = some id := h
  simp only [stageWriteAnswer, hcode]
  rfl

end Answers

/-! ### The statement -/

/-- Settles O26, by the answers of the owner and what the write makes of the staging buffer. -/
theorem stageWriteTaken : Obligations.StageWriteTaken := by
  refine ⟨fun tag table offset s hs => ?_, fun tag table offset data s hs hlong => ?_,
    fun tag table offset data s hs hone hmax => ?_⟩
  · exact congrArg _ (takeRequest_of_badLength hs (by simp) _ rfl _)
  · exact congrArg _ (takeRequest_of_tooLong hs (by simp; omega) _ _ _)
  · have hexec : ∀ a : Answered, stageWriteAnswer ⟨tag, table :: offset :: data⟩ s.framed = a →
        exec (.stageWrite ⟨tag, table :: offset :: data⟩) s = .next (a.state.reply tag 0x28 a.status a.data) := by
      rintro a rfl
      exact congrArg _ (takeRequest_of_accepts hs (by simp; omega) _ (by simp [within]; omega) _)
    refine ⟨fun htable => hexec _ (stageWriteAnswer_badTable htable _), fun id hid => ⟨fun hout => ?_, fun hin => ?_⟩⟩
    · have hrange : ¬ rangeInTable id offset.toNat data.length = true := by
        rw [rangeInTable_iff hone]
        omega
      exact hexec _ ((stageWriteAnswer_of_table hid _).trans (if_neg hrange))
    · have hstaged : ∀ g, stageInto id offset.toNat data s.staging = g →
          exec (.stageWrite ⟨tag, table :: offset :: data⟩) s =
            .next ({ s with staging := some g }.answered ⟨tag, table :: offset :: data⟩ 0x28 .ok g.summary) := by
        rintro g rfl
        exact hexec _ ((stageWriteAnswer_of_table hid _).trans (if_pos ((rangeInTable_iff hone).mpr hin)))
      refine ⟨fun g hg htable hoffset hroom => hstaged _ ?_, fun hnone => hstaged _ (stageInto_of_replace hnone)⟩
      rw [hg]
      exact stageInto_of_append htable hoffset hroom

end Sys2Proof.Machine
end

section
/-! SUPPORT. The transit policy under the operations of the other blocks (R132, R135): what of a slot's record they keep, that a
write of the requested level settles the suspension again, and that the response of the blocks keeps a slot under the policy. -/

namespace Sys2Proof.Machine

variable {e : Env}

/-! ### A slot under the policy -/

/-- What the transit controller reads of a slot's record beside the slot's state. -/
def Slot.transit (r : Slot) : Level × Level × TransitDisposition × Option Suspension × List HoldEntry :=
  (r.requested, r.transitCap, r.transitDisposition, r.suspension, r.hold)

/-- What every block but the transit controller keeps of a slot's record: the requested level, the transit cap and disposition;
of a slot in service the suspension; and the held entries, but for those answered or released. No slot comes into service. -/
structure Slot.SameTransit (r r' : Slot) : Prop where
  requested : r'.requested = r.requested
  cap : r'.transitCap = r.transitCap
  disposition : r'.transitDisposition = r.transitDisposition
  service : r'.outOfService = false → r.outOfService = false ∧ r'.suspension = r.suspension
  hold : r'.hold.map HoldEntry.requirement ⊆ r.hold.map HoldEntry.requirement

theorem Slot.SameTransit.refl (r : Slot) : r.SameTransit r := ⟨rfl, rfl, rfl, fun h => ⟨h, rfl⟩, List.Subset.refl _⟩

theorem Slot.SameTransit.trans {a b c : Slot} (h : a.SameTransit b) (g : b.SameTransit c) : a.SameTransit c :=
  have hservice : c.outOfService = false → a.outOfService = false ∧ c.suspension = a.suspension := fun hc => by
    obtain ⟨hb, hcb⟩ := g.service hc
    obtain ⟨ha, hba⟩ := h.service hb
    exact ⟨ha, hcb.trans hba⟩
  ⟨g.requested.trans h.requested, g.cap.trans h.cap, g.disposition.trans h.disposition, hservice,
    List.Subset.trans g.hold h.hold⟩

theorem Slot.SameTransit.of_transit {r r' : Slot} (h : r'.transit = r.transit)
    (hs : r'.outOfService = false → r.outOfService = false) : r.SameTransit r' := by
  simp only [Slot.transit, Prod.mk.injEq] at h
  obtain ⟨hrequested, hcap, hdisposition, hsuspension, hhold⟩ := h
  exact ⟨hrequested, hcap, hdisposition, fun h => ⟨hs h, hsuspension⟩, by rw [hhold]; exact List.Subset.refl _⟩

/-- The suspension record exists exactly while the cap is below the requested level (R135). -/
def Slot.suspensionFits (r : Slot) : Prop :=
  r.outOfService = false → (r.suspension.isSome = true ↔ r.transitCap.rank < r.requested.rank)

/-- What `Slot.underPolicy` says beside `Slot.suspensionFits`: a write of the requested level keeps it throughout. -/
structure Slot.Governed (t : Tables) (c : MotionClass) (i : SlotId) (r : Slot) : Prop where
  cap : r.transitCap = t.policyCap c (t.group i)
  disposition : r.transitDisposition = t.policyDisposition c (t.group i)
  suspension : r.outOfService = false → ∀ q, r.suspension = some q → q.cls = c ∧ q.disposition = r.transitDisposition
  hold : r.transitDisposition = .refuse → ∀ h ∈ r.hold, h.requirement.rank ≤ r.transitCap.rank

variable {t : Tables} {c : MotionClass} {i : SlotId} {r r' : Slot}

theorem Slot.underPolicy_iff : r.underPolicy t c i ↔ r.Governed t c i ∧ r.suspensionFits :=
  ⟨fun ⟨hcap, hdisp, hsus, hhold⟩ => ⟨⟨hcap, hdisp, fun h => (hsus h).2, hhold⟩, fun h => (hsus h).1⟩,
    fun ⟨⟨hcap, hdisp, hsus, hhold⟩, hfits⟩ => ⟨hcap, hdisp, fun h => ⟨hfits h, hsus h⟩, hhold⟩⟩

/-- A governed slot stays so when its suspension is still one of the class and the disposition, and no entry joins. -/
theorem Slot.Governed.of_hold (h : r.Governed t c i) (hcap : r'.transitCap = r.transitCap)
    (hdisp : r'.transitDisposition = r.transitDisposition)
    (hsus : r'.outOfService = false → ∀ q, r'.suspension = some q → q.cls = c ∧ q.disposition = r.transitDisposition)
    (hhold : r'.hold.map HoldEntry.requirement ⊆ r.hold.map HoldEntry.requirement) : r'.Governed t c i := by
  refine ⟨hcap.trans h.cap, hdisp.trans h.disposition, by rwa [hdisp], fun href x hx => ?_⟩
  obtain ⟨y, hy, hyx⟩ := List.mem_map.mp (hhold (List.mem_map_of_mem hx))
  rw [hcap, ← hyx]
  exact h.hold (hdisp.symm.trans href) y hy

theorem Slot.SameTransit.governed (k : r.SameTransit r') (h : r.Governed t c i) : r'.Governed t c i :=
  h.of_hold k.cap k.disposition
    (fun hs q hq => h.suspension (k.service hs).1 q ((k.service hs).2.symm.trans hq)) k.hold

theorem Slot.SameTransit.underPolicy (k : r.SameTransit r') (h : r.underPolicy t c i) : r'.underPolicy t c i := by
  obtain ⟨hgov, hfits⟩ := Slot.underPolicy_iff.mp h
  refine Slot.underPolicy_iff.mpr ⟨k.governed hgov, fun hs => ?_⟩
  rw [(k.service hs).2, k.cap, k.requested]
  exact hfits (k.service hs).1

/-- What every operation keeps but an application of the policy to the slot: its transit cap and disposition, and, in the class
in force, that the slot is under the policy. -/
structure Slot.StaysUnder (c : MotionClass) (r r' : Slot) : Prop where
  cap : r'.transitCap = r.transitCap
  disposition : r'.transitDisposition = r.transitDisposition
  policy : ∀ t i, r.underPolicy t c i → r'.underPolicy t c i

theorem Slot.StaysUnder.refl (c : MotionClass) (r : Slot) : r.StaysUnder c r := ⟨rfl, rfl, fun _ _ h => h⟩

theorem Slot.StaysUnder.trans {a b d : Slot} (h : a.StaysUnder c b) (g : b.StaysUnder c d) : a.StaysUnder c d :=
  ⟨g.cap.trans h.cap, g.disposition.trans h.disposition, fun t i hu => g.policy t i (h.policy t i hu)⟩

theorem Slot.SameTransit.staysUnder (k : r.SameTransit r') : r.StaysUnder c r' :=
  ⟨k.cap, k.disposition, fun _ _ h => k.underPolicy h⟩

/-! ### The two relations over the slots of a plant -/

/-- Every slot's record is kept as `Slot.SameTransit` says. -/
def Plant.SameTransit (d d' : Plant) : Prop := ∀ j, (d.slot j).SameTransit (d'.slot j)

theorem Plant.SameTransit.refl (d : Plant) : d.SameTransit d := fun _ => .refl _

theorem Plant.SameTransit.trans {a b c : Plant} (h : a.SameTransit b) (g : b.SameTransit c) : a.SameTransit c :=
  fun j => (h j).trans (g j)

theorem Plant.SameTransit.of_slots {d d' : Plant} (h : d'.slots = d.slots) : d.SameTransit d' := fun j => by
  rw [Plant.slot_congr h]
  exact .refl _

theorem Plant.SameTransit.put {d : Plant} (i : SlotId) (r : Slot) (h : (d.slot i).SameTransit r) :
    d.SameTransit (d.put e i r) := fun j => by
  rw [Plant.slot_put]
  split
  · next hj =>
    subst hj
    exact h.trans (.of_transit rfl id)
  · exact .refl _

theorem Plant.SameTransit.foldl {α : Type} {f : Plant → α → Plant} (hf : ∀ d x, Plant.SameTransit d (f d x)) (l : List α)
    (d : Plant) : d.SameTransit (l.foldl f d) :=
  List.foldlRecOn l f (motive := d.SameTransit) (.refl d) (fun d' hd' x _ => hd'.trans (hf d' x))

/-- Every slot is kept as `Slot.StaysUnder` says. -/
def Plant.StaysUnder (c : MotionClass) (d d' : Plant) : Prop := ∀ j, (d.slot j).StaysUnder c (d'.slot j)

theorem Plant.StaysUnder.refl (c : MotionClass) (d : Plant) : d.StaysUnder c d := fun _ => .refl c _

theorem Plant.StaysUnder.trans {a b d : Plant} (h : a.StaysUnder c b) (g : b.StaysUnder c d) : a.StaysUnder c d :=
  fun j => (h j).trans (g j)

theorem Plant.SameTransit.staysUnder {d d' : Plant} (h : d.SameTransit d') : d.StaysUnder c d' := fun j => (h j).staysUnder

theorem Plant.StaysUnder.foldl {α : Type} {f : Plant → α → Plant} (hf : ∀ d x, Plant.StaysUnder c d (f d x)) (l : List α)
    (d : Plant) : d.StaysUnder c (l.foldl f d) :=
  List.foldlRecOn l f (motive := d.StaysUnder c) (.refl c d) (fun d' hd' x _ => hd'.trans (hf d' x))

/-! ### Answers, and a slot's own transitions -/

theorem Plant.joinQueue_sameTransit (i : SlotId) (d : Plant) : d.SameTransit (d.joinQueue i) := .of_slots rfl

theorem Plant.leaveQueue_sameTransit (i : SlotId) (d : Plant) : d.SameTransit (d.leaveQueue i) := .of_slots rfl

theorem Plant.record_sameTransit (now : Clock) (ev : Event) (d : Plant) : d.SameTransit (d.record now ev) :=
  .of_slots (Plant.record_frame now ev d).1

theorem dropHead_sameTransit (i : SlotId) (d : Plant) : d.SameTransit (dropHead e i d) :=
  .put i _ ⟨rfl, rfl, rfl, fun h => ⟨h, rfl⟩, List.map_subset _ (List.tail_subset _)⟩

theorem answerHead_sameTransit (i : SlotId) (tag : Byte) (disp : Disposition) (status : Byte) (payload : List Byte)
    (d : Plant) : d.SameTransit (dropHead e i (answer e i tag disp status payload d)) :=
  dropHead_sameTransit i (answer e i tag disp status payload d)

theorem abort_sameTransit (i : SlotId) (disp : Disposition) (d : Plant) : d.SameTransit (abort e i disp d) := fun j => by
  rw [abort_slot]
  split
  · next hj =>
    subst hj
    exact .of_transit rfl id
  · exact .refl _

theorem answerHeld_sameTransit (i : SlotId) (disp : Disposition) (named : HoldEntry → Bool) (d : Plant) :
    d.SameTransit (answerHeld e i disp named d) := fun j => by
  rw [answerHeld_slot]
  split
  · next hj =>
    subst hj
    exact ⟨rfl, rfl, rfl, fun h => ⟨h, rfl⟩, List.map_subset _ (List.filter_subset_self _)⟩
  · exact .refl _

theorem refuseSweep_sameTransit (i : SlotId) (cap : Level) (d : Plant) : d.SameTransit (refuseSweep e i cap d) :=
  answerHeld_sameTransit i _ _ d

theorem emulationCheck_sameTransit (i : SlotId) (d : Plant) : d.SameTransit (emulationCheck e i d) := by
  unfold emulationCheck
  split
  · split
    · exact answerHead_sameTransit i _ _ _ _ d
    · exact .refl d
  · exact .refl d

theorem Slot.outOfService_eq_false (hempty : r.state ≠ .empty) (hfaulted : r.state ≠ .faulted) : r.outOfService = false := by
  simp [Slot.outOfService, hempty, hfaulted]

theorem Slot.inert_of_outOfService (h : r.outOfService = true) : r.inert = true := by
  simp only [Slot.outOfService, Bool.or_eq_true, decide_eq_true_eq] at h
  unfold Slot.inert
  rcases h with h | h <;> rw [h]

/-- A slot that acts on its effective level is in service, and changes nothing that the transit controller reads (R5). -/
theorem act_sameTransit (i : SlotId) (d : Plant) : d.SameTransit (act e i d) := by
  cases hservice : (d.slot i).outOfService with
  | true =>
    rw [act_inert i d (Slot.inert_of_outOfService hservice)]
    exact .refl d
  | false =>
    have moved : ∀ r', r'.transit = (d.slot i).transit → d.SameTransit (d.put e i r') :=
      fun r' h => .put i r' (.of_transit h (fun _ => hservice))
    unfold act
    simp only
    cases hs : (d.slot i).state with
    | empty | faulted | unloading | stopping => exact .refl d
    | stopped =>
      simp only
      split
      · refine Plant.SameTransit.trans ?_ (Plant.joinQueue_sameTransit i _)
        exact moved _ rfl
      · exact .refl d
    | queued =>
      simp only
      split
      · refine Plant.SameTransit.trans ?_ (emulationCheck_sameTransit i _)
        refine Plant.SameTransit.trans ?_ (Plant.leaveQueue_sameTransit i _)
        exact moved _ rfl
      · exact .refl d
    | starting =>
      simp only
      split
      · exact moved _ rfl
      · exact .refl d
    | spun =>
      simp only
      split <;> exact moved _ rfl
    | loading =>
      simp only
      split
      · exact .refl d
      · exact moved _ rfl
    | loaded =>
      simp only
      split
      · split
        · exact moved _ rfl
        · exact .refl d
      · split
        · exact .refl d
        · split <;> exact moved _ rfl

theorem actIfChanged_sameTransit (i : SlotId) (old : Level) (d : Plant) : d.SameTransit (actIfChanged e i old d) := by
  unfold actIfChanged
  split
  · exact .refl d
  · exact act_sameTransit i d

theorem enterFaulted_sameTransit (i : SlotId) (reason : FaultReason) (code : Option Byte) (d : Plant) :
    d.SameTransit (enterFaulted e i reason code d) := by
  unfold enterFaulted answerAll
  refine Plant.SameTransit.trans ?_ (Plant.record_sameTransit _ _ _)
  refine Plant.SameTransit.trans ?_ (answerHeld_sameTransit i _ _ _)
  refine Plant.SameTransit.trans ?_ (abort_sameTransit i _ _)
  refine Plant.SameTransit.trans ?_ (Plant.leaveQueue_sameTransit i _)
  exact .put i _ ⟨rfl, rfl, rfl, nofun, List.Subset.refl _⟩

theorem takeOvercurrent_sameTransit (i : SlotId) (d : Plant) : d.SameTransit (takeOvercurrent e i d) := by
  unfold takeOvercurrent
  split
  · exact enterFaulted_sameTransit i _ _ d
  · exact .refl d

/-! ### The start arbiter and the budget unit -/

theorem writeBudgetCap_sameTransit (i : SlotId) (cap : BudgetCap) (d : Plant) : d.SameTransit (writeBudgetCap e i cap d) := by
  unfold writeBudgetCap
  refine Plant.SameTransit.trans ?_ (actIfChanged_sameTransit i _ _)
  exact .put i _ (.of_transit rfl id)

theorem recommit_sameTransit (d : Plant) : d.SameTransit (recommit e d) := .of_slots (recommit_slots e d)

theorem refreshArbiter_sameTransit (d : Plant) : d.SameTransit (refreshArbiter e d) := .of_slots (refreshArbiter_slots e d)

theorem grantLoad_sameTransit (i : SlotId) (d : Plant) : d.SameTransit (grantLoad e i d) := by
  unfold grantLoad
  simp only
  split
  · next h =>
    have hspun : (d.slot i).state = .spun := h.1
    refine Plant.SameTransit.trans ?_ (recommit_sameTransit _)
    exact .put i _ (.of_transit rfl (fun _ => Slot.outOfService_eq_false (by rw [hspun]; nofun) (by rw [hspun]; nofun)))
  · refine Plant.SameTransit.trans ?_ (act_sameTransit i _)
    exact .put i _ (.of_transit rfl id)

theorem serveLoad_sameTransit (d : Plant) (i : SlotId) : d.SameTransit (serveLoad e d i) := by
  unfold serveLoad
  split
  · exact grantLoad_sameTransit i d
  · exact .refl d

theorem grantStart_sameTransit (i : SlotId) (d : Plant) (hq : (d.slot i).state = .queued) :
    d.SameTransit (grantStart e i d) := by
  have hstarted : d.SameTransit (d.started e i) := by
    unfold Plant.started
    refine Plant.SameTransit.trans ?_ (Plant.leaveQueue_sameTransit i _)
    exact .put i _ (.of_transit rfl (fun _ => Slot.outOfService_eq_false (by rw [hq]; nofun) (by rw [hq]; nofun)))
  have hserved : ∀ a : Arbiter, d.SameTransit (refreshArbiter e (recommit e (takeOvercurrent e i
      (refreshArbiter e (recommit e { d.started e i with arb := a }))))) := fun a => by
    refine Plant.SameTransit.trans ?_ (refreshArbiter_sameTransit _)
    refine Plant.SameTransit.trans ?_ (recommit_sameTransit _)
    refine Plant.SameTransit.trans ?_ (takeOvercurrent_sameTransit i _)
    refine Plant.SameTransit.trans ?_ (refreshArbiter_sameTransit _)
    refine Plant.SameTransit.trans ?_ (recommit_sameTransit _)
    exact hstarted.trans (.of_slots rfl)
  exact hserved _

theorem serveStart_sameTransit (d : Plant) : d.SameTransit (serveStart e d) := by
  unfold serveStart
  split
  · split
    · next h =>
      simp only [Bool.and_eq_true, decide_eq_true_eq] at h
      exact grantStart_sameTransit _ d h.2
    · exact .refl d
  · exact .refl d

theorem servePass_sameTransit (d : Plant) : d.SameTransit (servePass e d) := by
  unfold servePass
  split
  · exact .refl d
  · exact (Plant.SameTransit.foldl serveLoad_sameTransit allSlots d).trans (serveStart_sameTransit _)

theorem takeVictims_sameTransit (d : Plant) : d.SameTransit (takeVictims e d) := by
  refine Plant.SameTransit.foldl (fun d i => ?_) _ d
  unfold takeVictim
  split
  · exact writeBudgetCap_sameTransit i _ d
  · exact .refl d

theorem beginShed_sameTransit (d : Plant) : d.SameTransit (beginShed e d) :=
  (takeVictims_sameTransit { d with budget := { d.budget with shed := true } }).trans (Plant.record_sameTransit _ _ _)

theorem endShed_sameTransit (d : Plant) : d.SameTransit (endShed e d) :=
  (Plant.record_sameTransit _ _ { d with budget := { d.budget with shed := false } }).trans
    (Plant.SameTransit.foldl (fun d i => writeBudgetCap_sameTransit i .none d) _ _)

theorem shedReact_sameTransit (d : Plant) : d.SameTransit (shedReact e d) := by
  unfold shedReact
  split
  · split
    · exact endShed_sameTransit d
    · split
      · exact takeVictims_sameTransit d
      · exact .refl d
  · split
    · exact beginShed_sameTransit d
    · exact .refl d

theorem budgetReact_sameTransit (d : Plant) : d.SameTransit (budgetReact e d) :=
  ((((recommit_sameTransit d).trans (refreshArbiter_sameTransit _)).trans (shedReact_sameTransit _)).trans
    (refreshArbiter_sameTransit _)).trans (servePass_sameTransit _)

theorem changeBudget_sameTransit (new : Nat) (d : Plant) : d.SameTransit (changeBudget e new d) := by
  unfold changeBudget
  simp only
  split
  · refine Plant.SameTransit.foldl (fun d i => ?_) _ { d with budget := { d.budget with budget := new } }
    unfold rewriteCaps
    split
    · exact writeBudgetCap_sameTransit i _ d
    · split
      · exact writeBudgetCap_sameTransit i _ d
      · exact .refl d
  · exact .of_slots rfl

/-! ### A write of the requested level (R135) -/

theorem Slot.freezeHold_requirements (now : Clock) (r : Slot) :
    (r.freezeHold now).hold.map HoldEntry.requirement = r.hold.map HoldEntry.requirement := by
  simp [Slot.freezeHold, Function.comp_def]

theorem Slot.resumeHold_requirements (now : Clock) (r : Slot) :
    (r.resumeHold now).hold.map HoldEntry.requirement = r.hold.map HoldEntry.requirement := by
  simp [Slot.resumeHold, Function.comp_def]

/-- What the beginning of a suspension makes of the record (R136). -/
theorem Slot.suspend_frame (r : Slot) : (r.suspend e).state = r.state ∧ (r.suspend e).requested = r.requested ∧
    (r.suspend e).transitCap = r.transitCap ∧ (r.suspend e).transitDisposition = r.transitDisposition ∧
    (∃ q, (r.suspend e).suspension = some q ∧ q.cls = e.cls ∧ q.disposition = r.transitDisposition) ∧
    (r.suspend e).hold.map HoldEntry.requirement = r.hold.map HoldEntry.requirement := by
  unfold Slot.suspend
  simp only
  split
  · exact ⟨rfl, rfl, rfl, rfl, ⟨_, rfl, rfl, rfl⟩, Slot.freezeHold_requirements _ _⟩
  · exact ⟨rfl, rfl, rfl, rfl, ⟨_, rfl, rfl, rfl⟩, rfl⟩

theorem Slot.suspend_underPolicy (h : r.Governed t e.cls i) (hbelow : r.transitCap.below r.requested = true) :
    (r.suspend e).underPolicy t e.cls i := by
  obtain ⟨-, hrequested, hcap, hdisp, ⟨q, hq, hcls, hqdisp⟩, hhold⟩ := Slot.suspend_frame (e := e) r
  refine Slot.underPolicy_iff.mpr ⟨h.of_hold hcap hdisp (fun _ q' hq' => ?_) (by rw [hhold]; exact List.Subset.refl _),
    fun _ => ?_⟩
  · cases hq.symm.trans hq'
    exact ⟨hcls, hqdisp⟩
  · rw [hq, hcap, hrequested]
    exact iff_of_true rfl (of_decide_eq_true hbelow)

theorem Slot.endByLowering_underPolicy (h : r.Governed t c i) (hbelow : ¬ r.transitCap.below r.requested = true) :
    (r.endByLowering e).underPolicy t c i := by
  refine Slot.underPolicy_iff.mpr ⟨h.of_hold rfl rfl nofun ?_, fun _ => iff_of_false nofun (mt decide_eq_true hbelow)⟩
  unfold Slot.endByLowering
  rw [Slot.resumeHold_requirements]
  exact List.Subset.refl _

/-- Settling the suspension brings a governed slot under the policy (R135). -/
theorem settleSuspension_underPolicy {d : Plant} {k : SlotId} (h : (d.slot i).Governed t e.cls k) :
    ((settleSuspension e i d).slot i).underPolicy t e.cls k := by
  unfold settleSuspension
  simp only
  split
  · next hout => exact Slot.underPolicy_iff.mpr ⟨h, fun hs => by simp [hs] at hout⟩
  · split
    · next hbelow =>
      split
      · next hsome =>
        exact Slot.underPolicy_iff.mpr ⟨h, fun _ => iff_of_true (by rw [hsome]; rfl) (of_decide_eq_true hbelow)⟩
      · have hput : ((d.put e i ((d.slot i).suspend e)).slot i).underPolicy t e.cls k := by
          rw [Plant.slot_put_same]
          exact Slot.suspend_underPolicy h hbelow
        split
        · exact (refuseSweep_sameTransit i _ _ i).underPolicy hput
        · exact hput
    · next hbelow =>
      split
      · have hended := Slot.endByLowering_underPolicy (e := e) h hbelow
        rw [Plant.slot_put_same]
        exact hended
      · next hnone =>
        exact Slot.underPolicy_iff.mpr
          ⟨h, fun _ => iff_of_false (by rw [hnone]; nofun) (mt decide_eq_true hbelow)⟩

theorem settleSuspension_transit (i : SlotId) (d : Plant) :
    ((settleSuspension e i d).slot i).transitCap = (d.slot i).transitCap ∧
      ((settleSuspension e i d).slot i).transitDisposition = (d.slot i).transitDisposition := by
  unfold settleSuspension
  simp only
  split
  · exact ⟨rfl, rfl⟩
  · split
    · split
      · exact ⟨rfl, rfl⟩
      · obtain ⟨-, -, hcap, hdisp, -⟩ := Slot.suspend_frame (e := e) (d.slot i)
        split
        · have hswept := refuseSweep_sameTransit (e := e) i (d.slot i).transitCap (d.put e i ((d.slot i).suspend e)) i
          rw [hswept.cap, hswept.disposition, Plant.slot_put_same]
          exact ⟨hcap, hdisp⟩
        · rw [Plant.slot_put_same]
          exact ⟨hcap, hdisp⟩
    · split
      · rw [Plant.slot_put_same]
        exact ⟨rfl, rfl⟩
      · exact ⟨rfl, rfl⟩

/-- A write of the requested level keeps every slot under the policy: between the write and the settling of the suspension the
slot is governed still. -/
theorem writeRequested_staysUnder (i : SlotId) (lv : Level) (pin : Bool) (d : Plant) :
    d.StaysUnder e.cls (writeRequested e i lv pin d) := fun j => by
  by_cases hj : j = i
  · subst hj
    have hwritten : (d.put e j ((d.slot j).setRequested lv pin)).slot j =
        ((d.slot j).setRequested lv pin).examineCountdowns e j := Plant.slot_put_same e j _ d
    have hact := actIfChanged_sameTransit (e := e) j (d.slot j).effective (d.put e j ((d.slot j).setRequested lv pin)) j
    rw [hwritten] at hact
    obtain ⟨hcap, hdisp⟩ := settleSuspension_transit (e := e) j
      (actIfChanged e j (d.slot j).effective (d.put e j ((d.slot j).setRequested lv pin)))
    refine ⟨hcap.trans hact.cap, hdisp.trans hact.disposition, fun t i hu => ?_⟩
    have hgov := (Slot.underPolicy_iff.mp hu).1
    have hset : ((d.slot j).setRequested lv pin).Governed t e.cls i :=
      hgov.of_hold rfl rfl hgov.suspension (List.Subset.refl _)
    exact settleSuspension_underPolicy (hact.governed
      (Slot.SameTransit.governed (r := (d.slot j).setRequested lv pin) (.of_transit rfl id) hset))
  · rw [(writeRequested_onlyAt i lv pin d).slot j hj]
    exact .refl _ _

/-! ### The head rules and the response of the blocks -/

theorem Slot.markHead_sameTransit (r : Slot) : r.SameTransit r.markHead := by
  unfold Slot.markHead
  split
  · next hh => exact ⟨rfl, rfl, rfl, fun h => ⟨h, rfl⟩, by rw [hh]; exact List.Subset.refl _⟩
  · exact .refl r

theorem Slot.markEmulating_sameTransit (r : Slot) : r.SameTransit r.markEmulating := by
  unfold Slot.markEmulating
  split
  · next hh => exact ⟨rfl, rfl, rfl, fun h => ⟨h, rfl⟩, by rw [hh]; exact List.Subset.refl _⟩
  · exact .refl r

theorem becomeHead_staysUnder (i : SlotId) (h : HoldEntry) (d : Plant) : d.StaysUnder e.cls (becomeHead e i h d) := by
  have hmark : d.SameTransit (d.put e i (d.slot i).markHead) := .put i _ (Slot.markHead_sameTransit _)
  unfold becomeHead
  simp only
  split
  · exact hmark.staysUnder
  · split
    · exact hmark.staysUnder.trans (writeRequested_staysUnder i _ _ _)
    · exact (hmark.trans (answerHead_sameTransit i _ _ _ _ _)).staysUnder

theorem trapAct_staysUnder (i : SlotId) (h : HoldEntry) (d : Plant) : d.StaysUnder e.cls (trapAct e i h d) := by
  have hmark : d.SameTransit (d.put e i (d.slot i).markEmulating) := .put i _ (Slot.markEmulating_sameTransit _)
  have hwrite := hmark.staysUnder.trans (writeRequested_staysUnder (e := e) i h.requirement false _)
  have hreport : d.StaysUnder e.cls (answerEmulated e i h.tag d) := (answerHead_sameTransit i _ _ _ _ d).staysUnder
  unfold trapAct
  cases h.action with
  | none => exact hreport
  | some action =>
    cases action with
    | report => exact hreport
    | toStop | toSpin | toLoad =>
      simp only
      split
      · exact hwrite.trans (emulationCheck_sameTransit i _).staysUnder
      · exact hwrite

theorem releaseHead_sameTransit (i : SlotId) (h : HoldEntry) (d : Plant) : d.SameTransit (releaseHead e i h d) :=
  .put i _ ⟨rfl, rfl, rfl, fun h => ⟨h, rfl⟩, List.map_subset _ (List.tail_subset _)⟩

theorem headStep_staysUnder {i : SlotId} {d d' : Plant} (h : headStep e i d = some d') : d.StaysUnder e.cls d' := by
  unfold headStep at h
  split at h
  · cases h
  · split at h
    · cases h
      exact becomeHead_staysUnder i _ d
    · split at h
      · split at h
        · cases h
        · cases h
          exact trapAct_staysUnder i _ d
      · split at h
        · cases h
          exact (releaseHead_sameTransit i _ d).staysUnder
        · cases h

theorem headLoop_staysUnder (i : SlotId) : ∀ (n : Nat) (d : Plant), d.StaysUnder e.cls (headLoop e i n d)
  | 0, d => .refl _ d
  | n + 1, d => by
    unfold headLoop
    split
    · exact .refl _ d
    · next d' hstep => exact (headStep_staysUnder hstep).trans (headLoop_staysUnder i n d')

theorem serveHead_staysUnder (i : SlotId) (d : Plant) : d.StaysUnder e.cls (serveHead e i d) := headLoop_staysUnder i _ d

theorem serveHeads_staysUnder (d : Plant) : d.StaysUnder e.cls (serveHeads e d) :=
  .foldl (fun d i => serveHead_staysUnder i d) allSlots d

theorem examinePhase_sameTransit (d : Plant) : d.SameTransit (examinePhase e d) := fun i => by
  rw [examinePhase_slot]
  exact .refl _

theorem refreshSettle_sameTransit (d : Plant) : d.SameTransit (refreshSettle e d) := by
  unfold refreshSettle
  split
  · split
    · exact .refl d
    · exact .of_slots rfl
  · exact .of_slots rfl

/-- The response of the blocks leaves every slot as it is under the policy. -/
theorem react_staysUnder (d : Plant) : d.StaysUnder e.cls (react e d) := by
  have hblocks : ∀ d : Plant, d.StaysUnder e.cls (serveHeads e (budgetReact e d)) := fun d =>
    (budgetReact_sameTransit d).staysUnder.trans (serveHeads_staysUnder _)
  have hemergency : ∀ d : Plant, d.StaysUnder e.cls (refreshSettle e (examinePhase e d)) := fun d =>
    ((examinePhase_sameTransit d).trans (refreshSettle_sameTransit _)).staysUnder
  exact ((hblocks d).trans (hblocks _)).trans (hemergency _)

/-! ### An application of the policy (R132) -/

/-- Step 2 of an application leaves everything but the suspension and the hold timers. -/
theorem Slot.settleForCap_frame (cap : Level) (r : Slot) : (r.settleForCap e cap).state = r.state ∧
    (r.settleForCap e cap).requested = r.requested ∧
    (r.settleForCap e cap).transitDisposition = r.transitDisposition := by
  unfold Slot.settleForCap
  split
  · exact ⟨rfl, rfl, rfl⟩
  · split
    · split
      · obtain ⟨hstate, hrequested, -, hdisp, -⟩ := Slot.suspend_frame (e := e) r
        exact ⟨hstate, hrequested, hdisp⟩
      · unfold Slot.resuspend Slot.holdBy
        split <;> exact ⟨rfl, rfl, rfl⟩
    · split <;> exact ⟨rfl, rfl, rfl⟩

/-- Step 2 of an application begins, continues or ends the suspension of a slot in service as the cap asks (R136, R139,
R141). -/
theorem Slot.settleForCap_suspension (cap : Level) (hs : r.outOfService = false) :
    ((r.settleForCap e cap).suspension.isSome = true ↔ cap.rank < r.requested.rank) ∧
      ∀ q, (r.settleForCap e cap).suspension = some q → q.cls = e.cls ∧ q.disposition = r.transitDisposition := by
  unfold Slot.settleForCap
  rw [if_neg (by rw [hs]; nofun)]
  split
  · next hbelow =>
    have hlt : cap.rank < r.requested.rank := of_decide_eq_true hbelow
    split
    · obtain ⟨-, -, -, -, ⟨q, hq, hcls, hdisp⟩, -⟩ := Slot.suspend_frame (e := e) r
      rw [hq]
      refine ⟨iff_of_true rfl hlt, fun q' hq' => ?_⟩
      cases hq'
      exact ⟨hcls, hdisp⟩
    · next rec _ =>
      have hcontinued : (r.resuspend e rec).suspension =
          some { rec with cls := e.cls, disposition := r.transitDisposition } := by
        unfold Slot.resuspend Slot.holdBy
        split <;> rfl
      rw [hcontinued]
      refine ⟨iff_of_true rfl hlt, fun q' hq' => ?_⟩
      cases hq'
      exact ⟨rfl, rfl⟩
  · next hbelow =>
    have hnot : ¬ cap.rank < r.requested.rank := mt decide_eq_true hbelow
    split
    · next hnone =>
      rw [hnone]
      exact ⟨iff_of_false nofun hnot, nofun⟩
    · exact ⟨iff_of_false nofun hnot, nofun⟩

/-- A slot whose record is under the policy with the cap to be written is so once it is written (R132). -/
theorem writeTransitCap_underPolicy {cap : Level} {d : Plant} {k : SlotId}
    (h : ({ d.slot i with transitCap := cap } : Slot).underPolicy t c k) :
    ((writeTransitCap e i cap d).slot i).underPolicy t c k := by
  unfold writeTransitCap
  refine (actIfChanged_sameTransit i _ _ i).underPolicy ?_
  rw [Plant.slot_put_same]
  exact h

/-- The sweep answers every held entry above the cap (R134). -/
theorem refuseSweep_hold (cap : Level) (d : Plant) :
    ∀ h ∈ ((refuseSweep e i cap d).slot i).hold, h.requirement.rank ≤ cap.rank := by
  unfold refuseSweep
  rw [answerHeld_slot, if_pos rfl]
  intro h hmem
  have hswept : (!cap.below h.requirement) = true := (List.mem_filter.mp hmem).2
  simpa [Level.below] using hswept

/-- The record after steps 1 and 2 of an application: the disposition is written and the suspension settled for the cap. -/
def Slot.rowApplied (e : Env) (i : SlotId) (r : Slot) : Slot :=
  Slot.settleForCap e (e.tables.policyCap e.cls (e.tables.group i))
    { r with transitDisposition := e.tables.policyDisposition e.cls (e.tables.group i) }

/-- After steps 1 and 2 and, under REFUSE, the sweep, the cap alone is missing. -/
theorem Slot.underPolicy_of_rowApplied (k : (r.rowApplied e i).SameTransit r')
    (hhold : r'.transitDisposition = .refuse →
      ∀ h ∈ r'.hold, h.requirement.rank ≤ (e.tables.policyCap e.cls (e.tables.group i)).rank) :
    ({ r' with transitCap := e.tables.policyCap e.cls (e.tables.group i) } : Slot).underPolicy e.tables e.cls i := by
  obtain ⟨hstate, hrequested, hdisp⟩ := Slot.settleForCap_frame (e := e) (e.tables.policyCap e.cls (e.tables.group i))
    { r with transitDisposition := e.tables.policyDisposition e.cls (e.tables.group i) }
  refine ⟨rfl, k.disposition.trans hdisp, fun hs => ?_, hhold⟩
  obtain ⟨hservice, hsus⟩ := k.service hs
  have hsettled := Slot.settleForCap_suspension (e := e)
    (r := { r with transitDisposition := e.tables.policyDisposition e.cls (e.tables.group i) })
    (e.tables.policyCap e.cls (e.tables.group i)) (by
      rw [← hservice]
      unfold Slot.rowApplied Slot.outOfService
      rw [hstate])
  simp only
  rw [hsus, k.requested, k.disposition]
  unfold Slot.rowApplied
  rw [hrequested, hdisp]
  exact hsettled

/-- An application puts its slot under the policy (R132). -/
theorem applyPolicy_underPolicy (i : SlotId) (d : Plant) :
    ((applyPolicy e i d).slot i).underPolicy e.tables e.cls i := by
  have hput : ((d.slot i).rowApplied e i).SameTransit ((d.put e i ((d.slot i).rowApplied e i)).slot i) := by
    rw [Plant.slot_put_same]
    exact .of_transit rfl id
  have hdisp : ((d.put e i ((d.slot i).rowApplied e i)).slot i).transitDisposition =
      e.tables.policyDisposition e.cls (e.tables.group i) :=
    hput.disposition.trans (Slot.settleForCap_frame _ _).2.2
  refine writeTransitCap_underPolicy ?_
  split
  · exact Slot.underPolicy_of_rowApplied (hput.trans (refuseSweep_sameTransit i _ _ i)) (fun _ => refuseSweep_hold _ _)
  · next hne => exact Slot.underPolicy_of_rowApplied hput (fun href => absurd (hdisp.symm.trans href) hne)

theorem applyPolicy_onlyAt (i : SlotId) (d : Plant) : d.OnlyAt i (applyPolicy e i d) := by
  have hput : d.OnlyAt i (d.put e i ((d.slot i).rowApplied e i)) := Plant.put_onlyAt i _ d
  have hcap : ∀ (d2 : Plant) (cap : Level), d2.OnlyAt i (writeTransitCap e i cap d2) := fun d2 cap =>
    (Plant.put_onlyAt i _ d2).trans (actIfChanged_onlyAt i _ _)
  unfold applyPolicy
  refine Plant.OnlyAt.trans ?_ (hcap _ _)
  split
  · exact hput.trans (answerHeld_onlyAt i _ _ _)
  · exact hput

/-- What follows an application at a slot leaves that slot, and every other, under the policy. -/
theorem budgetReact_serveHead_staysUnder (i : SlotId) (d : Plant) :
    d.StaysUnder e.cls (budgetReact e (serveHead e i d)) :=
  (serveHead_staysUnder i d).trans (budgetReact_sameTransit _).staysUnder

theorem applyPolicyAt_underPolicy (i : SlotId) (d : Plant) :
    ((applyPolicyAt e d i).slot i).underPolicy e.tables e.cls i :=
  (budgetReact_serveHead_staysUnder i _ i).policy _ _ (applyPolicy_underPolicy i d)

theorem applyPolicyAt_staysUnder_of_ne {i j : SlotId} (hj : j ≠ i) (d : Plant) :
    (d.slot j).StaysUnder e.cls ((applyPolicyAt e d i).slot j) := by
  rw [← (applyPolicy_onlyAt (e := e) i d).slot j hj]
  exact budgetReact_serveHead_staysUnder i _ j

/-- Applied to a list of slots, the policy leaves alone each slot that is not in the list. -/
theorem foldl_applyPolicyAt_staysUnder {j : SlotId} : ∀ (l : List SlotId), j ∉ l → ∀ d : Plant,
    (d.slot j).StaysUnder e.cls ((l.foldl (applyPolicyAt e) d).slot j)
  | [], _, _ => .refl _ _
  | i :: l, hj, d => by
    obtain ⟨hne, hl⟩ := not_or.mp (mt List.mem_cons.mpr hj)
    rw [List.foldl_cons]
    exact (applyPolicyAt_staysUnder_of_ne hne d).trans (foldl_applyPolicyAt_staysUnder l hl _)

/-- Applied to a list of slots, the policy holds at each of them: at a slot's last turn it is put under the policy, and the turns
of the others leave it so. -/
theorem foldl_applyPolicyAt_underPolicy {j : SlotId} : ∀ (l : List SlotId), j ∈ l → ∀ d : Plant,
    ((l.foldl (applyPolicyAt e) d).slot j).underPolicy e.tables e.cls j
  | i :: l, hj, d => by
    rw [List.foldl_cons]
    by_cases hl : j ∈ l
    · exact foldl_applyPolicyAt_underPolicy l hl _
    · obtain rfl : j = i := (List.mem_cons.mp hj).resolve_right hl
      exact (foldl_applyPolicyAt_staysUnder l hl _).policy _ _ (applyPolicyAt_underPolicy j d)

/-- The policy applied to every slot, with the response of the blocks (R132, R133). -/
theorem applyPolicyAll_underPolicy (d : Plant) (i : SlotId) :
    ((applyPolicyAll e d).slot i).underPolicy e.tables e.cls i :=
  (react_staysUnder _ i).policy _ _ (foldl_applyPolicyAt_underPolicy allSlots (mem_allSlots i) d)

end Sys2Proof.Machine
end

section
/-! SUPPORT. COMMIT (R171): the image it leaves of the table, what the blocks that read the table then do to the slots, the
frames and the records they add, then the statement. -/

namespace Sys2Proof.Machine

variable {e : Env}

/-! ### The tables -/

theorem Tables.bytes_setBytes (t : Tables) (id id' : TableId) (bs : List Byte) :
    (t.setBytes id bs).bytes id' = if id' = id then bs else t.bytes id' := by
  cases id <;> cases id' <;> rfl

/-- Clearing reserved bits keeps the number of bytes (R189). -/
theorem storedBytes_length (id : TableId) : ∀ (offset : Nat) (bs : List Byte), (storedBytes id offset bs).length = bs.length
  | _, [] => rfl
  | offset, _ :: bs => congrArg (· + 1) (storedBytes_length id (offset + 1) bs)

/-- The committed image: the stored bytes over the staged range, every other byte kept (R171). -/
theorem commitImage_eq (t : Tables) (g : Staged) : commitImage t g =
    (t.bytes g.table).take g.start ++ storedBytes g.table g.start g.data ++
      (t.bytes g.table).drop (g.start + g.data.length) := by
  rw [commitImage, overlay, storedBytes_length]

/-! ### A commit of the slot configuration (R83, R133, R172) -/

theorem recountdown_sameTransit (d : Plant) : d.SameTransit (recountdown e d) :=
  .foldl (fun _ i => .put i _ (.refl _)) allSlots d

theorem mem_regrouped {old new : Tables} {i : SlotId} : i ∈ regrouped old new ↔ new.group i ≠ old.group i := by
  unfold regrouped
  rw [List.mem_filter, bne_iff_ne, and_iff_right (mem_allSlots i), ne_comm]

/-- What the transit controller makes of the slots, whether or not the blocks have responded before it. -/
theorem transitTakesGroups_slot (old : Tables) (d : Plant) (i : SlotId) :
    (e.tables.group i ≠ old.group i → ((transitTakesGroups old e d).slot i).underPolicy e.tables e.cls i) ∧
    (e.tables.group i = old.group i → (d.slot i).StaysUnder e.cls ((transitTakesGroups old e d).slot i)) :=
  ⟨fun h => foldl_applyPolicyAt_underPolicy _ (mem_regrouped.mpr h) d,
    fun h => foldl_applyPolicyAt_staysUnder _ (fun hmem => mem_regrouped.mp hmem h) d⟩

/-- A commit of the slot configuration applies the policy to the slots whose group it changes and to no other, in either order
of the transit controller and the budget unit. -/
theorem slotCfgCommitted_slot (old : Tables) (transitFirst countdownsFirst : Bool) (d : Plant) (i : SlotId) :
    (e.tables.group i ≠ old.group i →
      ((slotCfgCommitted old transitFirst countdownsFirst e d).slot i).underPolicy e.tables e.cls i) ∧
    (e.tables.group i = old.group i →
      (d.slot i).StaysUnder e.cls ((slotCfgCommitted old transitFirst countdownsFirst e d).slot i)) := by
  have hfirst : d.StaysUnder e.cls (if countdownsFirst then recountdown e d else d) := by
    split
    · exact (recountdown_sameTransit d).staysUnder
    · exact .refl _ d
  have hlast : ∀ d : Plant, d.StaysUnder e.cls (react e (recountdown e d)) := fun d =>
    (recountdown_sameTransit d).staysUnder.trans (react_staysUnder _)
  unfold slotCfgCommitted
  simp only
  generalize (if countdownsFirst = true then recountdown e d else d) = d1 at hfirst ⊢
  refine ⟨fun hgroup => (hlast _ i).policy _ _ ?_, fun hgroup => ((hfirst i).trans ?_).trans (hlast _ i)⟩
  · split
    · exact (transitTakesGroups_slot (e := e.beforeBudget old d1) old d1 i).1 hgroup
    · exact (transitTakesGroups_slot old _ i).1 hgroup
  · split
    · exact (transitTakesGroups_slot (e := e.beforeBudget old d1) old d1 i).2 hgroup
    · exact (react_staysUnder d1 i).trans ((transitTakesGroups_slot old _ i).2 hgroup)

theorem budgetsCommitted_staysUnder (old : Tables) (d : Plant) : d.StaysUnder e.cls (budgetsCommitted old e d) := by
  unfold budgetsCommitted
  simp only
  split
  · exact .refl _ d
  · exact (changeBudget_sameTransit _ d).staysUnder.trans (react_staysUnder _)

/-! ### The frames and the records that a commit adds -/

/-- Frames and records are added behind those already queued. -/
structure Plant.Grows (d d' : Plant) : Prop where
  queue : d.link.queue <+: d'.link.queue
  events : d.link.events <+: d'.link.events

theorem Plant.Grows.of_link {d d' : Plant} (h : d'.link = d.link) : d.Grows d' := by
  constructor <;> rw [h]

theorem Plant.Grows.trans {a b c : Plant} (h : a.Grows b) (g : b.Grows c) : a.Grows c :=
  ⟨h.queue.trans g.queue, h.events.trans g.events⟩

theorem Plant.Reach.grows {d d' : Plant} (h : Plant.Reach e d d') : d.Grows d' := by
  obtain ⟨hqueue, -, -, -, -, hevents, -⟩ := h.shape
  exact ⟨hqueue, hevents⟩

theorem countExposures_link (old new : MotionClass) (d : Plant) : (countExposures e old new d).link = d.link := by
  unfold countExposures
  split
  · refine List.foldlRecOn allSlots (countExposure e) (motive := fun d' => d'.link = d.link) rfl (fun d' hd' i _ => ?_)
    unfold countExposure
    split
    · exact hd'
    · exact hd'
  · rfl

theorem takeClassChange_grows (transitFirst : Bool) (old : MotionClass) (sensor : SensorState) (d : Plant) :
    d.Grows (takeClassChange e transitFirst old sensor d) := by
  have hcounted : d.Grows (countExposures e old e.cls (d.record e.clock (.classChanged old e.cls sensor))) :=
    (record_reach _ d).grows.trans (.of_link (countExposures_link _ _ _))
  unfold takeClassChange
  simp only
  split
  · exact hcounted.trans ((applyPolicyAll_reach _).grows.trans (emergencyTakesClass_reach _).grows)
  · exact hcounted.trans ((emergencyTakesClass_reach _).grows.trans (applyPolicyAll_reach _).grows)

/-- An event that leaves the tables and the staging buffer, and adds frames and records alone. -/
structure State.Extends (s t : State) : Prop where
  tables : t.tables = s.tables
  staging : t.staging = s.staging
  plant : s.plant.Grows t.plant

theorem State.Extends.refl (s : State) : s.Extends s := ⟨rfl, rfl, .of_link rfl⟩

theorem State.onPlant_extends {f : Env → Plant → Plant} {s : State} (h : s.plant.Grows (f s.env s.plant)) :
    s.Extends (s.onPlant f) := by
  refine ⟨State.onPlant_tables f s, State.onPlant_staging f s, ?_, ?_⟩
  · rw [State.onPlant_plant, Plant.queue_settleLink]
    exact h.queue
  · rw [State.onPlant_plant, Plant.events_settleLink]
    exact h.events

theorem State.deriveClass_extends (s : State) : s.Extends s.deriveClass := by
  unfold State.deriveClass
  simp only
  split
  · exact .refl s
  · have hchange := State.onPlant_extends
      (f := fun e => takeClassChange e (Config.freeOrder s.freeCount) s.monitor.cls s.monitor.sensor)
      (s := s.useFree.onMonitor (fun m => { m with cls := s.monitor.derivedClass s.tables }))
      (takeClassChange_grows _ _ _ _)
    exact ⟨hchange.tables, hchange.staging, hchange.plant⟩

/-! ### The effects of a commit on the reading blocks (Table 9-5) -/

theorem commitEffects_extends (id : TableId) (old : Tables) (s : State) : s.Extends (commitEffects id old s) := by
  cases id with
  | unit | profiles => exact State.onPlant_extends (react_reach _).grows
  | slotCfg =>
    have heffect := State.onPlant_extends (s := s.useFree.useFree)
      (f := slotCfgCommitted old (Config.freeOrder s.freeCount) (Config.freeOrder (s.freeCount + 1)))
      (slotCfgCommitted_reach old _ _ _).grows
    exact ⟨heffect.tables, heffect.staging, heffect.plant⟩
  | classMap | logicalMap => exact .refl s
  | policy => exact State.onPlant_extends (applyPolicyAll_reach _).grows
  | motion =>
    have heffect := State.deriveClass_extends (s.onMonitor (fun m => m.examinePoised s.tables s.clock))
    exact ⟨heffect.tables, heffect.staging, heffect.plant⟩
  | budgets => exact State.onPlant_extends (budgetsCommitted_reach old _).grows

/-- The motion monitor takes a commit of the motion thresholds alone (R130). -/
theorem commitEffects_monitor {id : TableId} (h : id ≠ .motion) (old : Tables) (s : State) :
    (commitEffects id old s).monitor = s.monitor := by
  cases id with
  | motion => exact absurd rfl h
  | classMap | logicalMap => rfl
  | unit | slotCfg | profiles | policy | budgets => exact State.onPlant_monitor _ _

/-- A commit that touches the policy of a slot leaves it under the policy as committed (R133). -/
theorem commitEffects_underPolicy {id : TableId} {old : Tables} {s : State} {i : SlotId}
    (h : id = .policy ∨ (id = .slotCfg ∧ s.tables.group i ≠ old.group i)) :
    ((commitEffects id old s).plant.slot i).underPolicy s.tables s.monitor.cls i := by
  rcases h with rfl | ⟨rfl, hgroup⟩
  · unfold commitEffects
    rw [State.onPlant_plant, Plant.slot_settleLink]
    exact applyPolicyAll_underPolicy _ i
  · unfold commitEffects
    rw [State.onPlant_plant, Plant.slot_settleLink]
    exact (slotCfgCommitted_slot (e := s.env) old _ _ _ i).1 hgroup

/-- Any other commit but one of the motion thresholds leaves a slot as it is under the policy. -/
theorem commitEffects_staysUnder {id : TableId} {old : Tables} {s : State} {i : SlotId} (hpolicy : id ≠ .policy)
    (hmotion : id ≠ .motion) (hgroup : id = .slotCfg → s.tables.group i = old.group i) :
    (s.plant.slot i).StaysUnder s.monitor.cls ((commitEffects id old s).plant.slot i) := by
  have hplant : ∀ f : Env → Plant → Plant, s.plant.StaysUnder s.monitor.cls (f s.env s.plant) →
      (s.plant.slot i).StaysUnder s.monitor.cls ((s.onPlant f).plant.slot i) := fun f h => by
    rw [State.onPlant_plant, Plant.slot_settleLink]
    exact h i
  cases id with
  | policy => exact absurd rfl hpolicy
  | motion => exact absurd rfl hmotion
  | classMap | logicalMap => exact .refl _ _
  | unit | profiles => exact hplant _ (react_staysUnder (e := s.env) s.plant)
  | budgets => exact hplant _ (budgetsCommitted_staysUnder (e := s.env) old s.plant)
  | slotCfg =>
    unfold commitEffects
    rw [State.onPlant_plant, Plant.slot_settleLink]
    exact (slotCfgCommitted_slot (e := s.env) old _ _ _ i).2 (hgroup rfl)

/-! ### The copy (R171) -/

/-- The owner of a COMMIT that passes its checks (R168 to R171). -/
theorem commitAnswer_of_passes {r : Request} {s : State} {g : Staged} (hg : s.staging = some g)
    (hecho : echoMatches r g = true) (hpass : commitRefusal g s = none) :
    commitAnswer r s = ⟨commitEffects g.table s.tables (s.copyStaged g), .ok, []⟩ := by
  simp [commitAnswer, hg, hecho, hpass]

/-- The copy puts the image into the named table, keeps every other table and empties the buffer (R171). -/
theorem State.copyStaged_tables (g : Staged) (s : State) :
    (s.copyStaged g).tables = s.tables.setBytes g.table (commitImage s.tables g) := State.record_tables _ _

theorem State.copyStaged_staging (g : Staged) (s : State) : (s.copyStaged g).staging = none := State.record_staging _ _

theorem State.copyStaged_monitor (g : Staged) (s : State) : (s.copyStaged g).monitor = s.monitor := State.record_monitor _ _

theorem State.copyStaged_slot (g : Staged) (s : State) (i : SlotId) : (s.copyStaged g).plant.slot i = s.plant.slot i := by
  unfold State.copyStaged State.record
  rw [State.onPlant_plant, Plant.slot_settleLink, Plant.record_slot]

theorem State.copyStaged_queue (g : Staged) (s : State) : s.plant.link.queue <+: (s.copyStaged g).plant.link.queue := by
  unfold State.copyStaged State.record
  rw [State.onPlant_plant, Plant.queue_settleLink]
  exact (record_reach (e := s.env) _ s.plant).grows.queue

/-- TABLE_COMMITTED goes to the tail of an event list with room (R171, R181). -/
theorem State.copyStaged_events (g : Staged) {s : State} (h : s.plant.link.events.length < 32) :
    (s.copyStaged g).plant.link.events = s.plant.link.events ++ [⟨s.clock, .tableCommitted g.table g.start g.stop⟩] := by
  unfold State.copyStaged State.record
  rw [State.onPlant_plant, Plant.events_settleLink]
  exact Plant.record_events_of_room _ _ h

/-! ### The statement -/

/-- Settles O28, by the copy and then the effects of the commit on the blocks that read the table; the UNIT_REPLY is the last
frame queued (log 36). -/
theorem commitDone : Obligations.CommitDone := by
  intro r s g hs hlen hg hecho hpass
  have hexec : exec (.commit r) s = .next (State.reply r.tag 0x2A .ok []
      (commitEffects g.table s.tables (s.framed.copyStaged g))) := by
    have htake := takeRequest_of_accepts hs (r := r) (by omega) 0x2A (lengthOk := exactly 6) (by simp [hlen, exactly])
      (commitAnswer r)
    rw [commitAnswer_of_passes (s := s.framed) hg hecho hpass] at htake
    exact congrArg _ htake
  have heffects := commitEffects_extends g.table s.tables (s.framed.copyStaged g)
  have htables := heffects.tables.trans (State.copyStaged_tables g s.framed)
  refine ⟨_, hexec, ?_, ?_, fun id hid => ?_, ?_, fun hroom => ?_, fun hmotion => ?_,
    fun i => ⟨fun hchanged => ?_, fun hpolicy hmotion hkept => ?_⟩⟩
  · obtain ⟨fs, hfs⟩ := (State.copyStaged_queue g s.framed).trans heffects.plant.queue
    refine ⟨fs, (State.reply_queue _ _ _ _ _).trans ?_⟩
    rw [← hfs]
    rfl
  · rw [State.reply_staging, heffects.staging, State.copyStaged_staging]
  · rw [State.reply_tables, htables, Tables.bytes_setBytes, if_neg hid]
    rfl
  · rw [State.reply_tables, htables, Tables.bytes_setBytes, if_pos rfl, commitImage_eq]
    rfl
  · rw [State.reply_events]
    have hrecorded := heffects.plant.events
    rw [State.copyStaged_events g (s := s.framed) hroom] at hrecorded
    exact hrecorded
  · rw [State.reply_monitor, commitEffects_monitor hmotion, State.copyStaged_monitor]
    rfl
  · rw [State.reply_tables, heffects.tables] at hchanged
    have hunder := commitEffects_underPolicy hchanged
    rw [State.copyStaged_monitor] at hunder
    rw [State.reply_slot, State.reply_tables, heffects.tables]
    exact hunder
  · rw [State.reply_tables, heffects.tables] at hkept
    have hstays := commitEffects_staysUnder hpolicy hmotion hkept
    rw [State.copyStaged_slot] at hstays
    rw [State.reply_slot]
    exact ⟨hstays.cap, hstays.disposition⟩

end Sys2Proof.Machine
end

section
/-! SUPPORT. The case link's own requests: what an owner leaves that answers and changes nothing, or changes the case link alone;
then the requests that read (R167, R174, R185), EVENT_READ (R183) and the link-error flag (R176). -/

namespace Sys2Proof.Machine

/-! ### Owners that leave the blocks alone -/

section Owners

variable {s : State} {r : Request} {lengthOk : Nat → Bool} {owner : State → Answered} {st : UnitStatus} {data : List Byte}

/-- A request whose owner leaves the state as it is gets its answer and does nothing else (R180). -/
theorem takeRequest_of_unchanged (hs : s.accepts) (hw : r.args.length ≤ 63) (code : Byte)
    (hl : lengthOk (r.args.length + 1) = true) (howner : owner s.framed = ⟨s.framed, st, data⟩) :
    takeRequest code lengthOk r owner s = s.answered r code st data := by
  rw [takeRequest_of_accepts hs hw code hl, howner]
  rfl

/-- A request whose owner acts on the case link alone (R180). -/
theorem takeRequest_of_onLink (hs : s.accepts) (hw : r.args.length ≤ 63) (code : Byte)
    (hl : lengthOk (r.args.length + 1) = true) {f : Link → Link} (howner : owner s.framed = ⟨s.framed.onLink f, st, data⟩) :
    takeRequest code lengthOk r owner s = (s.framed.onLink f).reply r.tag code st data := by
  rw [takeRequest_of_accepts hs hw code hl, howner]

end Owners

/-- A UNIT_REPLY changes the case link and nothing else (R180). -/
theorem State.reply_eq_link (tag code : Byte) (st : UnitStatus) (data : List Byte) (s : State) :
    s.reply tag code st data = { s with plant := { s.plant with link := (s.reply tag code st data).plant.link } } := by
  obtain ⟨ready, tx, hsettled⟩ := (s.plant.push (replyFrame tag code st data)).settleLink_eq
  unfold State.reply State.onPlant
  simp only [hsettled]
  rfl

@[simp] theorem State.reply_overrun (tag code : Byte) (st : UnitStatus) (data : List Byte) (s : State) :
    (s.reply tag code st data).plant.link.overrun = s.plant.link.overrun := by
  simp [State.reply, Link.push]

@[simp] theorem State.reply_linkError (tag code : Byte) (st : UnitStatus) (data : List Byte) (s : State) :
    (s.reply tag code st data).plant.link.linkError = s.plant.link.linkError := by
  simp [State.reply, Link.push]

/-! ### TABLE_READ (R174) -/

theorem within_iff {lo n hi : Nat} : within lo n hi = true ↔ lo ≤ n ∧ n ≤ hi := by
  simp [within]

theorem TableId.code_of_ofCode {n : Nat} {id : TableId} (h : TableId.ofCode n = some id) : id.code = byteOf n := by
  unfold TableId.ofCode at h
  split at h <;> cases h <;> rfl

/-- The number of a byte gives the byte back. -/
@[simp] theorem byteOf_toNat (b : Byte) : byteOf b.toNat = b := by
  simp [byteOf]

section TableRead

variable {tag table offset length : Byte}

theorem tableReadAnswer_badTable (h : 7 < table.toNat) (s : State) :
    tableReadAnswer ⟨tag, [table, offset, length]⟩ s = ⟨s, .badTable, []⟩ := by
  have hcode : TableId.ofCode (reqU8 ⟨tag, [table, offset, length]⟩ 0) = none := TableId.ofCode_of_lt h
  simp [tableReadAnswer, hcode]

/-- With a known table, the read is answered when its length is 1 to 60 and its last byte lies within the table. -/
theorem tableReadAnswer_of_table {id : TableId} (h : TableId.ofCode table.toNat = some id) (s : State) :
    tableReadAnswer ⟨tag, [table, offset, length]⟩ s =
      if 1 ≤ length.toNat ∧ length.toNat ≤ 60 ∧ offset.toNat + length.toNat - 1 < id.size then
        ⟨s, .ok, [table, offset] ++ ((s.tables.bytes id).drop offset.toNat).take length.toNat⟩
      else ⟨s, .outOfRange, []⟩ := by
  have hcode : TableId.ofCode (reqU8 ⟨tag, [table, offset, length]⟩ 0) = some id := h
  have hlength : reqU8 ⟨tag, [table, offset, length]⟩ 2 = length.toNat := rfl
  have hoffset : reqU8 ⟨tag, [table, offset, length]⟩ 1 = offset.toNat := rfl
  have hchecks : (within 1 length.toNat 60 && rangeInTable id offset.toNat length.toNat) = true ↔
      1 ≤ length.toNat ∧ length.toNat ≤ 60 ∧ offset.toNat + length.toNat - 1 < id.size := by
    rw [Bool.and_eq_true, within_iff, and_assoc]
    exact and_congr_right fun hone => and_congr_right fun _ => rangeInTable_iff hone
  simp only [tableReadAnswer, hcode, hlength, hoffset, hchecks, TableId.code_of_ofCode h, byteOf_toNat]

end TableRead

/-- Settles O14, by the owners of the three requests, each of which leaves the state as it is. -/
theorem readRequestsAnswered : Obligations.ReadRequestsAnswered := by
  intro tag s hs
  have hstage : ∀ data, stageReadData s.staging = data →
      exec (.stageRead ⟨tag, []⟩) s = .next (s.answered ⟨tag, []⟩ 0x29 .ok data) := by
    rintro data rfl
    exact congrArg _ (takeRequest_of_unchanged hs (Nat.zero_le _) _ rfl rfl)
  refine ⟨congrArg _ (takeRequest_of_unchanged hs (Nat.zero_le _) _ rfl rfl), fun hempty => hstage _ ?_,
    fun g hg => hstage _ ?_, fun table offset length => ?_⟩
  · rw [hempty]
    rfl
  · rw [hg]
    rfl
  · have htable : ∀ st data, tableReadAnswer ⟨tag, [table, offset, length]⟩ s.framed = ⟨s.framed, st, data⟩ →
        exec (.tableRead ⟨tag, [table, offset, length]⟩) s =
          .next (s.answered ⟨tag, [table, offset, length]⟩ 0x2B st data) := fun st data howner =>
      congrArg _ (takeRequest_of_unchanged hs (by simp) _ rfl howner)
    exact ⟨fun hbad => htable _ _ (tableReadAnswer_badTable hbad _), fun id hid =>
      ⟨fun hin => htable _ _ ((tableReadAnswer_of_table hid _).trans (if_pos hin)),
        fun hout => htable _ _ ((tableReadAnswer_of_table hid _).trans (if_neg hout))⟩⟩

/-! ### EVENT_READ (R183) -/

/-- After a read, overrun stays only while a record stays (R183). -/
theorem Link.readEvents_overrun (n : Nat) (l : Link) :
    (l.readEvents n).overrun = (l.overrun && decide (n < l.events.length)) := by
  by_cases hleft : n < l.events.length
  · simp [Link.readEvents, hleft]
  · simp [Link.readEvents, hleft, Nat.le_of_not_lt hleft]

/-- After a read, attention is the records that are left: an empty list holds no overrun (R182, R183). -/
theorem Link.readEvents_attention (n : Nat) (l : Link) :
    (l.readEvents n).attention = decide (n < l.events.length) := by
  have hevents : (l.readEvents n).events = l.events.drop n := rfl
  rw [Link.attention, Link.readEvents_overrun, hevents]
  by_cases hleft : n < l.events.length
  · simp [hleft]
  · simp [hleft, Nat.le_of_not_lt hleft]

theorem eventReadAnswer_outOfRange {tag n : Byte} (h : n.toNat < 1 ∨ 5 < n.toNat) (s : State) :
    eventReadAnswer ⟨tag, [n]⟩ s = ⟨s, .outOfRange, []⟩ := by
  have hout : ¬ within 1 n.toNat 5 = true := by
    rw [within_iff]
    omega
  exact if_neg hout

theorem eventReadAnswer_of_range {tag n : Byte} (hmin : 1 ≤ n.toNat) (hmax : n.toNat ≤ 5) (s : State) :
    eventReadAnswer ⟨tag, [n]⟩ s = ⟨s.onLink (Link.readEvents n.toNat), .ok,
      [yesNo s.plant.link.overrun, byteOf (s.plant.link.events.length - n.toNat)] ++
        (s.plant.link.events.take n.toNat).flatMap EventRecord.bytes⟩ := by
  rw [← List.length_drop]
  exact if_pos (within_iff.mpr ⟨hmin, hmax⟩)

/-- The reply is taken from the records and overrun as they stand before the read (R183). -/
theorem exec_eventRead_of_range {tag n : Byte} {s : State} (hs : s.accepts) (hmin : 1 ≤ n.toNat) (hmax : n.toNat ≤ 5) :
    exec (.eventRead ⟨tag, [n]⟩) s = .next ((s.framed.onLink (Link.readEvents n.toNat)).reply tag 0x04 .ok
      ([yesNo s.plant.link.overrun, byteOf (s.plant.link.events.length - n.toNat)] ++
        (s.plant.link.events.take n.toNat).flatMap EventRecord.bytes)) :=
  congrArg _ (takeRequest_of_onLink hs (by simp) _ rfl (eventReadAnswer_of_range hmin hmax s.framed))

/-- Settles O17, by the owner's two answers; the list, overrun and attention after an OK are those of the read. -/
theorem eventReadReply : Obligations.EventReadReply := by
  intro tag n s hs
  refine ⟨fun hout => congrArg _ (takeRequest_of_unchanged hs (by simp) _ rfl (eventReadAnswer_outOfRange hout _)),
    fun hmin hmax => ⟨_, exec_eventRead_of_range hs hmin hmax,
      State.reply_eq_link _ _ _ _ _, State.reply_queue _ _ _ _ _, State.reply_events _ _ _ _ _,
      (State.reply_overrun _ _ _ _ _).trans (Link.readEvents_overrun _ _), ?_⟩⟩
  rw [Link.attention, State.reply_events, State.reply_overrun]
  exact Link.readEvents_attention n.toNat s.plant.link

/-! ### The link-error flag (R176) -/

theorem clockBytes_length (c : Option Clock) : (clockBytes c).length = 4 := by
  cases c <;> rfl

theorem queueBytes_length (q : List SlotId) : (queueBytes q).length = 16 := by
  simp [queueBytes]

/-- The last byte of the UNIT_STATUS data, at offset 48, is the link-error flag (Table 11-5). -/
theorem unitStatusData_drop (s : State) : (unitStatusData s).drop 48 = [yesNo s.plant.link.linkError] := by
  unfold unitStatusData
  exact List.drop_left' (by simp [clockBytes_length, queueBytes_length, be16, be32])

/-- The two flags of an upstream frame stand in bits 0 and 1 (Table 11-1). -/
theorem byteOf_flags_getLsbD : ∀ attention linkError : Bool,
    (byteOf (attention.toNat + 2 * linkError.toNat)).getLsbD 1 = linkError ∧
      (byteOf (attention.toNat + 2 * linkError.toNat)).getLsbD 0 = attention := by decide

/-- A discarded frame is noted outside a break (R175, R176). -/
theorem exec_downstreamFrameDiscarded {s : State} (h : s.plant.link.broken = false) (cause : DiscardCause) :
    exec (.downstreamFrameDiscarded cause) s = .next (s.onLink Link.discardFrame) := if_neg (by simp [h])

/-- A break, whether or not one lasts already, leaves link-error as it is (R177). -/
theorem exec_lineBreak_linkError (s : State) :
    ∃ t, exec .lineBreak s = .next t ∧ t.plant.link.linkError = s.plant.link.linkError := by
  cases hbroken : s.plant.link.broken with
  | false => exact ⟨_, if_neg (by simp [hbroken]), Link.takeBreak_linkError _⟩
  | true => exact ⟨_, if_pos hbroken, rfl⟩

/-- UNIT_STATUS takes its data before it clears the flag (R176, R186). -/
theorem exec_unitStatus_of_accepts {s : State} (hs : s.accepts) (tag : Byte) : exec (.unitStatus ⟨tag, []⟩) s =
    .next ((s.framed.onLink (fun l => { l with linkError := false })).reply tag 0x02 .ok (unitStatusData s.framed)) :=
  congrArg _ (takeRequest_of_onLink hs (Nat.zero_le _) _ rfl rfl)

/-- Settles O9, clause by clause; the UNIT_REPLY is the one frame that UNIT_STATUS queues. -/
theorem linkErrorFlag : Obligations.LinkErrorFlag := by
  refine ⟨fun cause s hs => exec_downstreamFrameDiscarded hs cause, fun tag s hs => ?_, fun s => ⟨_, rfl, rfl⟩,
    exec_lineBreak_linkError, fun l => byteOf_flags_getLsbD l.attention l.linkError⟩
  refine ⟨_, unitStatusData s.framed, exec_unitStatus_of_accepts hs tag, ⟨[], ?_⟩,
    unitStatusData_drop s.framed, State.reply_linkError _ _ _ _ _⟩
  rw [List.append_nil]
  exact State.reply_queue _ _ _ _ _

end Sys2Proof.Machine
end

section
/-! SUPPORT. What any command can do, said once: the turns of the plant (the moves of Laws/Moves.lean, and what commands do
beside them), and by them the effect of every command on the state. The statements about all commands rest on it. -/

namespace Sys2Proof.Machine

open Relation

variable {c : Instr} {e : Env}

/-! ### Turns of the plant -/

/-- What a command leaves of a slot's pins and counts: each of them changes under few commands only. -/
structure Slot.CountsKept (c : Instr) (i : SlotId) (r r' : Slot) : Prop where
  presenceIn : (∀ l, c ≠ .presenceEdge i l) → r'.presenceIn = r.presenceIn
  overcurrentIn : (∀ l, c ≠ .overcurrent i l) → r'.overcurrentIn = r.overcurrentIn
  exposures : actsOnMonitor c = false → c ≠ .insertion i → (∀ q, c ≠ .exposureClear q) → r'.exposures = r.exposures
  strays : c ≠ .insertion i → (∀ ep tag st p, c ≠ .sledCompletion i ep tag st p) → r'.strays = r.strays

/-- What a write of the pins and counts keeps of a slot. -/
structure Slot.SameWork (r r' : Slot) : Prop where
  state : r'.state = r.state
  inFlight : r'.lane.inFlight = r.lane.inFlight
  hold : r'.hold = r.hold
  outstanding : r'.outstanding = r.outstanding
  epoch : r'.epoch = r.epoch

/-- One turn of the plant under a command: a move, or what commands do beside the moves. A slot whose order in flight does
not match its state, which no run reaches, can have any order re-issued (R20). -/
inductive Plant.Turn (c : Instr) : Plant → Plant → Prop where
  | move {e : Env} {d d' : Plant} (m : Plant.Move e d d') : Plant.Turn c d d'
  | link (d : Plant) (l : Link) (hq : l.queue = d.link.queue) (ha : l.attention = d.link.attention) :
      Plant.Turn c d { d with link := l }
  | budget (d : Plant) (b : Budget) : Plant.Turn c d { d with budget := b }
  | counts (e : Env) (d : Plant) (i : SlotId) (r' : Slot) (hw : (d.slot i).SameWork r')
      (hk : (d.slot i).CountsKept c i r') : Plant.Turn c d (d.put e i r')
  | insert (e : Env) (d : Plant) (i : SlotId) (hc : c = .insertion i) (hs : (d.slot i).state = .empty) :
      Plant.Turn c d (d.put e i ((d.slot i).inserted e i))
  | reissue (e : Env) (d : Plant) (i : SlotId) (r' : Slot) (hm : (d.slot i).orderMatches ≠ true)
      (k : (d.slot i).Keeps r') (hs : r'.state = (d.slot i).state) : Plant.Turn c d (d.put e i r')

/-- A sequence of turns. -/
abbrev Plant.Turns (c : Instr) : Plant → Plant → Prop := ReflTransGen (Plant.Turn c)

theorem Plant.Reach.turns {d d' : Plant} (h : Plant.Reach e d d') : Plant.Turns c d d' := by
  induction h with
  | refl => exact .refl
  | tail _ m ih => exact ih.tail (.move m)

theorem Plant.Turns.one {d d' : Plant} (h : Plant.Turn c d d') : Plant.Turns c d d' := .single h

theorem Plant.Turns.of_link {d : Plant} (l : Link) (hq : l.queue = d.link.queue)
    (ha : l.attention = d.link.attention) : Plant.Turns c d { d with link := l } := .one (.link d l hq ha)

theorem Plant.Turns.settled (d : Plant) : Plant.Turns c d d.settleLink := by
  obtain ⟨b, x, h⟩ := d.settleLink_eq
  rw [h]
  exact .of_link _ rfl rfl

theorem Plant.Turns.foldl {α : Type} {f : Plant → α → Plant} (hf : ∀ d x, Plant.Turns c d (f d x)) (l : List α)
    (d : Plant) : Plant.Turns c d (l.foldl f d) := by
  induction l generalizing d with
  | nil => exact .refl
  | cons x l ih => exact (hf d x).trans (ih _)

/-- What every turn keeps, a sequence of turns keeps. -/
theorem Plant.Turns.keeps {P : Plant → Prop} (hP : ∀ d d', Plant.Turn c d d' → P d → P d') {d d' : Plant}
    (h : Plant.Turns c d d') (hd : P d) : P d' := by
  induction h with
  | refl => exact hd
  | tail _ t ih => exact hP _ _ t ih

theorem Slot.CountsKept.refl (i : SlotId) (r : Slot) : r.CountsKept c i r :=
  ⟨fun _ => rfl, fun _ => rfl, fun _ _ _ => rfl, fun _ _ => rfl⟩

theorem Slot.CountsKept.trans {i : SlotId} {a b r : Slot} (h : a.CountsKept c i b) (g : b.CountsKept c i r) :
    a.CountsKept c i r where
  presenceIn hc := (g.presenceIn hc).trans (h.presenceIn hc)
  overcurrentIn hc := (g.overcurrentIn hc).trans (h.overcurrentIn hc)
  exposures ha hi hq := (g.exposures ha hi hq).trans (h.exposures ha hi hq)
  strays hi hs := (g.strays hi hs).trans (h.strays hi hs)

/-- The writes of a slot's pins and counts by the commands that own them. -/
theorem Slot.CountsKept.of_eq {i : SlotId} {r r' : Slot} (hp : r'.presenceIn = r.presenceIn)
    (ho : r'.overcurrentIn = r.overcurrentIn) (hx : r'.exposures = r.exposures) (hs : r'.strays = r.strays) :
    r.CountsKept c i r' :=
  ⟨fun _ => hp, fun _ => ho, fun _ _ _ => hx, fun _ _ => hs⟩

/-! ### Turns that are no moves -/

theorem Plant.record_turns (ev : Event) (d : Plant) : Plant.Turns c d (d.record e.clock ev) := (record_reach (e := e) ev d).turns

theorem insertSled_turns (i : SlotId) {d : Plant} (hs : (d.slot i).state = .empty) :
    Plant.Turns (.insertion i) d (insertSled e i d) := by
  rw [insertSled_eq]
  exact (Plant.Turns.one (.insert e d i rfl hs)).trans (record_reach _ _).turns

theorem countExposures_turns (hc : actsOnMonitor c = true) (old new : MotionClass) (d : Plant) :
    Plant.Turns c d (countExposures e old new d) := by
  unfold countExposures
  split
  · refine .foldl (fun d i => ?_) _ _
    unfold countExposure
    split
    · exact .one (.counts e d i _ ⟨rfl, rfl, rfl, rfl, rfl⟩
        ⟨fun _ => rfl, fun _ => rfl, fun h => by simp [hc] at h, fun _ _ => rfl⟩)
    · exact .refl
  · exact .refl

theorem takeClassChange_turns (hc : actsOnMonitor c = true) (b : Bool) (old : MotionClass) (sensor : SensorState)
    (d : Plant) : Plant.Turns c d (takeClassChange e b old sensor d) := by
  have hrecord : Plant.Turns c d (countExposures e old e.cls (d.record e.clock (.classChanged old e.cls sensor))) :=
    (record_reach _ d).turns.trans (countExposures_turns hc _ _ _)
  unfold takeClassChange
  split
  · exact (hrecord.trans (applyPolicyAll_reach _).turns).trans (emergencyTakesClass_reach _).turns
  · exact (hrecord.trans (emergencyTakesClass_reach _).turns).trans (applyPolicyAll_reach _).turns

theorem takePowerChange_turns (b : Bool) (new : PowerState) (d : Plant) :
    Plant.Turns c d (takePowerChange e b new d) := by
  have hrecord : Plant.Turns c d (Plant.record e.clock (.powerChanged d.budget.powerState new)
      { d with budget := { d.budget with powerState := new } }) :=
    (Plant.Turns.one (.budget d _)).trans (record_reach _ _).turns
  unfold takePowerChange
  split
  · exact (hrecord.trans (budgetTakes_reach _ _).turns).trans (emergencyTakesPower_reach _).turns
  · exact (hrecord.trans (emergencyTakesPower_reach _).turns).trans (budgetTakes_reach _ _).turns

theorem exposuresCleared_turns {r : Request} (m : Word16) (d : Plant) :
    Plant.Turns (.exposureClear r) d (allSlots.foldl (clearExposure e m) d) := by
  refine .foldl (fun d i => ?_) _ _
  unfold clearExposure
  split
  · exact .one (.counts e d i _ ⟨rfl, rfl, rfl, rfl, rfl⟩
      ⟨fun _ => rfl, fun _ => rfl, fun _ _ h => absurd rfl (h _), fun _ _ => rfl⟩)
  · exact .refl

/-- A failed order, whether or not it matches the slot's state. -/
theorem orderFailure_turns (i : SlotId) {d : Plant} {o : OrderInFlight} (ho : (d.slot i).lane.inFlight = some o) :
    Plant.Turns c d (orderFailure e i o.kind d) := by
  by_cases hm : (d.slot i).orderMatches = true
  · exact (orderFailure_reach i o.kind d (Slot.unload_of_matches hm ho)).turns
  by_cases hs : (d.slot i).state = .unloading
  · by_cases hre : (d.slot i).unloadReissued = true
    · simp only [orderFailure, Slot.endOrder_state, hs, Slot.endOrder_unloadReissued, hre, if_true]
      split <;> exact (enterFaulted_reach _ _ _ _).turns
    · simp only [orderFailure, Slot.endOrder_state, hs, Slot.endOrder_unloadReissued, hre]
      exact .one (.reissue e d i _ hm ⟨rfl, rfl, rfl, rfl, rfl, rfl, rfl⟩ hs.symm)
  · exact (orderFailure_reach i o.kind d (fun h => absurd h hs)).turns

theorem takeReport_turns (i : SlotId) (number : Byte) (result : ReportResult) (mech : MechState) (d : Plant) :
    Plant.Turns c d (takeReport e i number result mech d) := by
  unfold takeReport
  split
  · next o ho =>
    split
    · split
      · exact (orderSuccess_reach i d).turns
      · exact orderFailure_turns i ho
    · exact .refl
  · exact .refl

theorem takeCompletion_turns (i : SlotId) (epoch tag status : Byte) (payload : List Byte) (d : Plant) :
    Plant.Turns (.sledCompletion i epoch tag status payload) d (takeCompletion e i epoch tag status payload d) := by
  by_cases h : (d.slot i).outstanding.any (OutEntry.matches epoch tag) = true
  · exact (takeCompletion_reach i epoch tag status payload d h).turns
  · simp only [takeCompletion, h]
    exact .one (.counts e d i _ ⟨rfl, rfl, rfl, rfl, rfl⟩
      ⟨fun _ => rfl, fun _ => rfl, fun _ _ _ => rfl, fun _ h => absurd rfl (h _ _ _ _)⟩)

theorem takeOvercurrent_turns (i : SlotId) (level : Bool) (d : Plant) :
    Plant.Turns (.overcurrent i level) d (takeOvercurrent e i (d.put e i { d.slot i with overcurrentIn := level })) :=
  (Plant.Turns.one (.counts e d i { d.slot i with overcurrentIn := level } ⟨rfl, rfl, rfl, rfl, rfl⟩
    ⟨fun _ => rfl, fun h => absurd rfl (h level), fun _ _ _ => rfl, fun _ _ => rfl⟩)).trans
    (takeOvercurrent_reach i _).turns

theorem presenceEdge_turns (i : SlotId) (level : Bool) (d : Plant) :
    Plant.Turns (.presenceEdge i level) d (d.put e i ((d.slot i).presenceEdge e.clock level)) := by
  refine .one (.counts e d i _ ?_ ?_) <;> unfold Slot.presenceEdge <;> split
  · exact ⟨rfl, rfl, rfl, rfl, rfl⟩
  · exact ⟨rfl, rfl, rfl, rfl, rfl⟩
  · exact .refl _ _
  · exact ⟨fun h => absurd rfl (h _), fun _ => rfl, fun _ _ _ => rfl, fun _ _ => rfl⟩

/-! ### What a command does to the plant -/

/-- The blocks act: a sequence of turns, or a clear of the emergency latch among them, which leaves the latch clear
(R156). -/
def Plant.Acts (c : Instr) (d d' : Plant) : Prop :=
  Plant.Turns c d d' ∨
    ∃ d1, Plant.Turns c d d1 ∧ Plant.Turns c { d1 with emg := Emergency.reset } d' ∧ d'.emg.latched = false

theorem Plant.Turns.acts {d d' : Plant} (h : Plant.Turns c d d') : Plant.Acts c d d' := .inl h

theorem Plant.Acts.after {a b d : Plant} (g : Plant.Acts c b d) (h : Plant.Turns c a b) : Plant.Acts c a d := by
  rcases g with g | ⟨d1, g1, g2, hl⟩
  · exact .inl (h.trans g)
  · exact .inr ⟨d1, h.trans g1, g2, hl⟩

/-- A turn that keeps the latch where it is may follow. -/
theorem Plant.Acts.settled {a b : Plant} (g : Plant.Acts c a b) : Plant.Acts c a b.settleLink := by
  rcases g with g | ⟨d1, g1, g2, hl⟩
  · exact .inl (g.trans (Plant.Turns.settled b))
  · exact .inr ⟨d1, g1, g2.trans (Plant.Turns.settled b), by rw [Plant.emg_settleLink, hl]⟩

/-- What every turn and every change of the emergency record keeps, the blocks keep. -/
theorem Plant.Acts.keeps {P : Plant → Prop} (hP : ∀ d d', Plant.Turn c d d' → P d → P d')
    (hE : ∀ (d : Plant) (g : Emergency), P d → P { d with emg := g }) {d d' : Plant} (h : Plant.Acts c d d')
    (hd : P d) : P d' := by
  rcases h with h | ⟨d1, h1, h2, -⟩
  · exact h.keeps hP hd
  · exact h2.keeps hP (hE _ _ (h1.keeps hP hd))

theorem clearLatch_acts (cause : ClearCause) (d : Plant) : Plant.Acts c d (react e (clearLatch e cause d)) := by
  refine .inr ⟨_, Plant.Reach.turns (e := e) ?_, (react_reach (e := e) (clearLatch e cause d)).turns, ?_⟩
  · exact ((setCap_reach _ d).trans (writeEmergencyCaps_reach _ _)).trans (record_reach _ _)
  · exact (react_calm (e := e) (clearLatch e cause d)).emg.1

/-! ### What a command leaves of the rest of the state -/

/-- What a command leaves of the state beside the plant. -/
structure State.FrameKept (c : Instr) (s t : State) : Prop where
  pending : t.pending = s.pending
  clock : c ≠ .powerOnReset → t.clock = s.clock
  tables : c ≠ .powerOnReset → (∀ r, c ≠ .commit r) → t.tables = s.tables
  staging : c ≠ .powerOnReset → (∀ r, c ≠ .commit r) → (∀ r, c ≠ .stageWrite r) → t.staging = s.staging
  power : c ≠ .powerOnReset → (∀ l v, c ≠ .powerLineEdge l v) → (∀ l, c ≠ .powerFilterExpiry l) → t.power = s.power
  monitor : c ≠ .powerOnReset → actsOnMonitor c = false → t.monitor = s.monitor

theorem State.FrameKept.of_eq {s t : State} (hp : t.pending = s.pending) (hc : t.clock = s.clock)
    (ht : t.tables = s.tables) (hg : t.staging = s.staging) (hw : t.power = s.power) (hm : t.monitor = s.monitor) :
    s.FrameKept c t :=
  ⟨hp, fun _ => hc, fun _ _ => ht, fun _ _ _ => hg, fun _ _ _ => hw, fun _ _ => hm⟩

theorem State.FrameKept.refl (s : State) : s.FrameKept c s := .of_eq rfl rfl rfl rfl rfl rfl

theorem State.FrameKept.trans {a b d : State} (h : a.FrameKept c b) (g : b.FrameKept c d) : a.FrameKept c d where
  pending := g.pending.trans h.pending
  clock h1 := (g.clock h1).trans (h.clock h1)
  tables h1 h2 := (g.tables h1 h2).trans (h.tables h1 h2)
  staging h1 h2 h3 := (g.staging h1 h2 h3).trans (h.staging h1 h2 h3)
  power h1 h2 h3 := (g.power h1 h2 h3).trans (h.power h1 h2 h3)
  monitor h1 h2 := (g.monitor h1 h2).trans (h.monitor h1 h2)

theorem State.onPlant_frameKept (f : Env → Plant → Plant) (s : State) : s.FrameKept c (s.onPlant f) :=
  .of_eq (s.onPlant_pending f) (s.onPlant_clock f) (s.onPlant_tables f) (s.onPlant_staging f) (s.onPlant_power f)
    (s.onPlant_monitor f)

theorem State.onLink_frameKept (f : Link → Link) (s : State) : s.FrameKept c (s.onLink f) :=
  .of_eq rfl rfl rfl rfl rfl rfl

theorem State.onMonitor_frameKept (hc : actsOnMonitor c = true) (f : Monitor → Monitor) (s : State) :
    s.FrameKept c (s.onMonitor f) :=
  ⟨rfl, fun _ => rfl, fun _ _ => rfl, fun _ _ _ => rfl, fun _ _ _ => rfl, fun _ h => by simp [hc] at h⟩

theorem State.reply_frameKept (tag code : Byte) (st : UnitStatus) (data : List Byte) (s : State) :
    s.FrameKept c (s.reply tag code st data) := State.onPlant_frameKept _ _

theorem State.useFree_frameKept (s : State) : s.FrameKept c s.useFree := .of_eq rfl rfl rfl rfl rfl rfl

/-! ### The effect of a command -/

/-- A command taken at its arrival (R45 to R48): answered at once, forwarded, or held. -/
inductive Plant.Arrives (e : Env) (f : CommandFrame) (d : Plant) : Plant → Prop where
  | refused (disp : Disposition) : Plant.Arrives e f d (refuseArrival f disp d)
  | forwarded (i : SlotId) (hs : (d.slot i).outOfService = false) (ht : (d.slot i).tagInUse f.tag = false)
      (ho : (d.slot i).outstanding.length < Config.outstandingMax) :
      Plant.Arrives e f d (d.put e i ((d.slot i).forward e f.tag f.payload))
  | held (i : SlotId) (hs : (d.slot i).outOfService = false) (ht : (d.slot i).tagInUse f.tag = false)
      (hp : d.poolUsed < Config.poolEntries) :
      Plant.Arrives e f d (d.put e i { d.slot i with hold := (d.slot i).hold ++ [newEntry e f (d.slot i)] })

/-- The effect of a command on the plant: power-on reset; the blocks act, with no frame from or to the case; they act and a
UNIT_REPLY is queued; a command enters and they act; or a frame has been sent upstream. -/
inductive State.Effect (c : Instr) (s t : State) : Prop where
  | reset (hc : c = .powerOnReset) (ht : t = s.powerOn)
  | acts (hin : s.enters c = 0) (hout : s.leaves c = 0) (h : Plant.Acts c s.plant t.plant)
      (hr : s.plant.readyFollows → t.plant.readyFollows)
  | answers (hin : s.enters c = 0) (hout : s.leaves c = 0) (hf : Config.acceptFree ≤ s.plant.free) (d : Plant) (l : Link)
      (f : UpFrame) (h : Plant.Acts c s.plant d) (hq : l.queue = d.link.queue) (hk : f.kind ≠ .completion)
      (ht : t.plant = (Plant.push f { d with link := l }).settleLink)
  | enters (hin : s.enters c = 1) (hout : s.leaves c = 0) (hf : Config.acceptFree ≤ s.plant.free) (e : Env)
      (f : CommandFrame) (d d' : Plant) (ha : Plant.Arrives e f s.framed.plant d) (hr : Plant.Reach e d d')
      (ht : t.plant = d'.settleLink)
  | sent (hc : c = .upstreamFrameSent) (htx : s.plant.link.tx.isSome = true)
      (ht : t.plant = Plant.settleLink { s.plant with link := s.plant.link.frameSent })

/-- What a command does: the frame it leaves, and its effect on the plant. -/
structure State.Takes (c : Instr) (s t : State) : Prop where
  frame : s.FrameKept c t
  effect : s.Effect c t

theorem Plant.free_congr {d d' : Plant} (hq : d'.link.queue = d.link.queue) (hs : d'.slots = d.slots) :
    d'.free = d.free := by
  rw [Plant.free, Plant.free, hq, Plant.reserved_congr hs]

theorem Plant.settleReady_free (d : Plant) : d.settleReady.free = d.free := by
  obtain ⟨b, h⟩ := d.settleReady_eq
  rw [h]
  exact Plant.free_congr rfl rfl

theorem Plant.settleReady_readyFollows (d : Plant) : d.settleReady.readyFollows := by
  rw [Plant.readyFollows, Plant.settleReady_free]
  unfold Plant.settleReady
  split
  · next h => exact ⟨fun _ => rfl, fun h' => absurd h (by unfold Config.readyHighAt Config.readyLowBelow at *; omega)⟩
  · next h =>
    split
    · exact ⟨fun h' => absurd h' h, fun _ => rfl⟩
    · next h' => exact ⟨fun g => absurd g h, fun g => absurd g h'⟩

/-- At the end of an event the ready line follows the free count (R179). -/
theorem Plant.settleLink_readyFollows (d : Plant) : d.settleLink.readyFollows := by
  have hready : d.settleLink.link.ready = d.settleReady.link.ready := by
    simp only [Plant.settleLink, (Link.begin_shape d.settleReady.link).2.2.2.1]
  have hqueue : d.settleLink.link.queue = d.settleReady.link.queue := by simp only [Plant.settleLink, Link.begin_queue]
  have hslots : d.settleLink.slots = d.settleReady.slots := by simp only [Plant.settleLink]
  have hfree := Plant.free_congr hqueue hslots
  rw [Plant.readyFollows, hready, hfree]
  exact d.settleReady_readyFollows

section Effects

variable {s t u : State}

theorem State.Effect.of_settled (hin : s.enters c = 0) (hout : s.leaves c = 0) {d : Plant} (h : Plant.Acts c s.plant d)
    (ht : t.plant = d.settleLink) : s.Effect c t :=
  .acts hin hout (ht ▸ h.settled) fun _ => ht ▸ d.settleLink_readyFollows

theorem State.Effect.of_plant_eq (hin : s.enters c = 0) (hout : s.leaves c = 0) (ht : t.plant = s.plant) :
    s.Effect c t :=
  .acts hin hout (ht ▸ .inl .refl) fun h => ht ▸ h

theorem State.Takes.refl (hin : s.enters c = 0) (hout : s.leaves c = 0) : s.Takes c s :=
  ⟨.refl s, .of_plant_eq hin hout rfl⟩

/-- An event of the plant. -/
theorem State.Takes.onPlant {f : Env → Plant → Plant} (hin : s.enters c = 0) (hout : s.leaves c = 0)
    (h : Plant.Turns c s.plant (f s.env s.plant)) : s.Takes c (s.onPlant f) :=
  ⟨s.onPlant_frameKept f, .of_settled hin hout h.acts (s.onPlant_plant f)⟩

/-- A change of the case link that keeps the queue, the event list and the ready line. -/
theorem State.Takes.onLink {f : Link → Link} (hin : s.enters c = 0) (hout : s.leaves c = 0)
    (hq : (f s.plant.link).queue = s.plant.link.queue) (ha : (f s.plant.link).attention = s.plant.link.attention)
    (hr : (f s.plant.link).ready = s.plant.link.ready) : s.Takes c (s.onLink f) := by
  refine ⟨s.onLink_frameKept f, .acts hin hout (Plant.Turns.of_link _ hq ha).acts fun h => ?_⟩
  have hfree : (s.onLink f).plant.free = s.plant.free := Plant.free_congr hq rfl
  rw [Plant.readyFollows, hfree, State.onLink_plant_link, hr]
  exact h

theorem State.deriveClass_turns (hc : actsOnMonitor c = true) (s : State) : Plant.Turns c s.plant s.deriveClass.plant := by
  unfold State.deriveClass
  simp only
  split
  · exact .refl
  · rw [State.changeClass, State.onPlant_plant]
    exact (takeClassChange_turns hc _ _ _ _).trans (Plant.Turns.settled _)

theorem State.deriveClass_frameKept (hc : actsOnMonitor c = true) (s : State) : s.FrameKept c s.deriveClass := by
  unfold State.deriveClass
  simp only
  split
  · exact .refl s
  · exact (s.useFree_frameKept.trans (State.onMonitor_frameKept hc _ _)).trans (State.onPlant_frameKept _ _)

/-- A derivation of the class keeps the ready line with the free count. -/
theorem State.deriveClass_readyFollows {s : State} (h : s.plant.readyFollows) : s.deriveClass.plant.readyFollows := by
  unfold State.deriveClass
  simp only
  split
  · exact h
  · rw [State.changeClass, State.onPlant_plant]
    exact Plant.settleLink_readyFollows _

/-- An event of the monitor: the monitor changes, and the class is derived (R127). -/
theorem State.Takes.deriveClass (hc : actsOnMonitor c = true) (hin : s.enters c = 0) (hout : s.leaves c = 0)
    (hf : s.FrameKept c u) (h : Plant.Turns c s.plant u.plant) (hr : s.plant.readyFollows → u.plant.readyFollows) :
    s.Takes c u.deriveClass :=
  ⟨hf.trans (u.deriveClass_frameKept hc),
    .acts hin hout (.inl (h.trans (u.deriveClass_turns hc))) fun g => State.deriveClass_readyFollows (hr g)⟩

theorem State.Takes.onMonitor (hc : actsOnMonitor c = true) (hin : s.enters c = 0) (hout : s.leaves c = 0)
    (f : Monitor → Monitor) : s.Takes c (s.onMonitor f).deriveClass :=
  .deriveClass hc hin hout (State.onMonitor_frameKept hc f s) .refl id

/-! ### Requests -/

/-- What the owner of a request leaves: the frame of the command, the blocks having acted, and no frame taken from the
queue. -/
structure State.Owns (c : Instr) (s u : State) : Prop where
  frame : s.FrameKept c u
  plant : ∃ (d : Plant) (l : Link), Plant.Acts c s.plant d ∧ l.queue = d.link.queue ∧ u.plant = { d with link := l }

theorem State.Owns.refl (s : State) : s.Owns c s := ⟨.refl s, s.plant, s.plant.link, .inl .refl, rfl, rfl⟩

theorem State.Owns.of_plant {u : State} (hf : s.FrameKept c u) (h : Plant.Acts c s.plant u.plant) : s.Owns c u :=
  ⟨hf, u.plant, u.plant.link, h, rfl, rfl⟩

theorem State.Owns.plant_reach {e : Env} {d : Plant} (h : Plant.Reach e s.plant d) : s.Owns c { s with plant := d } :=
  .of_plant (.of_eq rfl rfl rfl rfl rfl rfl) (Plant.Reach.turns h).acts

theorem State.framed_turns (s : State) : Plant.Turns c s.plant s.framed.plant := .of_link _ rfl rfl

/-- A request: received during no break and with room for its answers it is taken by its owner or refused; in a break it
changes nothing, and else it is discarded (R175, R177, R180). -/
theorem takeRequest_takes (hin : s.enters c = 0) (hout : s.leaves c = 0) (code : Byte) (lengthOk : Nat → Bool)
    (r : Request) (owner : State → Answered) (howner : ∀ u : State, u.Owns c (owner u).state) :
    s.Takes c (takeRequest code lengthOk r owner s) := by
  have hreply : ∀ (u : State) (st : UnitStatus) (data : List Byte), s.framed.Owns c u → Config.acceptFree ≤ s.plant.free →
      s.Takes c (u.reply r.tag code st data) := by
    rintro u st data ⟨hf, d, l, hd, hq, hu⟩ hfree
    refine ⟨((State.onLink_frameKept _ s).trans hf).trans (State.reply_frameKept _ _ _ _ _),
      .answers hin hout hfree d l (replyFrame r.tag code st data) (hd.after s.framed_turns) hq nofun ?_⟩
    rw [State.reply, State.onPlant_plant, hu]
  unfold takeRequest
  split
  · exact .refl hin hout
  split
  · next h =>
    have hfree : Config.acceptFree ≤ s.plant.free := of_decide_eq_true (Bool.and_eq_true_iff.mp h).2
    split
    · exact hreply _ _ _ (howner _) hfree
    · exact hreply _ _ _ (.refl _) hfree
  · exact .onLink hin hout rfl rfl rfl

end Effects

/-! ### The owners -/

section Owners

variable {s : State}

theorem slotStatusAnswer_owns (r : Request) (s : State) : s.Owns c (slotStatusAnswer r s).state := by
  unfold slotStatusAnswer
  split
  · exact .refl s
  · split <;> exact .refl s

theorem eventReadAnswer_owns (r : Request) (s : State) : s.Owns c (eventReadAnswer r s).state := by
  unfold eventReadAnswer
  simp only
  split
  · exact ⟨State.onLink_frameKept _ s, s.plant, s.plant.link.readEvents (reqU8 r 0), .inl .refl, rfl, rfl⟩
  · exact .refl s

theorem motionAnswer_owns (r : Request) (s : State) : s.Owns c (motionAnswer r s).state := by
  unfold motionAnswer
  split
  · exact .refl s
  split
  · exact .refl s
  split
  · exact .refl s
  · exact .plant_reach ((motionAll_reach _ _ _ _ _).trans (react_reach _))

theorem slotRecoverAnswer_owns (r : Request) (s : State) : s.Owns c (slotRecoverAnswer r s).state := by
  unfold slotRecoverAnswer
  split
  · exact .refl s
  · split
    · next h => exact .plant_reach ((recoverSlot_reach _ _ h).trans (react_reach _))
    · exact .refl s

theorem State.Owns.with_plant {d : Plant} (h : Plant.Acts c s.plant d) : s.Owns c { s with plant := d } :=
  .of_plant (.of_eq rfl rfl rfl rfl rfl rfl) h

theorem startClearAnswer_owns (s : State) : s.Owns c (startClearAnswer s).state := by
  have hclear : Plant.Reach s.env s.plant (s.plant.arb.queue.foldl (clearStart s.env) s.plant) :=
    Plant.Reach.foldl _ (fun d i => clearStart_reach d i) _ _
  have hall := (hclear.trans (Plant.Reach.arb _
    { (s.plant.arb.queue.foldl (clearStart s.env) s.plant).arb with lastGranted := 15, stagger := none } rfl)).trans
    (react_reach _)
  exact .plant_reach hall

theorem emergencyClearAnswer_owns (s : State) : s.Owns c (emergencyClearAnswer s).state := by
  have hclear : s.Owns c { s with plant := react s.env (clearLatch s.env .requested s.plant) } :=
    .with_plant (clearLatch_acts .requested s.plant)
  unfold emergencyClearAnswer
  split
  · exact .refl s
  split
  · exact .refl s
  split
  · exact .refl s
  · exact hclear

theorem exposureClearAnswer_owns (r : Request) (s : State) : s.Owns (.exposureClear r) (exposureClearAnswer r s).state := by
  unfold exposureClearAnswer
  split
  · exact .refl s
  · have h : Plant.Turns (.exposureClear r) s.plant (allSlots.foldl (clearExposure s.env (reqMask r)) s.plant) :=
      exposuresCleared_turns _ _
    exact .with_plant h.acts

theorem stageWriteAnswer_owns (r : Request) (s : State) : s.Owns (.stageWrite r) (stageWriteAnswer r s).state := by
  unfold stageWriteAnswer
  split
  · exact .refl s
  · simp only
    split
    · exact ⟨⟨rfl, fun _ => rfl, fun _ _ => rfl, fun _ _ h => absurd rfl (h r), fun _ _ _ => rfl, fun _ _ => rfl⟩,
        s.plant, s.plant.link, .inl .refl, rfl, rfl⟩
    · exact .refl s

theorem tableReadAnswer_owns (r : Request) (s : State) : s.Owns c (tableReadAnswer r s).state := by
  unfold tableReadAnswer
  split
  · exact .refl s
  · split <;> exact .refl s

/-- A commit keeps the clock, the power lines and the queue of commands. -/
theorem State.FrameKept.of_commit {r : Request} {s t : State} (hp : t.pending = s.pending) (hc : t.clock = s.clock)
    (hw : t.power = s.power) : s.FrameKept (.commit r) t :=
  ⟨hp, fun _ => hc, fun _ h => absurd rfl (h r), fun _ h => absurd rfl (h r), fun _ _ _ => hw,
    fun _ h => Bool.noConfusion h⟩

theorem State.copyStaged_frameKept {r : Request} (g : Staged) (s : State) :
    s.FrameKept (.commit r) (s.copyStaged g) :=
  .of_commit (State.record_pending _ _) (State.record_clock _ _) (State.record_power _ _)

theorem State.copyStaged_turns (g : Staged) (s : State) : Plant.Turns c s.plant (s.copyStaged g).plant := by
  rw [State.copyStaged, State.record, State.onPlant_plant]
  exact (Plant.record_turns _ s.plant).trans (Plant.Turns.settled _)

theorem commitEffects_frameKept {r : Request} (id : TableId) (old : Tables) (s : State) :
    s.FrameKept (.commit r) (commitEffects id old s) := by
  cases id with
  | unit | profiles | policy | budgets => exact s.onPlant_frameKept _
  | slotCfg => exact (s.useFree_frameKept.trans (State.useFree_frameKept _)).trans (State.onPlant_frameKept _ _)
  | classMap | logicalMap => exact .refl s
  | motion => exact (State.onMonitor_frameKept rfl _ s).trans (State.deriveClass_frameKept rfl _)

theorem State.onPlant_turns {f : Env → Plant → Plant} (hf : ∀ e d, Plant.Reach e d (f e d)) (s : State) :
    Plant.Turns c s.plant (s.onPlant f).plant := by
  rw [State.onPlant_plant]
  exact (Plant.Reach.turns (hf _ _)).trans (Plant.Turns.settled _)

theorem commitEffects_turns {r : Request} (id : TableId) (old : Tables) (s : State) :
    Plant.Turns (.commit r) s.plant (commitEffects id old s).plant := by
  cases id with
  | unit | profiles => exact s.onPlant_turns fun _ => react_reach
  | slotCfg => exact s.useFree.useFree.onPlant_turns fun _ => slotCfgCommitted_reach _ _ _
  | classMap | logicalMap => exact .refl
  | policy => exact s.onPlant_turns fun _ => applyPolicyAll_reach
  | motion => exact State.deriveClass_turns rfl (s.onMonitor _)
  | budgets => exact s.onPlant_turns fun _ => budgetsCommitted_reach _

theorem commitAnswer_owns (r : Request) (s : State) : s.Owns (.commit r) (commitAnswer r s).state := by
  unfold commitAnswer
  split
  · exact .refl s
  split
  · split
    · exact .refl s
    · exact .of_plant ((State.copyStaged_frameKept _ s).trans (commitEffects_frameKept _ _ _))
        (.inl ((State.copyStaged_turns _ s).trans (commitEffects_turns _ _ _)))
  · exact .refl s

end Owners

/-! ### Every command -/

section Commands

variable {s : State}

/-- Whether or not the guard of an event holds, a state follows. -/
theorem exists_next_of_ite {P : State → Prop} {p : Prop} [Decidable p] {a b : State} (ha : p → P a) (hb : P b) :
    ∃ t, (if p then Host.Outcome.next a else .next b : Host.Outcome State Fault Refusal) = .next t ∧ P t := by
  split
  · next h => exact ⟨a, rfl, ha h⟩
  · exact ⟨b, rfl, hb⟩

/-- A command that has passed the arrival checks enters as one that arrives; one that has not is refused (R45). -/
theorem arrive_arrives (e : Env) (f : CommandFrame) (d : Plant) : Plant.Arrives e f d (arrive e f d) := by
  unfold arrive
  split
  · exact .refused _
  · next i _ =>
    split
    · exact .refused _
    · next hcheck =>
      have hservice : (d.slot i).outOfService = false := by
        unfold arrivalCheck at hcheck
        by_cases h1 : (d.slot i).state = .empty
        · simp [h1] at hcheck
        by_cases h2 : (d.slot i).state = .faulted
        · simp [h2] at hcheck
        exact Slot.outOfService_eq_false h1 h2
      have htag : (d.slot i).tagInUse f.tag = false := by
        rw [← Bool.not_eq_true]
        intro h
        unfold arrivalCheck at hcheck
        split at hcheck
        · simp at hcheck
        split at hcheck
        · simp at hcheck
        · simp at hcheck
      unfold placeCommand
      simp only
      split
      · next h =>
        rw [forwardsAtOnce_iff] at h
        exact .forwarded i hservice htag h.2.2.2.1
      split
      · next h =>
        rw [holdRoom_iff] at h
        exact .held i hservice htag h.1
      · exact .refused _

theorem State.enters_command {f : CommandFrame} (h : s.accepts) (hw : f.wellFormed = true) : s.enters (.command f) = 1 :=
  if_pos ⟨h.1, hw, h.2⟩

theorem State.enters_command_of_not {f : CommandFrame} (h : ¬(s.plant.link.broken = false ∧ f.wellFormed = true ∧
    Config.acceptFree ≤ s.plant.free)) : s.enters (.command f) = 0 := if_neg h

theorem command_takes (f : CommandFrame) (s : State) :
    ∃ t, execCommand f s = .next t ∧ s.Takes (.command f) t := by
  unfold execCommand
  by_cases hb : s.plant.link.broken = true
  · exact ⟨s, if_pos hb, .refl (State.enters_command_of_not (by simp [hb])) rfl⟩
  rw [if_neg hb]
  have hbroken : s.plant.link.broken = false := Bool.eq_false_iff.mpr hb
  by_cases h : (f.wellFormed && s.mayAccept) = true
  · obtain ⟨hw, hfree⟩ := Bool.and_eq_true_iff.mp h
    have haccepts : s.accepts := ⟨hbroken, of_decide_eq_true hfree⟩
    refine ⟨_, if_pos h, (State.onLink_frameKept _ s).trans (State.onPlant_frameKept _ _), ?_⟩
    exact .enters (State.enters_command haccepts hw) rfl haccepts.2 s.env f _ _ (arrive_arrives _ _ _) (react_reach _)
      (State.onPlant_plant _ _)
  · refine ⟨_, if_neg h, .onLink (State.enters_command_of_not fun hn => h ?_) rfl rfl rfl rfl⟩
    exact Bool.and_eq_true_iff.mpr ⟨hn.2.1, decide_eq_true hn.2.2⟩

theorem upstreamFrameSent_takes (s : State) : ∃ t, execUpstreamFrameSent s = .next t ∧ s.Takes .upstreamFrameSent t := by
  unfold execUpstreamFrameSent
  by_cases h : s.plant.link.tx.isSome = true
  · exact ⟨_, if_pos h, State.onPlant_frameKept _ s, .sent rfl h (State.onPlant_plant _ s)⟩
  · exact ⟨s, if_neg h, .refl rfl (if_neg fun hn => h hn.1)⟩

/-- An event of the plant that is one only when its guard holds, with the response of the blocks. -/
theorem respond_takes_of_guard {p : Prop} [Decidable p] {f : Env → Plant → Plant} (hin : s.enters c = 0)
    (hout : s.leaves c = 0) (h : p → Plant.Turns c s.plant (f s.env s.plant)) :
    ∃ t, (if p then Host.Outcome.next (s.onPlant (fun e d => react e (f e d))) else .next s :
      Host.Outcome State Fault Refusal) = .next t ∧ s.Takes c t :=
  exists_next_of_ite (fun hp => .onPlant hin hout ((h hp).trans (react_reach _).turns)) (.refl hin hout)

/-- An event of the monitor that is one only when its guard holds. -/
theorem monitor_takes_of_guard {p : Prop} [Decidable p] {f : Monitor → Monitor} (hc : actsOnMonitor c = true)
    (hin : s.enters c = 0) (hout : s.leaves c = 0) :
    ∃ t, (if p then Host.Outcome.next (s.onMonitor f).deriveClass else .next s :
      Host.Outcome State Fault Refusal) = .next t ∧ s.Takes c t :=
  exists_next_of_ite (fun _ => .onMonitor hc hin hout f) (.refl hin hout)

theorem State.record_turns (ev : Event) (s : State) : Plant.Turns c s.plant (s.record ev).plant := by
  rw [State.record, State.onPlant_plant]
  exact (Plant.record_turns _ s.plant).trans (Plant.Turns.settled _)

theorem State.record_readyFollows (ev : Event) (s : State) : (s.record ev).plant.readyFollows := by
  rw [State.record, State.onPlant_plant]
  exact Plant.settleLink_readyFollows _

theorem State.record_frameKept (ev : Event) (s : State) : s.FrameKept c (s.record ev) := s.onPlant_frameKept _

theorem sample_takes (x y z : Word16) (s : State) :
    ∃ t, execSample x y z s = .next t ∧ s.Takes (.sample x y z) t := by
  have hmonitor : ∀ (u : State) (f : Monitor → Monitor), u.FrameKept (.sample x y z) (u.onMonitor f) := fun u f =>
    State.onMonitor_frameKept rfl f u
  unfold execSample
  refine exists_next_of_ite (fun _ => ?_) ⟨hmonitor s _, .of_plant_eq rfl rfl rfl⟩
  split
  · exact .deriveClass rfl rfl rfl (((hmonitor s _).trans (State.record_frameKept _ _)).trans (hmonitor _ _))
      (State.record_turns _ (s.onMonitor _)) fun _ => State.record_readyFollows _ _
  · exact .deriveClass rfl rfl rfl ((hmonitor s _).trans (hmonitor _ _)) .refl id

theorem sensorTimeout_takes (s : State) : ∃ t, execSensorTimeout s = .next t ∧ s.Takes .sensorTimeout t := by
  unfold execSensorTimeout
  refine exists_next_of_ite (fun _ => ?_) (.refl rfl rfl)
  exact .deriveClass rfl rfl rfl ((State.record_frameKept _ s).trans (State.onMonitor_frameKept rfl _ _))
    (State.record_turns (.sensorLost s.monitor.sensor) s)
    fun _ => State.record_readyFollows (.sensorLost s.monitor.sensor) s

/-- A change of the power lines alone, by a command that owns them. -/
theorem State.FrameKept.of_power (hc : (∃ l v, c = .powerLineEdge l v) ∨ ∃ l, c = .powerFilterExpiry l) (p : PowerLines) :
    s.FrameKept c { s with power := p } := by
  refine ⟨rfl, fun _ => rfl, fun _ _ => rfl, fun _ _ _ => rfl, fun _ h1 h2 => ?_, fun _ _ => rfl⟩
  rcases hc with ⟨l, v, rfl⟩ | ⟨l, rfl⟩
  · exact absurd rfl (h1 l v)
  · exact absurd rfl (h2 l)

theorem powerFilterExpiry_takes (l : PowerLine) (s : State) :
    ∃ t, execPowerFilterExpiry l s = .next t ∧ s.Takes (.powerFilterExpiry l) t := by
  refine exists_next_of_ite (fun _ => ?_) (.refl rfl rfl)
  have hpower := State.FrameKept.of_power (s := s) (.inr ⟨l, rfl⟩) (s.power.setLine l (s.power.line l).expire)
  unfold State.derivePower
  simp only
  split
  · exact ⟨hpower, .of_plant_eq rfl rfl rfl⟩
  · exact ⟨hpower.trans ((State.useFree_frameKept _).trans (State.onPlant_frameKept _ _)),
      .of_settled rfl rfl (.inl (takePowerChange_turns _ _ _)) (State.onPlant_plant _ _)⟩

theorem orderTimeout_takes (i : SlotId) (s : State) :
    ∃ t, execOrderTimeout i s = .next t ∧ s.Takes (.orderTimeout i) t := by
  unfold execOrderTimeout Lane.dueOrder
  cases ho : (s.plant.slot i).lane.inFlight with
  | none => exact ⟨s, rfl, .refl rfl rfl⟩
  | some o =>
    by_cases hdue : o.timer.due s.clock = true
    · simp only [hdue, if_true]
      exact ⟨_, rfl, .onPlant rfl rfl ((orderFailure_turns i ho).trans (react_reach _).turns)⟩
    · simp only [hdue]
      exact ⟨s, rfl, .refl rfl rfl⟩

/-- Every command completes in every state, keeps the frame of the command, and does to the plant what a command can do. -/
theorem exec_takes (c : Instr) (s : State) : ∃ t, exec c s = .next t ∧ s.Takes c t := by
  have hrequest : ∀ (code : Byte) (lengthOk : Nat → Bool) (r : Request) (owner : State → Answered),
      s.enters c = 0 → s.leaves c = 0 → (∀ u : State, u.Owns c (owner u).state) →
      ∃ t, (Host.Outcome.next (takeRequest code lengthOk r owner s) : Host.Outcome State Fault Refusal) = .next t ∧
        s.Takes c t := fun code lengthOk r owner hin hout howner =>
    ⟨_, rfl, takeRequest_takes hin hout code lengthOk r owner howner⟩
  have hreact : ∀ f : Env → Plant → Plant, s.enters c = 0 → s.leaves c = 0 →
      Plant.Turns c s.plant (f s.env s.plant) →
      ∃ t, (Host.Outcome.next (s.onPlant (fun e d => react e (f e d))) : Host.Outcome State Fault Refusal) = .next t ∧
        s.Takes c t := fun f hin hout h => ⟨_, rfl, .onPlant hin hout (h.trans (react_reach _).turns)⟩
  cases c with
  | powerOnReset =>
    exact ⟨_, rfl, ⟨rfl, fun h => absurd rfl h, fun h => absurd rfl h, fun h => absurd rfl h, fun h => absurd rfl h,
      fun h => absurd rfl h⟩, .reset rfl rfl⟩
  | command f => exact command_takes f s
  | downstreamFrameDiscarded cause =>
    show ∃ t, execDownstreamFrameDiscarded cause s = .next t ∧ _
    unfold execDownstreamFrameDiscarded
    split
    · exact ⟨s, rfl, .refl rfl rfl⟩
    · exact ⟨_, rfl, .onLink rfl rfl rfl rfl rfl⟩
  | lineBreak =>
    show ∃ t, execLineBreak s = .next t ∧ _
    unfold execLineBreak
    split
    · exact ⟨s, rfl, .refl rfl rfl⟩
    · exact ⟨_, rfl, .onLink rfl rfl rfl rfl rfl⟩
  | lineBreakEnd =>
    refine exists_next_of_ite (fun _ => ?_) (.refl rfl rfl)
    have hshape := Link.begin_shape { s.plant.link with broken := false }
    exact .onLink rfl rfl (Link.begin_queue _) (Link.attention_congr hshape.2.2.2.2.1 hshape.2.2.2.2.2) hshape.2.2.2.1
  | upstreamFrameSent => exact upstreamFrameSent_takes s
  | unknownRequest code r => exact hrequest _ _ _ _ rfl rfl fun u => .refl u
  | unitQuery r => exact hrequest _ _ _ _ rfl rfl fun u => .refl u
  | unitStatus r =>
    exact hrequest _ _ _ _ rfl rfl fun u =>
      ⟨u.onLink_frameKept (fun l => { l with linkError := false }), u.plant, { u.plant.link with linkError := false }, .inl .refl, rfl, rfl⟩
  | slotStatus r => exact hrequest _ _ _ _ rfl rfl (slotStatusAnswer_owns r)
  | eventRead r => exact hrequest _ _ _ _ rfl rfl (eventReadAnswer_owns r)
  | motion r => exact hrequest _ _ _ _ rfl rfl (motionAnswer_owns r)
  | slotRecover r => exact hrequest _ _ _ _ rfl rfl (slotRecoverAnswer_owns r)
  | startHold r => exact hrequest _ _ _ _ rfl rfl fun u => .plant_reach (setHold_reach true u.plant)
  | startRelease r => exact hrequest _ _ _ _ rfl rfl fun u => .plant_reach (setHold_reach false u.plant)
  | startClear r => exact hrequest _ _ _ _ rfl rfl startClearAnswer_owns
  | panicPark r =>
    exact hrequest _ _ _ _ rfl rfl fun u => .plant_reach ((takeSource_reach .panic u.plant).trans (react_reach _))
  | emergencyClear r => exact hrequest _ _ _ _ rfl rfl emergencyClearAnswer_owns
  | stageWrite r => exact hrequest _ _ _ _ rfl rfl (stageWriteAnswer_owns r)
  | stageRead r => exact hrequest _ _ _ _ rfl rfl fun u => .refl u
  | commit r => exact hrequest _ _ _ _ rfl rfl (commitAnswer_owns r)
  | tableRead r => exact hrequest _ _ _ _ rfl rfl (tableReadAnswer_owns r)
  | exposureClear r => exact hrequest _ _ _ _ rfl rfl (exposureClearAnswer_owns r)
  | report i number result code mech =>
    exact hreact _ rfl rfl ((laneReceived_reach i _).turns.trans (takeReport_turns i _ _ _ _))
  | fault i code =>
    exact hreact _ rfl rfl ((laneReceived_reach i _).turns.trans (takeSledFault_reach i _ _).turns)
  | sledCompletion i epoch tag status payload =>
    refine exists_next_of_ite (fun _ => .onPlant rfl rfl ?_) (.onPlant rfl rfl (laneReceived_reach i _).turns)
    exact ((laneReceived_reach i _).turns.trans (takeCompletion_turns i _ _ _ _ _)).trans (react_reach _).turns
  | laneFrameDiscarded i => exact ⟨_, rfl, .onPlant rfl rfl (laneReceived_reach i _).turns⟩
  | laneFrameSent i => exact exists_next_of_ite (fun _ => .onPlant rfl rfl (laneSent_reach i _).turns) (.refl rfl rfl)
  | orderTimeout i => exact orderTimeout_takes i s
  | presenceEdge i level => exact ⟨_, rfl, .onPlant rfl rfl (presenceEdge_turns i level _)⟩
  | insertion i => exact respond_takes_of_guard rfl rfl fun h => insertSled_turns i h.1
  | removal i => exact respond_takes_of_guard rfl rfl fun _ => (removeSled_reach i _).turns
  | overcurrent i level => exact hreact _ rfl rfl (takeOvercurrent_turns i level _)
  | powerLineEdge l level =>
    exact ⟨_, rfl, .of_power (.inl ⟨l, level, rfl⟩) _, .of_plant_eq rfl rfl rfl⟩
  | powerFilterExpiry l => exact powerFilterExpiry_takes l s
  | switchEdge w level => exact ⟨_, rfl, State.onMonitor_frameKept rfl _ s, .of_plant_eq rfl rfl rfl⟩
  | switchFilterExpiry w => exact monitor_takes_of_guard rfl rfl rfl
  | sample x y z => exact sample_takes x y z s
  | sampleDiscarded => exact ⟨_, rfl, State.onMonitor_frameKept rfl _ s, .of_plant_eq rfl rfl rfl⟩
  | sensorTimeout => exact sensorTimeout_takes s
  | poisedReleaseExpiry => exact monitor_takes_of_guard rfl rfl rfl
  | rollingReleaseExpiry => exact monitor_takes_of_guard rfl rfl rfl
  | tiltedAssertionExpiry => exact monitor_takes_of_guard rfl rfl rfl
  | tiltedReleaseExpiry => exact monitor_takes_of_guard rfl rfl rfl
  | joltHoldExpiry => exact monitor_takes_of_guard rfl rfl rfl
  | fallAssertionExpiry => exact monitor_takes_of_guard rfl rfl rfl
  | fallReleaseExpiry => exact monitor_takes_of_guard rfl rfl rfl
  | holdTimerExpiry i tag => exact respond_takes_of_guard rfl rfl fun _ => (expireHeld_reach i tag _).turns
  | drainExpiry i =>
    refine respond_takes_of_guard rfl rfl fun h => (drainExpired_reach i _ ?_).turns
    unfold Slot.drainDue at h
    simp only [Bool.and_eq_true, decide_eq_true_eq] at h
    exact h.1.1
  | dwellExpiry i => exact respond_takes_of_guard rfl rfl fun _ => (dwellExpired_reach i _).turns
  | idleUnloadExpiry i => exact respond_takes_of_guard rfl rfl fun _ => (writeRequested_reach i _ _ _).turns
  | idleStopExpiry i => exact respond_takes_of_guard rfl rfl fun _ => (writeRequested_reach i _ _ _).turns
  | staggerExpiry => exact respond_takes_of_guard rfl rfl fun _ => (Plant.Reach.arb (e := s.env) s.plant { s.plant.arb with stagger := none } rfl).turns
  | settleExpiry =>
    refine exists_next_of_ite (fun _ => ?_) (.refl rfl rfl)
    exact ⟨s.onPlant_frameKept _, .of_settled rfl rfl (clearLatch_acts .automatic s.plant) (s.onPlant_plant _)⟩

/-- The effect of a command that answers a state. -/
theorem State.Takes.of_exec {t : State} (h : exec c s = .next t) : s.Takes c t := by
  obtain ⟨u, hu, htakes⟩ := exec_takes c s
  rw [h] at hu
  obtain rfl : t = u := Host.Outcome.next.inj hu
  exact htakes

end Commands

end Sys2Proof.Machine
end

section
/-! SUPPORT. What every command keeps: the orders, the start queue, the lists, the account of commands, the entries of the
upstream queue and the latch, each first under the turns of the plant and then under the effect of a command. -/

namespace Sys2Proof.Machine

open Relation

variable {c : Instr} {e : Env} {s t : State}

/-- Settles O3, by the frame of every command. -/
theorem everyCommandGivesNext : Obligations.EveryCommandGivesNext := fun c s => by
  obtain ⟨t, ht, htakes⟩ := exec_takes c s
  exact ⟨t, ht, htakes.frame.pending⟩

/-! ### The shape of an effect -/

/-- A command that enters goes to a slot in service, and to no other block. -/
theorem Plant.Arrives.frame {f : CommandFrame} {d d' : Plant} (h : Plant.Arrives e f d d') :
    d'.arb = d.arb ∧ d'.emg = d.emg ∧ (∀ j, (d'.slot j).state = (d.slot j).state) ∧
      (∀ j, (d'.slot j).lane.inFlight = (d.slot j).lane.inFlight) ∧
      ∀ j, (d.slot j).CountsKept c j (d'.slot j) := by
  cases h with
  | refused disp => exact ⟨rfl, rfl, fun _ => rfl, fun _ => rfl, fun _ => .refl _ _⟩
  | forwarded i =>
    refine ⟨rfl, rfl, fun j => ?_, fun j => ?_, fun j => ?_⟩ <;> rw [Plant.slot_put] <;> split
    · next h => rw [h]; rfl
    · rfl
    · next h => rw [h, Slot.examineCountdowns_lane, Slot.forward_inFlight]
    · rfl
    · next h => rw [h]; exact .of_eq rfl rfl rfl rfl
    · exact .refl _ _
  | held i =>
    refine ⟨rfl, rfl, fun j => ?_, fun j => ?_, fun j => ?_⟩ <;> rw [Plant.slot_put] <;> split
    · next h => rw [h]; rfl
    · rfl
    · next h => rw [h]; rfl
    · rfl
    · next h => rw [h]; exact .of_eq rfl rfl rfl rfl
    · exact .refl _ _

/-- What the blocks keep, whatever the case link queues or sends, a command keeps. -/
theorem State.Takes.keeps {P : Plant → Prop} (hreset : P s.powerOn.plant)
    (hturn : ∀ d d', Plant.Turn c d d' → P d → P d') (hemg : ∀ (d : Plant) (g : Emergency), P d → P { d with emg := g })
    (hlink : ∀ (d : Plant) (l : Link), P d → P { d with link := l })
    (harrives : ∀ (e : Env) f (d d' : Plant), Plant.Arrives e f d d' → P d → P d')
    (h : s.Takes c t) (hs : P s.plant) : P t.plant := by
  have hsettle : ∀ d : Plant, P d → P d.settleLink := fun d hd => by
    obtain ⟨b, x, h⟩ := d.settleLink_eq
    exact h ▸ hlink d _ hd
  cases h.effect with
  | reset hc ht => exact ht ▸ hreset
  | acts _ _ h _ => exact h.keeps hturn hemg hs
  | answers _ _ _ d l f h _ _ ht => exact ht ▸ hsettle _ (hlink _ _ (hlink d l (h.keeps hturn hemg hs)))
  | enters _ _ _ e f d d' ha hr ht =>
    exact ht ▸ hsettle d' (Plant.Turns.keeps hturn (Plant.Reach.turns hr) (harrives e f _ _ ha (hlink _ _ hs)))
  | sent _ _ ht => exact ht ▸ hsettle _ (hlink _ _ hs)

theorem State.powerOn_reset (s : State) (i : SlotId) :
    (s.powerOn.plant.slot i).state = .empty ∧ (s.powerOn.plant.slot i).lane.inFlight = none ∧
      (s.powerOn.plant.slot i).hold = [] ∧ (s.powerOn.plant.slot i).outstanding = [] := by
  rw [State.powerOn_slot]
  exact ⟨rfl, rfl, rfl, rfl⟩

/-! ### Orders and states (Table 1-4) -/

theorem Slot.inserted_orderMatches (i : SlotId) (r : Slot) : (r.inserted e i).orderMatches = true :=
  Slot.orderMatches_resting rfl rfl

theorem Plant.Turn.ordersMatch {d d' : Plant} (h : Plant.Turn c d d') (hd : d.ordersMatch) : d'.ordersMatch := by
  cases h with
  | move m => exact m.ordersMatch hd
  | link _ l hq ha => exact hd
  | budget _ b => exact hd
  | counts e _ i r' hw hk => exact Plant.ordersMatch_put hd ((Slot.orderMatches_congr hw.state hw.inFlight).trans (hd i))
  | insert e _ i hc hs => exact Plant.ordersMatch_put hd (Slot.inserted_orderMatches i _)
  | reissue e _ i r' hm k hs => exact absurd (hd i) hm

/-- Settles O51: every turn keeps the orders, and a command that enters touches none. -/
theorem ordersMatchStates : Obligations.OrdersMatchStates := by
  intro c s t h hs
  refine (State.Takes.of_exec h).keeps (P := Plant.ordersMatch) (fun i => ?_) (fun _ _ ht hd => ht.ordersMatch hd)
    (fun _ _ hd => hd) (fun _ _ hd => hd) (fun e f d d' ha hd i => ?_) hs
  · obtain ⟨hstate, horder, -, -⟩ := s.powerOn_reset i
    exact Slot.orderMatches_resting (by rw [hstate]; rfl) horder
  · obtain ⟨-, -, hstate, horder, -⟩ := ha.frame (c := c)
    exact (Slot.orderMatches_congr (hstate i) (horder i)).trans (hd i)

/-! ### The start queue (R89) -/

theorem Plant.queueMatches_put {d : Plant} {i : SlotId} {r : Slot} (hd : d.queueMatches)
    (hr : r.state = .queued ↔ (d.slot i).state = .queued) : (d.put e i r).queueMatches := by
  refine Plant.queueMatches_of hd rfl fun j => ?_
  rw [Plant.slot_put]
  split
  · next h => rw [h, Slot.examineCountdowns_state, hr]
  · exact Iff.rfl

theorem Plant.Turn.queueMatches {d d' : Plant} (h : Plant.Turn c d d') (hd : d.queueMatches) : d'.queueMatches := by
  cases h with
  | move m => exact m.queueMatches hd
  | link _ l hq ha => exact hd
  | budget _ b => exact hd
  | counts e _ i r' hw hk => exact Plant.queueMatches_put hd (by rw [hw.state])
  | insert e _ i hc hs => exact Plant.queueMatches_put hd (by rw [hs]; exact ⟨nofun, nofun⟩)
  | reissue e _ i r' hm k hs => exact Plant.queueMatches_put hd (by rw [hs])

/-- Settles O52: every turn keeps the queue equal to the QUEUED slots. -/
theorem startQueueIsTheQueuedSlots : Obligations.StartQueueIsTheQueuedSlots := by
  intro c s t h _ hs
  refine (State.Takes.of_exec h).keeps (P := Plant.queueMatches) ⟨List.nodup_nil, fun i => ?_⟩
    (fun _ _ ht hd => ht.queueMatches hd) (fun _ _ hd => hd) (fun _ _ hd => hd) (fun e f d d' ha hd => ?_) hs
  · rw [(s.powerOn_reset i).1]
    exact ⟨nofun, nofun⟩
  · obtain ⟨harb, -, hstate, -, -⟩ := ha.frame (c := c)
    exact Plant.queueMatches_of hd (congrArg Arbiter.queue harb) fun j => by rw [hstate j]

/-! ### The lists (R45, R47, R60) -/

theorem Plant.Turn.listsSound {d d' : Plant} (h : Plant.Turn c d d') (hd : d.listsSound) : d'.listsSound := by
  cases h with
  | move m => exact m.listsSound hd
  | link _ l hq ha => exact hd
  | budget _ b => exact hd
  | counts e _ i r' hw hk =>
    have htags : r'.tags = (d.slot i).tags := by rw [Slot.tags, Slot.tags, hw.hold, hw.outstanding]
    have hlength : r'.hold.length = (d.slot i).hold.length := by rw [hw.hold]
    have hservice : r'.outOfService = (d.slot i).outOfService := by rw [Slot.outOfService, Slot.outOfService, hw.state]
    exact Plant.listsSound_put hd
      (Slot.listsSound_congr htags hw.outstanding hw.epoch hlength (fun h => hservice ▸ h) (hd.1 i)) hlength.le
  | insert e _ i hc hs =>
    obtain ⟨-, -, -, hempty⟩ := hd.1 i
    obtain ⟨hhold, hout⟩ := hempty (by rw [Slot.outOfService, hs]; rfl)
    have hhold' : ((d.slot i).inserted e i).hold = [] := hhold
    have hout' : ((d.slot i).inserted e i).outstanding = [] := hout
    refine Plant.listsSound_put hd ⟨?_, ?_, ?_, fun _ => ⟨hhold', hout'⟩⟩ (by rw [hhold']; exact Nat.zero_le _)
    · rw [Slot.tags, hhold', hout']
      exact List.nodup_nil
    · rw [hout']
      exact Nat.zero_le _
    · rw [hout']
      exact nofun
  | reissue e _ i r' hm k hs =>
    refine Plant.listsSound_put hd (Slot.listsSound_congr k.tags k.outstanding k.epoch k.hold_length (fun h => ?_) (hd.1 i))
      k.hold_length.le
    rwa [Slot.outOfService, hs] at h

/-- A tag that no entry of the slot carries may join its lists (R45). -/
theorem Slot.not_mem_tags {tag : Byte} {r : Slot} (h : r.tagInUse tag = false) : tag ∉ r.tags := by
  obtain ⟨hhold, hout⟩ := (Slot.tagInUse_eq_false_iff tag r).mp h
  rw [Slot.tags, List.mem_append, List.mem_map, List.mem_map]
  rintro (⟨q, hq, rfl⟩ | ⟨q, hq, rfl⟩)
  · exact hhold q hq rfl
  · exact hout q hq rfl

theorem Plant.Arrives.listsSound {f : CommandFrame} {d d' : Plant} (h : Plant.Arrives e f d d') (hd : d.listsSound) :
    d'.listsSound := by
  cases h with
  | refused disp => exact hd
  | forwarded i hs ht ho =>
    obtain ⟨hnodup, -, hepoch, -⟩ := hd.1 i
    have hsound : ((d.slot i).forward e f.tag f.payload).listsSound := by
      refine ⟨?_, ?_, fun o hmem => ?_, fun h => ?_⟩
      · have htags : ((d.slot i).forward e f.tag f.payload).tags = (d.slot i).tags ++ [f.tag] := by
          simp [Slot.tags, Slot.forward]
        rw [htags]
        exact (hnodup.append (List.nodup_singleton _)) (by
          rw [List.disjoint_singleton]
          exact Slot.not_mem_tags ht)
      · show ((d.slot i).outstanding ++ [_]).length ≤ _
        rw [List.length_append]
        exact ho
      · rcases List.mem_append.mp hmem with hold | hnew
        · exact hepoch o hold
        · rw [List.mem_singleton.mp hnew]
          rfl
      · exact absurd (h.symm.trans (show (d.slot i).outOfService = false from hs)) nofun
    exact Plant.listsSound_put hd hsound (le_refl _)
  | held i hs ht hp =>
    obtain ⟨hnodup, hlen, hepoch, -⟩ := hd.1 i
    let r' : Slot := { d.slot i with hold := (d.slot i).hold ++ [newEntry e f (d.slot i)] }
    have hsound : r'.listsSound := by
      refine ⟨?_, hlen, hepoch, fun h => absurd (h.symm.trans (show (d.slot i).outOfService = false from hs)) nofun⟩
      have htags : r'.tags = (d.slot i).hold.map HoldEntry.tag ++ f.tag :: (d.slot i).outstanding.map OutEntry.tag := by
        simp [r', Slot.tags, newEntry]
      rw [htags, List.nodup_middle]
      exact List.nodup_cons.mpr ⟨Slot.not_mem_tags ht, hnodup⟩
    refine ⟨fun j => ?_, ?_⟩
    · rw [Plant.slot_put]
      split
      · exact Slot.listsSound_examine hsound
      · exact hd.1 j
    · have hpool := Plant.poolUsed_change (d := d) (d' := d.put e i r') i fun j hj => Plant.slot_put_other e hj r' d
      rw [Plant.slot_put_same, Slot.examineCountdowns_hold] at hpool
      have hr' : r'.hold.length = (d.slot i).hold.length + 1 := List.length_append
      show (d.put e i r').poolUsed ≤ _
      omega

/-- Settles O53: a turn adds no entry to a list, and a command that enters passes the checks of R45 and R47. -/
theorem holdListsSound : Obligations.HoldListsSound := by
  intro c s t h _ hs
  refine (State.Takes.of_exec h).keeps (P := Plant.listsSound) ⟨fun i => ?_, ?_⟩ (fun _ _ ht hd => ht.listsSound hd)
    (fun _ _ hd => hd) (fun _ _ hd => hd) (fun e f d d' ha hd => ha.listsSound hd) hs
  · obtain ⟨-, -, hhold, hout⟩ := s.powerOn_reset i
    refine ⟨?_, ?_, ?_, fun _ => ⟨hhold, hout⟩⟩
    · rw [Slot.tags, hhold, hout]
      exact List.nodup_nil
    · rw [hout]
      exact Nat.zero_le _
    · rw [hout]
      exact nofun
  · have hzero : ∀ i ∈ allSlots, (s.powerOn.plant.slot i).hold.length = 0 := fun i _ => by rw [(s.powerOn_reset i).2.2.1]; rfl
    rw [Plant.poolUsed, List.map_congr_left hzero]
    decide

end Sys2Proof.Machine
end

section
/-! SUPPORT. What every command keeps, continued: the account of commands, the entries of the upstream queue and the ready
line, the emergency latch, and the fields that only some commands change. -/

namespace Sys2Proof.Machine

open Relation

variable {c : Instr} {e : Env} {s t : State}

/-! ### The account of commands and the upstream queue (R42, R178, R179) -/

theorem Plant.Balance.refl (d : Plant) : d.Balance d := ⟨rfl, le_refl _, rfl⟩

theorem Slot.inserted_inside (i : SlotId) (r : Slot) : (r.inserted e i).inside = r.inside := rfl

/-- What every turn does to the account of commands and to the entries of the queue. -/
theorem Plant.Turn.balance {d d' : Plant} (h : Plant.Turn c d d') :
    d'.accounted = d.accounted ∧ (d.entries ≤ Config.queueEntries → d'.entries ≤ Config.queueEntries) ∧
      d'.potential ≤ d.potential := by
  have fin : ∀ {d d' : Plant}, d.Balance d' → d'.accounted = d.accounted ∧
      (d.entries ≤ Config.queueEntries → d'.entries ≤ Config.queueEntries) ∧ d'.potential ≤ d.potential := fun b =>
    ⟨b.accounted, fun hd => b.entries.trans hd, b.potential_le⟩
  cases h with
  | move m => exact m.balance
  | link _ l hq ha => exact fin (Plant.balance_frame hq (Plant.reserved_congr rfl) ha)
  | budget _ b => exact fin (Plant.balance_frame rfl (Plant.reserved_congr rfl) rfl)
  | counts e _ i r' hw hk => exact fin (Plant.balance_put (by rw [Slot.inside, Slot.inside, hw.hold, hw.outstanding]))
  | insert e _ i hc hs => exact fin (Plant.balance_put (Slot.inserted_inside i _))
  | reissue e _ i r' hm k hs => exact fin (Plant.balance_put k.inside)

/-- What the blocks do to the account of commands and to the entries of the queue. -/
theorem Plant.Acts.balance {d d' : Plant} (h : Plant.Acts c d d') :
    d'.accounted = d.accounted ∧ (d.entries ≤ Config.queueEntries → d'.entries ≤ Config.queueEntries) ∧
      d'.potential ≤ d.potential := by
  refine ⟨h.keeps (P := fun a => a.accounted = d.accounted) (fun _ _ t ha => t.balance.1.trans ha) (fun _ _ => id) rfl,
    fun hd => h.keeps (P := fun a => a.entries ≤ _) (fun _ _ t ha => t.balance.2.1 ha) (fun _ _ => id) hd,
    h.keeps (P := fun a => a.potential ≤ d.potential) (fun _ _ t ha => t.balance.2.2.trans ha) (fun _ _ => id) (le_refl _)⟩

/-- The account and the entries of a plant go by its queue and its slots. -/
theorem Plant.accounted_congr {d d' : Plant} (hq : d'.link.queue = d.link.queue) (hs : d'.slots = d.slots) :
    d'.accounted = d.accounted := by
  rw [Plant.accounted, Plant.accounted, hq, Plant.reserved_congr hs]

theorem Plant.entries_congr {d d' : Plant} (hq : d'.link.queue = d.link.queue) (hs : d'.slots = d.slots) :
    d'.entries = d.entries := by
  rw [Plant.entries, Plant.entries, hq, Plant.reserved_congr hs]

@[simp] theorem Plant.accounted_settleLink (d : Plant) : d.settleLink.accounted = d.accounted :=
  Plant.accounted_congr d.queue_settleLink d.slots_settleLink

@[simp] theorem Plant.entries_settleLink (d : Plant) : d.settleLink.entries = d.entries :=
  Plant.entries_congr d.queue_settleLink d.slots_settleLink

/-- A queued frame takes one entry, and a COMPLETION is one command more accounted for. -/
theorem Plant.push_accounts (f : UpFrame) (d : Plant) : (d.push f).entries = d.entries + 1 ∧
    (d.push f).accounted = d.accounted + if f.kind = .completion then 1 else 0 := by
  have hr : (d.push f).reserved = d.reserved := Plant.reserved_congr rfl
  have hq : (d.push f).link.queue = d.link.queue ++ [f] := rfl
  unfold Plant.entries Plant.accounted
  rw [hr, hq]
  constructor
  · rw [List.length_append, List.length_singleton]
    omega
  · rw [List.filter_append, List.length_append, List.filter_singleton]
    by_cases hk : f.kind = .completion <;> simp [hk]
    omega

/-- The account of a command that enters: one more, in one entry more. -/
theorem Plant.Arrives.accounts {f : CommandFrame} {d d' : Plant} (h : Plant.Arrives e f d d') :
    d'.accounted = d.accounted + 1 ∧ d'.entries = d.entries + 1 := by
  have hput : ∀ (i : SlotId) (r : Slot), r.inside = (d.slot i).inside + 1 →
      (d.put e i r).accounted = d.accounted + 1 ∧ (d.put e i r).entries = d.entries + 1 := by
    intro i r hr
    have hres := Plant.reserved_put (e := e) (d := d) (i := i) (r' := r)
    unfold Plant.accounted Plant.entries
    rw [Plant.put_link]
    omega
  cases h with
  | refused disp =>
    obtain ⟨hentries, haccounted⟩ := d.push_accounts (completionFrame f.unit f.tag disp 0 [])
    exact ⟨haccounted, hentries⟩
  | forwarded i => exact hput i _ (by simp [Slot.inside, Slot.forward]; omega)
  | held i => exact hput i _ (by simp [Slot.inside]; omega)

/-- The account of a frame that leaves the queue. -/
theorem State.sent_accounts {s : State} (htx : s.plant.link.tx.isSome = true) (d : Plant) (hs : d.slots = s.plant.slots)
    (hq : d.link.queue = s.plant.link.queue.tail) :
    d.accounted + s.leaves .upstreamFrameSent = s.plant.accounted ∧ d.entries ≤ s.plant.entries := by
  unfold Plant.accounted Plant.entries State.leaves
  rw [Plant.reserved_congr hs, hq]
  cases s.plant.link.queue with
  | nil => simp
  | cons f rest =>
    refine ⟨?_, by simp⟩
    by_cases hk : f.kind = .completion
    · simp [htx, hk]
      omega
    · simp [hk]

/-- Settles O55: the blocks keep the account, an entry adds one to it, and a sent COMPLETION takes one from it. -/
theorem commandsConservedInNumber : Obligations.CommandsConservedInNumber := by
  intro c s t h hc _
  cases (State.Takes.of_exec h).effect with
  | reset hc' => exact absurd hc' hc
  | acts hin hout h _ =>
    rw [hin, hout, h.balance.1]
  | answers hin hout _ d l f h hq hk ht =>
    have hpush := (Plant.push_accounts f { d with link := l }).2
    have hlink : Plant.accounted { d with link := l } = d.accounted := Plant.accounted_congr hq rfl
    rw [hin, hout, ht, Plant.accounted_settleLink, hpush, if_neg hk, hlink, h.balance.1]
  | enters hin hout _ e f d d' ha hr ht =>
    have hframed : s.framed.plant.accounted = s.plant.accounted := Plant.accounted_congr rfl rfl
    rw [hin, hout, ht, Plant.accounted_settleLink, hr.accounted, ha.accounts.1, hframed]
  | sent hc htx ht =>
    subst hc
    have hin : s.enters .upstreamFrameSent = 0 := rfl
    have hsent := (State.sent_accounts htx { s.plant with link := s.plant.link.frameSent } rfl rfl).1
    rw [ht, Plant.accounted_settleLink, hsent, hin, Nat.add_zero]

/-- The free count counts the entries that are not taken. -/
theorem Plant.free_eq (d : Plant) : d.free = 128 - d.entries := by
  unfold Plant.free Plant.entries Config.queueEntries
  omega

/-- An ATTENTION frame is the one entry that a frame's taking may find gone: one more than the entries taken. -/
theorem Plant.potential_le (d : Plant) : d.entries ≤ d.potential ∧ d.potential ≤ d.entries + 1 := by
  unfold Plant.potential
  split <;> omega

/-- Settles O54: a command finds fifteen entries free for the frames that it can queue, and every event settles the ready
line. -/
theorem upstreamQueueAndReadyLine : Obligations.UpstreamQueueAndReadyLine := by
  intro c s t h
  cases (State.Takes.of_exec h).effect with
  | reset hc ht =>
    have hzero : ∀ i ∈ allSlots, (s.powerOn.plant.slot i).inside = 0 := fun i _ => by
      rw [State.powerOn_slot]
      rfl
    have hentries : t.plant.entries = 0 := by
      rw [ht, Plant.entries, Plant.reserved, List.map_congr_left hzero]
      rfl
    refine ⟨fun _ _ => by omega, fun _ => ?_⟩
    rw [Plant.readyFollows, Plant.free_eq, hentries, ht]
    exact ⟨fun h => by simp [Config.readyLowBelow] at h, fun _ => rfl⟩
  | acts _ _ h hr => exact ⟨fun _ => h.balance.2.1, hr⟩
  | answers _ _ hf d l f h hq _ ht =>
    refine ⟨fun _ _ => ?_, fun _ => ht ▸ Plant.settleLink_readyFollows _⟩
    have hlink : Plant.entries { d with link := l } = d.entries := Plant.entries_congr hq rfl
    rw [ht, Plant.entries_settleLink, (Plant.push_accounts _ _).1, hlink]
    have hbalance := h.balance.2.2
    have hd := d.potential_le
    have hs := s.plant.potential_le
    rw [Plant.free_eq] at hf
    unfold Config.acceptFree at hf
    omega
  | enters _ _ hf e f d d' ha hr ht =>
    refine ⟨fun _ _ => ?_, fun _ => ht ▸ Plant.settleLink_readyFollows _⟩
    rw [ht, Plant.entries_settleLink]
    refine hr.entries ?_
    have hframed : s.framed.plant.entries = s.plant.entries := Plant.entries_congr rfl rfl
    rw [ha.accounts.2, hframed]
    rw [Plant.free_eq] at hf
    unfold Config.acceptFree at hf
    unfold Config.queueEntries
    omega
  | sent hc htx ht =>
    refine ⟨fun _ hs => ?_, fun _ => ht ▸ Plant.settleLink_readyFollows _⟩
    rw [ht, Plant.entries_settleLink]
    exact (State.sent_accounts htx { s.plant with link := s.plant.link.frameSent } rfl rfl).2.trans hs

/-! ### The emergency latch (R152) -/

/-- With the latch set it stays set, and no slot begins a start or a load. -/
structure Plant.NoStarts (d d' : Plant) : Prop where
  latched : d.emg.latched = true → d'.emg.latched = true
  starting : d.emg.latched = true → ∀ i, (d'.slot i).state = .starting → (d.slot i).state = .starting
  loading : d.emg.latched = true → ∀ i, (d'.slot i).state = .loading → (d.slot i).state = .loading

theorem Plant.NoStarts.trans {a b d : Plant} (h : a.NoStarts b) (g : b.NoStarts d) : a.NoStarts d where
  latched hl := g.latched (h.latched hl)
  starting hl i hs := h.starting hl i (g.starting (h.latched hl) i hs)
  loading hl i hs := h.loading hl i (g.loading (h.latched hl) i hs)

theorem Plant.NoStarts.of_state {d d' : Plant} (hl : d.emg.latched = true → d'.emg.latched = true)
    (hs : ∀ i, (d'.slot i).state = (d.slot i).state) : d.NoStarts d' :=
  ⟨hl, fun _ i h => hs i ▸ h, fun _ i h => hs i ▸ h⟩

/-- A change of one slot that does not bring it to STARTING or LOADING. -/
theorem Plant.NoStarts.of_slot {d d' : Plant} (i : SlotId) (hl : d'.emg = d.emg)
    (hj : ∀ j, j ≠ i → (d'.slot j).state = (d.slot j).state)
    (hi : (d'.slot i).state = (d.slot i).state ∨ (d'.slot i).state ≠ .starting ∧ (d'.slot i).state ≠ .loading) :
    d.NoStarts d' := by
  have hstate : ∀ x : SlotState, (x = .starting ∨ x = .loading) → ∀ j, (d'.slot j).state = x → (d.slot j).state = x := by
    intro x hx j hs
    by_cases h : j = i
    · subst h
      rcases hi with hi | ⟨h1, h2⟩
      · exact hi ▸ hs
      · rcases hx with rfl | rfl
        · exact absurd hs h1
        · exact absurd hs h2
    · exact hj j h ▸ hs
  exact ⟨fun h => hl ▸ h, fun _ => hstate _ (.inl rfl), fun _ => hstate _ (.inr rfl)⟩

theorem OrderMove.noStart {a b : SlotState} {k : OrderKind} (h : OrderMove a k b) : b ≠ .starting ∧ b ≠ .loading := by
  cases h <;> exact ⟨nofun, nofun⟩

theorem EndMove.noStart {a b : SlotState} (h : EndMove a b) : b ≠ .starting ∧ b ≠ .loading := by
  cases h <;> exact ⟨nofun, nofun⟩

theorem Slot.Moves.noStart {r r' : Slot} (m : r.Moves r') :
    r'.state = r.state ∨ r'.state ≠ .starting ∧ r'.state ≠ .loading := by
  cases m with
  | same hs _ => exact .inl hs
  | order k h _ => exact .inr h.noStart
  | ends h _ => exact .inr h.noStart
  | rests _ hs _ => exact .inl hs
  | recovers _ hs _ => exact .inr (by simp [hs])

theorem Plant.noStarts_put {d : Plant} {i : SlotId} {r : Slot}
    (hr : r.state = (d.slot i).state ∨ r.state ≠ .starting ∧ r.state ≠ .loading) : d.NoStarts (d.put e i r) :=
  .of_slot i rfl (fun j hj => by rw [Plant.slot_put_other e hj]) (by rwa [Plant.slot_put_same, Slot.examineCountdowns_state])

/-- A grant needs the latch clear (R103); no other move brings a slot to STARTING or LOADING. -/
theorem Plant.Move.noStarts {d d' : Plant} (h : Plant.Move e d d') : d.NoStarts d' := by
  cases h with
  | slot i r' k m => exact Plant.noStarts_put m.noStart
  | queueUp i h =>
    have hput : d.NoStarts (d.put e i { d.slot i with state := .queued }) := Plant.noStarts_put (.inr ⟨nofun, nofun⟩)
    exact hput.trans (.of_state id fun _ => rfl)
  | queueDown i h =>
    have hput : d.NoStarts (d.put e i { d.slot i with state := .stopped }) := Plant.noStarts_put (.inr ⟨nofun, nofun⟩)
    exact hput.trans (.of_state id fun _ => rfl)
  | start i h hl hs => exact ⟨fun h => by simp [hl] at h, fun h => by simp [hl] at h, fun h => by simp [hl] at h⟩
  | load i h he hl hs => exact ⟨fun h => by simp [hl] at h, fun h => by simp [hl] at h, fun h => by simp [hl] at h⟩
  | cease i disp r' k hs ho =>
    have hput : d.NoStarts (d.put e i r') := Plant.noStarts_put (.inr (by rcases hs with hs | hs <;> simp [hs]))
    refine hput.trans (.of_state (fun h => ?_) fun j => answerAll_state i disp _ j)
    rw [(answerAll_blocks i disp _).2.2]
    exact h
  | blocks a b g ha hb hg => exact .of_state hg fun _ => rfl
  | record ev => exact .of_state (fun h => by rwa [Plant.record_emg]) fun j => by rw [Plant.record_slot]
  | abort i disp => exact .of_state (fun h => by rwa [abort_emg]) (abort_state i disp d)
  | answerHeld i disp named => exact .of_state (fun h => by rwa [answerHeld_emg]) (answerHeld_state i disp named d)
  | answerHead i disp status payload h rest hh =>
    have hanswer : d.NoStarts (answer e i h.tag disp status payload d) := .of_state id fun _ => rfl
    exact hanswer.trans (Plant.noStarts_put (.inl rfl))
  | release i h rest hh hf => exact Plant.noStarts_put (.inl rfl)
  | complete i epoch tag status payload h =>
    have hput : d.NoStarts (d.put e i
        { d.slot i with outstanding := (d.slot i).outstanding.eraseP (OutEntry.matches epoch tag) }) :=
      Plant.noStarts_put (.inl rfl)
    exact hput.trans (.of_state id fun _ => rfl)

theorem Plant.Turn.noStarts {d d' : Plant} (h : Plant.Turn c d d') : d.NoStarts d' := by
  cases h with
  | move m => exact m.noStarts
  | link _ l hq ha => exact .of_state id fun _ => rfl
  | budget _ b => exact .of_state id fun _ => rfl
  | counts e _ i r' hw hk => exact Plant.noStarts_put (.inl hw.state)
  | insert e _ i hc hs => exact Plant.noStarts_put (.inr ⟨nofun, nofun⟩)
  | reissue e _ i r' hm k hs => exact Plant.noStarts_put (.inl hs)

theorem Plant.Turns.noStarts {d d' : Plant} (h : Plant.Turns c d d') : d.NoStarts d' :=
  h.keeps (P := d.NoStarts) (fun _ _ t hd => hd.trans t.noStarts) (.of_state id fun _ => rfl)

/-- A clear of the latch leaves it clear, so with the latch set at the end there was none. -/
theorem Plant.Acts.noStarts {d d' : Plant} (h : Plant.Acts c d d') (hl : d'.emg.latched = true) : d.NoStarts d' := by
  rcases h with h | ⟨d1, -, -, hclear⟩
  · exact h.noStarts
  · exact absurd (hclear.symm.trans hl) nofun

theorem Plant.noStarts_settleLink (d : Plant) : d.NoStarts d.settleLink :=
  .of_state (fun h => by rwa [Plant.emg_settleLink]) fun i => by rw [Plant.slot_settleLink]

/-- Settles O56: with the latch set at both ends of a command, every turn of it begins no start and no load. -/
theorem latchStopsStartsAndLoads : Obligations.LatchStopsStartsAndLoads := by
  intro c s t h _ hs ht i
  have hno : s.plant.NoStarts t.plant := by
    cases (State.Takes.of_exec h).effect with
    | reset hc htr =>
      rw [htr] at ht
      exact absurd ht nofun
    | acts _ _ h _ => exact h.noStarts ht
    | answers _ _ _ d l f h _ _ htd =>
      have hd : d.emg.latched = true := by
        rw [htd, Plant.emg_settleLink] at ht
        exact ht
      have hpush : d.NoStarts (Plant.push f { d with link := l }) := .of_state id fun _ => rfl
      rw [htd]
      exact ((h.noStarts hd).trans hpush).trans (Plant.noStarts_settleLink _)
    | enters _ _ _ e f d d' ha hr htd =>
      obtain ⟨-, hemg, hstate, -, -⟩ := ha.frame (c := c)
      have harrives : s.plant.NoStarts d := .of_state (fun h => by rw [hemg]; exact h) hstate
      rw [htd]
      exact (harrives.trans (Plant.Turns.noStarts (c := c) hr.turns)).trans (Plant.noStarts_settleLink _)
    | sent _ _ htd =>
      have hsent : s.plant.NoStarts { s.plant with link := s.plant.link.frameSent } := .of_state id fun _ => rfl
      rw [htd]
      exact hsent.trans (Plant.noStarts_settleLink _)
  exact ⟨hno.starting hs i, hno.loading hs i⟩

/-! ### What only some commands change -/

/-- The pins and counts of every slot after one state of the plant, seen from the command. -/
def Plant.CountsKept (c : Instr) (d d' : Plant) : Prop := ∀ j, (d.slot j).CountsKept c j (d'.slot j)

theorem Plant.countsKept_put {d : Plant} {i : SlotId} {r : Slot} (h : (d.slot i).CountsKept c i r) :
    d.CountsKept c (d.put e i r) := by
  intro j
  rw [Plant.slot_put]
  split
  · next hj =>
    subst hj
    exact ⟨h.presenceIn, h.overcurrentIn, h.exposures, h.strays⟩
  · exact .refl _ _

theorem Plant.Shape.countsKept {d d' : Plant} (h : d.Shape d') : d.CountsKept c d' := fun j =>
  let ⟨hx, hs, hp, ho⟩ := h.slots j
  .of_eq hp ho hx hs

theorem Plant.Turn.countsKept {d d' : Plant} (h : Plant.Turn c d d') : d.CountsKept c d' := by
  cases h with
  | move m => exact m.shape.countsKept
  | link _ l hq ha => exact fun _ => .refl _ _
  | budget _ b => exact fun _ => .refl _ _
  | counts e _ i r' hw hk => exact Plant.countsKept_put hk
  | insert e _ i hc hs =>
    exact Plant.countsKept_put ⟨fun _ => rfl, fun _ => rfl, fun _ h _ => absurd hc h, fun h _ => absurd hc h⟩
  | reissue e _ i r' hm k hs => exact Plant.countsKept_put (.of_eq k.presenceIn k.overcurrentIn k.exposures k.strays)

/-- The pins and counts that a command leaves (power-on reset keeps the pins: log 4). -/
theorem State.Takes.countsKept (h : s.Takes c t) (hc : c ≠ .powerOnReset) : s.plant.CountsKept c t.plant := by
  have hstep : ∀ {a b d : Plant}, a.CountsKept c b → b.CountsKept c d → a.CountsKept c d := fun h g j =>
    (h j).trans (g j)
  have hslots : ∀ {a b : Plant}, (∀ j, b.slot j = a.slot j) → a.CountsKept c b := fun h j => h j ▸ .refl j _
  cases h.effect with
  | reset hc' => exact absurd hc' hc
  | acts _ _ h _ =>
    exact h.keeps (P := s.plant.CountsKept c) (fun _ _ t hd => hstep hd t.countsKept) (fun _ _ => id) fun _ => .refl _ _
  | answers _ _ _ d l f h _ _ ht =>
    have hd := h.keeps (P := s.plant.CountsKept c) (fun _ _ t hd => hstep hd t.countsKept) (fun _ _ => id)
      fun _ => .refl _ _
    exact hstep hd (hslots fun j => by rw [ht, Plant.slot_settleLink]; rfl)
  | enters _ _ _ e f d d' ha hr ht =>
    have hd : s.plant.CountsKept c d := fun j => (ha.frame (c := c)).2.2.2.2 j
    exact hstep (hstep hd hr.shape.countsKept) (hslots fun j => by rw [ht, Plant.slot_settleLink])
  | sent _ _ ht => exact hslots fun j => by rw [ht, Plant.slot_settleLink]; rfl

/-- Settles O4, from the frame and the effect of a command. -/
theorem framesOfCommands : Obligations.FramesOfCommands := by
  intro c s t h
  have htakes := State.Takes.of_exec h
  refine ⟨fun hc => ⟨htakes.frame.clock hc, htakes.frame.tables hc, htakes.frame.staging hc, htakes.frame.power hc,
    htakes.frame.monitor hc⟩, fun i => ?_⟩
  by_cases hc : c = .powerOnReset
  · subst hc
    obtain rfl : t = s.powerOn := (Host.Outcome.next.inj h).symm
    rw [State.powerOn_slot]
    exact ⟨fun _ => rfl, fun _ => rfl, fun h => absurd h nofun, fun h => absurd rfl h⟩
  · have hkept := htakes.countsKept hc i
    exact ⟨hkept.presenceIn, hkept.overcurrentIn, hkept.exposures, fun _ => hkept.strays⟩

end Sys2Proof.Machine
end

section
/-! SUPPORT. The committed draw (R102, R103, R106): which operations leave every draw as it is, what a serving pass and a shed
leave of the account, and that every command keeps it. -/

namespace Sys2Proof.Machine

variable {e : Env} {t : Tables}

/-! ### Operations that leave every draw -/

/-- Every draw and the budget unit's record stay as they are. -/
structure Plant.DrawKept (t : Tables) (d d' : Plant) : Prop where
  draw : ∀ j, (d'.slot j).draw t j = (d.slot j).draw t j
  budget : d'.budget = d.budget

theorem Plant.DrawKept.refl (d : Plant) : d.DrawKept t d := ⟨fun _ => rfl, rfl⟩

theorem Plant.DrawKept.trans {a b c : Plant} (h : a.DrawKept t b) (g : b.DrawKept t c) : a.DrawKept t c :=
  ⟨fun j => (g.draw j).trans (h.draw j), g.budget.trans h.budget⟩

theorem Plant.DrawKept.foldl {α : Type} {f : Plant → α → Plant} (hf : ∀ d x, Plant.DrawKept t d (f d x)) (l : List α)
    (d : Plant) : d.DrawKept t (l.foldl f d) := by
  induction l generalizing d with
  | nil => exact .refl d
  | cons x l ih => exact (hf d x).trans (ih _)

theorem Slot.draw_congr {i : SlotId} {r r' : Slot} (hs : r'.state = r.state)
    (hf : r'.stoppingFromStart = r.stoppingFromStart) : r'.draw t i = r.draw t i := by
  unfold Slot.draw
  rw [hs, hf]

theorem Plant.DrawKept.of_slots {d d' : Plant} (hs : ∀ j, (d'.slot j).state = (d.slot j).state ∧
    (d'.slot j).stoppingFromStart = (d.slot j).stoppingFromStart) (hb : d'.budget = d.budget) : d.DrawKept t d' :=
  ⟨fun j => Slot.draw_congr (hs j).1 (hs j).2, hb⟩

@[simp] theorem Slot.examineCountdowns_draw (i : SlotId) (r : Slot) : (r.examineCountdowns e i).draw t i = r.draw t i :=
  Slot.draw_congr rfl rfl

theorem Plant.drawKept_put {d : Plant} {i : SlotId} {r : Slot} (h : r.draw t i = (d.slot i).draw t i) :
    d.DrawKept t (d.put e i r) := by
  refine ⟨fun j => ?_, rfl⟩
  rw [Plant.slot_put]
  split
  · next hj => rw [hj, Slot.examineCountdowns_draw, h]
  · rfl

/-- A write of one slot that keeps its state. -/
theorem Plant.drawKept_put_of_state {d : Plant} {i : SlotId} {r : Slot} (hs : r.state = (d.slot i).state)
    (hf : r.stoppingFromStart = (d.slot i).stoppingFromStart) : d.DrawKept t (d.put e i r) :=
  Plant.drawKept_put (Slot.draw_congr hs hf)

theorem record_drawKept (now : Clock) (ev : Event) (d : Plant) : d.DrawKept t (d.record now ev) :=
  ⟨fun j => by rw [Plant.record_slot], Plant.record_budget now ev d⟩

theorem answerHeld_drawKept (i : SlotId) (disp : Disposition) (named : HoldEntry → Bool) (d : Plant) :
    d.DrawKept t (answerHeld e i disp named d) := by
  refine .of_slots (fun j => ?_) (answerHeld_budget i disp named d)
  rw [answerHeld_slot]
  split
  · next h => rw [h]; exact ⟨rfl, rfl⟩
  · exact ⟨rfl, rfl⟩

theorem answerHead_drawKept (i : SlotId) (tag : Byte) (disp : Disposition) (status : Byte) (payload : List Byte)
    (d : Plant) : d.DrawKept t (dropHead e i (answer e i tag disp status payload d)) := by
  have hanswer : d.DrawKept t (answer e i tag disp status payload d) := .of_slots (fun _ => ⟨rfl, rfl⟩) rfl
  exact hanswer.trans (Plant.drawKept_put_of_state rfl rfl)

theorem emulationCheck_drawKept (i : SlotId) (d : Plant) : d.DrawKept t (emulationCheck e i d) := by
  unfold emulationCheck
  split
  · split
    · exact answerHead_drawKept i _ _ _ _ d
    · exact .refl d
  · exact .refl d

theorem Slot.toUnloading_state (i : SlotId) (kind : OrderKind) (mark : UnloadMark) (r : Slot) :
    (r.toUnloading e i kind mark).state = .unloading := rfl

theorem Slot.toStopping_state (i : SlotId) (retry fromStart : Bool) (r : Slot) :
    (r.toStopping e i retry fromStart).state = .stopping ∧
      (r.toStopping e i retry fromStart).stoppingFromStart = fromStart := ⟨rfl, rfl⟩

/-- No response of a slot to its effective level changes its draw (Table 1-3). -/
theorem act_drawKept (i : SlotId) (d : Plant) : d.DrawKept t (act e i d) := by
  unfold act
  simp only
  cases hs : (d.slot i).state with
  | empty | faulted | unloading | stopping => exact .refl d
  | stopped =>
    simp only
    split
    · have hput : d.DrawKept t (d.put e i { d.slot i with state := .queued }) :=
        Plant.drawKept_put (by simp only [Slot.draw, hs])
      exact hput.trans (.of_slots (fun _ => ⟨rfl, rfl⟩) rfl)
    · exact .refl d
  | queued =>
    simp only
    split
    · have hput : d.DrawKept t (d.put e i { d.slot i with state := .stopped }) :=
        Plant.drawKept_put (by simp only [Slot.draw, hs])
      have hleave : (d.put e i { d.slot i with state := .stopped }).DrawKept t
          ((d.put e i { d.slot i with state := .stopped }).leaveQueue i) := .of_slots (fun _ => ⟨rfl, rfl⟩) rfl
      exact (hput.trans hleave).trans (emulationCheck_drawKept i _)
    · exact .refl d
  | starting =>
    simp only
    split
    · exact Plant.drawKept_put (by simp [Slot.draw, Slot.toStopping_state, hs])
    · exact .refl d
  | spun =>
    simp only
    split
    · exact Plant.drawKept_put_of_state hs.symm rfl
    · exact Plant.drawKept_put_of_state hs.symm rfl
    · exact Plant.drawKept_put (by simp [Slot.draw, Slot.toStopping_state, hs])
  | loading =>
    simp only
    split
    · exact .refl d
    · exact Plant.drawKept_put (by simp [Slot.draw, Slot.toUnloading_state, hs])
  | loaded =>
    simp only
    split
    · split
      · exact Plant.drawKept_put_of_state hs.symm rfl
      · exact .refl d
    · split
      · exact .refl d
      · split
        · exact Plant.drawKept_put (by simp [Slot.draw, Slot.toUnloading_state, hs])
        · exact Plant.drawKept_put_of_state rfl rfl

theorem actIfChanged_drawKept (i : SlotId) (old : Level) (d : Plant) : d.DrawKept t (actIfChanged e i old d) := by
  unfold actIfChanged
  split
  · exact .refl d
  · exact act_drawKept i d

theorem writeBudgetCap_drawKept (i : SlotId) (cap : BudgetCap) (d : Plant) : d.DrawKept t (writeBudgetCap e i cap d) := by
  have hput : d.DrawKept t (d.put e i { d.slot i with budgetCap := cap }) := Plant.drawKept_put_of_state rfl rfl
  exact hput.trans (actIfChanged_drawKept i _ _)

theorem Slot.suspend_stoppingFromStart (r : Slot) : (r.suspend e).stoppingFromStart = r.stoppingFromStart := by
  unfold Slot.suspend
  simp only
  split <;> rfl

theorem settleSuspension_drawKept (i : SlotId) (d : Plant) : d.DrawKept t (settleSuspension e i d) := by
  have hsuspend : d.DrawKept t (d.put e i ((d.slot i).suspend e)) :=
    Plant.drawKept_put_of_state (d.slot i).suspend_frame.1 (Slot.suspend_stoppingFromStart _)
  unfold settleSuspension
  simp only
  split
  · exact .refl d
  split
  · split
    · exact .refl d
    · split
      · exact hsuspend.trans (answerHeld_drawKept i _ _ _)
      · exact hsuspend
  · split
    · exact Plant.drawKept_put_of_state rfl rfl
    · exact .refl d

theorem writeRequested_drawKept (i : SlotId) (lv : Level) (pin : Bool) (d : Plant) :
    d.DrawKept t (writeRequested e i lv pin d) := by
  have hput : d.DrawKept t (d.put e i ((d.slot i).setRequested lv pin)) := Plant.drawKept_put_of_state rfl rfl
  exact (hput.trans (actIfChanged_drawKept i _ _)).trans (settleSuspension_drawKept i _)

theorem Slot.markHead_stoppingFromStart (r : Slot) : r.markHead.stoppingFromStart = r.stoppingFromStart := by
  unfold Slot.markHead
  split <;> rfl

theorem Slot.markEmulating_stoppingFromStart (r : Slot) : r.markEmulating.stoppingFromStart = r.stoppingFromStart := by
  unfold Slot.markEmulating
  split <;> rfl

theorem becomeHead_drawKept (i : SlotId) (h : HoldEntry) (d : Plant) : d.DrawKept t (becomeHead e i h d) := by
  have hmark : d.DrawKept t (d.put e i (d.slot i).markHead) :=
    Plant.drawKept_put_of_state (d.slot i).markHead_state.1 (Slot.markHead_stoppingFromStart _)
  unfold becomeHead
  simp only
  split
  · exact hmark
  split
  · exact hmark.trans (writeRequested_drawKept i _ _ _)
  · exact hmark.trans (answerHead_drawKept i _ _ _ _ _)

theorem trapAct_drawKept (i : SlotId) (h : HoldEntry) (d : Plant) : d.DrawKept t (trapAct e i h d) := by
  have hmark : d.DrawKept t (d.put e i (d.slot i).markEmulating) :=
    Plant.drawKept_put_of_state (d.slot i).markEmulating_state.1 (Slot.markEmulating_stoppingFromStart _)
  have hact : d.DrawKept t (writeRequested e i h.requirement false (d.put e i (d.slot i).markEmulating)) :=
    hmark.trans (writeRequested_drawKept i _ _ _)
  unfold trapAct
  split
  · exact answerHead_drawKept i _ _ _ _ d
  · exact answerHead_drawKept i _ _ _ _ d
  all_goals
    simp only
    split
    · exact hact.trans (emulationCheck_drawKept i _)
    · exact hact

theorem headStep_drawKept {i : SlotId} {d d' : Plant} (h : headStep e i d = some d') : d.DrawKept t d' := by
  unfold headStep at h
  split at h
  · simp at h
  split at h
  · obtain rfl := Option.some.inj h
    exact becomeHead_drawKept i _ d
  split at h
  · split at h
    · simp at h
    · obtain rfl := Option.some.inj h
      exact trapAct_drawKept i _ d
  split at h
  · obtain rfl := Option.some.inj h
    exact Plant.drawKept_put_of_state rfl rfl
  · simp at h

theorem headLoop_drawKept (i : SlotId) (n : Nat) (d : Plant) : d.DrawKept t (headLoop e i n d) := by
  induction n generalizing d with
  | zero => exact .refl d
  | succ n ih =>
    unfold headLoop
    split
    · exact .refl d
    · next d' h => exact (headStep_drawKept h).trans (ih d')

theorem serveHead_drawKept (i : SlotId) (d : Plant) : d.DrawKept t (serveHead e i d) := headLoop_drawKept i _ d

theorem serveHeads_drawKept (d : Plant) : d.DrawKept t (serveHeads e d) := .foldl (fun d i => serveHead_drawKept i d) _ d

/-! ### Sums of the draws -/

theorem Plant.totalDraw_congr {d d' : Plant} (h : ∀ j, (d'.slot j).draw t j = (d.slot j).draw t j) :
    d'.totalDraw t = d.totalDraw t := by
  rw [Plant.totalDraw, Plant.totalDraw, List.map_congr_left fun j _ => h j]

/-- The total after a change of one slot. -/
theorem Plant.totalDraw_change {d d' : Plant} (i : SlotId) (h : ∀ j, j ≠ i → d'.slot j = d.slot j) :
    d'.totalDraw t + (d.slot i).draw t i = d.totalDraw t + (d'.slot i).draw t i :=
  sum_change (fun j => (d.slot j).draw t j) (fun j => (d'.slot j).draw t j) i fun j hj => by simp only [h j hj]

/-- The draw that a slot reports goes by its draw (R102). -/
theorem Env.drawOf_congr {i : SlotId} {r r' : Slot} (h : r'.draw e.tables i = r.draw e.tables i) :
    e.drawOf i r' = e.drawOf i r := by
  unfold Env.drawOf
  rw [h]

theorem Plant.DrawKept.drawOf {d d' : Plant} (h : d.DrawKept e.tables d') (i : SlotId) :
    e.drawOf i (d'.slot i) = e.drawOf i (d.slot i) := Env.drawOf_congr (h.draw i)

/-! ### The account of the budget unit -/

/-- The committed draw is the total, and fits in the budget. -/
structure Plant.Solvent (t : Tables) (d : Plant) : Prop where
  committed : d.budget.committed = d.totalDraw t
  fits : d.budget.committed ≤ d.budget.budget

theorem Plant.Solvent.of_drawKept {d d' : Plant} (h : d.Solvent t) (k : d.DrawKept t d') : d'.Solvent t := by
  refine ⟨?_, ?_⟩
  · rw [k.budget, Plant.totalDraw_congr k.draw, h.committed]
  · rw [k.budget]
    exact h.fits

/-- What an operation of the serving pass keeps: the account, the budget and the shed flag. -/
structure Plant.Serves (t : Tables) (d d' : Plant) : Prop where
  solvent : d.Solvent t → d'.Solvent t
  budget : d'.budget.budget = d.budget.budget
  shed : d'.budget.shed = d.budget.shed

theorem Plant.Serves.refl (d : Plant) : d.Serves t d := ⟨id, rfl, rfl⟩

theorem Plant.Serves.trans {a b c : Plant} (h : a.Serves t b) (g : b.Serves t c) : a.Serves t c :=
  ⟨fun s => g.solvent (h.solvent s), g.budget.trans h.budget, g.shed.trans h.shed⟩

theorem Plant.DrawKept.serves {d d' : Plant} (h : d.DrawKept t d') : d.Serves t d' :=
  ⟨fun s => s.of_drawKept h, by rw [h.budget], by rw [h.budget]⟩

theorem refreshArbiter_committed (d : Plant) : (refreshArbiter e d).budget.committed = d.budget.committed ∧
    (refreshArbiter e d).budget.budget = d.budget.budget ∧ (refreshArbiter e d).budget.shed = d.budget.shed :=
  ⟨rfl, rfl, rfl⟩

theorem refreshArbiter_serves (d : Plant) : d.Serves t (refreshArbiter e d) :=
  ⟨fun s => ⟨s.committed, s.fits⟩, rfl, rfl⟩

/-- The plant of `grantLoad` before the total is taken anew. -/
def Plant.withLoad (e : Env) (i : SlotId) (d : Plant) : Plant :=
  d.put e i (Slot.issue e i .load { d.slot i with loadClaim := false, state := .loading })

theorem grantLoad_eq (i : SlotId) (d : Plant) : grantLoad e i d =
    if (d.slot i).state = .spun ∧ (d.slot i).effective = .load then recommit e (d.withLoad e i)
    else act e i (d.put e i { d.slot i with loadClaim := false }) := rfl

/-- The plant of `grantStart` before the total is taken anew. -/
def Plant.withStart (e : Env) (i : SlotId) (d : Plant) : Plant :=
  let d1 := (d.put e i (Slot.issue e i .spinUp { d.slot i with state := .starting })).leaveQueue i
  { d1 with arb := { d1.arb with stagger := some ⟨e.clock, e.tables.staggerMs⟩, lastGranted := i } }

theorem grantStart_eq (i : SlotId) (d : Plant) : grantStart e i d = refreshArbiter e (recommit e
    (takeOvercurrent e i (refreshArbiter e (recommit e (d.withStart e i))))) := rfl

variable (hread : e.unread = none)
include hread

theorem recommit_total (d : Plant) : (recommit e d).budget = { d.budget with committed := d.totalDraw e.tables } := by
  unfold recommit
  rw [Plant.reportedDraw_read hread]

/-- A fresh total that fits. -/
theorem recommit_solvent {d : Plant} (h : d.totalDraw e.tables ≤ d.budget.budget) : (recommit e d).Solvent e.tables := by
  refine ⟨?_, ?_⟩
  · rw [recommit_total hread]
    rfl
  · rw [recommit_total hread]
    exact h

theorem grantLoad_serves {i : SlotId} {d : Plant} (hfits : d.fits (e.loadAmount i) = true) :
    d.Serves e.tables (grantLoad e i d) := by
  rw [Env.loadAmount_read hread] at hfits
  have hfit : d.budget.committed + e.tables.loadDraw i ≤ d.budget.budget := of_decide_eq_true hfits
  rw [grantLoad_eq]
  split
  · next h =>
    refine ⟨fun s => recommit_solvent hread ?_, by rw [recommit_total hread]; rfl, by rw [recommit_total hread]; rfl⟩
    have hstate : (d.slot i).state = .spun := h.1
    have htotal := Plant.totalDraw_change (t := e.tables) (d := d) (d' := d.withLoad e i) i
      fun j hj => Plant.slot_put_other e hj _ d
    have hold : (d.slot i).draw e.tables i = e.tables.runDraw i := by simp only [Slot.draw, hstate]
    have hnew : ((d.withLoad e i).slot i).draw e.tables i = e.tables.runDraw i + e.tables.loadDraw i := by
      unfold Plant.withLoad
      rw [Plant.slot_put_same, Slot.examineCountdowns_draw]
      rfl
    rw [hold, hnew] at htotal
    have hsum := s.committed
    have hbudget : (d.withLoad e i).budget = d.budget := rfl
    rw [hbudget]
    omega
  · have hput : d.DrawKept e.tables (d.put e i { d.slot i with loadClaim := false }) :=
      Plant.drawKept_put_of_state rfl rfl
    exact (hput.trans (act_drawKept i _)).serves

theorem serveLoad_serves (d : Plant) (i : SlotId) : d.Serves e.tables (serveLoad e d i) := by
  unfold serveLoad
  split
  · next h => exact grantLoad_serves hread (Bool.and_eq_true_iff.mp h).2
  · exact .refl d

omit hread in
/-- A slot that faults draws nothing. -/
theorem takeOvercurrent_totalDraw (i : SlotId) (d : Plant) : (takeOvercurrent e i d).totalDraw t ≤ d.totalDraw t := by
  unfold takeOvercurrent
  split
  · have htotal := Plant.totalDraw_change (t := t) (d := d) (d' := enterFaulted e i .overcurrent none d) i
      fun j hj => enterFaulted_other i _ _ d j hj
    have hstate : ((enterFaulted e i .overcurrent none d).slot i).state = .faulted := by
      unfold enterFaulted
      simp only [Plant.record_slot, answerAll_state, Plant.slot_leaveQueue, Plant.slot_put_same,
        Slot.examineCountdowns_state]
    have hzero : ((enterFaulted e i .overcurrent none d).slot i).draw t i = 0 := by simp only [Slot.draw, hstate]
    omega
  · exact le_refl _

theorem grantStart_serves {i : SlotId} {d : Plant} (hq : (d.slot i).state = .queued)
    (hfits : d.fits (e.startAmount i) = true) : d.Serves e.tables (grantStart e i d) := by
  rw [Env.startAmount_read hread] at hfits
  have hfit : d.budget.committed + e.tables.spinDraw i ≤ d.budget.budget := of_decide_eq_true hfits
  have htotal := Plant.totalDraw_change (t := e.tables) (d := d) (d' := d.withStart e i) i
    fun j hj => by unfold Plant.withStart; exact Plant.slot_put_other e hj _ d
  have hold : (d.slot i).draw e.tables i = 0 := by simp only [Slot.draw, hq]
  have hnew : ((d.withStart e i).slot i).draw e.tables i = e.tables.spinDraw i := by
    unfold Plant.withStart
    show (((d.put e i _)).slot i).draw e.tables i = _
    rw [Plant.slot_put_same, Slot.examineCountdowns_draw]
    rfl
  rw [hold, hnew] at htotal
  have hbudget : (d.withStart e i).budget = d.budget := rfl
  have hover := takeOvercurrent_totalDraw (e := e) (t := e.tables) i (refreshArbiter e (recommit e (d.withStart e i)))
  have hsame : (refreshArbiter e (recommit e (d.withStart e i))).totalDraw e.tables =
    (d.withStart e i).totalDraw e.tables := rfl
  rw [grantStart_eq]
  refine ⟨fun s => (refreshArbiter_serves _).solvent (recommit_solvent hread ?_), ?_, ?_⟩
  · rw [(takeOvercurrent_blocks i _).2.1, (refreshArbiter_committed _).2.1, recommit_total hread, hbudget]
    have hsum := s.committed
    show _ ≤ d.budget.budget
    omega
  · rw [(refreshArbiter_committed _).2.1, recommit_total hread, (takeOvercurrent_blocks i _).2.1,
      (refreshArbiter_committed _).2.1, recommit_total hread, hbudget]
  · rw [(refreshArbiter_committed _).2.2, recommit_total hread, (takeOvercurrent_blocks i _).2.1,
      (refreshArbiter_committed _).2.2, recommit_total hread, hbudget]

theorem serveStart_serves (d : Plant) : d.Serves e.tables (serveStart e d) := by
  unfold serveStart
  split
  · next i _ =>
    split
    · next h =>
      simp only [Bool.and_eq_true, decide_eq_true_eq] at h
      exact grantStart_serves hread h.2 h.1.2
    · exact .refl d
  · exact .refl d

theorem servePass_serves (d : Plant) : d.Serves e.tables (servePass e d) := by
  have hfold : ∀ (l : List SlotId) (d : Plant), d.Serves e.tables (l.foldl (serveLoad e) d) := by
    intro l
    induction l with
    | nil => exact .refl
    | cons i l ih => exact fun d => (serveLoad_serves hread d i).trans (ih _)
  unfold servePass
  split
  · exact .refl d
  · exact (hfold _ d).trans (serveStart_serves hread _)

end Sys2Proof.Machine
end

section
/-! SUPPORT. The committed draw across a response of the blocks and across every command (R102, R106, R110). -/

namespace Sys2Proof.Machine

variable {e : Env} {t : Tables}

theorem Plant.DrawKept.of_eq {d d' : Plant} (h : d' = d) : d.DrawKept t d' := by
  rw [h]
  exact .refl d

/-! ### Sheds -/

theorem takeVictim_drawKept (d : Plant) (i : SlotId) : d.DrawKept t (takeVictim e d i) := by
  unfold takeVictim
  split
  · exact writeBudgetCap_drawKept i _ d
  · exact .refl d

theorem takeVictims_drawKept (d : Plant) : d.DrawKept t (takeVictims e d) := .foldl takeVictim_drawKept _ d

/-- The budget unit's comparison leaves every draw and the account, and sets the shed flag to what it finds (R106, R110). -/
structure Plant.Compared (t : Tables) (d d' : Plant) : Prop where
  draw : ∀ j, (d'.slot j).draw t j = (d.slot j).draw t j
  budget : d'.budget = { d.budget with shed := decide (d.budget.budget < d.budget.committed) }

theorem Plant.DrawKept.compared {a b c : Plant} (h : a.DrawKept t b)
    (hb : c.budget = { b.budget with shed := decide (b.budget.budget < b.budget.committed) })
    (hs : ∀ j, c.slot j = b.slot j) : a.Compared t c :=
  ⟨fun j => by rw [hs j, h.draw j], by rw [hb, h.budget]⟩

theorem beginShed_compared {d : Plant} (h : d.budget.budget < d.budget.committed) : d.Compared t (beginShed e d) := by
  have hkept : Plant.DrawKept t { d with budget := { d.budget with shed := true } } (beginShed e d) :=
    (takeVictims_drawKept _).trans (record_drawKept _ _ _)
  exact ⟨fun j => hkept.draw j, by rw [hkept.budget, decide_eq_true h]⟩

theorem endShed_compared {d : Plant} (h : d.budget.committed ≤ d.budget.budget) : d.Compared t (endShed e d) := by
  have hkept : Plant.DrawKept t { d with budget := { d.budget with shed := false } } (endShed e d) :=
    (record_drawKept _ _ _).trans (.foldl (fun d i => writeBudgetCap_drawKept i .none d) _ _)
  exact ⟨fun j => hkept.draw j, by rw [hkept.budget, decide_eq_false (Nat.not_lt.mpr h)]⟩

theorem shedReact_compared (d : Plant) : d.Compared t (shedReact e d) := by
  unfold shedReact
  split
  · next hshed =>
    split
    · next h => exact endShed_compared h
    · next h =>
      have hflag : d.budget = { d.budget with shed := decide (d.budget.budget < d.budget.committed) } := by
        rw [decide_eq_true (Nat.not_le.mp h), ← hshed]
      split
      · have hkept : d.DrawKept t (takeVictims e d) := takeVictims_drawKept d
        exact ⟨hkept.draw, hkept.budget.trans hflag⟩
      · exact ⟨fun _ => rfl, hflag⟩
  · next hshed =>
    split
    · next h => exact beginShed_compared h
    · next h =>
      refine ⟨fun _ => rfl, ?_⟩
      rw [decide_eq_false h, ← Bool.eq_false_iff.mpr hshed]

/-! ### The account after a response -/

/-- What a response of the budget unit leaves: the total committed, the budget as it was, and a shed in progress exactly while
the total exceeds the budget, before the serving pass and after it. -/
structure Plant.Audited (t : Tables) (d d' : Plant) : Prop where
  committed : d'.budget.committed = d'.totalDraw t
  budget : d'.budget.budget = d.budget.budget
  shed : d'.budget.shed = true ↔ d.budget.budget < d.totalDraw t
  exceeds : d'.budget.shed = true ↔ d'.budget.budget < d'.budget.committed

theorem servePass_of_shed {d : Plant} (h : d.budget.shed = true) : servePass e d = d := by
  unfold servePass
  rw [h, Bool.true_or, if_pos rfl]

theorem budgetReact_audited (hread : e.unread = none) (d : Plant) : d.Audited e.tables (budgetReact e d) := by
  have hcompared : (refreshArbiter e (recommit e d)).Compared e.tables
      (shedReact e (refreshArbiter e (recommit e d))) := shedReact_compared _
  obtain ⟨hdraw, hbudget⟩ := hcompared
  let d2 := refreshArbiter e (shedReact e (refreshArbiter e (recommit e d)))
  have hbefore : (refreshArbiter e (recommit e d)).budget.budget = d.budget.budget ∧
      (refreshArbiter e (recommit e d)).budget.committed = d.totalDraw e.tables := by
    rw [(refreshArbiter_committed _).1, (refreshArbiter_committed _).2.1, recommit_total hread]
    exact ⟨rfl, rfl⟩
  have hcommitted : d2.budget.committed = d.totalDraw e.tables := by
    rw [(refreshArbiter_committed _).1, hbudget]
    dsimp only
    exact hbefore.2
  have hcap : d2.budget.budget = d.budget.budget := by
    rw [(refreshArbiter_committed _).2.1, hbudget]
    dsimp only
    exact hbefore.1
  have hshed : d2.budget.shed = decide (d.budget.budget < d.totalDraw e.tables) := by
    rw [(refreshArbiter_committed _).2.2, hbudget, hbefore.1, hbefore.2]
  have htotal : d2.totalDraw e.tables = d.totalDraw e.tables := Plant.totalDraw_congr fun j => by
    rw [refreshArbiter_slot, hdraw j, refreshArbiter_slot, recommit_slot]
  have hserves : d2.Serves e.tables (servePass e d2) := servePass_serves hread d2
  show d.Audited e.tables (servePass e d2)
  by_cases hover : d.budget.budget < d.totalDraw e.tables
  · rw [decide_eq_true hover] at hshed
    rw [servePass_of_shed hshed]
    exact ⟨hcommitted.trans htotal.symm, hcap, by simp [hshed, hover], by rw [hcommitted, hcap]; simp [hshed, hover]⟩
  · rw [decide_eq_false hover] at hshed
    obtain ⟨hsum, hfits⟩ := hserves.solvent ⟨hcommitted.trans htotal.symm, by rw [hcommitted, hcap]; exact not_lt.mp hover⟩
    have hflag : (servePass e d2).budget.shed = false := hserves.shed.trans hshed
    refine ⟨hsum, hserves.budget.trans hcap, ?_, ?_⟩
    · simp [hflag, not_lt.mp hover]
    · simp [hflag, hfits]

theorem Plant.Audited.of_drawKept_left {a b c : Plant} (h : a.DrawKept t b) (g : b.Audited t c) : a.Audited t c :=
  ⟨g.committed, by rw [g.budget, h.budget], by rw [g.shed, h.budget, Plant.totalDraw_congr h.draw], g.exceeds⟩

theorem Plant.Audited.of_drawKept_right {a b c : Plant} (g : a.Audited t b) (h : b.DrawKept t c) : a.Audited t c :=
  ⟨by rw [h.budget, g.committed, Plant.totalDraw_congr h.draw], by rw [h.budget, g.budget], by rw [h.budget, g.shed],
    by rw [h.budget, g.exceeds]⟩

theorem Plant.Audited.trans {a b c : Plant} (h : a.Audited t b) (g : b.Audited t c) : a.Audited t c := by
  refine ⟨g.committed, g.budget.trans h.budget, ?_, g.exceeds⟩
  rw [g.shed, ← h.committed, ← h.exceeds, h.shed]

theorem examinePhase_drawKept (d : Plant) : d.DrawKept t (examinePhase e d) := by
  unfold examinePhase
  split
  · exact Plant.DrawKept.trans (b := { d with emg := { d.emg with phase := some .parked } })
      (.of_slots (fun _ => ⟨rfl, rfl⟩) rfl) (record_drawKept _ _ _)
  · exact .refl d

theorem refreshSettle_drawKept (d : Plant) : d.DrawKept t (refreshSettle e d) := by
  unfold refreshSettle
  split
  · split
    · exact .refl d
    · exact .of_slots (fun _ => ⟨rfl, rfl⟩) rfl
  · exact .of_slots (fun _ => ⟨rfl, rfl⟩) rfl

theorem react_audited (hread : e.unread = none) (d : Plant) : d.Audited e.tables (react e d) := by
  have hfirst : d.Audited e.tables (serveHeads e (budgetReact e d)) :=
    (budgetReact_audited hread d).of_drawKept_right (serveHeads_drawKept _)
  have hsecond : d.Audited e.tables (serveHeads e (budgetReact e (serveHeads e (budgetReact e d)))) :=
    (hfirst.trans (budgetReact_audited hread _)).of_drawKept_right (serveHeads_drawKept _)
  exact hsecond.of_drawKept_right ((examinePhase_drawKept _).trans (refreshSettle_drawKept _))

theorem Plant.settleLink_drawKept (d : Plant) : d.DrawKept t d.settleLink :=
  ⟨fun j => by rw [Plant.slot_settleLink], Plant.budget_settleLink d⟩

/-! ### Every command -/

section Commands

variable {s u : State}

/-- A response of the blocks leaves the account right, whatever it was before. -/
theorem Plant.Audited.budgetKept {d d' : Plant} (h : d.Audited t d') (ht : u.tables = t) (hp : u.plant = d') :
    u.budgetKept := by
  subst ht hp
  refine ⟨h.committed, fun hshed => not_lt.mp fun hover => ?_⟩
  rw [h.exceeds.mpr hover] at hshed
  exact Bool.noConfusion hshed

/-- An operation that ends with the response of the blocks. -/
theorem State.onPlant_budgetKept {f : Env → Plant → Plant} (s : State) {d : Plant}
    (h : f s.env s.plant = react s.env d) : (s.onPlant f).budgetKept := by
  have haudited : d.Audited s.tables (react s.env d) := react_audited (e := s.env) rfl d
  refine (haudited.of_drawKept_right (Plant.settleLink_drawKept _)).budgetKept (State.onPlant_tables f s) ?_
  rw [State.onPlant_plant, h]

/-- A change that leaves the draws and the budget unit's record. -/
theorem State.budgetKept_of_drawKept (h : s.plant.DrawKept s.tables u.plant)
    (ht : ∀ j r, Slot.draw u.tables j r = Slot.draw s.tables j r) (hs : s.budgetKept) : u.budgetKept := by
  obtain ⟨hcommitted, hfits⟩ := hs
  have htotal : u.plant.totalDraw u.tables = s.plant.totalDraw s.tables := by
    rw [← Plant.totalDraw_congr h.draw]
    unfold Plant.totalDraw
    rw [List.map_congr_left fun j _ => ht j _]
  refine ⟨?_, ?_⟩
  · rw [h.budget, hcommitted, htotal]
  · rw [h.budget]
    exact hfits

theorem State.budgetKept_of_same (hp : ∀ j, u.plant.slot j = s.plant.slot j) (hb : u.plant.budget = s.plant.budget)
    (ht : u.tables = s.tables) (hs : s.budgetKept) : u.budgetKept :=
  State.budgetKept_of_drawKept (.of_slots (fun j => by rw [hp j]; exact ⟨rfl, rfl⟩) hb) (fun _ _ => by rw [ht]) hs

/-- An operation of the plant that leaves the draws. -/
theorem State.onPlant_keeps_budget {f : Env → Plant → Plant} (h : s.plant.DrawKept s.tables (f s.env s.plant))
    (hs : s.budgetKept) : (s.onPlant f).budgetKept := by
  refine State.budgetKept_of_drawKept ?_ (fun _ _ => by rw [State.onPlant_tables]) hs
  rw [State.onPlant_plant]
  exact h.trans (Plant.settleLink_drawKept _)

theorem State.onMonitor_budgetKept (f : Monitor → Monitor) (hs : s.budgetKept) : (s.onMonitor f).budgetKept := hs

theorem State.record_budgetKept (ev : Event) (hs : s.budgetKept) : (s.record ev).budgetKept :=
  State.onPlant_keeps_budget (f := fun e d => d.record e.clock ev) (record_drawKept _ ev _) hs

theorem takeClassChange_reacts (first : Bool) (old : MotionClass) (sensor : SensorState) (d : Plant) :
    ∃ d', takeClassChange e first old sensor d = react e d' := by
  unfold takeClassChange emergencyTakesClass applyPolicyAll
  simp only
  split
  · split <;> exact ⟨_, rfl⟩
  · exact ⟨_, rfl⟩

theorem takePowerChange_reacts (first : Bool) (new : PowerState) (d : Plant) :
    ∃ d', takePowerChange e first new d = react e d' := by
  unfold takePowerChange emergencyTakesPower budgetTakes
  simp only
  split
  · split <;> exact ⟨_, rfl⟩
  · exact ⟨_, rfl⟩

theorem State.deriveClass_budgetKept (hs : s.budgetKept) : s.deriveClass.budgetKept := by
  unfold State.deriveClass
  simp only
  split
  · exact hs
  · obtain ⟨d, hd⟩ := takeClassChange_reacts (e := (s.useFree.onMonitor fun m =>
        { m with cls := s.monitor.derivedClass s.tables }).env) (Config.freeOrder s.freeCount) s.monitor.cls
        s.monitor.sensor s.plant
    exact State.onPlant_budgetKept (s.useFree.onMonitor _) hd

theorem State.onLink_budgetKept (f : Link → Link) (hs : s.budgetKept) : (s.onLink f).budgetKept := hs

theorem State.reply_budgetKept (tag code : Byte) (st : UnitStatus) (data : List Byte) (hs : s.budgetKept) :
    (s.reply tag code st data).budgetKept :=
  State.onPlant_keeps_budget (f := fun _ d => d.push (replyFrame tag code st data)) (.of_slots (fun _ => ⟨rfl, rfl⟩) rfl) hs

theorem takeRequest_budgetKept {owner : State → Answered} (hown : ∀ u : State, u.budgetKept → (owner u).state.budgetKept)
    (code : Byte) (lengthOk : Nat → Bool) (r : Request) (hs : s.budgetKept) :
    (takeRequest code lengthOk r owner s).budgetKept := by
  unfold takeRequest
  split
  · exact hs
  split
  · have haccepted : (s.onLink Link.acceptFrame).budgetKept := State.onLink_budgetKept _ hs
    simp only
    split
    · exact State.reply_budgetKept _ _ _ _ (hown _ haccepted)
    · exact State.reply_budgetKept _ _ _ _ haccepted
  · exact State.onLink_budgetKept _ hs

/-- The owner of a request that leaves the plant as a response of the blocks leaves it. -/
theorem State.reacted_budgetKept {d d' : Plant} (h : d' = react u.env d) : State.budgetKept { u with plant := d' } := by
  have haudited : d.Audited u.tables (react u.env d) := react_audited (e := u.env) rfl d
  exact haudited.budgetKept rfl h

theorem slotStatusAnswer_state (r : Request) (s : State) : (slotStatusAnswer r s).state = s := by
  unfold slotStatusAnswer
  split
  · rfl
  · split <;> rfl

theorem tableReadAnswer_state (r : Request) (s : State) : (tableReadAnswer r s).state = s := by
  unfold tableReadAnswer
  split
  · rfl
  · split <;> rfl

theorem eventReadAnswer_budgetKept (r : Request) (hs : s.budgetKept) : (eventReadAnswer r s).state.budgetKept := by
  unfold eventReadAnswer
  simp only
  split <;> exact hs

theorem motionAnswer_budgetKept (r : Request) (hs : s.budgetKept) : (motionAnswer r s).state.budgetKept := by
  unfold motionAnswer
  split
  · exact hs
  split
  · exact hs
  split
  · exact hs
  · exact State.reacted_budgetKept rfl

theorem slotRecoverAnswer_budgetKept (r : Request) (hs : s.budgetKept) :
    (slotRecoverAnswer r s).state.budgetKept := by
  unfold slotRecoverAnswer
  split
  · exact hs
  split
  · exact State.reacted_budgetKept rfl
  · exact hs

theorem emergencyClearAnswer_budgetKept (hs : s.budgetKept) : (emergencyClearAnswer s).state.budgetKept := by
  unfold emergencyClearAnswer
  split
  · exact hs
  split
  · exact hs
  split
  · exact hs
  · exact State.reacted_budgetKept rfl

theorem clearExposure_drawKept (m : Word16) (d : Plant) (i : SlotId) : d.DrawKept t (clearExposure e m d i) := by
  unfold clearExposure
  split
  · exact Plant.drawKept_put_of_state rfl rfl
  · exact .refl d

theorem exposureClearAnswer_budgetKept (r : Request) (hs : s.budgetKept) :
    (exposureClearAnswer r s).state.budgetKept := by
  unfold exposureClearAnswer
  split
  · exact hs
  · exact State.budgetKept_of_drawKept (s := s) (.foldl (fun d i => clearExposure_drawKept _ d i) _ _)
      (fun _ _ => rfl) hs

theorem stageWriteAnswer_budgetKept (r : Request) (hs : s.budgetKept) : (stageWriteAnswer r s).state.budgetKept := by
  unfold stageWriteAnswer
  split
  · exact hs
  · simp only
    split <;> exact hs

/-- The tables that no draw reads. -/
def TableId.drawless (id : TableId) : Prop := id ≠ .slotCfg ∧ id ≠ .profiles

theorem Tables.setBytes_draw {id : TableId} (h : id.drawless) (t : Tables) (bs : List Byte) (j : SlotId) (r : Slot) :
    Slot.draw (t.setBytes id bs) j r = Slot.draw t j r := by
  cases id with
  | slotCfg => exact absurd rfl h.1
  | profiles => exact absurd rfl h.2
  | unit | classMap | logicalMap | policy | motion | budgets => rfl

theorem State.copyStaged_budgetKept {g : Staged} (h : g.table.drawless) (hs : s.budgetKept) :
    (s.copyStaged g).budgetKept := by
  refine State.record_budgetKept _ (State.budgetKept_of_drawKept (s := s) (.refl _) (fun j r => ?_) hs)
  exact Tables.setBytes_draw h _ _ j r

theorem applyPolicyAll_reacts (d : Plant) : applyPolicyAll e d = react e (allSlots.foldl (applyPolicyAt e) d) := rfl

theorem budgetsCommitted_cases (old : Tables) (e : Env) (d : Plant) :
    budgetsCommitted old e d = d ∨ ∃ d', budgetsCommitted old e d = react e d' := by
  unfold budgetsCommitted
  simp only
  split
  · exact .inl rfl
  · exact .inr ⟨_, rfl⟩

theorem commitAnswer_budgetKept (r : Request) (hs : s.budgetKept) : (commitAnswer r s).state.budgetKept := by
  unfold commitAnswer
  split
  · exact hs
  next g _ =>
  split
  · split
    · exact hs
    · show (commitEffects g.table s.tables (s.copyStaged g)).budgetKept
      have hcopied : g.table.drawless → (s.copyStaged g).budgetKept := fun h => State.copyStaged_budgetKept h hs
      cases hid : g.table with
      | unit | profiles => exact State.onPlant_budgetKept (s.copyStaged g) (f := react) rfl
      | slotCfg =>
        exact State.onPlant_budgetKept (s.copyStaged g).useFree.useFree (f := slotCfgCommitted _ _ _) rfl
      | classMap | logicalMap => exact hcopied (by rw [hid]; exact ⟨nofun, nofun⟩)
      | policy => exact State.onPlant_budgetKept (s.copyStaged g) (f := applyPolicyAll) (applyPolicyAll_reacts _)
      | motion =>
        exact State.deriveClass_budgetKept (State.onMonitor_budgetKept _ (hcopied (by rw [hid]; exact ⟨nofun, nofun⟩)))
      | budgets =>
        have hkept := hcopied (by rw [hid]; exact ⟨nofun, nofun⟩)
        show (State.onPlant (budgetsCommitted s.tables) (s.copyStaged g)).budgetKept
        rcases budgetsCommitted_cases s.tables (s.copyStaged g).env (s.copyStaged g).plant with hsame | ⟨d, hd⟩
        · exact State.onPlant_keeps_budget (f := budgetsCommitted s.tables) (.of_eq hsame) hkept
        · exact State.onPlant_budgetKept (s.copyStaged g) (f := budgetsCommitted s.tables) hd
  · exact hs

theorem State.powerOn_budgetKept (s : State) : s.powerOn.budgetKept := by
  have hdraw : ∀ j ∈ allSlots, (s.powerOn.plant.slot j).draw s.powerOn.tables j = 0 := fun j _ => by
    simp only [Slot.draw, (s.powerOn_reset j).1]
  have htotal : s.powerOn.plant.totalDraw s.powerOn.tables = 0 := by
    rw [Plant.totalDraw, List.map_congr_left hdraw]
    decide
  exact ⟨htotal.symm, fun _ => Nat.zero_le _⟩

theorem execPowerFilterExpiry_budgetKept (l : PowerLine) (s : State) :
    ∃ u, execPowerFilterExpiry l s = .next u ∧ (s.budgetKept → u.budgetKept) := by
  refine exists_next_of_ite (P := fun u => s.budgetKept → u.budgetKept) (fun _ hs => ?_) id
  unfold State.derivePower
  simp only
  split
  · exact hs
  · obtain ⟨d, hd⟩ := takePowerChange_reacts (e := s.env) (Config.freeOrder s.freeCount)
      (s.power.setLine l (s.power.line l).expire).derived s.plant
    exact State.onPlant_budgetKept (State.useFree _) hd

theorem execSample_budgetKept (x y z : Word16) (s : State) :
    ∃ u, execSample x y z s = .next u ∧ (s.budgetKept → u.budgetKept) := by
  unfold execSample
  refine exists_next_of_ite (P := fun u => s.budgetKept → u.budgetKept) (fun _ hs => ?_) id
  refine State.deriveClass_budgetKept (State.onMonitor_budgetKept _ ?_)
  split
  · exact State.record_budgetKept _ (State.onMonitor_budgetKept _ hs)
  · exact State.onMonitor_budgetKept _ hs

theorem execOrderTimeout_budgetKept (i : SlotId) (s : State) :
    ∃ u, execOrderTimeout i s = .next u ∧ (s.budgetKept → u.budgetKept) := by
  unfold execOrderTimeout
  split
  · exact ⟨_, rfl, fun _ => State.onPlant_budgetKept (f := fun e d => react e (orderFailure e i _ d)) s rfl⟩
  · exact ⟨_, rfl, id⟩

theorem execCommand_budgetKept (f : CommandFrame) (s : State) :
    ∃ u, execCommand f s = .next u ∧ (s.budgetKept → u.budgetKept) := by
  unfold execCommand
  by_cases hb : s.plant.link.broken = true
  · exact ⟨s, if_pos hb, id⟩
  · rw [if_neg hb]
    exact exists_next_of_ite (P := fun u => s.budgetKept → u.budgetKept)
      (fun _ _ => State.onPlant_budgetKept (f := fun e d => react e (arrive e f d)) (s.onLink Link.acceptFrame) rfl) id

theorem laneReceived_drawKept (i : SlotId) (d : Plant) : d.DrawKept t (laneReceived e i d) :=
  Plant.drawKept_put_of_state rfl rfl

theorem laneSent_drawKept (i : SlotId) (d : Plant) : d.DrawKept t (laneSent e i d) :=
  Plant.drawKept_put_of_state rfl rfl

theorem presenceEdge_drawKept (i : SlotId) (level : Bool) (d : Plant) :
    d.DrawKept t (d.put e i ((d.slot i).presenceEdge e.clock level)) := by
  have hsame : ((d.slot i).presenceEdge e.clock level).state = (d.slot i).state ∧
      ((d.slot i).presenceEdge e.clock level).stoppingFromStart = (d.slot i).stoppingFromStart := by
    unfold Slot.presenceEdge
    split <;> exact ⟨rfl, rfl⟩
  exact Plant.drawKept_put_of_state hsame.1 hsame.2

/-- Every command completes and keeps the account. -/
theorem exec_budgetKept (c : Instr) (s : State) : ∃ u, exec c s = .next u ∧ (s.budgetKept → u.budgetKept) := by
  have hrequest : ∀ (code : Byte) (lengthOk : Nat → Bool) (r : Request) (owner : State → Answered),
      (∀ u : State, u.budgetKept → (owner u).state.budgetKept) →
      ∃ u, (Host.Outcome.next (takeRequest code lengthOk r owner s) : Host.Outcome State Fault Refusal) = .next u ∧
        (s.budgetKept → u.budgetKept) := fun code lengthOk r owner hown =>
    ⟨_, rfl, takeRequest_budgetKept hown code lengthOk r⟩
  have hreact : ∀ f : Env → Plant → Plant,
      ∃ u, (Host.Outcome.next (s.onPlant (fun e d => react e (f e d))) : Host.Outcome State Fault Refusal) = .next u ∧
        (s.budgetKept → u.budgetKept) := fun f =>
    ⟨_, rfl, fun _ => State.onPlant_budgetKept (f := fun e d => react e (f e d)) s rfl⟩
  have hguarded : ∀ (p : Prop) [Decidable p] (f : Env → Plant → Plant),
      ∃ u, (if p then Host.Outcome.next (s.onPlant (fun e d => react e (f e d))) else .next s :
        Host.Outcome State Fault Refusal) = .next u ∧ (s.budgetKept → u.budgetKept) := fun p _ f =>
    exists_next_of_ite (P := fun u => s.budgetKept → u.budgetKept)
      (fun _ _ => State.onPlant_budgetKept (f := fun e d => react e (f e d)) s rfl) id
  have hmonitor : ∀ (p : Prop) [Decidable p] (f : Monitor → Monitor),
      ∃ u, (if p then Host.Outcome.next (s.onMonitor f).deriveClass else .next s :
        Host.Outcome State Fault Refusal) = .next u ∧ (s.budgetKept → u.budgetKept) := fun p _ f =>
    exists_next_of_ite (P := fun u => s.budgetKept → u.budgetKept)
      (fun _ hs => State.deriveClass_budgetKept (State.onMonitor_budgetKept _ hs)) id
  have hlane : ∀ i, (s.budgetKept → (s.onPlant fun e d => laneReceived e i d).budgetKept) := fun i =>
    State.onPlant_keeps_budget (f := fun e d => laneReceived e i d) (laneReceived_drawKept i _)
  cases c with
  | powerOnReset => exact ⟨_, rfl, fun _ => s.powerOn_budgetKept⟩
  | command f => exact execCommand_budgetKept f s
  | downstreamFrameDiscarded cause =>
    show ∃ u, execDownstreamFrameDiscarded cause s = .next u ∧ _
    unfold execDownstreamFrameDiscarded
    split <;> exact ⟨_, rfl, id⟩
  | lineBreak =>
    show ∃ u, execLineBreak s = .next u ∧ _
    unfold execLineBreak
    split <;> exact ⟨_, rfl, id⟩
  | lineBreakEnd => exact exists_next_of_ite (P := fun u => s.budgetKept → u.budgetKept) (fun _ hs => hs) id
  | upstreamFrameSent =>
    exact exists_next_of_ite (P := fun u => s.budgetKept → u.budgetKept)
      (fun _ hs => State.onPlant_keeps_budget (f := fun _ d => { d with link := d.link.frameSent })
        (.of_slots (fun _ => ⟨rfl, rfl⟩) rfl) hs) id
  | unknownRequest code r => exact hrequest _ _ _ _ fun _ => id
  | unitQuery r => exact hrequest _ _ _ _ fun _ => id
  | unitStatus r => exact hrequest _ _ _ _ fun _ => id
  | slotStatus r => exact hrequest _ _ _ _ fun u hu => by rwa [slotStatusAnswer_state]
  | eventRead r => exact hrequest _ _ _ _ fun _ => eventReadAnswer_budgetKept r
  | motion r => exact hrequest _ _ _ _ fun _ => motionAnswer_budgetKept r
  | slotRecover r => exact hrequest _ _ _ _ fun _ => slotRecoverAnswer_budgetKept r
  | startHold r => exact hrequest _ _ _ _ fun _ _ => State.reacted_budgetKept rfl
  | startRelease r => exact hrequest _ _ _ _ fun _ _ => State.reacted_budgetKept rfl
  | startClear r => exact hrequest _ _ _ _ fun _ _ => State.reacted_budgetKept rfl
  | panicPark r => exact hrequest _ _ _ _ fun _ _ => State.reacted_budgetKept rfl
  | emergencyClear r => exact hrequest _ _ _ _ fun _ => emergencyClearAnswer_budgetKept
  | stageWrite r => exact hrequest _ _ _ _ fun _ => stageWriteAnswer_budgetKept r
  | stageRead r => exact hrequest _ _ _ _ fun _ => id
  | commit r => exact hrequest _ _ _ _ fun _ => commitAnswer_budgetKept r
  | tableRead r => exact hrequest _ _ _ _ fun u hu => by rwa [tableReadAnswer_state]
  | exposureClear r => exact hrequest _ _ _ _ fun _ => exposureClearAnswer_budgetKept r
  | report i number result code mech => exact hreact _
  | fault i code => exact hreact _
  | sledCompletion i epoch tag status payload =>
    exact exists_next_of_ite (P := fun u => s.budgetKept → u.budgetKept)
      (fun _ _ => State.onPlant_budgetKept (f := fun e d => react e (takeCompletion e i epoch tag status payload
        (laneReceived e i d))) s rfl) (hlane i)
  | laneFrameDiscarded i => exact ⟨_, rfl, hlane i⟩
  | laneFrameSent i =>
    exact exists_next_of_ite (P := fun u => s.budgetKept → u.budgetKept)
      (fun _ => State.onPlant_keeps_budget (f := fun e d => laneSent e i d) (laneSent_drawKept i _)) id
  | orderTimeout i => exact execOrderTimeout_budgetKept i s
  | presenceEdge i level =>
    exact ⟨_, rfl, State.onPlant_keeps_budget (f := fun e d => d.put e i ((d.slot i).presenceEdge e.clock level))
      (presenceEdge_drawKept i level _)⟩
  | insertion i => exact hguarded _ _
  | removal i => exact hguarded _ _
  | overcurrent i level => exact hreact _
  | powerLineEdge l level => exact ⟨_, rfl, id⟩
  | powerFilterExpiry l => exact execPowerFilterExpiry_budgetKept l s
  | switchEdge w level => exact ⟨_, rfl, id⟩
  | switchFilterExpiry w => exact hmonitor _ _
  | sample x y z => exact execSample_budgetKept x y z s
  | sampleDiscarded => exact ⟨_, rfl, id⟩
  | sensorTimeout =>
    exact exists_next_of_ite (P := fun u => s.budgetKept → u.budgetKept) (fun _ hs =>
      State.deriveClass_budgetKept (State.onMonitor_budgetKept _ (State.record_budgetKept _ hs))) id
  | poisedReleaseExpiry => exact hmonitor _ _
  | rollingReleaseExpiry => exact hmonitor _ _
  | tiltedAssertionExpiry => exact hmonitor _ _
  | tiltedReleaseExpiry => exact hmonitor _ _
  | joltHoldExpiry => exact hmonitor _ _
  | fallAssertionExpiry => exact hmonitor _ _
  | fallReleaseExpiry => exact hmonitor _ _
  | holdTimerExpiry i tag => exact hguarded _ _
  | drainExpiry i => exact hguarded _ _
  | dwellExpiry i => exact hguarded _ _
  | idleUnloadExpiry i => exact hguarded _ _
  | idleStopExpiry i => exact hguarded _ _
  | staggerExpiry => exact hguarded _ _
  | settleExpiry => exact hguarded _ _

/-- Settles O57: a response of the blocks leaves the account right, and no command without one changes a draw. -/
theorem budgetIsKept : Obligations.BudgetIsKept := by
  intro c s t h hs
  obtain ⟨u, hu, hkept⟩ := exec_budgetKept c s
  rw [h] at hu
  obtain rfl : t = u := Host.Outcome.next.inj hu
  exact hkept hs

end Commands

end Sys2Proof.Machine
end

section
/-! SUPPORT. Soundness of the table store (R163, R164, R170, R189): the bytes of a table image, what a commit that is not
refused leaves of them, and that every command keeps the store sound. -/

namespace Sys2Proof.Machine

/-! ### Bytes of an image (R169) -/

theorem overlay_length {bs data : List Byte} {start : Nat} (h : start + data.length ≤ bs.length) :
    (overlay bs start data).length = bs.length := by
  simp only [overlay, List.length_append, List.length_take, List.length_drop]
  omega

/-- An image has the staged bytes in the staged range, and the present bytes everywhere else. -/
theorem overlay_getElem? {bs data : List Byte} {start : Nat} (h : start ≤ bs.length) (k : Nat) :
    (overlay bs start data)[k]? =
      if k < start then bs[k]? else if k < start + data.length then data[k - start]? else bs[k]? := by
  have hlen : (bs.take start).length = start := by rw [List.length_take]; omega
  unfold overlay
  rw [List.append_assoc, List.getElem?_append, hlen]
  split
  · next hk => rw [List.getElem?_take_of_lt hk]
  · next hk =>
    rw [List.getElem?_append]
    by_cases hin : k < start + data.length
    · rw [if_pos (by omega), if_pos hin]
    · rw [if_neg (by omega), if_neg hin, List.getElem?_drop]
      congr 1
      omega

theorem storedBytes_getElem? (id : TableId) (offset k : Nat) (bs : List Byte) :
    (storedBytes id offset bs)[k]? = bs[k]?.map (· &&& fieldBits id ((offset + k) % id.recordSize)) := by
  induction bs generalizing offset k with
  | nil => rfl
  | cons b rest ih =>
    cases k with
    | zero => rfl
    | succ k => rw [storedBytes, List.getElem?_cons_succ, List.getElem?_cons_succ, ih, Nat.add_right_comm, Nat.add_assoc]

/-- The reserved bits of an image are 0 when no byte of it has a bit outside the fields (R189). -/
theorem reservedClear_iff (id : TableId) (image : List Byte) : reservedClear id image = true ↔
    ∀ k b, image[k]? = some b → b &&& fieldBits id (k % id.recordSize) = b := by
  rw [reservedClear, beq_iff_eq, List.ext_getElem?_iff]
  refine forall_congr' fun k => ?_
  rw [storedBytes_getElem?, Nat.zero_add]
  cases image[k]? with
  | none => simp
  | some b => simp

/-- The image of a commit keeps the reserved bits 0: the staged bytes are stored without them. -/
theorem reservedClear_commitImage {t : Tables} {g : Staged} (hclear : reservedClear g.table (t.bytes g.table) = true)
    (hrange : g.start ≤ (t.bytes g.table).length) : reservedClear g.table (commitImage t g) = true := by
  rw [reservedClear_iff] at hclear ⊢
  intro k b hb
  unfold commitImage at hb
  rw [overlay_getElem? hrange] at hb
  split at hb
  · exact hclear k b hb
  next hk =>
  split at hb
  · rw [storedBytes_getElem?, Nat.add_sub_cancel' (not_lt.mp hk)] at hb
    obtain ⟨b0, -, rfl⟩ := Option.map_eq_some_iff.mp hb
    rw [BitVec.and_assoc, BitVec.and_self]
  · exact hclear k b hb

/-! ### Records of an image (R169) -/

/-- A record that the staged range does not touch is as it was. -/
theorem recordOf_overlay {id : TableId} {bs data : List Byte} {start row : Nat} (hstart : start ≤ bs.length)
    (h : (row + 1) * id.recordSize ≤ start ∨ start + data.length ≤ row * id.recordSize) :
    recordOf id (overlay bs start data) row = recordOf id bs row := by
  rw [Nat.succ_mul] at h
  refine List.ext_getElem? fun k => ?_
  unfold recordOf
  rw [List.getElem?_take, List.getElem?_take, List.getElem?_drop, List.getElem?_drop]
  split
  · rw [overlay_getElem? hstart]
    rcases h with hbelow | habove
    · rw [if_pos (by omega)]
    · rw [if_neg (by omega), if_neg (by omega)]
  · rfl

theorem mem_touchedRecords (id : TableId) (start stop row : Nat) : row ∈ touchedRecords id start stop ↔
    row < id.size / id.recordSize ∧ start < (row + 1) * id.recordSize ∧ row * id.recordSize ≤ stop := by
  rw [touchedRecords, List.mem_filter, List.mem_range, Bool.and_eq_true, decide_eq_true_eq, decide_eq_true_eq]

/-- A record without a bad field is permitted. -/
theorem recordBadField_eq_none (id : TableId) (image : List Byte) (row : Nat) :
    recordBadField id image row = none ↔ (recordChecks id row (recordOf id image row)).all (fun c => c.2) = true := by
  simp [recordBadField]

/-- An image whose touched records are permitted, over a permitted table, is permitted (R163, R169). -/
theorem tablePermitted_commitImage {t : Tables} {g : Staged} (hbytes : tablePermitted g.table (t.bytes g.table) = true)
    (hsound : g.sound = true) (hfields : firstBadField g.table (commitImage t g) g.start g.stop = none) :
    tablePermitted g.table (commitImage t g) = true := by
  simp only [Staged.sound, Bool.and_eq_true, decide_eq_true_eq] at hsound
  simp only [tablePermitted, Bool.and_eq_true, beq_iff_eq, List.all_eq_true, List.mem_range] at hbytes ⊢
  obtain ⟨⟨hdata, -⟩, hrange⟩ := hsound
  obtain ⟨hlength, hrecords⟩ := hbytes
  have hstored : (storedBytes g.table g.start g.data).length = g.data.length := storedBytes_length _ _ _
  refine ⟨?_, fun row hrow => ?_⟩
  · unfold commitImage
    rw [overlay_length (by omega), hlength]
  · rw [← List.all_eq_true]
    by_cases htouched : row ∈ touchedRecords g.table g.start g.stop
    · rw [← recordBadField_eq_none]
      exact List.findSome?_eq_none_iff.mp hfields row htouched
    · rw [mem_touchedRecords] at htouched
      unfold Staged.stop at htouched
      have hkept : recordOf g.table (commitImage t g) row = recordOf g.table (t.bytes g.table) row :=
        recordOf_overlay (by omega) (by omega)
      rw [hkept, List.all_eq_true]
      exact hrecords row hrow

/-! ### The tables -/

theorem TableId.mem_all (id : TableId) :
    id ∈ [TableId.unit, .slotCfg, .profiles, .classMap, .logicalMap, .policy, .motion, .budgets] := by
  cases id <;> decide

/-- Soundness, table by table. -/
theorem Tables.sound_iff (t : Tables) : t.sound = true ↔ mapDuplicate t.logicalMap = false ∧
    ∀ id, tablePermitted id (t.bytes id) = true ∧ reservedClear id (t.bytes id) = true := by
  simp only [Tables.sound, Tables.permitted, Bool.and_eq_true, List.all_eq_true, Bool.not_eq_true']
  constructor
  · rintro ⟨⟨hpermitted, hmap⟩, hclear⟩
    exact ⟨hmap, fun id => ⟨hpermitted id id.mem_all, hclear id id.mem_all⟩⟩
  · rintro ⟨hmap, hid⟩
    exact ⟨⟨fun id _ => (hid id).1, hmap⟩, fun id _ => (hid id).2⟩

/-- A commit that is not refused leaves the fields it touches permitted, and the logical map without duplicates (R169, R170). -/
theorem commitRefusal_eq_none {g : Staged} {s : State} (h : commitRefusal g s = none) :
    firstBadField g.table (commitImage s.tables g) g.start g.stop = none ∧
      (g.table = .logicalMap → mapDuplicate (commitImage s.tables g) = false) := by
  unfold commitRefusal at h
  simp only at h
  split at h
  · simp at h
  next hfields =>
  refine ⟨hfields, fun hmap => ?_⟩
  rw [if_pos hmap] at h
  split at h
  · simp at h
  · next hdup => exact Bool.eq_false_iff.mpr hdup

theorem Tables.sound_setBytes {t : Tables} {g : Staged} (ht : t.sound = true) (hg : g.sound = true)
    (hfields : firstBadField g.table (commitImage t g) g.start g.stop = none)
    (hmap : g.table = .logicalMap → mapDuplicate (commitImage t g) = false) :
    (t.setBytes g.table (commitImage t g)).sound = true := by
  obtain ⟨hdup, hbytes⟩ := t.sound_iff.mp ht
  have hrange : g.start ≤ (t.bytes g.table).length := by
    have hsize := (hbytes g.table).1
    simp only [tablePermitted, Bool.and_eq_true, beq_iff_eq] at hsize
    simp only [Staged.sound, Bool.and_eq_true, decide_eq_true_eq] at hg
    omega
  refine (Tables.sound_iff _).mpr ⟨?_, fun id => ?_⟩
  · show mapDuplicate ((t.setBytes g.table (commitImage t g)).bytes .logicalMap) = false
    rw [Tables.bytes_setBytes]
    split
    · next h => exact hmap h.symm
    · exact hdup
  · rw [Tables.bytes_setBytes]
    split
    · next h =>
      subst h
      exact ⟨tablePermitted_commitImage (hbytes _).1 hg hfields, reservedClear_commitImage (hbytes _).2 hrange⟩
    · exact hbytes id

/-! ### The staging buffer (R165, R166) -/

/-- A write within its table leaves a staged range of at most 64 bytes within its table. -/
theorem stageInto_sound {id : TableId} {offset : Nat} {data : List Byte} {buffer : Option Staged}
    (hrange : rangeInTable id offset data.length = true) (hlow : 1 ≤ data.length) (hhigh : data.length ≤ 64)
    (hbuffer : ∀ g, buffer = some g → g.sound = true) : (stageInto id offset data buffer).sound = true := by
  have hrange : offset + data.length ≤ id.size := of_decide_eq_true hrange
  have hfresh : (Staged.mk id offset data).sound = true := by
    simp only [Staged.sound, Bool.and_eq_true, decide_eq_true_eq]
    exact ⟨⟨hlow, hhigh⟩, hrange⟩
  unfold stageInto
  cases buffer with
  | none => exact hfresh
  | some g =>
    simp only
    split
    · next h =>
      obtain ⟨hid, hoffset, hroom⟩ := h
      have hg := hbuffer g rfl
      unfold Staged.stop at hoffset
      simp only [Staged.sound, Bool.and_eq_true, decide_eq_true_eq, List.length_append] at hg ⊢
      rw [hid] at hg ⊢
      exact ⟨⟨by omega, hroom⟩, by omega⟩
    · exact hfresh

/-! ### Every command -/

section Commands

variable {s u : State}

theorem State.tablesSound_congr (ht : u.tables = s.tables) (hg : u.staging = s.staging) (hs : s.tablesSound) :
    u.tablesSound := by
  unfold State.tablesSound
  rw [ht, hg]
  exact hs

theorem State.reply_tablesSound (tag code : Byte) (st : UnitStatus) (data : List Byte) (hs : s.tablesSound) :
    (s.reply tag code st data).tablesSound :=
  State.tablesSound_congr (State.reply_tables _ _ _ _ _) (State.reply_staging _ _ _ _ _) hs

theorem takeRequest_tablesSound {owner : State → Answered} {code : Byte} {lengthOk : Nat → Bool} {r : Request}
    (hown : lengthOk (r.args.length + 1) = true → ∀ u : State, u.tablesSound → (owner u).state.tablesSound)
    (hs : s.tablesSound) : (takeRequest code lengthOk r owner s).tablesSound := by
  have hlink : ∀ f : Link → Link, (s.onLink f).tablesSound := fun f =>
    State.tablesSound_congr (State.onLink_tables f s) (State.onLink_staging f s) hs
  unfold takeRequest
  split
  · exact hs
  split
  · simp only
    split
    · next hlength => exact State.reply_tablesSound _ _ _ _ (hown hlength _ (hlink _))
    · exact State.reply_tablesSound _ _ _ _ (hlink _)
  · exact hlink _

theorem stageWriteAnswer_tablesSound {r : Request} (hlength : within 4 (r.args.length + 1) 64 = true)
    (hs : s.tablesSound) : (stageWriteAnswer r s).state.tablesSound := by
  rw [within_iff] at hlength
  unfold stageWriteAnswer
  split
  · exact hs
  · simp only
    split
    · next hrange =>
      refine ⟨hs.1, fun g hg => ?_⟩
      obtain rfl := Option.some.inj hg
      exact stageInto_sound hrange (by rw [List.length_drop]; omega) (by rw [List.length_drop]; omega) hs.2
    · exact hs

theorem commitAnswer_tablesSound (r : Request) (hs : s.tablesSound) : (commitAnswer r s).state.tablesSound := by
  unfold commitAnswer
  split
  · exact hs
  next g hg =>
  split
  · split
    · exact hs
    · next hpasses =>
      obtain ⟨hfields, hmap⟩ := commitRefusal_eq_none hpasses
      have heffects := commitEffects_extends g.table s.tables (s.copyStaged g)
      have hcopied : (s.copyStaged g).tablesSound := by
        unfold State.tablesSound
        rw [State.copyStaged_tables, State.copyStaged_staging]
        exact ⟨Tables.sound_setBytes hs.1 (hs.2 g hg) hfields hmap, nofun⟩
      exact State.tablesSound_congr heffects.tables heffects.staging hcopied
  · exact hs

theorem Tables.reset_sound : Tables.reset.sound = true := by decide +kernel

theorem State.powerOn_tablesSound (s : State) : s.powerOn.tablesSound := ⟨Tables.reset_sound, nofun⟩

/-- Settles O58: tables change at a commit and a power-on reset alone, staged ranges at those and at a write. -/
theorem tablesStaySound : Obligations.TablesStaySound := by
  intro c s t h hs
  have hframe := (State.Takes.of_exec h).frame
  cases c with
  | powerOnReset =>
    obtain rfl := Host.Outcome.next.inj h
    exact s.powerOn_tablesSound
  | stageWrite r =>
    obtain rfl := Host.Outcome.next.inj h
    exact takeRequest_tablesSound (fun hlength _ => stageWriteAnswer_tablesSound hlength) hs
  | commit r =>
    obtain rfl := Host.Outcome.next.inj h
    exact takeRequest_tablesSound (fun _ _ => commitAnswer_tablesSound r) hs
  | _ => exact State.tablesSound_congr (hframe.tables nofun nofun) (hframe.staging nofun nofun nofun) hs

/-- Settles O59: the default tables are sound, the slots EMPTY and the queue empty. -/
theorem invariantsHoldAtReset : Obligations.InvariantsHoldAtReset := by
  refine ⟨?_, ?_, ?_, ?_, ?_, ⟨Tables.reset_sound, nofun⟩, ?_⟩
  · unfold Plant.ordersMatch; decide +kernel
  · unfold Plant.queueMatches; decide +kernel
  · unfold Plant.listsSound Slot.listsSound; decide +kernel
  · decide +kernel
  · unfold State.budgetKept; decide +kernel
  · unfold Plant.readyFollows; decide +kernel

end Commands

end Sys2Proof.Machine
end

section
/-! SUPPORT. Steps, power-on reset, the events of the case link, the arrival checks, and the requests that are refused or read
(R1, R45, R175 to R182, R186, R187). -/

namespace Sys2Proof.Machine

variable {e : Env} {s : State}

/-! ### Steps -/

/-- Settles O1, by the equation of `step` at a queue with a front. -/
theorem stepRunsFrontCommand : Obligations.StepRunsFrontCommand := fun _ _ _ => rfl

theorem step_of_due (h : s.pending = []) {c : Instr} {rest : List Instr} (hdue : s.dueExpiries = c :: rest) :
    step s = exec c s := by
  unfold step
  rw [h]
  simp only [hdue]

theorem step_of_idle (h : s.pending = []) (hdue : s.dueExpiries = []) : step s = .next s.advance := by
  unfold step
  rw [h]
  simp only [hdue]

/-- Settles O2, by the cases of the expiries that are due. -/
theorem stepOnEmptyQueue : Obligations.StepOnEmptyQueue :=
  fun _ hempty => ⟨fun _ _ hdue => step_of_due hempty hdue, fun hdue => step_of_idle hempty hdue⟩

/-! ### The case link at the end of an event (R178, R179) -/

theorem Link.begin_eq (l : Link) : l.begin =
    { l with tx := if l.broken ∨ l.tx.isSome ∨ l.queue = [] then l.tx else some l.flagsByte } := by
  unfold Link.begin
  by_cases h : l.broken ∨ l.tx.isSome ∨ l.queue = []
  · rw [if_pos h, if_pos (by simpa [List.isEmpty_iff, or_assoc] using h)]
  · rw [if_neg h, if_neg (by simpa [List.isEmpty_iff, or_assoc] using h)]

theorem Plant.settleReady_link (d : Plant) : d.settleReady = { d with link := { d.link with
    ready := if d.free < 16 then false else if 32 ≤ d.free then true else d.link.ready } } := by
  have hready : d.settleReady = if d.free < 16 then { d with link := { d.link with ready := false } }
    else if 32 ≤ d.free then { d with link := { d.link with ready := true } } else d := rfl
  rw [hready]
  by_cases hlow : d.free < 16
  · rw [if_pos hlow, if_pos hlow]
  · rw [if_neg hlow, if_neg hlow]
    by_cases hhigh : 32 ≤ d.free
    · rw [if_pos hhigh, if_pos hhigh]
    · rw [if_neg hhigh, if_neg hhigh]

theorem Plant.settleLink_eq_linkAfter (d : Plant) : d.settleLink = { d with link := d.linkAfter } := by
  unfold Plant.settleLink Plant.linkAfter
  rw [Link.begin_eq, Plant.settleReady_link]
  generalize (if d.free < 16 then false else if 32 ≤ d.free then true else d.link.ready) = ready
  rfl

/-- The ready line after an event, by the free count (R179). -/
theorem Plant.linkAfter_ready (d : Plant) : (d.free < 16 → d.linkAfter.ready = false) ∧
    (32 ≤ d.free → d.linkAfter.ready = true) ∧ (16 ≤ d.free → d.free < 32 → d.linkAfter.ready = d.link.ready) := by
  simp only [Plant.linkAfter]
  refine ⟨fun h => if_pos h, fun h => ?_, fun h h' => ?_⟩
  · rw [if_neg (by omega), if_pos h]
  · rw [if_neg (by omega), if_neg (by omega)]

theorem Plant.free_linkAfter (d : Plant) : Plant.free { d with link := d.linkAfter } = d.free :=
  Plant.free_congr (by simp only [Plant.linkAfter]) rfl

theorem State.onPlant_eq (f : Env → Plant → Plant) (s : State) :
    s.onPlant f = { s with plant := { f s.env s.plant with link := (f s.env s.plant).linkAfter } } := by
  rw [State.onPlant, Plant.settleLink_eq_linkAfter]

/-- Settles O10, by the cases of a break in progress. -/
theorem breakAndItsEnd : Obligations.BreakAndItsEnd := by
  intro s
  refine ⟨fun h => ?_, fun h => ?_, fun h => if_pos h, fun h => if_neg (by simp [h])⟩
  · exact if_neg (by simp [h])
  · show (if s.plant.link.broken then _ else _) = _
    rw [if_pos h]
    simp only [State.onLink, Link.begin_eq, Bool.false_eq_true, false_or]
    rfl

/-- The link after the end of a frame: the next one begins with the flags as they stand (R178). -/
theorem Plant.linkAfter_frameSent (d : Plant) : Plant.linkAfter { d with link := d.link.frameSent } =
    { d.link with
      queue := d.link.queue.tail
      tx := if d.link.broken ∨ d.link.queue.tail = [] then none else some d.link.flagsByte
      ready := (Plant.linkAfter { d with link := d.link.frameSent }).ready } := by
  have hflags : d.link.frameSent.flagsByte = d.link.flagsByte := rfl
  simp only [Plant.linkAfter, hflags]
  simp only [Link.frameSent, Option.isSome_none, Bool.false_eq_true, false_or]

/-- The plant after the end of an upstream frame. -/
def Plant.frameSent (d : Plant) : Plant := { d with link := d.link.frameSent }

theorem exec_upstreamFrameSent (h : s.plant.link.tx.isSome = true) : exec .upstreamFrameSent s =
    .next { s with plant := { s.plant.frameSent with link := s.plant.frameSent.linkAfter } } := by
  have hexec : exec .upstreamFrameSent s = .next (s.onPlant fun _ d => d.frameSent) := if_pos h
  rw [hexec, State.onPlant_eq]

/-- Settles O11, by the case link at the end of an event. -/
theorem upstreamFrameSentNext : Obligations.UpstreamFrameSentNext := by
  intro s
  refine ⟨fun b hb => ?_, fun h => if_neg (by simp [h])⟩
  obtain ⟨hlow, hhigh, hbetween⟩ := Plant.linkAfter_ready s.plant.frameSent
  have hfree := Plant.free_linkAfter s.plant.frameSent
  refine ⟨_, exec_upstreamFrameSent (by rw [hb]; rfl), ?_, ?_, ?_, ?_⟩
  · exact congrArg (fun l => { s with plant := { s.plant with link := l } }) (Plant.linkAfter_frameSent s.plant)
  · rw [hfree]
    exact hlow
  · rw [hfree]
    exact hhigh
  · rw [hfree]
    exact hbetween

/-! ### The event list (R181, R182) -/

theorem Link.store_of_room {rec : EventRecord} {l : Link} (h : l.events.length < 32) :
    l.store rec = { l with events := l.events ++ [rec] } := if_pos h

theorem Link.store_of_full {rec : EventRecord} {l : Link} (h : 32 ≤ l.events.length) :
    l.store rec = { l with overrun := true } := if_neg (Nat.not_lt.mpr h)

theorem Link.attention_eq_false_iff (l : Link) : l.attention = false ↔ l.events = [] ∧ l.overrun = false := by
  simp [Link.attention]

/-- The plant with a record stored, before an ATTENTION frame. -/
def Plant.stored (now : Clock) (ev : Event) (d : Plant) : Plant := { d with link := d.link.store ⟨now, ev⟩ }

theorem Plant.record_eq (now : Clock) (ev : Event) (d : Plant) : d.record now ev =
    if d.link.attention || (d.stored now ev).free = 0 then d.stored now ev
    else (d.stored now ev).push attentionFrame := rfl

theorem Plant.stored_free (now : Clock) (ev : Event) (d : Plant) : (d.stored now ev).free = d.free :=
  Plant.free_congr (Link.store_queue _ _) rfl

theorem Plant.record_list (now : Clock) (ev : Event) (d : Plant) :
    (d.record now ev).link.events = (d.link.store ⟨now, ev⟩).events ∧
      (d.record now ev).link.overrun = (d.link.store ⟨now, ev⟩).overrun := by
  rw [Plant.record_eq]
  split <;> exact ⟨rfl, rfl⟩

theorem Plant.record_link_queue (now : Clock) (ev : Event) (d : Plant) : (d.record now ev).link.queue =
    if (d.link.events = [] ∧ d.link.overrun = false) ∧ d.free ≠ 0 then d.link.queue ++ [attentionFrame]
    else d.link.queue := by
  have hqueue : (d.stored now ev).link.queue = d.link.queue := Link.store_queue _ _
  rw [Plant.record_eq, Plant.stored_free]
  by_cases h : (d.link.events = [] ∧ d.link.overrun = false) ∧ d.free ≠ 0
  · obtain ⟨hrise, hfree⟩ := h
    rw [(Link.attention_eq_false_iff _).mpr hrise, if_neg (by simp [hfree]), if_pos ⟨hrise, hfree⟩, ← hqueue]
    rfl
  · rw [if_neg h, if_pos, hqueue]
    rw [← Link.attention_eq_false_iff, not_and_or, not_not, Bool.not_eq_false] at h
    simpa using h

/-- Settles O12, by the cases of room in the list. -/
theorem eventAppended : Obligations.EventAppended := by
  intro now ev d
  obtain ⟨hslots, harb, hbudget, hemg⟩ := Plant.record_frame now ev d
  obtain ⟨hevents, hoverrun⟩ := Plant.record_list now ev d
  have hattention : (d.record now ev).link.attention = true := by
    rw [← Link.store_attention ⟨now, ev⟩ d.link, Link.attention, Link.attention, hevents, hoverrun]
  refine ⟨fun h => ⟨hevents.trans ?_, hoverrun.trans ?_⟩, fun h => ⟨hevents.trans ?_, hoverrun.trans ?_⟩,
    Plant.record_link_queue now ev d, hattention, hslots, harb, hbudget, hemg⟩
  · rw [Link.store_of_room h]
  · rw [Link.store_of_room h]
  · rw [Link.store_of_full h]
  · rw [Link.store_of_full h]

/-! ### Power-on reset (R1) -/

theorem Tables.reset_classMap (opcode : Byte) : u8At Tables.reset.classMap opcode.toNat = 2 := by
  have hlt : opcode.toNat < 256 := opcode.isLt
  exact congrArg BitVec.toNat (List.getD_replicate (x := (2 : Byte)) hlt)

theorem Tables.reset_class (opcode : Byte) :
    Tables.reset.cmdClass opcode = .media ∧ Tables.reset.trapAction opcode = none := by
  unfold Tables.cmdClass Tables.trapAction
  rw [Tables.reset_classMap]
  exact ⟨rfl, rfl⟩

theorem Tables.reset_policy (c : MotionClass) : ∀ group, group < 4 →
    (Tables.reset.policyCap c group, Tables.reset.policyDisposition c group, Tables.reset.emergencyFlag c) =
      match c with
      | .still => (.load, .hold, false)
      | .poised => (.spin, .hold, false)
      | .rolling => (.spin, .freeze, false)
      | .tilted => (.stop, .freeze, false)
      | .jolt => (.spin, .hold, true)
      | .fall => (.stop, .hold, true) := by
  cases c <;> decide

theorem Tables.reset_slots : ∀ i : SlotId, Tables.reset.profile i = 0 ∧ Tables.reset.group i = 0 ∧
    Tables.reset.priority i = 4 ∧ Tables.reset.wake i = true ∧ Tables.reset.holdListLimit i = 6 ∧
    Tables.reset.idleUnloadMs i = 30000 ∧ Tables.reset.idleStopMs i = 300000 ∧
    Tables.reset.slotOfUnit i.val = some i := by decide +kernel

theorem Tables.reset_profiles : ∀ i : SlotId, Tables.reset.spinDraw i = 25 ∧ Tables.reset.runDraw i = 8 ∧
    Tables.reset.loadDraw i = 2 ∧ Tables.reset.spinUpMs i = 20000 ∧ Tables.reset.loadMs i = 5000 ∧
    Tables.reset.unloadMs i = 3000 ∧ Tables.reset.spinDownMs i = 30000 ∧ Tables.reset.spinRetries i = 2 ∧
    Tables.reset.loadRetries i = 2 ∧ Tables.reset.dwellMs i = 5000 := by decide +kernel

theorem Tables.reset_unit : Tables.reset.mode = .arrival ∧ Tables.reset.maxStarts = 2 ∧ Tables.reset.staggerMs = 2000 ∧
    Tables.reset.holdLimitMs = 10000 ∧ Tables.reset.drainLimitMs = 5000 ∧ Tables.reset.autoClear = false ∧
    Tables.reset.settleMs = 30000 := by decide +kernel

theorem Tables.reset_budgets : Tables.reset.budgetOf .shore = 200 ∧ Tables.reset.budgetOf .battery = 90 ∧
    Tables.reset.budgetOf .reserve = 30 := by decide +kernel

theorem Tables.reset_motion : Tables.reset.shock = 2500 ∧ Tables.reset.fallThreshold = 300 ∧ Tables.reset.fallMs = 60 ∧
    Tables.reset.rollingThreshold = 150 ∧ Tables.reset.rollingCount = 6 ∧ Tables.reset.tiltThreshold = 800 ∧
    Tables.reset.tiltMs = 1000 ∧ Tables.reset.poisedSettleMs = 5000 ∧ Tables.reset.rollingSettleMs = 10000 ∧
    Tables.reset.tiltSettleMs = 5000 ∧ Tables.reset.joltHoldMs = 2000 ∧ Tables.reset.sensorMs = 50 ∧
    Tables.reset.blindClass = .rolling ∧ Tables.reset.brakeInUse = true := by decide +kernel

/-- Settles O6, block by block. -/
theorem powerOnResetBlocks : Obligations.PowerOnResetBlocks := by
  intro s
  refine ⟨s.powerOn, rfl, rfl, rfl, fun i => ?_, ⟨rfl, rfl, rfl, rfl, rfl⟩, ⟨rfl, rfl, rfl, rfl, rfl⟩,
    ⟨rfl, rfl, rfl, rfl, rfl, rfl, rfl⟩, ⟨rfl, rfl, rfl, rfl, rfl, rfl, rfl, rfl, rfl, rfl, rfl⟩, fun w => ?_, fun l => ?_,
    ⟨rfl, rfl, rfl, rfl, rfl, rfl, rfl⟩, Tables.reset_unit, fun i => ?_, rfl, Tables.reset_class, Tables.reset_budgets,
    fun group hgroup c => Tables.reset_policy c group hgroup, Tables.reset_motion⟩
  · rw [State.powerOn_slot]
    exact ⟨rfl, rfl, rfl, rfl, rfl⟩
  · cases w <;> exact ⟨rfl, rfl, rfl⟩
  · cases l <;> exact ⟨rfl, rfl, rfl⟩
  · obtain ⟨hprofile, hgroup, hpriority, hwake, hlimit, hunload, hstop, hunit⟩ := Tables.reset_slots i
    obtain ⟨hspin, hrun, hload, hspinUp, hloadMs, hunloadMs, hspinDown, hspinRetries, hloadRetries, hdwell⟩ :=
      Tables.reset_profiles i
    exact ⟨hprofile, hgroup, hpriority, hwake, hlimit, hunload, hstop, hspin, hrun, hload, hspinUp, hloadMs, hunloadMs,
      hspinDown, hspinRetries, hloadRetries, hdwell, hunit⟩

/-! ### The arrival checks (R45) -/

theorem arrive_of_noUnit {f : CommandFrame} (h : e.tables.slotOfUnit f.unit.toNat = none) (d : Plant) :
    arrive e f d = refuseArrival f .noUnit d := by
  unfold arrive
  rw [h]

theorem arrive_of_refused {f : CommandFrame} {i : SlotId} {d : Plant} {disp : Disposition}
    (hunit : e.tables.slotOfUnit f.unit.toNat = some i)
    (hcheck : arrivalCheck f.tag (newEntry e f (d.slot i)).requirement (d.slot i) = some disp) :
    arrive e f d = refuseArrival f disp d := by
  unfold arrive
  rw [hunit]
  simp only [hcheck]

section Checks

variable {tag : Byte} {req : Level} {r : Slot}

theorem arrivalCheck_empty (h : r.state = .empty) : arrivalCheck tag req r = some .noSled := if_pos h

theorem arrivalCheck_faulted (h : r.state = .faulted) : arrivalCheck tag req r = some .slotFault := by
  unfold arrivalCheck
  rw [if_neg (by rw [h]; nofun), if_pos h]

theorem arrivalCheck_dupTag (hempty : r.state ≠ .empty) (hfaulted : r.state ≠ .faulted) (h : r.tagInUse tag = true) :
    arrivalCheck tag req r = some .dupTag := by
  unfold arrivalCheck
  rw [if_neg hempty, if_neg hfaulted, if_pos h]

theorem arrivalCheck_transit (hempty : r.state ≠ .empty) (hfaulted : r.state ≠ .faulted) (htag : r.tagInUse tag = false)
    (hdisp : r.transitDisposition = .refuse) (hcap : r.transitCap.rank < req.rank) :
    arrivalCheck tag req r = some .transitRefused := by
  unfold arrivalCheck
  rw [if_neg hempty, if_neg hfaulted, if_neg (by rw [htag]; nofun), if_pos ⟨hdisp, decide_eq_true hcap⟩]

theorem Slot.tagInUse_iff (tag : Byte) (r : Slot) :
    r.tagInUse tag = true ↔ (∃ h ∈ r.hold, h.tag = tag) ∨ ∃ o ∈ r.outstanding, o.tag = tag := by
  simp [Slot.tagInUse]

end Checks

/-- Settles O7, check by check. -/
theorem commandRefusedAtArrival : Obligations.CommandRefusedAtArrival := by
  intro f s hs hw
  have hrefused : ∀ disp, arrive s.env f s.framed.plant = refuseArrival f disp s.framed.plant → exec (.command f) s =
      .next (s.framed.respond (fun _ d => d.push (completionFrame f.unit f.tag disp 0 []))) := fun disp h =>
    exec_command_of_arrive_eq hs hw (g := fun _ d => d.push (completionFrame f.unit f.tag disp 0 [])) h
  refine ⟨fun hunit => hrefused _ (arrive_of_noUnit hunit _), fun i hunit => ?_⟩
  have hcheck : ∀ disp, arrivalCheck f.tag (newEntry s.env f (s.plant.slot i)).requirement (s.plant.slot i) = some disp →
      exec (.command f) s = .next (s.framed.respond (fun _ d => d.push (completionFrame f.unit f.tag disp 0 []))) :=
    fun disp h => hrefused disp (arrive_of_refused hunit h)
  refine ⟨fun h => hcheck _ (arrivalCheck_empty h), fun h => hcheck _ (arrivalCheck_faulted h),
    fun hempty hfaulted htag => hcheck _ (arrivalCheck_dupTag hempty hfaulted ((Slot.tagInUse_iff _ _).mpr htag)),
    fun hempty hfaulted htag hdisp hcap => hcheck _ (arrivalCheck_transit hempty hfaulted ?_ hdisp hcap)⟩
  rw [← Bool.not_eq_true, Slot.tagInUse_iff]
  exact htag

/-! ### Requests that are refused (R180) -/

theorem requestOf_unknown {code : Byte} (h : knownRequestCodes.contains code = false) (r : Request) :
    requestOf code r = .unknownRequest code r := by
  have hcode : ∀ n, n ∈ knownRequestCodes.map BitVec.toNat → code.toNat ≠ n := by
    rintro n hn rfl
    obtain ⟨c, hc, heq⟩ := List.mem_map.mp hn
    rw [← BitVec.eq_of_toNat_eq heq, List.contains_iff_mem.mpr hc] at h
    exact Bool.noConfusion h
  unfold requestOf
  split
  case h_17 => rfl
  all_goals
    rename_i heq
    exact absurd heq (hcode _ (by decide))

section Refusals

variable {r : Request}

theorem exec_badLength (hs : s.accepts) (hw : r.args.length ≤ 63) {n : Nat} (hn : r.args.length + 1 ≠ n) (code : Byte)
    (owner : State → Answered) :
    (Host.Outcome.next (takeRequest code (exactly n) r owner s) : Host.Outcome State Fault Refusal) =
      .next (s.answered r code .badLength []) :=
  congrArg _ (takeRequest_of_badLength hs hw code (by simpa [exactly] using hn) owner)

theorem reqMaskOk_eq_false (h : BitVec.ofNat 16 (u16At r.args 2) ≠ ~~~ (BitVec.ofNat 16 (u16At r.args 0))) :
    reqMaskOk r = false := beq_eq_false_iff_ne.mpr h

theorem motionAnswer_maskCheck (h : reqMaskOk r = false) (s : State) : motionAnswer r s = ⟨s, .maskCheck, []⟩ := by
  unfold motionAnswer
  rw [h]
  rfl

/-- Settles O13, check by check. -/
theorem requestRefused : Obligations.RequestRefused := by
  intro code r s hs hw
  have hw : r.args.length ≤ 63 := of_decide_eq_true hw
  refine ⟨fun h => ?_, fun n hn hlength => ?_, fun hcode hlength => ?_, fun hcode hmask => ?_⟩
  · rw [requestOf_unknown h]
    exact congrArg _ (takeRequest_of_unchanged hs hw code rfl rfl)
  · simp only [List.mem_cons, Prod.mk.injEq, List.not_mem_nil, or_false] at hn
    rcases hn with ⟨rfl, rfl⟩ | ⟨rfl, rfl⟩ | ⟨rfl, rfl⟩ | ⟨rfl, rfl⟩ | ⟨rfl, rfl⟩ | ⟨rfl, rfl⟩ | ⟨rfl, rfl⟩ | ⟨rfl, rfl⟩ |
      ⟨rfl, rfl⟩ | ⟨rfl, rfl⟩ | ⟨rfl, rfl⟩ | ⟨rfl, rfl⟩ | ⟨rfl, rfl⟩ | ⟨rfl, rfl⟩ | ⟨rfl, rfl⟩ <;>
      exact exec_badLength hs hw hlength _ _
  · subst hcode
    have hshort : within 4 (r.args.length + 1) 64 = false := by
      rw [← Bool.not_eq_true, within_iff]
      omega
    exact congrArg _ (takeRequest_of_badLength hs hw 0x28 hshort _)
  · have hcheck := reqMaskOk_eq_false hmask
    rcases hcode with ⟨rfl, hlength⟩ | ⟨rfl, hlength⟩
    · exact congrArg _ (takeRequest_of_unchanged hs hw 0x10 (by rw [hlength]; rfl) (motionAnswer_maskCheck hcheck _))
    · exact congrArg _ (takeRequest_of_unchanged hs hw 0x30 (by rw [hlength]; rfl) (exposureClearAnswer_maskCheck hcheck _))

end Refusals

/-! ### UNIT_STATUS (R186) -/

theorem leftOpt_eq (t : Option Timer) (now : Clock) : leftOpt t now = (t.map (fun m => m.left now)).getD 0 := by
  cases t <;> rfl

theorem clockBytes_eq (c : Option Clock) : clockBytes c = be32 ((c.map BitVec.toNat).getD 0) := by
  cases c <;> rfl

/-- The 23 bytes of UNIT_STATUS before the start queue. -/
def unitStatusHead (s : State) : List Byte :=
  let d := s.plant
  [d.budget.powerState.code] ++ be16 d.budget.budget ++ be16 d.budget.committed ++
  [yesNo d.budget.shed, s.monitor.cls.code, s.monitor.sensor.code, yesNo d.emg.latched, d.emg.sources.byte,
   sourceByte d.emg.firstSource] ++ be32 ((d.emg.firstTime.map BitVec.toNat).getD 0) ++
  [phaseCode d.emg.phase, d.emg.cap.code] ++ be32 ((d.emg.settle.map (fun m => m.left s.clock)).getD 0) ++
  [yesNo d.arb.hold, byteOf d.arb.queue.length]

/-- The ten bytes of UNIT_STATUS after the start queue. -/
def unitStatusTail (s : State) : List Byte :=
  [byteOf s.plant.arb.lastGranted.val] ++ be16 ((s.plant.arb.stagger.map (fun m => m.left s.clock)).getD 0) ++
  [byteOf s.plant.poolUsed, byteOf (s.plant.free - 1)] ++ be32 s.clock.toNat ++ [yesNo s.plant.link.linkError]

theorem unitStatusData_eq (s : State) :
    unitStatusData s = unitStatusHead s ++ (queueBytes s.plant.arb.queue ++ unitStatusTail s) := by
  simp only [unitStatusData, unitStatusHead, unitStatusTail, leftOpt_eq, clockBytes_eq, List.append_assoc]

theorem unitStatusHead_length (s : State) : (unitStatusHead s).length = 23 := rfl

theorem unitStatusTail_length (s : State) : (unitStatusTail s).length = 10 := rfl

theorem unitStatusData_head (s : State) {k n : Nat} (h : k + n ≤ 23) :
    ((unitStatusData s).drop k).take n = ((unitStatusHead s).drop k).take n := by
  rw [unitStatusData_eq, List.drop_append_of_le_length (by rw [unitStatusHead_length]; omega),
    List.take_append_of_le_length (by rw [List.length_drop, unitStatusHead_length]; omega)]

theorem unitStatusData_queue (s : State) :
    ((unitStatusData s).drop 23).take 16 = queueBytes s.plant.arb.queue := by
  rw [unitStatusData_eq, List.drop_left' (unitStatusHead_length s), List.take_left' (queueBytes_length _)]

theorem unitStatusData_tail (s : State) (k : Nat) : (unitStatusData s).drop (39 + k) = (unitStatusTail s).drop k := by
  have hlen : (unitStatusHead s ++ queueBytes s.plant.arb.queue).length = 39 := by
    rw [List.length_append, unitStatusHead_length, queueBytes_length]
  rw [unitStatusData_eq, ← List.append_assoc, ← List.drop_drop, List.drop_left' hlen]

/-- The free count of a state after a UNIT_REPLY is one less (R178, R180). -/
theorem State.reply_free (tag code : Byte) (st : UnitStatus) (data : List Byte) (s : State) :
    (s.reply tag code st data).plant.free = s.plant.free - 1 := by
  have hslot : (s.reply tag code st data).plant.reserved = s.plant.reserved := by
    unfold Plant.reserved
    rw [List.map_congr_left fun i _ => by rw [State.reply_slot]]
  unfold Plant.free
  rw [State.reply_queue, hslot, List.length_append, List.length_singleton]
  omega

/-- Settles O15, by the parts of the reply data before, at and after the start queue. -/
theorem unitStatusReply : Obligations.UnitStatusReply := by
  intro tag s hs
  have hlink := State.reply_eq_link tag 0x02 .ok (unitStatusData s.framed)
    (s.framed.onLink (fun l => { l with linkError := false }))
  refine ⟨_, unitStatusData s.framed, exec_unitStatus_of_accepts hs tag, ⟨[], ?_⟩, hlink, ?_, ?_, ?_, ?_, ?_, ?_, ?_, ?_, ?_,
    ?_, ?_, ?_, ?_, ?_, ?_, ?_⟩
  · rw [State.reply_queue, List.append_nil]
    rfl
  · rw [State.reply_linkError]
    rfl
  · rw [State.reply_events]
    rfl
  · rw [State.reply_overrun]
    rfl
  · rw [unitStatusData_eq, List.length_append, List.length_append, unitStatusHead_length, queueBytes_length,
      unitStatusTail_length]
  · exact unitStatusData_head (k := 0) s.framed (by omega)
  · exact unitStatusData_head s.framed (by omega)
  · exact unitStatusData_head s.framed (by omega)
  · exact unitStatusData_head s.framed (by omega)
  · exact unitStatusData_head s.framed (by omega)
  · exact unitStatusData_head s.framed (by omega)
  · exact unitStatusData_queue s.framed
  · exact congrArg (List.take 1) (unitStatusData_tail s.framed 0)
  · exact congrArg (List.take 2) (unitStatusData_tail s.framed 1)
  · rw [State.reply_free]
    exact congrArg (List.take 2) (unitStatusData_tail s.framed 3)
  · exact congrArg (List.take 4) (unitStatusData_tail s.framed 5)
  · exact unitStatusData_tail s.framed 9

/-! ### SLOT_STATUS (R187) -/

theorem slotStatusAnswer_outOfRange {tag slot number : Byte} (h : 15 < slot.toNat ∨ 1 < number.toNat) (s : State) :
    slotStatusAnswer ⟨tag, [slot, number]⟩ s = ⟨s, .outOfRange, []⟩ := by
  have hslot : reqU8 ⟨tag, [slot, number]⟩ 0 = slot.toNat := rfl
  have hnumber : reqU8 ⟨tag, [slot, number]⟩ 1 = number.toNat := rfl
  unfold slotStatusAnswer
  rw [hslot, hnumber]
  rcases h with h | h
  · rw [slotOfNat_of_lt h]
  · split
    · rfl
    · split
      · omega
      · omega
      · rfl

theorem slotStatusAnswer_record {tag slot : Byte} {i : SlotId} (h : slot.toNat = i.val) (s : State) :
    slotStatusAnswer ⟨tag, [slot, 0]⟩ s = ⟨s, .ok, slotRecordData s.env i (s.plant.slot i)⟩ := by
  unfold slotStatusAnswer
  rw [show reqU8 ⟨tag, [slot, 0]⟩ 0 = i.val from h, slotOfNat_val]
  rfl

theorem slotStatusAnswer_entries {tag slot : Byte} {i : SlotId} (h : slot.toNat = i.val) (s : State) :
    slotStatusAnswer ⟨tag, [slot, 1]⟩ s = ⟨s, .ok, slotEntriesData s.env i (s.plant.slot i)⟩ := by
  unfold slotStatusAnswer
  rw [show reqU8 ⟨tag, [slot, 1]⟩ 0 = i.val from h, slotOfNat_val]
  rfl

theorem orderBytes_length (now : Clock) (o : Option OrderInFlight) : (orderBytes now o).length = 7 := by
  cases o <;> rfl

theorem suspensionBytes_length (q : Option Suspension) : (suspensionBytes q).length = 16 := by
  cases q <;> rfl

/-- The first 34 bytes of a slot's record: those before the order in flight (Table 11-6). -/
def slotRecordHead (e : Env) (i : SlotId) (r : Slot) : List Byte :=
  [byteOf i.val, r.state.code, r.requested.code, yesNo r.pinned, r.transitCap.code, r.budgetCap.code, r.emergencyCap.code,
   r.effective.code, availableByte r, byteOf (r.draw e.tables i), yesNo r.draining] ++
  be16 ((r.drainTimer.map (fun m => m.left e.clock)).getD 0) ++
  [r.unloadMark.code, yesNo r.unloadReissued, reasonByte r.faultReason, r.sledCode.getD 0, byteOf r.lane.spinAttempts,
   byteOf r.lane.loadAttempts, byteOf r.epoch.val, byteOf r.outstanding.length, byteOf r.hold.length,
   r.idleUnload.condition] ++ be32 (r.idleUnload.left e.clock) ++ [r.idleStop.condition] ++
  be32 (r.idleStop.left e.clock) ++ be16 ((r.dwell.map (fun m => m.left e.clock)).getD 0)

theorem slotRecordData_eq (e : Env) (i : SlotId) (r : Slot) : slotRecordData e i r =
    slotRecordHead e i r ++ (orderBytes e.clock r.lane.inFlight ++
      (be16 r.exposures ++ be16 r.strays ++ [r.transitDisposition.code] ++ suspensionBytes r.suspension)) := by
  simp only [slotRecordData, slotRecordHead, leftOpt_eq, List.append_assoc]

theorem slotRecordHead_length (e : Env) (i : SlotId) (r : Slot) : (slotRecordHead e i r).length = 34 := rfl

theorem slotRecordData_head (e : Env) (i : SlotId) (r : Slot) {k n : Nat} (h : k + n ≤ 34) :
    ((slotRecordData e i r).drop k).take n = ((slotRecordHead e i r).drop k).take n := by
  rw [slotRecordData_eq, List.drop_append_of_le_length (by rw [slotRecordHead_length]; omega),
    List.take_append_of_le_length (by rw [List.length_drop, slotRecordHead_length]; omega)]

theorem slotRecordData_order (e : Env) (i : SlotId) (r : Slot) :
    ((slotRecordData e i r).drop 34).take 7 = orderBytes e.clock r.lane.inFlight := by
  rw [slotRecordData_eq, List.drop_left' (slotRecordHead_length e i r), List.take_left' (orderBytes_length _ _)]

theorem slotRecordData_tail (e : Env) (i : SlotId) (r : Slot) (k : Nat) : (slotRecordData e i r).drop (41 + k) =
    (be16 r.exposures ++ be16 r.strays ++ [r.transitDisposition.code] ++ suspensionBytes r.suspension).drop k := by
  have hlen : (slotRecordHead e i r ++ orderBytes e.clock r.lane.inFlight).length = 41 := by
    rw [List.length_append, slotRecordHead_length, orderBytes_length]
  rw [slotRecordData_eq, ← List.append_assoc, ← List.drop_drop, List.drop_left' hlen]

theorem slotRecordData_length (e : Env) (i : SlotId) (r : Slot) : (slotRecordData e i r).length = 62 := by
  rw [slotRecordData_eq, List.length_append, List.length_append, List.length_append, slotRecordHead_length,
    orderBytes_length, suspensionBytes_length]
  rfl

/-- Settles O16, by the parts of a slot's record before, at and after the order in flight. -/
theorem slotStatusReply : Obligations.SlotStatusReply := by
  intro tag slot number s hs
  refine ⟨fun h => ?_, fun i hi => ⟨?_, ?_⟩⟩
  · exact congrArg _ (takeRequest_of_unchanged hs (by simp) 0x03 rfl (slotStatusAnswer_outOfRange h _))
  · rintro rfl
    have hbyte : byteOf i.val = slot := by rw [← hi, byteOf_toNat]
    refine ⟨slotRecordData s.env i (s.plant.slot i),
      congrArg _ (takeRequest_of_unchanged hs (by simp) 0x03 rfl (slotStatusAnswer_record hi _)),
      slotRecordData_length _ _ _, ?_, ?_, ?_, ?_, ?_, ?_, ?_, ?_, ?_, ?_⟩
    · rw [← hbyte]
      exact slotRecordData_head (k := 0) _ _ _ (by omega)
    · exact slotRecordData_head _ _ _ (by omega)
    · exact slotRecordData_head _ _ _ (by omega)
    · exact slotRecordData_head _ _ _ (by omega)
    · exact slotRecordData_head _ _ _ (by omega)
    · exact slotRecordData_head _ _ _ (by omega)
    · exact slotRecordData_head _ _ _ (by omega)
    · rw [slotRecordData_order]
      cases (s.plant.slot i).lane.inFlight <;> rfl
    · exact congrArg (List.take 5) (slotRecordData_tail _ _ _ 0)
    · rw [show (46 : Nat) = 41 + 5 from rfl, slotRecordData_tail]
      cases (s.plant.slot i).suspension <;> rfl
  · rintro rfl
    obtain rfl : slot = byteOf i.val := by rw [← hi, byteOf_toNat]
    exact congrArg _ (takeRequest_of_unchanged hs (by simp) 0x03 rfl (slotStatusAnswer_entries hi s.framed))

end Sys2Proof.Machine
end

section
/-! SUPPORT. The slot sequencer (R5, R10 to R18, R28): what an order issued does to the lane, how a slot acts in each state, what
acting and a write of the requested level keep, and the frames that they bring. -/

namespace Sys2Proof.Machine

variable {e : Env} {i : SlotId} {d : Plant}

/-! ### Orders (R28, R30, R31) -/

theorem Lane.begin_of_busy {l : Lane} (h : l.tx ≠ none) : l.begin = l := by
  unfold Lane.begin
  split
  · rfl
  · exact absurd ‹l.tx = none› h

theorem Lane.begin_of_order {l : Lane} {f : LaneFrame} (h : l.tx = none) (ho : l.orderSlot = some f) :
    l.begin = { l with tx := some f, orderSlot := none } := by
  unfold Lane.begin
  rw [h]
  simp only [ho]

/-- The choice of the next frame leaves the order in flight and the counts. -/
theorem Lane.begin_frame (l : Lane) : l.begin.inFlight = l.inFlight ∧ l.begin.nextOrder = l.nextOrder ∧
    l.begin.spinAttempts = l.spinAttempts ∧ l.begin.loadAttempts = l.loadAttempts := by
  unfold Lane.begin
  split
  · exact ⟨rfl, rfl, rfl, rfl⟩
  · split
    · exact ⟨rfl, rfl, rfl, rfl⟩
    · split <;> exact ⟨rfl, rfl, rfl, rfl⟩

theorem Slot.issue_lane (e : Env) (i : SlotId) (kind : OrderKind) (r : Slot) : (Slot.issue e i kind r).lane = { r.lane with
    nextOrder := r.lane.nextOrder + 1
    inFlight := some ⟨kind, r.lane.nextOrder, ⟨e.clock, e.tables.orderMs i kind⟩⟩
    orderSlot := if r.lane.tx = none then none else some (.order kind r.lane.nextOrder)
    tx := if r.lane.tx = none then some (.order kind r.lane.nextOrder) else r.lane.tx } := by
  unfold Slot.issue
  by_cases h : r.lane.tx = none
  · rw [if_pos h, if_pos h]
    exact Lane.begin_of_order h rfl
  · rw [if_neg h, if_neg h]
    exact Lane.begin_of_busy h

/-- An order issued changes of the motion the order in flight alone. -/
theorem Slot.issue_motion (e : Env) (i : SlotId) (kind : OrderKind) (r : Slot) : (Slot.issue e i kind r).motion =
    { r.motion with inFlight := some ⟨kind, r.lane.nextOrder, ⟨e.clock, e.tables.orderMs i kind⟩⟩ } := by
  simp only [Slot.motion, Slot.issue_lane, Slot.issue_state, Slot.issue_unloadMark, Slot.issue_unloadReissued,
    Slot.issue_stoppingFromStart, Slot.issue_draining, Slot.issue_drainTimer, Slot.issue_dwell, Slot.issue_faultReason,
    Slot.issue_sledCode, Slot.issue_epoch]

theorem Slot.toStopping_motion (retry fromStart : Bool) (r : Slot) : (r.toStopping e i retry fromStart).motion =
    r.motion.stopping retry r.lane.nextOrder ⟨e.clock, e.tables.spinDownMs i⟩ fromStart := by
  rw [Slot.toStopping, Slot.issue_motion]
  rfl

theorem Slot.toStopping_loadClaim (retry fromStart : Bool) (r : Slot) :
    (r.toStopping e i retry fromStart).loadClaim = false := rfl

/-! ### How a slot acts, state by state (R5) -/

theorem act_stopped (h : (d.slot i).state = .stopped) : act e i d =
    if (d.slot i).effective ≠ .stop ∧ (d.slot i).dwell = none then (d.put e i { d.slot i with state := .queued }).joinQueue i
    else d := by
  unfold act
  simp only [h]

theorem act_queued (h : (d.slot i).state = .queued) : act e i d =
    if (d.slot i).effective = .stop then
      emulationCheck e i ((d.put e i { d.slot i with state := .stopped }).leaveQueue i)
    else d := by
  unfold act
  simp only [h]

theorem act_starting (h : (d.slot i).state = .starting) : act e i d =
    if (d.slot i).effective = .stop then d.put e i ((d.slot i).toStopping e i false true) else d := by
  unfold act
  simp only [h]

theorem act_spun_stop (h : (d.slot i).state = .spun) (he : (d.slot i).effective = .stop) :
    act e i d = d.put e i ((d.slot i).toStopping e i false false) := by
  unfold act
  simp only [h, he]

theorem act_spun_up (h : (d.slot i).state = .spun) (he : (d.slot i).effective ≠ .stop) :
    act e i d = d.put e i { d.slot i with loadClaim := decide ((d.slot i).effective = .load) } := by
  unfold act
  simp only [h]
  cases hl : (d.slot i).effective with
  | stop => exact absurd hl he
  | spin | load => rfl

theorem act_loading (h : (d.slot i).state = .loading) : act e i d =
    if (d.slot i).effective = .load then d else d.put e i ((d.slot i).toUnloading e i (.unload false) .normal) := by
  unfold act
  simp only [h]

theorem act_loaded (h : (d.slot i).state = .loaded) : act e i d =
    if (d.slot i).draining then
      if (d.slot i).effective = .load then d.put e i { d.slot i with draining := false, drainTimer := none } else d
    else if (d.slot i).effective = .load then d
    else if (d.slot i).outstanding = [] then d.put e i ((d.slot i).toUnloading e i (.unload false) .normal)
    else d.put e i ((d.slot i).toDraining e) := by
  unfold act
  simp only [h]

theorem act_unmoved (h : (d.slot i).state ∈ [SlotState.empty, .faulted, .unloading, .stopping]) : act e i d = d := by
  simp only [List.mem_cons, List.not_mem_nil, or_false] at h
  refine act_inert i d ?_
  unfold Slot.inert
  rcases h with h | h | h | h <;> rw [h]

theorem slot_put_motion (r : Slot) : ((d.put e i r).slot i).motion = r.motion := by
  rw [Plant.slot_put_same, Slot.examineCountdowns_motion]

/-! ### What the check for an emulating head leaves (R55) -/

/-- The head of a slot, if it emulates and its target is the state that the slot is in. -/
def Slot.arrivedHead (r : Slot) : Option HoldEntry :=
  match r.hold with
  | h :: _ => if h.emulating = true ∧ h.requirement.targetState = r.state then some h else none
  | [] => none

theorem emulationCheck_eq (i : SlotId) (d : Plant) : emulationCheck e i d =
    match (d.slot i).arrivedHead with
    | some h => answerEmulated e i h.tag d
    | none => d := by
  unfold emulationCheck Slot.arrivedHead
  cases (d.slot i).hold with
  | nil => rfl
  | cons h rest =>
    simp only [Bool.and_eq_true, decide_eq_true_eq]
    split <;> rfl

/-- An answer of the head leaves the slot without it, and otherwise as it was but for the countdowns. -/
theorem answerEmulated_slot (tag : Byte) : (answerEmulated e i tag d).slot i =
    Slot.examineCountdowns e i { d.slot i with hold := (d.slot i).hold.tail } := by
  unfold answerEmulated dropHead
  rw [Plant.slot_put_same, answer_slot]

/-- What no answer of a head, no action and no suspension writes: the requested level, the caps and the outstanding entries. -/
structure Slot.SameLevels (r r' : Slot) : Prop where
  requested : r'.requested = r.requested
  pinned : r'.pinned = r.pinned
  transitCap : r'.transitCap = r.transitCap
  budgetCap : r'.budgetCap = r.budgetCap
  emergencyCap : r'.emergencyCap = r.emergencyCap
  outstanding : r'.outstanding = r.outstanding

theorem Slot.SameLevels.refl (r : Slot) : r.SameLevels r := ⟨rfl, rfl, rfl, rfl, rfl, rfl⟩

theorem Slot.SameLevels.trans {a b c : Slot} (h : a.SameLevels b) (g : b.SameLevels c) : a.SameLevels c :=
  ⟨g.requested.trans h.requested, g.pinned.trans h.pinned, g.transitCap.trans h.transitCap, g.budgetCap.trans h.budgetCap,
    g.emergencyCap.trans h.emergencyCap, g.outstanding.trans h.outstanding⟩

theorem Slot.SameLevels.put {r : Slot} (h : (d.slot i).SameLevels r) : (d.slot i).SameLevels ((d.put e i r).slot i) := by
  rw [Plant.slot_put_same]
  exact h.trans ⟨rfl, rfl, rfl, rfl, rfl, rfl⟩

theorem Slot.SameLevels.effective {r r' : Slot} (h : r.SameLevels r') : r'.effective = r.effective := by
  unfold Slot.effective
  rw [h.requested, h.transitCap, h.budgetCap, h.emergencyCap]

theorem emulationCheck_sameLevels (i : SlotId) (d : Plant) : (d.slot i).SameLevels ((emulationCheck e i d).slot i) := by
  rw [emulationCheck_eq]
  split
  · rw [answerEmulated_slot]
    exact ⟨rfl, rfl, rfl, rfl, rfl, rfl⟩
  · exact .refl _

theorem emulationCheck_motion (i : SlotId) (d : Plant) : ((emulationCheck e i d).slot i).motion = (d.slot i).motion := by
  rw [emulationCheck_eq]
  split
  · rw [answerEmulated_slot, Slot.examineCountdowns_motion]
    rfl
  · rfl

/-- Acting writes neither the level nor a cap, and answers no outstanding command (R5). -/
theorem act_sameLevels (i : SlotId) (d : Plant) : (d.slot i).SameLevels ((act e i d).slot i) := by
  cases hs : (d.slot i).state with
  | empty | faulted | unloading | stopping => rw [act_unmoved (by simp [hs])]; exact .refl _
  | stopped =>
    rw [act_stopped hs]
    split
    · exact Slot.SameLevels.put (r := { d.slot i with state := .queued }) ⟨rfl, rfl, rfl, rfl, rfl, rfl⟩
    · exact .refl _
  | queued =>
    rw [act_queued hs]
    split
    · have hput : (d.slot i).SameLevels (((d.put e i { d.slot i with state := .stopped }).leaveQueue i).slot i) :=
        Slot.SameLevels.put (r := { d.slot i with state := .stopped }) ⟨rfl, rfl, rfl, rfl, rfl, rfl⟩
      exact hput.trans (emulationCheck_sameLevels i _)
    · exact .refl _
  | starting =>
    rw [act_starting hs]
    split
    · exact Slot.SameLevels.put ⟨rfl, rfl, rfl, rfl, rfl, rfl⟩
    · exact .refl _
  | spun =>
    by_cases he : (d.slot i).effective = .stop
    · rw [act_spun_stop hs he]
      exact Slot.SameLevels.put ⟨rfl, rfl, rfl, rfl, rfl, rfl⟩
    · rw [act_spun_up hs he]
      exact Slot.SameLevels.put ⟨rfl, rfl, rfl, rfl, rfl, rfl⟩
  | loading =>
    rw [act_loading hs]
    split
    · exact .refl _
    · exact Slot.SameLevels.put ⟨rfl, rfl, rfl, rfl, rfl, rfl⟩
  | loaded =>
    rw [act_loaded hs]
    split
    · split
      · exact Slot.SameLevels.put (r := { d.slot i with draining := false, drainTimer := none })
          ⟨rfl, rfl, rfl, rfl, rfl, rfl⟩
      · exact .refl _
    split
    · exact .refl _
    split
    · exact Slot.SameLevels.put ⟨rfl, rfl, rfl, rfl, rfl, rfl⟩
    · exact Slot.SameLevels.put ⟨rfl, rfl, rfl, rfl, rfl, rfl⟩

theorem actIfChanged_sameLevels (i : SlotId) (old : Level) (d : Plant) :
    (d.slot i).SameLevels ((actIfChanged e i old d).slot i) := by
  unfold actIfChanged
  split
  · exact .refl _
  · exact act_sameLevels i d

theorem Slot.suspend_sameLevels (r : Slot) : r.SameLevels (r.suspend e) := by
  unfold Slot.suspend
  simp only
  split <;> exact ⟨rfl, rfl, rfl, rfl, rfl, rfl⟩

theorem answerHeld_sameLevels (i : SlotId) (disp : Disposition) (named : HoldEntry → Bool) (d : Plant) :
    (d.slot i).SameLevels ((answerHeld e i disp named d).slot i) := by
  rw [answerHeld_slot, if_pos rfl]
  exact ⟨rfl, rfl, rfl, rfl, rfl, rfl⟩

theorem settleSuspension_sameLevels (i : SlotId) (d : Plant) :
    (d.slot i).SameLevels ((settleSuspension e i d).slot i) := by
  have hsuspend : (d.slot i).SameLevels ((d.put e i ((d.slot i).suspend e)).slot i) :=
    Slot.SameLevels.put (Slot.suspend_sameLevels _)
  unfold settleSuspension
  simp only
  split
  · exact .refl _
  split
  · split
    · exact .refl _
    · split
      · exact hsuspend.trans (answerHeld_sameLevels i _ _ _)
      · exact hsuspend
  · split
    · exact Slot.SameLevels.put ⟨rfl, rfl, rfl, rfl, rfl, rfl⟩
    · exact .refl _

/-- A write of the requested level writes the level and the pin, and keeps the caps and the outstanding entries (R71). -/
theorem writeRequested_slot (i : SlotId) (lv : Level) (pin : Bool) (d : Plant) :
    Slot.SameLevels { d.slot i with requested := lv, pinned := pin } ((writeRequested e i lv pin d).slot i) := by
  have hput : Slot.SameLevels { d.slot i with requested := lv, pinned := pin }
      ((d.put e i ((d.slot i).setRequested lv pin)).slot i) := by
    rw [Plant.slot_put_same]
    exact ⟨rfl, rfl, rfl, rfl, rfl, rfl⟩
  exact hput.trans ((actIfChanged_sameLevels i _ _).trans (settleSuspension_sameLevels i _))

/-! ### Writes of the caps -/

theorem writeEmergencyCap_slot (cap : EmergencyCap) (d : Plant) (i : SlotId) :
    ((writeEmergencyCap e cap d i).slot i).emergencyCap = cap := by
  unfold writeEmergencyCap
  rw [(actIfChanged_sameLevels i _ _).emergencyCap, Plant.slot_put_same]
  rfl

theorem writeBudgetCap_slot (i : SlotId) (cap : BudgetCap) (d : Plant) :
    ((writeBudgetCap e i cap d).slot i).budgetCap = cap := by
  unfold writeBudgetCap
  rw [(actIfChanged_sameLevels i _ _).budgetCap, Plant.slot_put_same]
  rfl

/-- A fold over slots that sets a property at each slot it comes to, and keeps it at the others. -/
theorem Plant.foldl_sets {P : SlotId → Slot → Prop} {f : Plant → SlotId → Plant} (hset : ∀ d i, P i ((f d i).slot i))
    (hother : ∀ d i j, j ≠ i → (f d i).slot j = d.slot j) {j : SlotId} :
    ∀ (l : List SlotId) (d : Plant), j ∈ l ∨ P j (d.slot j) → P j ((l.foldl f d).slot j)
  | [], _, h => h.resolve_left List.not_mem_nil
  | i :: l, d, h => by
    rw [List.foldl_cons]
    refine Plant.foldl_sets hset hother l _ ?_
    by_cases hj : j = i
    · exact .inr (hj ▸ hset d i)
    · refine h.imp (fun hmem => (List.mem_cons.mp hmem).resolve_left hj) fun hp => ?_
      rwa [hother d i j hj]

theorem writeEmergencyCaps_slot (cap : EmergencyCap) (d : Plant) (i : SlotId) :
    ((writeEmergencyCaps e cap d).slot i).emergencyCap = cap :=
  Plant.foldl_sets (P := fun _ r => r.emergencyCap = cap) (writeEmergencyCap_slot cap)
    (fun d i => (writeEmergencyCap_onlyAt cap d i).slot) allSlots d (.inl (mem_allSlots i))

/-! ### The frames that acting and the head rules bring -/

/-- A COMPLETION that the head rules, an action or a suspension can give (R50, R54, R55, R134). -/
def UpFrame.ofLevels (f : UpFrame) : Prop :=
  ∃ unit tag disp status payload, disp ∈ [Disposition.emulated, .notReady, .transitRefused] ∧
    f = completionFrame unit tag disp status payload

/-- No event is recorded, and the frames queued are ones that the head rules, an action or a suspension give. -/
structure Plant.Says (d d' : Plant) : Prop where
  events : d'.link.events = d.link.events
  frames : ∃ fs, d'.link.queue = d.link.queue ++ fs ∧ ∀ f ∈ fs, f.ofLevels

theorem Plant.Says.of_link {d d' : Plant} (h : d'.link = d.link) : d.Says d' :=
  ⟨by rw [h], [], by rw [h, List.append_nil], nofun⟩

theorem Plant.Says.refl (d : Plant) : d.Says d := .of_link rfl

theorem Plant.Says.trans {a b c : Plant} (h : a.Says b) (g : b.Says c) : a.Says c := by
  obtain ⟨hevents, fs, hqueue, hfs⟩ := h
  obtain ⟨gevents, gs, gqueue, hgs⟩ := g
  refine ⟨gevents.trans hevents, fs ++ gs, by rw [gqueue, hqueue, List.append_assoc], fun f hf => ?_⟩
  exact (List.mem_append.mp hf).elim (hfs f) (hgs f)

theorem Plant.Says.foldl {α : Type} {f : Plant → α → Plant} (hf : ∀ d x, Plant.Says d (f d x)) (l : List α) (d : Plant) :
    d.Says (l.foldl f d) := by
  induction l generalizing d with
  | nil => exact .refl d
  | cons x l ih => exact (hf d x).trans (ih _)

theorem Plant.put_says (r : Slot) (d : Plant) : d.Says (d.put e i r) := .of_link rfl

theorem answerHead_says (i : SlotId) (tag : Byte) {disp : Disposition} (h : disp ∈ [Disposition.emulated, .notReady, .transitRefused])
    (status : Byte) (payload : List Byte) (d : Plant) : d.Says (dropHead e i (answer e i tag disp status payload d)) :=
  ⟨rfl, _, rfl, fun _ hf => ⟨_, _, disp, _, _, h, List.mem_singleton.mp hf⟩⟩

theorem answerEmulated_says (i : SlotId) (tag : Byte) (d : Plant) : d.Says (answerEmulated e i tag d) :=
  answerHead_says i tag (by decide) _ _ d

theorem answerHeld_events (i : SlotId) (disp : Disposition) (named : HoldEntry → Bool) (d : Plant) :
    (answerHeld e i disp named d).link.events = d.link.events := by
  unfold answerHeld
  exact answerTags_events i disp _ d

theorem refuseSweep_says (i : SlotId) (cap : Level) (d : Plant) : d.Says (refuseSweep e i cap d) := by
  refine ⟨answerHeld_events i _ _ d, _, answerHeld_queue i _ _ d, fun f hf => ?_⟩
  obtain ⟨tag, -, rfl⟩ := List.mem_map.mp hf
  exact ⟨_, _, .transitRefused, _, _, by decide, rfl⟩

theorem emulationCheck_says (i : SlotId) (d : Plant) : d.Says (emulationCheck e i d) := by
  rw [emulationCheck_eq]
  split
  · exact answerEmulated_says i _ d
  · exact .refl d

theorem act_says (i : SlotId) (d : Plant) : d.Says (act e i d) := by
  cases hs : (d.slot i).state with
  | empty | faulted | unloading | stopping => rw [act_unmoved (by simp [hs])]; exact .refl _
  | stopped => rw [act_stopped hs]; split <;> exact .of_link rfl
  | queued =>
    rw [act_queued hs]
    split
    · have hput : d.Says ((d.put e i { d.slot i with state := .stopped }).leaveQueue i) := .of_link rfl
      exact hput.trans (emulationCheck_says i _)
    · exact .refl _
  | starting => rw [act_starting hs]; split <;> exact .of_link rfl
  | spun =>
    by_cases he : (d.slot i).effective = .stop
    · rw [act_spun_stop hs he]; exact .of_link rfl
    · rw [act_spun_up hs he]; exact .of_link rfl
  | loading => rw [act_loading hs]; split <;> exact .of_link rfl
  | loaded =>
    rw [act_loaded hs]
    split
    · split <;> exact .of_link rfl
    split
    · exact .refl _
    split <;> exact .of_link rfl

theorem actIfChanged_says (i : SlotId) (old : Level) (d : Plant) : d.Says (actIfChanged e i old d) := by
  unfold actIfChanged
  split
  · exact .refl d
  · exact act_says i d

theorem settleSuspension_says (i : SlotId) (d : Plant) : d.Says (settleSuspension e i d) := by
  have hsuspend : d.Says (d.put e i ((d.slot i).suspend e)) := Plant.put_says _ d
  unfold settleSuspension
  simp only
  split
  · exact .refl d
  split
  · split
    · exact .refl d
    · split
      · exact hsuspend.trans (refuseSweep_says i _ _)
      · exact hsuspend
  · split
    · exact Plant.put_says _ d
    · exact .refl d

theorem writeRequested_says (i : SlotId) (lv : Level) (pin : Bool) (d : Plant) : d.Says (writeRequested e i lv pin d) :=
  ((Plant.put_says _ d).trans (actIfChanged_says i _ _)).trans (settleSuspension_says i _)

theorem writeEmergencyCap_says (cap : EmergencyCap) (d : Plant) (i : SlotId) : d.Says (writeEmergencyCap e cap d i) :=
  (Plant.put_says _ d).trans (actIfChanged_says i _ _)

theorem writeEmergencyCaps_says (cap : EmergencyCap) (d : Plant) : d.Says (writeEmergencyCaps e cap d) :=
  .foldl (writeEmergencyCap_says cap) _ d

theorem writeBudgetCap_says (i : SlotId) (cap : BudgetCap) (d : Plant) : d.Says (writeBudgetCap e i cap d) :=
  (Plant.put_says _ d).trans (actIfChanged_says i _ _)

theorem becomeHead_says (i : SlotId) (h : HoldEntry) (d : Plant) : d.Says (becomeHead e i h d) := by
  have hmark : d.Says (d.put e i (d.slot i).markHead) := Plant.put_says _ d
  unfold becomeHead
  simp only
  split
  · exact hmark
  split
  · exact hmark.trans (writeRequested_says i _ _ _)
  · exact hmark.trans (answerHead_says i _ (by decide) _ _ _)

theorem trapAct_says (i : SlotId) (h : HoldEntry) (d : Plant) : d.Says (trapAct e i h d) := by
  have hact : d.Says (writeRequested e i h.requirement false (d.put e i (d.slot i).markEmulating)) :=
    (Plant.put_says _ d).trans (writeRequested_says i _ _ _)
  unfold trapAct
  split
  · exact answerEmulated_says i _ d
  · exact answerEmulated_says i _ d
  all_goals
    simp only
    split
    · exact hact.trans (emulationCheck_says i _)
    · exact hact

theorem headStep_says {d d' : Plant} (h : headStep e i d = some d') : d.Says d' := by
  unfold headStep at h
  split at h
  · simp at h
  split at h
  · obtain rfl := Option.some.inj h
    exact becomeHead_says i _ d
  split at h
  · split at h
    · simp at h
    · obtain rfl := Option.some.inj h
      exact trapAct_says i _ d
  split at h
  · obtain rfl := Option.some.inj h
    exact Plant.put_says _ d
  · simp at h

theorem headLoop_says (i : SlotId) (n : Nat) (d : Plant) : d.Says (headLoop e i n d) := by
  induction n generalizing d with
  | zero => exact .refl d
  | succ n ih =>
    unfold headLoop
    split
    · exact .refl d
    · next d' h => exact (headStep_says h).trans (ih d')

theorem serveHead_says (i : SlotId) (d : Plant) : d.Says (serveHead e i d) := headLoop_says i _ d

end Sys2Proof.Machine
end

section
/-! SUPPORT. The requests that act on levels, the arbiter and the latch: MOTION (R75 to R78), START_HOLD, START_RELEASE and
START_CLEAR (R95 to R98), and EMERGENCY_CLEAR (R156). -/

namespace Sys2Proof.Machine

variable {e : Env} {i : SlotId} {d : Plant}

/-! ### Requests that are taken -/

/-- A request whose owner changes the plant and answers. -/
theorem takeRequest_of_answers {s : State} (hs : s.accepts) {r : Request} (hw : r.args.length ≤ 63) (code : Byte)
    {lengthOk : Nat → Bool} (hl : lengthOk (r.args.length + 1) = true) {owner : State → Answered} {f : Env → Plant → Plant}
    {st : UnitStatus} {data : List Byte}
    (howner : owner s.framed = ⟨{ s.framed with plant := f s.env s.framed.plant }, st, data⟩) :
    takeRequest code lengthOk r owner s = s.answeredWith f r code st data := by
  rw [takeRequest_of_accepts hs hw code hl, howner]
  rfl

/-! ### MOTION (R75 to R78) -/

section Motion

variable {r : Request}

theorem motionAnswer_outOfRange (hmask : reqMaskOk r = true) (h : 2 < u8At r.args 4 ∨ 1 < u8At r.args 5) (s : State) :
    motionAnswer r s = ⟨s, .outOfRange, []⟩ := by
  unfold motionAnswer
  rw [hmask, Bool.not_true, if_neg (by simp)]
  split
  · rfl
  · next lv hlv =>
    refine if_pos (h.resolve_left fun hhigh => ?_)
    unfold Level.ofCode at hlv
    have hcode : reqU8 r 4 = u8At r.args 4 := rfl
    split at hlv
    · omega
    · omega
    · omega
    · simp at hlv

theorem motionAnswer_of_level (hmask : reqMaskOk r = true) {lv : Level} (hlv : Level.ofCode (u8At r.args 4) = some lv)
    (hkeep : u8At r.args 5 ≤ 1) (s : State) : motionAnswer r s =
      ⟨{ s with plant := react s.env (motionAll s.env (reqMask r) lv (u8At r.args 5 == 1) allSlots s.plant).1 }, .ok,
        be16 (maskOf (motionAll s.env (reqMask r) lv (u8At r.args 5 == 1) allSlots s.plant).2)⟩ := by
  unfold motionAnswer
  rw [hmask, Bool.not_true, if_neg (by simp), show Level.ofCode (reqU8 r 4) = some lv from hlv]
  exact if_neg (Nat.not_lt.mpr hkeep)

end Motion

theorem Slot.setRequested_eq (lv : Level) (keep : Bool) (r : Slot) : r.setRequested lv keep = { r with
    requested := lv
    pinned := keep
    idleUnload := if r.suspension = none then r.idleUnload.thaw else r.idleUnload
    idleStop := if r.suspension = none then r.idleStop.thaw else r.idleStop } := by
  unfold Slot.setRequested
  cases r.suspension <;> rfl

theorem writeRequested_eq (i : SlotId) (lv : Level) (keep : Bool) (d : Plant) : writeRequested e i lv keep d =
    settleSuspension e i (if ((d.put e i ((d.slot i).setRequested lv keep)).slot i).effective = (d.slot i).effective
      then d.put e i ((d.slot i).setRequested lv keep)
      else act e i (d.put e i ((d.slot i).setRequested lv keep))) := rfl

/-- The record that the answer of the named held entries leaves. -/
theorem answerHeld_frame (i : SlotId) (disp : Disposition) (named : HoldEntry → Bool) (d : Plant) :
    ((answerHeld e i disp named d).slot i).hold = (d.slot i).hold.filter (fun h => !named h) ∧
      ((answerHeld e i disp named d).slot i).motion = (d.slot i).motion := by
  rw [answerHeld_slot, if_pos rfl]
  exact ⟨rfl, (Slot.examineCountdowns_motion i _).trans rfl⟩

/-- MOTION at one slot: the level and the pin, then the contradicted entries (R76, R77). -/
theorem motionSlot_frame (lv : Level) (keep : Bool) (i : SlotId) (d : Plant) :
    let d1 := writeRequested e i lv keep d
    let named := fun h : HoldEntry => decide (lv.rank < h.requirement.rank) || (h.emulating && h.requirement != lv)
    let d2 := answerHeld e i .levelChanged named d1
    motionSlot e lv keep i d = budgetReact e (serveHead e i d2) ∧
    (d1.slot i).requested = lv ∧ (d1.slot i).pinned = keep ∧ (d1.slot i).outstanding = (d.slot i).outstanding ∧
    (d2.slot i).requested = lv ∧ (d2.slot i).pinned = keep ∧
    (d2.slot i).hold = (d1.slot i).hold.filter (fun h => !named h) ∧
    (d2.slot i).outstanding = (d1.slot i).outstanding ∧ (d2.slot i).motion = (d1.slot i).motion ∧
    (∀ j, j ≠ i → d2.slot j = d.slot j) ∧
    d2.link.queue = d1.link.queue ++
      answersTo e.tables i .levelChanged (((d1.slot i).hold.filter named).map HoldEntry.tag) := by
  intro d1 named d2
  have hwrite : Slot.SameLevels { d.slot i with requested := lv, pinned := keep } (d1.slot i) :=
    writeRequested_slot i lv keep d
  have hanswer : (d1.slot i).SameLevels (d2.slot i) := answerHeld_sameLevels i _ named d1
  obtain ⟨hhold, hmotion⟩ := answerHeld_frame (e := e) i .levelChanged named d1
  exact ⟨rfl, hwrite.requested, hwrite.pinned, hwrite.outstanding, hanswer.requested.trans hwrite.requested,
    hanswer.pinned.trans hwrite.pinned, hhold, hanswer.outstanding, hmotion,
    ((writeRequested_onlyAt i lv keep d).trans (answerHeld_onlyAt i _ named d1)).slot, answerHeld_queue i _ named d1⟩

section Acts

/-- The motion of a slot that is sent to UNLOADING by its level (R16, R17). -/
theorem toUnloading_put_motion (h : act e i d = d.put e i ((d.slot i).toUnloading e i (.unload false) .normal)) :
    ((act e i d).slot i).motion =
      (d.slot i).motion.unloading (.unload false) (d.slot i).lane.nextOrder ⟨e.clock, e.tables.unloadMs i⟩ .normal := by
  rw [h, slot_put_motion, Slot.toUnloading_motion]
  rfl

theorem act_stopped_frame (h : (d.slot i).state = .stopped) :
    ((d.slot i).effective ≠ .stop ∧ (d.slot i).dwell = none →
      ((act e i d).slot i).motion = { (d.slot i).motion with state := .queued } ∧
        (act e i d).arb.queue = d.arb.queue ++ [i]) ∧
    ((d.slot i).effective = .stop ∨ (d.slot i).dwell ≠ none → act e i d = d) := by
  refine ⟨fun hup => ?_, fun hstay => ?_⟩ <;> rw [act_stopped h]
  · rw [if_pos hup]
    exact ⟨slot_put_motion _, rfl⟩
  · exact if_neg fun hup => hstay.elim hup.1 fun hdwell => hdwell hup.2

theorem act_queued_frame (h : (d.slot i).state = .queued) :
    ((d.slot i).effective = .stop → ((act e i d).slot i).motion = { (d.slot i).motion with state := .stopped } ∧
      (act e i d).arb.queue = d.arb.queue.filter (fun j => j != i)) ∧
    ((d.slot i).effective ≠ .stop → act e i d = d) := by
  refine ⟨fun hstop => ?_, fun hup => ?_⟩ <;> rw [act_queued h]
  · rw [if_pos hstop, emulationCheck_motion, emulationCheck_arb, Plant.slot_leaveQueue, slot_put_motion]
    exact ⟨rfl, rfl⟩
  · exact if_neg hup

theorem act_starting_frame (h : (d.slot i).state = .starting) :
    ((d.slot i).effective = .stop → ((act e i d).slot i).motion =
        (d.slot i).motion.stopping false (d.slot i).lane.nextOrder ⟨e.clock, e.tables.spinDownMs i⟩ true ∧
      ((act e i d).slot i).loadClaim = false) ∧
    ((d.slot i).effective ≠ .stop → act e i d = d) := by
  refine ⟨fun hstop => ?_, fun hup => ?_⟩ <;> rw [act_starting h]
  · rw [if_pos hstop, slot_put_motion, Slot.toStopping_motion, Plant.slot_put_same]
    exact ⟨rfl, rfl⟩
  · exact if_neg hup

theorem act_spun_frame (h : (d.slot i).state = .spun) :
    ((d.slot i).effective ≠ .stop → ((act e i d).slot i).motion = (d.slot i).motion ∧
      ((act e i d).slot i).loadClaim = decide ((d.slot i).effective = .load)) ∧
    ((d.slot i).effective = .stop → ((act e i d).slot i).motion =
        (d.slot i).motion.stopping false (d.slot i).lane.nextOrder ⟨e.clock, e.tables.spinDownMs i⟩ false ∧
      ((act e i d).slot i).loadClaim = false) := by
  refine ⟨fun hup => ?_, fun hstop => ?_⟩
  · rw [act_spun_up h hup, slot_put_motion, Plant.slot_put_same]
    exact ⟨rfl, rfl⟩
  · rw [act_spun_stop h hstop, slot_put_motion, Slot.toStopping_motion, Plant.slot_put_same]
    exact ⟨rfl, rfl⟩

theorem act_loading_frame (h : (d.slot i).state = .loading) :
    ((d.slot i).effective = .load → act e i d = d) ∧
    ((d.slot i).effective ≠ .load → ((act e i d).slot i).motion =
      (d.slot i).motion.unloading (.unload false) (d.slot i).lane.nextOrder ⟨e.clock, e.tables.unloadMs i⟩ .normal) :=
  ⟨fun hload => by rw [act_loading h, if_pos hload],
    fun hlow => toUnloading_put_motion (by rw [act_loading h, if_neg hlow])⟩

theorem act_loaded_frame (h : (d.slot i).state = .loaded) : let r := d.slot i
    let t := act e i d
    (r.draining = true → r.effective = .load →
      (t.slot i).motion = { r.motion with draining := false, drainTimer := none }) ∧
    (r.draining = true → r.effective ≠ .load → t = d) ∧ (r.draining = false → r.effective = .load → t = d) ∧
    (r.draining = false → r.effective ≠ .load → r.outstanding = [] → (t.slot i).motion =
      r.motion.unloading (.unload false) r.lane.nextOrder ⟨e.clock, e.tables.unloadMs i⟩ .normal) ∧
    (r.draining = false → r.effective ≠ .load → r.outstanding ≠ [] → (t.slot i).motion = { r.motion with
      draining := true, drainTimer := some ⟨e.clock, e.tables.drainLimitMs⟩ }) := by
  intro r t
  have hact : t = _ := act_loaded h
  refine ⟨fun hdrain hload => ?_, fun hdrain hlow => ?_, fun hdrain hload => ?_, fun hdrain hlow hout => ?_,
    fun hdrain hlow hout => ?_⟩
  · rw [hact, if_pos hdrain, if_pos hload, slot_put_motion]
    rfl
  · rw [hact, if_pos hdrain, if_neg hlow]
  · rw [hact, if_neg (Bool.eq_false_iff.mp hdrain), if_pos hload]
  · exact toUnloading_put_motion (hact.trans (by rw [if_neg (Bool.eq_false_iff.mp hdrain), if_neg hlow, if_pos hout]))
  · rw [hact, if_neg (Bool.eq_false_iff.mp hdrain), if_neg hlow, if_neg hout, slot_put_motion]
    rfl

end Acts

/-- Settles O18: the request by its checks, a slot of the mask by the write and the answers it makes, and the action on a
changed level state by state. -/
theorem motionRequestTaken : Obligations.MotionRequestTaken := by
  refine ⟨fun r s hs hlength hmask => ⟨fun hrange => ?_, fun lv hlv hkeep => ?_⟩, fun e m lv keep i rest d => ?_,
    fun _ _ _ _ _ => rfl, fun e lv keep i d => motionSlot_frame lv keep i d, fun e i d => ?_⟩
  · exact congrArg _ (takeRequest_of_unchanged hs (by omega) 0x10 (by rw [hlength]; rfl)
      (motionAnswer_outOfRange hmask hrange _))
  · exact congrArg _ (takeRequest_of_answers hs (by omega) 0x10 (by rw [hlength]; rfl)
      (f := fun e _ => react e (motionAll s.env (reqMask r) lv (u8At r.args 5 == 1) allSlots s.framed.plant).1)
      (motionAnswer_of_level hmask hlv hkeep s.framed))
  · refine Prod.ext rfl ?_
    show (if inMask m i && (d.slot i).outOfService then _ else _) = (if _ then _ else _) ++ _
    split <;> rfl
  · exact ⟨fun lv keep => Slot.setRequested_eq lv keep (d.slot i) ▸ writeRequested_eq i lv keep d, act_stopped_frame,
      act_queued_frame, act_starting_frame, act_spun_frame, act_loading_frame, act_loaded_frame, act_unmoved,
      (act_sameLevels i d).outstanding, (act_sameLevels i d).requested, act_other i d,
      fun kind => Slot.issue_lane e i kind (d.slot i)⟩

/-! ### START_HOLD and START_RELEASE (R95) -/

theorem setHold_reach_any (hold : Bool) (e : Env) (d : Plant) :
    Plant.Reach e d (react e { d with arb := { d.arb with hold := hold } }) := setHold_reach hold d

theorem grantLoad_startClaim (i : SlotId) (d : Plant) :
    (grantLoad e i d).budget.startClaim = d.budget.startClaim := by
  unfold grantLoad
  simp only
  split
  · rfl
  · rw [(act_blocks i _).1]
    rfl

theorem serveLoads_startClaim (l : List SlotId) (d : Plant) :
    (l.foldl (serveLoad e) d).budget.startClaim = d.budget.startClaim := by
  induction l generalizing d with
  | nil => rfl
  | cons i l ih =>
    rw [List.foldl_cons, ih]
    unfold serveLoad
    split
    · exact grantLoad_startClaim i d
    · rfl

/-- Without a start claim no pass makes one. -/
theorem servePass_startClaim {d : Plant} (h : d.budget.startClaim = false) : (servePass e d).budget.startClaim = false := by
  have hloads : (allSlots.foldl (serveLoad e) d).budget.startClaim = false := (serveLoads_startClaim _ d).trans h
  unfold servePass
  split
  · exact h
  unfold serveStart
  split
  · rw [hloads, Bool.false_and, Bool.false_and, if_neg (by simp)]
    exact hloads
  · exact hloads

theorem refreshArbiter_startClaim_of_hold {d : Plant} (h : d.arb.hold = true) :
    (refreshArbiter e d).budget.startClaim = false := by
  unfold refreshArbiter
  simp [h]

theorem budgetReact_startClaim_of_hold {d : Plant} (h : d.arb.hold = true) :
    (budgetReact e d).budget.startClaim = false := by
  unfold budgetReact
  refine servePass_startClaim (refreshArbiter_startClaim_of_hold ?_)
  rw [(shedReact_calm _).hold]
  exact h

theorem serveHeads_budget (d : Plant) : (serveHeads e d).budget = d.budget :=
  (serveHeads_drawKept (t := e.tables) d).budget

theorem react_startClaim_of_hold {d : Plant} (h : d.arb.hold = true) : (react e d).budget.startClaim = false := by
  have hfirst : (serveHeads e (budgetReact e d)).arb.hold = true := by
    have hkept : d.Calm (serveHeads e (budgetReact e d)) :=
      (budgetReact_calm d).trans (.foldl _ (fun d i => serveHead_calm i d) _ _)
    rw [hkept.hold, h]
  unfold react
  rw [(refreshSettle_drawKept (t := e.tables) _).budget, (examinePhase_drawKept (t := e.tables) _).budget,
    serveHeads_budget]
  exact budgetReact_startClaim_of_hold hfirst

theorem State.answeredWith_arb (f : Env → Plant → Plant) (r : Request) (code : Byte) (st : UnitStatus) (data : List Byte)
    (s : State) : (s.answeredWith f r code st data).plant.arb = (f s.env s.framed.plant).arb ∧
      (s.answeredWith f r code st data).plant.budget = (f s.env s.framed.plant).budget := by
  unfold State.answeredWith State.reply
  rw [State.onPlant_plant]
  exact ⟨Plant.arb_settleLink _, Plant.budget_settleLink _⟩

theorem exec_hold_of_accepts {s : State} (hs : s.accepts) (tag : Byte) (hold : Bool) :
    exec (if hold then .startHold ⟨tag, []⟩ else .startRelease ⟨tag, []⟩) s =
      .next (s.answeredWith (fun e d => react e { d with arb := { d.arb with hold := hold } }) ⟨tag, []⟩
        (if hold then 0x18 else 0x19) .ok []) := by
  cases hold <;> exact congrArg _ (takeRequest_of_accepts hs (by simp) _ rfl _)

/-- Settles O20: the response of the blocks keeps the hold, and presents no claim under it. -/
theorem startHoldAndRelease : Obligations.StartHoldAndRelease := by
  intro tag s hs
  have hexec := exec_hold_of_accepts hs tag
  let t := fun (hold : Bool) (code : Byte) =>
    s.answeredWith (fun e d => react e { d with arb := { d.arb with hold := hold } }) ⟨tag, []⟩ code .ok []
  have hstart : exec (.startHold ⟨tag, []⟩) s = .next (t true 0x18) := hexec true
  have hrelease : exec (.startRelease ⟨tag, []⟩) s = .next (t false 0x19) := hexec false
  have hreplied : ∀ hold code, s.repliedTo (t hold code) ⟨tag, []⟩ code .ok [] := fun hold code =>
    State.answeredWith_repliedTo (setHold_reach_any hold) _ _ _ _ s
  have hhold : ∀ hold code, (t hold code).plant.arb.hold = hold := fun hold code => by
    rw [(State.answeredWith_arb _ _ _ _ _ s).1, (react_responds _).hold]
  have hclaim : (t true 0x18).plant.budget.startClaim = false := by
    rw [(State.answeredWith_arb _ _ _ _ _ s).2]
    exact react_startClaim_of_hold rfl
  exact ⟨⟨_, hstart, hreplied true _, hhold true _, hclaim⟩, ⟨_, hrelease, hreplied false _, hhold false _⟩, hexec⟩

/-! ### START_CLEAR (R97) -/

theorem clearStart_calm (d : Plant) (i : SlotId) : d.Calm (clearStart e d i) :=
  ((writeRequested_calm i _ _ d).trans (answerHeld_calm i _ _ _)).trans (serveHead_calm i _)

theorem Level.targetState_eq_stopped (lv : Level) : lv.targetState = .stopped ↔ lv = .stop := by
  cases lv <;> simp [Level.targetState]

theorem Level.below_stop (lv : Level) : Level.below lv .stop = false := by
  cases lv <;> rfl

theorem Level.stop_below_eq (lv : Level) : Level.below .stop lv = !decide (lv = .stop) := by
  cases lv <;> rfl

/-- With STOP requested a suspension ends or does not begin; nothing but the timers of the slot changes (R135, R142). -/
theorem settleSuspension_of_stop (h : (d.slot i).requested = .stop) :
    (settleSuspension e i d).arb = d.arb ∧ (settleSuspension e i d).link = d.link ∧
      ((settleSuspension e i d).slot i).motion = (d.slot i).motion ∧
      ((settleSuspension e i d).slot i).hold.map HoldEntry.captured = (d.slot i).hold.map HoldEntry.captured := by
  unfold settleSuspension
  simp only [h, Level.below_stop, Bool.false_eq_true, if_false]
  split
  · exact ⟨rfl, rfl, rfl, rfl⟩
  · split
    · refine ⟨rfl, rfl, ?_, ?_⟩
      · rw [slot_put_motion]
        rfl
      · rw [Plant.slot_put_same]
        exact Slot.resumeHold_captured e.clock
          { d.slot i with suspension := none, idleUnload := (d.slot i).idleUnload.thaw, idleStop := (d.slot i).idleStop.thaw }
    · exact ⟨rfl, rfl, rfl, rfl⟩

/-- The tags of the head of a queued slot that STOPPED answers (R55). -/
def Slot.emulatedTags (r : Slot) : List Byte :=
  match (r.hold : List HoldEntry) with
  | h :: _ => if h.emulating = true ∧ h.requirement = .stop then [h.tag] else []
  | [] => []

/-- The check of a STOPPED slot whose head may emulate toward STOPPED, in the words of R55. -/
theorem emulationCheck_stopped (hs : (d.slot i).state = .stopped) (hr : (d.slot i).requested = .stop) :
    let t := emulationCheck e i d
    (t.slot i).hold.map HoldEntry.tag = ((d.slot i).hold.map HoldEntry.tag).drop (d.slot i).emulatedTags.length ∧
      t.link.queue = d.link.queue ++ (d.slot i).emulatedTags.map (fun tag =>
        completionFrame (e.tables.unitOfSlot i) tag .emulated 0 [SlotState.stopped.code, Level.stop.code]) := by
  intro t
  have ht : t = _ := emulationCheck_eq i d
  rw [ht]
  unfold Slot.arrivedHead Slot.emulatedTags
  cases hhold : (d.slot i).hold with
  | nil => simp [hhold]
  | cons h rest =>
    simp only [hs, Level.targetState_eq_stopped]
    by_cases hemulated : h.emulating = true ∧ h.requirement = .stop
    · rw [if_pos hemulated, if_pos hemulated]
      simp only
      rw [answerEmulated_slot, Slot.examineCountdowns_hold, hhold]
      refine ⟨rfl, ?_⟩
      unfold answerEmulated
      rw [hs, hr]
      rfl
    · rw [if_neg hemulated, if_neg hemulated]
      simp [hhold]

/-- The plant of a queued slot that is stopped, before its head is examined (R10, R71). -/
def Plant.stopQueued (e : Env) (i : SlotId) (d : Plant) : Plant :=
  let d0 := d.put e i ((d.slot i).setRequested .stop false)
  (d0.put e i { d0.slot i with state := .stopped }).leaveQueue i

theorem writeRequested_stop_queued (hs : (d.slot i).state = .queued) (he : (d.slot i).effective ≠ .stop) :
    writeRequested e i .stop false d = settleSuspension e i (emulationCheck e i (d.stopQueued e i)) := by
  have hslot : (d.put e i ((d.slot i).setRequested .stop false)).slot i =
      ((d.slot i).setRequested .stop false).examineCountdowns e i := Plant.slot_put_same _ _ _ _
  have heffective : ((d.put e i ((d.slot i).setRequested .stop false)).slot i).effective = .stop :=
    Slot.effective_of_requested_stop (by rw [hslot]; rfl)
  have hqueued : ((d.put e i ((d.slot i).setRequested .stop false)).slot i).state = .queued := by
    rw [hslot]
    exact hs
  rw [writeRequested_eq, heffective, if_neg he.symm, act_queued hqueued, if_pos heffective]
  rfl

theorem Plant.stopQueued_frame (i : SlotId) (d : Plant) : let t := d.stopQueued e i
    (t.slot i).state = .stopped ∧ (t.slot i).requested = .stop ∧ (t.slot i).pinned = false ∧
      (t.slot i).dwell = (d.slot i).dwell ∧ (t.slot i).hold = (d.slot i).hold ∧
      (t.slot i).outstanding = (d.slot i).outstanding ∧ t.arb.queue = d.arb.queue.filter (fun j => j != i) ∧
      t.link = d.link := by
  intro t
  have hslot : (t.slot i) = Slot.examineCountdowns e i
      { (d.put e i ((d.slot i).setRequested .stop false)).slot i with state := .stopped } := Plant.slot_put_same _ _ _ _
  rw [hslot, Plant.slot_put_same]
  exact ⟨rfl, rfl, rfl, rfl, rfl, rfl, rfl, rfl⟩

theorem map_tag_of_captured {l l' : List HoldEntry} (h : l'.map HoldEntry.captured = l.map HoldEntry.captured) :
    l'.map HoldEntry.tag = l.map HoldEntry.tag := by
  have htag : HoldEntry.tag = (fun c => c.1) ∘ HoldEntry.captured := rfl
  rw [htag, ← List.map_map, h, List.map_map]

/-- START_CLEAR at one queued slot, up to the answers CLEARED (R97). -/
theorem writeRequested_stop_queued_frame (hs : (d.slot i).state = .queued) (he : (d.slot i).effective ≠ .stop)
    {d1 : Plant} (h : d1 = writeRequested e i .stop false d) :
    (d1.slot i).state = .stopped ∧ (d1.slot i).requested = .stop ∧ (d1.slot i).pinned = false ∧
    (d1.slot i).dwell = (d.slot i).dwell ∧ d1.arb.queue = d.arb.queue.filter (fun j => j != i) ∧
    (d1.slot i).outstanding = (d.slot i).outstanding ∧
    (d1.slot i).hold.map HoldEntry.tag = ((d.slot i).hold.map HoldEntry.tag).drop (d.slot i).emulatedTags.length ∧
    d1.link.queue = d.link.queue ++ (d.slot i).emulatedTags.map (fun tag =>
      completionFrame (e.tables.unitOfSlot i) tag .emulated 0 [SlotState.stopped.code, Level.stop.code]) := by
  obtain ⟨hstate, hrequested, hpinned, hdwell, hhold, hout, hqueue, hlink⟩ := Plant.stopQueued_frame (e := e) i d
  have hlevels : Slot.SameLevels { d.slot i with requested := .stop, pinned := false } (d1.slot i) :=
    h ▸ writeRequested_slot i .stop false d
  have hchecked := emulationCheck_sameLevels (e := e) i (d.stopQueued e i)
  have hmotion := emulationCheck_motion (e := e) i (d.stopQueued e i)
  obtain ⟨htags, hframes⟩ := emulationCheck_stopped (e := e) hstate hrequested
  obtain ⟨sarb, slink, smotion, shold⟩ := settleSuspension_of_stop (e := e) (hchecked.requested.trans hrequested)
  have hd1 : d1 = settleSuspension e i (emulationCheck e i (d.stopQueued e i)) :=
    h.trans (writeRequested_stop_queued hs he)
  have hemulated : ((d.stopQueued e i).slot i).emulatedTags = (d.slot i).emulatedTags := by
    unfold Slot.emulatedTags
    rw [hhold]
  have hmotion1 : (d1.slot i).motion = ((d.stopQueued e i).slot i).motion := by rw [hd1, smotion, hmotion]
  rw [hemulated] at htags hframes
  refine ⟨(congrArg Slot.Motion.state hmotion1).trans hstate, hlevels.requested, hlevels.pinned,
    (congrArg Slot.Motion.dwell hmotion1).trans hdwell, ?_, hlevels.outstanding, ?_, ?_⟩
  · rw [hd1, sarb, emulationCheck_arb, hqueue]
  · rw [hd1, map_tag_of_captured shold, htags, hhold]
  · rw [hd1, slink, hframes, hlink]

theorem exec_startClear_of_accepts {s : State} (hs : s.accepts) (tag : Byte) : exec (.startClear ⟨tag, []⟩) s =
    .next (s.answeredWith (fun e _ => react e { s.plant.arb.queue.foldl (clearStart s.env) s.framed.plant with
        arb := { (s.plant.arb.queue.foldl (clearStart s.env) s.framed.plant).arb with
          lastGranted := 15, stagger := none } }) ⟨tag, []⟩ 0x1A .ok (be16 (maskOf s.plant.arb.queue))) :=
  congrArg _ (takeRequest_of_accepts hs (by simp) _ rfl _)

/-- The sweep of START_CLEAR at a stopped slot: the held entries above STOP are answered CLEARED (R97). -/
theorem clearStart_sweep {d1 : Plant} (hstate : (d1.slot i).state = .stopped) (hrequested : (d1.slot i).requested = .stop)
    (hothers : ∀ j, j ≠ i → d1.slot j = d.slot j) :
    ∃ d2, serveHead e i (answerHeld e i .cleared (fun h => Level.below .stop h.requirement) d1) = serveHead e i d2 ∧
      (d2.slot i).hold = (d1.slot i).hold.filter (fun h => h.requirement = .stop) ∧
      (d2.slot i).outstanding = (d1.slot i).outstanding ∧ (d2.slot i).state = .stopped ∧
      (d2.slot i).requested = .stop ∧ d2.arb = d1.arb ∧ (∀ j, j ≠ i → d2.slot j = d.slot j) ∧
      d2.link.queue = d1.link.queue ++
        answersTo e.tables i .cleared (((d1.slot i).hold.filter (fun h => h.requirement ≠ .stop)).map HoldEntry.tag) := by
  let named := fun h : HoldEntry => Level.below .stop h.requirement
  obtain ⟨ahold, amotion⟩ := answerHeld_frame (e := e) i .cleared named d1
  have alevels := answerHeld_sameLevels (e := e) i .cleared named d1
  refine ⟨answerHeld e i .cleared named d1, rfl, ?_, alevels.outstanding,
    (congrArg Slot.Motion.state amotion).trans hstate, alevels.requested.trans hrequested, answerHeld_arb i _ _ d1,
    fun j hj => ((answerHeld_onlyAt i _ _ d1).slot j hj).trans (hothers j hj), ?_⟩
  · rw [ahold]
    exact List.filter_congr fun h _ => by simp only [named, Level.stop_below_eq, Bool.not_not]
  · rw [answerHeld_queue]
    have hnamed : (d1.slot i).hold.filter named = (d1.slot i).hold.filter (fun h => h.requirement ≠ .stop) :=
      List.filter_congr fun h _ => by simp only [named, Level.stop_below_eq, ne_eq, decide_not]
    rw [hnamed]
    rfl

/-- Settles O21: the fold over the queue keeps the arbiter hold, and at each slot the write stops it and the sweep answers
what is above STOP. -/
theorem startClearTaken : Obligations.StartClearTaken := by
  refine ⟨fun tag s hs => ⟨s.plant.arb.queue.foldl (clearStart s.env) s.framed.plant, exec_startClear_of_accepts hs tag,
    rfl, (Plant.Calm.foldl _ clearStart_calm _ _).hold⟩, fun e d i hs he => ?_⟩
  obtain ⟨d1, hd1⟩ : ∃ d1, d1 = writeRequested e i .stop false d := ⟨_, rfl⟩
  obtain ⟨hstate, hrequested, hpinned, hdwell, hqueue, hout, hhold, hframes⟩ := writeRequested_stop_queued_frame hs he hd1
  have hothers : ∀ j, j ≠ i → d1.slot j = d.slot j := hd1 ▸ (writeRequested_onlyAt i .stop false d).slot
  obtain ⟨d2, hclear, hd2⟩ := clearStart_sweep (e := e) (i := i) (d1 := d1) hstate hrequested hothers
  rw [← hd1]
  exact ⟨hstate, hrequested, hpinned, hdwell, hqueue, hout, hhold, hframes, d2, by rw [← hclear, hd1]; rfl, hd2⟩

/-! ### EMERGENCY_CLEAR (R156) -/

theorem clearLatch_eq (cause : ClearCause) (d : Plant) : clearLatch e cause d =
    { Plant.record e.clock (.emergencyCleared cause d.emg.sources)
        (writeEmergencyCaps e .none { d with emg := { d.emg with cap := .none } }) with emg := Emergency.reset } := rfl

/-- The plant with the emergency record emptied, every cap none, and EMERGENCY_CLEARED recorded. -/
theorem clearLatch_frame (cause : ClearCause) (d : Plant) : (clearLatch e cause d).emg = Emergency.reset ∧
    (∀ i, ((clearLatch e cause d).slot i).emergencyCap = .none) ∧
    (d.link.events.length < 32 → (clearLatch e cause d).link.events =
      d.link.events ++ [⟨e.clock, .emergencyCleared cause d.emg.sources⟩]) := by
  have hevents := (writeEmergencyCaps_says (e := e) .none { d with emg := { d.emg with cap := .none } }).events
  rw [clearLatch_eq]
  refine ⟨rfl, fun i => ?_, fun hroom => ?_⟩
  · rw [Plant.slot_emg, Plant.record_slot, writeEmergencyCaps_slot]
  · dsimp only
    rw [Plant.record_events_of_room _ _ (by rw [hevents]; exact hroom), hevents]

theorem classSource_isSome (t : Tables) (c : MotionClass) :
    (classSource t c).isSome = true ↔ (c = .jolt ∨ c = .fall) ∧ t.emergencyFlag c = true := by
  cases c with
  | still | poised | rolling | tilted => simp [classSource]
  | jolt => simp [classSource]
  | fall => simp [classSource]

theorem sourcePresent_iff (d : Plant) : sourcePresent e d = true ↔
    ((e.cls = .jolt ∨ e.cls = .fall) ∧ e.tables.emergencyFlag e.cls = true) ∨ d.budget.powerState = .holdup := by
  rw [sourcePresent, Bool.or_eq_true, classSource_isSome, decide_eq_true_eq]

/-- Settles O24, check by check. -/
theorem emergencyClearTaken : Obligations.EmergencyClearTaken := by
  intro tag s hs
  have hunchanged : ∀ st, emergencyClearAnswer s.framed = ⟨s.framed, st, []⟩ →
      exec (.emergencyClear ⟨tag, []⟩) s = .next (s.answered ⟨tag, []⟩ 0x21 st []) := fun st h =>
    congrArg _ (takeRequest_of_unchanged hs (by simp) 0x21 rfl h)
  have hpresent := sourcePresent_iff (e := s.env) s.framed.plant
  refine ⟨fun hclear => hunchanged _ ?_, fun hlatched hphase => hunchanged _ ?_,
    fun hlatched hphase hsource => hunchanged _ ?_, fun hlatched hphase hsource => ?_⟩
  · exact if_pos (by rw [show s.framed.plant.emg.latched = false from hclear]; rfl)
  · exact (if_neg (by rw [show s.framed.plant.emg.latched = true from hlatched]; simp)).trans (if_pos hphase)
  · exact (if_neg (by rw [show s.framed.plant.emg.latched = true from hlatched]; simp)).trans
      ((if_neg (not_not.mpr hphase)).trans (if_pos (hpresent.mpr hsource)))
  · have hanswer : emergencyClearAnswer s.framed =
        ⟨{ s.framed with plant := react s.env (clearLatch s.env .requested s.framed.plant) }, .ok, []⟩ :=
      (if_neg (by rw [show s.framed.plant.emg.latched = true from hlatched]; simp)).trans
        ((if_neg (not_not.mpr hphase)).trans (if_neg fun h => hsource (hpresent.mp h)))
    obtain ⟨hemg, hcaps, hevents⟩ := clearLatch_frame (e := s.env) .requested s.framed.plant
    exact ⟨clearLatch s.env .requested s.framed.plant, congrArg _ (takeRequest_of_answers hs (by simp) 0x21 rfl
      (f := fun e _ => react e (clearLatch s.env .requested s.framed.plant)) hanswer), hemg, hcaps, hevents⟩

end Sys2Proof.Machine
end

section
/-! SUPPORT. The events of a slot's lane and pins (R6, R21 to R23, R26, R31, R35 to R37): entry to FAULTED, what the response of
the blocks leaves of a slot that no level moves, the end of an order by the slot's state, and the frames of the lane. -/

namespace Sys2Proof.Machine

variable {e : Env} {i : SlotId} {d : Plant} {s : State}

/-! ### Every command of a slot answered, and entry to FAULTED (R23) -/

/-- What is left of a slot whose commands have all been answered (R8, R23, R34). -/
theorem answerAll_frame (i : SlotId) (disp : Disposition) (d : Plant) : let t := answerAll e i disp d
    (t.slot i).motion = { (d.slot i).motion with epoch := (d.slot i).epoch + 1 } ∧
      (t.slot i).lane = { (d.slot i).lane with cmdQueue := [] } ∧ (t.slot i).hold = [] ∧ (t.slot i).outstanding = [] ∧
      (t.slot i).overcurrentIn = (d.slot i).overcurrentIn := by
  intro t
  have ht : t.slot i = Slot.examineCountdowns e i { (abort e i disp d).slot i with hold := [] } := by
    show (answerHeld e i disp (fun _ => true) (abort e i disp d)).slot i = _
    rw [answerHeld_slot, if_pos rfl]
    simp
  have ha : (abort e i disp d).slot i =
      (Slot.nextEpoch { d.slot i with outstanding := [] }).examineCountdowns e i := by rw [abort_slot, if_pos rfl]
  refine ⟨?_, ?_, ?_, ?_, ?_⟩
  · rw [ht, Slot.examineCountdowns_motion]
    exact abort_motion i disp d
  all_goals
    rw [ht, ha]
    rfl

/-- The record of a slot at its entry to FAULTED, before its commands are answered (R23). -/
def Slot.faultedAs (reason : FaultReason) (code : Option Byte) (r : Slot) : Slot :=
  { r.cease with state := .faulted, faultReason := some reason, sledCode := code }

theorem enterFaulted_eq (i : SlotId) (reason : FaultReason) (code : Option Byte) (d : Plant) :
    enterFaulted e i reason code d = Plant.record e.clock (.slotFaulted i reason (code.getD 0))
      (answerAll e i .slotFault ((d.put e i ((d.slot i).faultedAs reason code)).leaveQueue i)) := rfl

/-- What entry to FAULTED leaves of the slot. -/
theorem enterFaulted_frame (i : SlotId) (reason : FaultReason) (code : Option Byte) (d : Plant) :
    let t := enterFaulted e i reason code d
    (t.slot i).motion = (d.slot i).motion.faulted reason code ∧ (t.slot i).lane = (d.slot i).lane.dropped ∧
      (t.slot i).hold = [] ∧ (t.slot i).outstanding = [] ∧ (t.slot i).overcurrentIn = (d.slot i).overcurrentIn := by
  intro t
  have ht : t = _ := enterFaulted_eq i reason code d
  have hslot : ((d.put e i ((d.slot i).faultedAs reason code)).leaveQueue i).slot i =
      ((d.slot i).faultedAs reason code).examineCountdowns e i := by rw [Plant.slot_leaveQueue, Plant.slot_put_same]
  obtain ⟨hmotion, hlane, hhold, hout, hpin⟩ := answerAll_frame (e := e) i .slotFault
    ((d.put e i ((d.slot i).faultedAs reason code)).leaveQueue i)
  rw [ht, Plant.record_slot]
  refine ⟨?_, ?_, hhold, hout, ?_⟩
  · rw [hmotion, hslot, Slot.examineCountdowns_motion]
    rfl
  · rw [hlane, hslot]
    rfl
  · rw [hpin, hslot]
    rfl

theorem Plant.record_queue_prefix (now : Clock) (ev : Event) (d : Plant) :
    d.link.queue <+: (d.record now ev).link.queue := by
  rcases Plant.record_queue now ev d with h | ⟨h, -⟩
  · rw [h]
  · rw [h]
    exact List.prefix_append _ _

theorem enterFaulted_answers (i : SlotId) (reason : FaultReason) (code : Option Byte) (d : Plant) :
    d.link.queue ++ answersTo e.tables i .slotFault
        ((d.slot i).outstanding.map OutEntry.tag ++ (d.slot i).hold.map HoldEntry.tag) <+:
      (enterFaulted e i reason code d).link.queue := by
  refine List.IsPrefix.trans ?_ (Plant.record_queue_prefix _ _ _)
  rw [answerAll_queue, Plant.slot_leaveQueue, Plant.slot_put_same]
  exact List.prefix_rfl

/-! ### What the response of the blocks leaves of a slot that no level moves -/

theorem react_motion (h : (d.slot i).inert = true) : ((react e d).slot i).motion = (d.slot i).motion :=
  (react_responds d).motion i h

/-- A slot at rest by its motion keeps it through the response. -/
theorem react_motion_of {m : Slot.Motion} (h : (d.slot i).motion = m)
    (hm : m.state = .faulted ∨ m.state = .unloading ∨ m.state = .stopping) : ((react e d).slot i).motion = m := by
  have hstate : (d.slot i).state = m.state := congrArg Slot.Motion.state h
  rw [react_motion ?_, h]
  unfold Slot.inert
  rcases hm with hm | hm | hm <;> rw [hstate, hm]

theorem State.respond_congr {f g : Env → Plant → Plant} (h : f s.env s.plant = g s.env s.plant) :
    s.respond f = s.respond g := by
  rw [State.respond_eq_const f, State.respond_eq_const g, h]

/-- What of a plant is left after the response to an event. -/
theorem State.respond_plant (f : Env → Plant → Plant) (s : State) :
    (∀ j, (s.respond f).plant.slot j = (react s.env (f s.env s.plant)).slot j) ∧
      (s.respond f).plant.link.queue = (react s.env (f s.env s.plant)).link.queue ∧
      (s.respond f).plant.link.events = (react s.env (f s.env s.plant)).link.events ∧
      (s.respond f).plant.emg = (react s.env (f s.env s.plant)).emg ∧
      (s.respond f).plant.budget = (react s.env (f s.env s.plant)).budget := by
  unfold State.respond
  rw [State.onPlant_plant]
  exact ⟨fun j => Plant.slot_settleLink _ j, Plant.queue_settleLink _, Plant.events_settleLink _, Plant.emg_settleLink _,
    Plant.budget_settleLink _⟩

theorem State.respond_eq_plant (f : Env → Plant → Plant) (s : State) :
    s.respond f = { s with plant := (s.respond f).plant } := rfl

/-- Frames queued by an event stay queued through the response. -/
theorem State.respond_queue_prefix {f : Env → Plant → Plant} {fs : List UpFrame}
    (h : fs <+: (f s.env s.plant).link.queue) : fs <+: (s.respond f).plant.link.queue := by
  obtain ⟨-, hqueue, -, -, -⟩ := State.respond_plant f s
  rw [hqueue]
  exact h.trans (react_responds _).queue

/-! ### A failed order (R13, R14, R16, R20) -/

theorem orderFailure_starting (h : (d.slot i).state = .starting) (kind : OrderKind) : orderFailure e i kind d =
    d.put e i (Slot.toStopping e i true true { (d.slot i).endOrder with lane := (d.slot i).endOrder.lane.spinFailed }) := by
  unfold orderFailure
  simp only [show (d.slot i).endOrder.state = .starting from h]

theorem orderFailure_stopping (h : (d.slot i).state = .stopping) (kind : OrderKind) :
    orderFailure e i kind d = enterFaulted e i .stopTimeout none d := by
  unfold orderFailure
  simp only [show (d.slot i).endOrder.state = .stopping from h]

theorem orderFailure_loading (h : (d.slot i).state = .loading) (kind : OrderKind) : orderFailure e i kind d =
    d.put e i (Slot.toUnloading e i (.unload false) .normal
      { (d.slot i).endOrder with lane := (d.slot i).endOrder.lane.loadFailed }) := by
  unfold orderFailure
  simp only [show (d.slot i).endOrder.state = .loading from h]

theorem orderFailure_unloading (h : (d.slot i).state = .unloading) (kind : OrderKind) : orderFailure e i kind d =
    if (d.slot i).unloadReissued then
      if (d.slot i).unloadMark = .fault then enterFaulted e i .sledFault (d.slot i).sledCode d
      else enterFaulted e i .unloadTimeout none d
    else d.put e i (Slot.issue e i kind { (d.slot i).endOrder with unloadReissued := true }) := by
  unfold orderFailure
  simp only [show (d.slot i).endOrder.state = .unloading from h]
  rfl

/-- Settles O30: in each state the slot is left where no level moves it, and so stays through the response. -/
theorem orderFailureByState : Obligations.OrderFailureByState := by
  intro e i kind d
  refine ⟨fun h => ?_, fun h => ?_, fun h => ?_, fun h hissued => ?_, fun h hissued => ?_⟩
  · refine react_motion_of ?_ (.inr (.inr rfl))
    rw [orderFailure_starting h, slot_put_motion, Slot.toStopping_motion]
    rfl
  · refine react_motion_of ?_ (.inl rfl)
    rw [orderFailure_stopping h]
    exact (enterFaulted_frame i _ _ d).1
  · refine react_motion_of ?_ (.inr (.inl rfl))
    rw [orderFailure_loading h, slot_put_motion, Slot.toUnloading_motion]
    rfl
  · refine react_motion_of ?_ (.inr (.inl h))
    rw [orderFailure_unloading h, if_neg (Bool.eq_false_iff.mp hissued), slot_put_motion, Slot.issue_motion]
    rfl
  · have hfault := orderFailure_unloading (e := e) h kind
    rw [if_pos hissued] at hfault
    by_cases hmark : (d.slot i).unloadMark = .fault
    · rw [if_pos hmark] at hfault ⊢
      refine react_motion_of ?_ (.inl rfl)
      rw [hfault]
      exact (enterFaulted_frame i _ _ d).1
    · rw [if_neg hmark] at hfault ⊢
      refine react_motion_of ?_ (.inl rfl)
      rw [hfault]
      exact (enterFaulted_frame i _ _ d).1

/-! ### A succeeded order (R13, R14, R16, R19) -/

theorem emulationCheck_lane (i : SlotId) (d : Plant) : ((emulationCheck e i d).slot i).lane = (d.slot i).lane := by
  rw [emulationCheck_eq]
  split
  · rw [answerEmulated_slot]
    rfl
  · rfl

/-- The plant of a slot that has written a record and had its emulating head looked at. -/
def Plant.arrived (e : Env) (i : SlotId) (r : Slot) (d : Plant) : Plant := emulationCheck e i (d.put e i r)

theorem Plant.arrived_frame (i : SlotId) (r : Slot) (d : Plant) : ((d.arrived e i r).slot i).motion = r.motion ∧
    ((d.arrived e i r).slot i).lane = r.lane ∧ r.SameLevels ((d.arrived e i r).slot i) := by
  unfold Plant.arrived
  rw [emulationCheck_motion, slot_put_motion, emulationCheck_lane]
  have hput : r.SameLevels ((d.put e i r).slot i) := by
    rw [Plant.slot_put_same]
    exact ⟨rfl, rfl, rfl, rfl, rfl, rfl⟩
  exact ⟨rfl, by rw [Plant.slot_put_same]; rfl, hput.trans (emulationCheck_sameLevels i _)⟩

/-- A slot that reaches SPUN claims its load, stays, or spins down, by its effective level (R13, R15, R19). -/
theorem enterSpun_reaches (i : SlotId) (r : Slot) (d : Plant) (hend : r.lane.inFlight = none) :
    let t := (enterSpun e i r d).slot i
    (t.unloadMark = .none ∧ t.unloadReissued = false ∧
      (r.effective = .load → t.state = .spun ∧ t.lane.inFlight = none ∧ t.loadClaim = true) ∧
      (r.effective = .spin → t.state = .spun ∧ t.lane.inFlight = none ∧ t.loadClaim = false) ∧
      (r.effective = .stop → t.state = .stopping ∧ t.loadClaim = false ∧ t.stoppingFromStart = false ∧
        t.lane.inFlight = some ⟨.spinDown false, r.lane.nextOrder, ⟨e.clock, e.tables.spinDownMs i⟩⟩)) ∧
      t.lane.spinAttempts = r.lane.spinAttempts := by
  intro t
  let r0 : Slot := { r with state := .spun, unloadMark := .none, unloadReissued := false }
  obtain ⟨hmotion, hlane, hlevels⟩ := Plant.arrived_frame (e := e) i r0 d
  have heffective : ((d.arrived e i r0).slot i).effective = r.effective := hlevels.effective.trans rfl
  obtain ⟨hup, hstop⟩ := act_spun_frame (e := e) (d := d.arrived e i r0) (congrArg Slot.Motion.state hmotion)
  rw [heffective, hmotion] at hup hstop
  rw [hlane] at hstop
  have ht : t = (act e i (d.arrived e i r0)).slot i := rfl
  rw [← ht] at hup hstop
  have hmoved : ∀ m : Slot.Motion, t.motion = m → m.unloadMark = .none → m.unloadReissued = false →
      m.spinAttempts = r.lane.spinAttempts → t.unloadMark = .none ∧ t.unloadReissued = false ∧
        t.lane.spinAttempts = r.lane.spinAttempts := by
    rintro m rfl h1 h2 h3
    exact ⟨h1, h2, h3⟩
  have hframe : t.unloadMark = .none ∧ t.unloadReissued = false ∧ t.lane.spinAttempts = r.lane.spinAttempts := by
    by_cases h : r.effective = .stop
    · exact hmoved _ (hstop h).1 rfl rfl rfl
    · exact hmoved _ (hup h).1 rfl rfl rfl
  obtain ⟨hmark, hissued, hattempts⟩ := hframe
  refine ⟨⟨hmark, hissued, fun h => ?_, fun h => ?_, fun h => ?_⟩, hattempts⟩
  · obtain ⟨hm, hclaim⟩ := hup (by rw [h]; nofun)
    rw [h] at hclaim
    exact ⟨congrArg Slot.Motion.state hm, (congrArg Slot.Motion.inFlight hm).trans hend, hclaim⟩
  · obtain ⟨hm, hclaim⟩ := hup (by rw [h]; nofun)
    rw [h] at hclaim
    exact ⟨congrArg Slot.Motion.state hm, (congrArg Slot.Motion.inFlight hm).trans hend, hclaim⟩
  · obtain ⟨hm, hclaim⟩ := hstop h
    exact ⟨congrArg Slot.Motion.state hm, hclaim, congrArg Slot.Motion.stoppingFromStart hm,
      congrArg Slot.Motion.inFlight hm⟩

theorem orderSuccess_starting (h : (d.slot i).state = .starting) : orderSuccess e i d =
    enterSpun e i { (d.slot i).endOrder with lane := { (d.slot i).endOrder.lane with spinAttempts := 0 } } d := by
  unfold orderSuccess
  simp only [show (d.slot i).endOrder.state = .starting from h]

theorem orderSuccess_stopping (h : (d.slot i).state = .stopping) : orderSuccess e i d =
    if e.tables.spinRetries i < (d.slot i).lane.spinAttempts then enterFaulted e i .spinFailed none d
    else enterStopped e i (d.slot i).endOrder d := by
  unfold orderSuccess
  simp only [show (d.slot i).endOrder.state = .stopping from h]
  rfl

theorem orderSuccess_loading (h : (d.slot i).state = .loading) : orderSuccess e i d =
    enterLoaded e i { (d.slot i).endOrder with lane := { (d.slot i).endOrder.lane with loadAttempts := 0 } } d := by
  unfold orderSuccess
  simp only [show (d.slot i).endOrder.state = .loading from h]

theorem orderSuccess_unloading (h : (d.slot i).state = .unloading) : orderSuccess e i d =
    if (d.slot i).unloadMark = .fault then enterFaulted e i .sledFault (d.slot i).sledCode d
    else if e.tables.loadRetries i < (d.slot i).lane.loadAttempts then enterFaulted e i .loadFailed none d
    else enterSpun e i (d.slot i).endOrder d := by
  unfold orderSuccess
  simp only [show (d.slot i).endOrder.state = .unloading from h]
  rfl

/-- The record of a slot at its entry to STOPPED from STOPPING (R14). -/
def Slot.stoppedAt (e : Env) (i : SlotId) (r : Slot) : Slot :=
  { r with state := .stopped, stoppingFromStart := false, dwell := dwellTimer e i }

theorem dwellTimer_of_ne {t : Nat} (ht : t = e.tables.dwellMs i) (h : t ≠ 0) : dwellTimer e i = some ⟨e.clock, t⟩ := by
  subst ht
  exact if_neg h

/-- A slot that reaches STOPPED with its dwell running stays there (R9, R10). -/
theorem enterStopped_dwelling (r : Slot) (d : Plant) (h : e.tables.dwellMs i ≠ 0) :
    ((react e (enterStopped e i r d)).slot i).motion = (r.stoppedAt e i).motion := by
  obtain ⟨hmotion, -, -⟩ := Plant.arrived_frame (e := e) i (r.stoppedAt e i) d
  have hinert : ((d.arrived e i (r.stoppedAt e i)).slot i).inert = true := by
    rw [Slot.inert_congr hmotion]
    show (dwellTimer e i).isSome = true
    rw [dwellTimer_of_ne rfl h]
    rfl
  have henter : enterStopped e i r d = d.arrived e i (r.stoppedAt e i) := act_inert i _ hinert
  rw [henter, react_motion hinert, hmotion]

/-- A slot that reaches STOPPED with no dwell stays there or queues for a start, by its effective level (R9, R10). -/
theorem enterStopped_moves (r : Slot) (d : Plant) (h : e.tables.dwellMs i = 0) : let t := (enterStopped e i r d).slot i
    t.dwell = none ∧ t.state = if r.effective = .stop then .stopped else .queued := by
  intro t
  obtain ⟨hmotion, -, hlevels⟩ := Plant.arrived_frame (e := e) i (r.stoppedAt e i) d
  have heffective : ((d.arrived e i (r.stoppedAt e i)).slot i).effective = r.effective := hlevels.effective.trans rfl
  have hdwell : ((d.arrived e i (r.stoppedAt e i)).slot i).dwell = none :=
    (congrArg Slot.Motion.dwell hmotion).trans (if_pos h)
  obtain ⟨hup, hstay⟩ := act_stopped_frame (e := e) (d := d.arrived e i (r.stoppedAt e i))
    (congrArg Slot.Motion.state hmotion)
  rw [heffective, hdwell] at hup hstay
  have ht : t = (act e i (d.arrived e i (r.stoppedAt e i))).slot i := rfl
  by_cases hstop : r.effective = .stop
  · rw [if_pos hstop, ht, hstay (.inl hstop)]
    exact ⟨hdwell, congrArg Slot.Motion.state hmotion⟩
  · obtain ⟨hm, -⟩ := hup ⟨hstop, rfl⟩
    rw [← ht] at hm
    rw [if_neg hstop]
    exact ⟨(congrArg Slot.Motion.dwell hm).trans hdwell, congrArg Slot.Motion.state hm⟩

/-- A slot that reaches LOADED stays, unloads or begins to drain, by its effective level and its commands (R16, R17). -/
theorem enterLoaded_moves (r : Slot) (d : Plant) (hend : r.lane.inFlight = none) : let t := (enterLoaded e i r d).slot i
    t.lane.loadAttempts = r.lane.loadAttempts ∧
      (r.effective = .load → t.state = .loaded ∧ t.lane.inFlight = none ∧ t.draining = false) ∧
      (r.effective ≠ .load → r.draining = false →
        if r.outstanding = [] then t.state = .unloading ∧ t.unloadMark = .normal ∧
          t.lane.inFlight = some ⟨.unload false, r.lane.nextOrder, ⟨e.clock, e.tables.unloadMs i⟩⟩
        else t.state = .loaded ∧ t.draining = true ∧ t.drainTimer = some ⟨e.clock, e.tables.drainLimitMs⟩) := by
  intro t
  let r0 : Slot := { r with state := .loaded }
  obtain ⟨hmotion, hlane, hlevels⟩ := Plant.arrived_frame (e := e) i r0 d
  have heffective : ((d.arrived e i r0).slot i).effective = r.effective := hlevels.effective.trans rfl
  have hdraining : ((d.arrived e i r0).slot i).draining = r.draining := congrArg Slot.Motion.draining hmotion
  obtain ⟨hdrainLoad, hdrainLow, hload, hunload, hdrain⟩ := act_loaded_frame (e := e) (d := d.arrived e i r0)
    (congrArg Slot.Motion.state hmotion)
  rw [heffective, hdraining] at hdrainLoad hdrainLow hload hunload hdrain
  rw [hlevels.outstanding, hmotion] at hunload hdrain
  rw [hlane] at hunload
  rw [hmotion] at hdrainLoad
  have ht : t = (act e i (d.arrived e i r0)).slot i := rfl
  rw [← ht] at hdrainLoad hunload hdrain
  have hstay : act e i (d.arrived e i r0) = d.arrived e i r0 → t.motion = r0.motion := fun h => by rw [ht, h, hmotion]
  have hattempts : ∀ m : Slot.Motion, t.motion = m → m.loadAttempts = r.lane.loadAttempts →
      t.lane.loadAttempts = r.lane.loadAttempts := by
    rintro m rfl h
    exact h
  refine ⟨?_, fun h => ?_, fun h hdrains => ?_⟩
  · by_cases h : r.effective = .load <;> cases hdrains : r.draining
    · exact hattempts _ (hstay (hload hdrains h)) rfl
    · exact hattempts _ (hdrainLoad hdrains h) rfl
    · by_cases hout : r.outstanding = []
      · exact hattempts _ (hunload hdrains h hout) rfl
      · exact hattempts _ (hdrain hdrains h hout) rfl
    · exact hattempts _ (hstay (hdrainLow hdrains h)) rfl
  · cases hdrains : r.draining
    · have hm := hstay (hload hdrains h)
      exact ⟨congrArg Slot.Motion.state hm, (congrArg Slot.Motion.inFlight hm).trans hend,
        (congrArg Slot.Motion.draining hm).trans hdrains⟩
    · have hm := hdrainLoad hdrains h
      exact ⟨congrArg Slot.Motion.state hm, (congrArg Slot.Motion.inFlight hm).trans hend,
        congrArg Slot.Motion.draining hm⟩
  · split
    · next hout =>
      have hm := hunload hdrains h hout
      exact ⟨congrArg Slot.Motion.state hm, congrArg Slot.Motion.unloadMark hm, congrArg Slot.Motion.inFlight hm⟩
    · next hout =>
      have hm := hdrain hdrains h hout
      exact ⟨congrArg Slot.Motion.state hm, congrArg Slot.Motion.draining hm, congrArg Slot.Motion.drainTimer hm⟩

/-- A slot that enters FAULTED stays as the entry left it. -/
theorem react_enterFaulted_motion (i : SlotId) (reason : FaultReason) (code : Option Byte) (d : Plant) :
    ((react e (enterFaulted e i reason code d)).slot i).motion = (d.slot i).motion.faulted reason code :=
  react_motion_of (enterFaulted_frame i reason code d).1 (.inl rfl)

/-- Settles O31, state by state: the entries to SPUN, STOPPED and LOADED, and to FAULTED past the retries. -/
theorem orderSuccessByState : Obligations.OrderSuccessByState := by
  intro e i d
  refine ⟨fun h => ?_, fun h hretries => ?_, fun h hretries => ⟨fun hdwell => ?_, fun hdwell => ?_⟩, fun h => ?_,
    fun h hmark => ?_, fun h hmark hretries => ?_, fun h hmark hretries => ?_⟩
  · rw [orderSuccess_starting h]
    exact enterSpun_reaches i
      { (d.slot i).endOrder with lane := { (d.slot i).endOrder.lane with spinAttempts := 0 } } d rfl
  · rw [orderSuccess_stopping h, if_pos hretries]
    exact react_enterFaulted_motion i _ _ d
  · rw [orderSuccess_stopping h, if_neg (Nat.not_lt.mpr hretries), enterStopped_dwelling _ d hdwell, ← dwellTimer_of_ne rfl hdwell]
    rfl
  · rw [orderSuccess_stopping h, if_neg (Nat.not_lt.mpr hretries)]
    exact enterStopped_moves (d.slot i).endOrder d hdwell
  · rw [orderSuccess_loading h]
    exact enterLoaded_moves
      { (d.slot i).endOrder with lane := { (d.slot i).endOrder.lane with loadAttempts := 0 } } d rfl
  · rw [orderSuccess_unloading h, if_pos hmark]
    exact react_enterFaulted_motion i _ _ d
  · rw [orderSuccess_unloading h, if_neg hmark, if_pos hretries]
    exact react_enterFaulted_motion i _ _ d
  · rw [orderSuccess_unloading h, if_neg hmark, if_neg (Nat.not_lt.mpr hretries)]
    exact (enterSpun_reaches i (d.slot i).endOrder d rfl).1

/-! ### Reports and timeouts (R35, R36) -/

theorem laneReceived_slot (i : SlotId) (d : Plant) : (laneReceived e i d).slot i =
    Slot.examineCountdowns e i { d.slot i with lane := { (d.slot i).lane with rxPartial := none } } :=
  Plant.slot_put_same _ _ _ _

theorem laneReceived_frame (i : SlotId) (d : Plant) : let t := laneReceived e i d
    (t.slot i).motion = (d.slot i).motion ∧ (t.slot i).lane = { (d.slot i).lane with rxPartial := none } ∧
      (t.slot i).hold = (d.slot i).hold ∧ (t.slot i).outstanding = (d.slot i).outstanding ∧ t.link = d.link := by
  intro t
  have ht : t.slot i = _ := laneReceived_slot i d
  rw [ht]
  exact ⟨(Slot.examineCountdowns_motion i _).trans rfl, rfl, rfl, rfl, rfl⟩

theorem takeReport_of_match {o : OrderInFlight} {number : Byte} (ho : (d.slot i).lane.inFlight = some o)
    (hn : o.number.val = number.toNat) (result : ReportResult) (mech : MechState) : takeReport e i number result mech d =
      if result = .done ∧ mech = o.kind.target then orderSuccess e i d else orderFailure e i o.kind d := by
  unfold takeReport
  rw [ho]
  exact if_pos hn.symm

theorem takeReport_of_other {number : Byte} (h : ∀ o, (d.slot i).lane.inFlight = some o → o.number.val ≠ number.toNat)
    (result : ReportResult) (mech : MechState) : takeReport e i number result mech d = d := by
  unfold takeReport
  cases ho : (d.slot i).lane.inFlight with
  | none => rfl
  | some o => exact if_neg fun hn => h o ho hn.symm

/-- Settles O29: the report by the order in flight that it matches, the timeout by the order that is due. -/
theorem orderEnds : Obligations.OrderEnds := by
  refine ⟨fun i number result code mech s => ?_, fun i s o ho hdue => ?_⟩
  · have hinFlight : ((laneReceived s.env i s.plant).slot i).lane.inFlight = (s.plant.slot i).lane.inFlight := by
      rw [laneReceived_slot]
      rfl
    have hexec : exec (.report i number result code mech) s =
        .next (s.respond fun e d => takeReport e i number result mech (laneReceived e i d)) := rfl
    rw [hexec]
    refine ⟨fun o ho hn => ?_, fun h => ?_⟩
    · have hreport := takeReport_of_match (e := s.env) (hinFlight.trans ho) hn result mech
      obtain ⟨kind, number', timer⟩ := o
      cases kind <;> exact congrArg Host.Outcome.next (State.respond_congr hreport)
    · exact congrArg Host.Outcome.next (State.respond_congr
        (takeReport_of_other (fun o ho => h o (hinFlight.symm.trans ho)) result mech))
  · have hkind : (s.plant.slot i).lane.dueOrder s.clock = some o.kind := by
      unfold Lane.dueOrder
      rw [ho]
      exact if_pos (decide_eq_true hdue)
    show execOrderTimeout i s = _
    unfold execOrderTimeout
    rw [hkind]
    rfl

/-! ### A sled's FAULT report (R21, R37) -/

theorem takeSledFault_headsOut {code : Byte} (h : (d.slot i).headsOut = true)
    (hmark : ¬((d.slot i).state = .unloading ∧ (d.slot i).unloadMark = .fault)) : takeSledFault e i code d =
      answerAll e i .slotFault
        (d.put e i (Slot.toUnloading e i .emergencyUnload .fault { d.slot i with sledCode := some code })) := by
  unfold Slot.headsOut at h
  simp only [Bool.or_eq_true, decide_eq_true_eq] at h
  unfold takeSledFault
  simp only
  rcases h with (h | h) | h
  · simp only [h]
    exact if_neg fun hn => SlotState.noConfusion hn.1
  · simp only [h]
    exact if_neg fun hn => SlotState.noConfusion hn.1
  · simp only [h]
    exact if_neg fun hn => hmark ⟨h, hn.2⟩

theorem takeSledFault_ramp {code : Byte} (h : (d.slot i).state = .stopped ∨ (d.slot i).state = .queued ∨
    (d.slot i).state = .starting ∨ (d.slot i).state = .spun ∨ (d.slot i).state = .stopping) :
    takeSledFault e i code d = enterFaulted e i .sledFault (some code) d := by
  unfold takeSledFault
  simp only
  rcases h with h | h | h | h | h <;> simp only [h]

theorem takeSledFault_ignored {code : Byte} (h : (d.slot i).state = .empty ∨ (d.slot i).state = .faulted ∨
    ((d.slot i).state = .unloading ∧ (d.slot i).unloadMark = .fault)) : takeSledFault e i code d = d := by
  unfold takeSledFault
  simp only
  rcases h with h | h | ⟨h, hmark⟩ <;> simp only [h]
  exact if_pos ⟨trivial, hmark⟩

/-- What an emergency unload under mark FAULT leaves, every command answered (R21, R34). -/
theorem takeSledFault_headsOut_frame {code : Byte} (h : (d.slot i).headsOut = true)
    (hmark : ¬((d.slot i).state = .unloading ∧ (d.slot i).unloadMark = .fault)) : let t := takeSledFault e i code d
    (t.slot i).motion = { (d.slot i).motion.unloading .emergencyUnload (d.slot i).lane.nextOrder
        ⟨e.clock, e.tables.unloadMs i⟩ .fault with sledCode := some code, epoch := (d.slot i).epoch + 1 } ∧
      (t.slot i).lane = (d.slot i).lane.abortedFor .emergencyUnload ⟨e.clock, e.tables.unloadMs i⟩ ∧
      (t.slot i).hold = [] ∧
      t.link.queue = d.link.queue ++ answersTo e.tables i .slotFault
        ((d.slot i).outstanding.map OutEntry.tag ++ (d.slot i).hold.map HoldEntry.tag) := by
  intro t
  have ht : t = _ := takeSledFault_headsOut h hmark
  let r := Slot.toUnloading e i .emergencyUnload .fault { d.slot i with sledCode := some code }
  obtain ⟨hmotion, hlane, hhold, -, -⟩ := answerAll_frame (e := e) i .slotFault (d.put e i r)
  have hslot : (d.put e i r).slot i = r.examineCountdowns e i := Plant.slot_put_same _ _ _ _
  rw [ht]
  refine ⟨?_, ?_, hhold, ?_⟩
  · rw [hmotion, slot_put_motion, hslot, Slot.toUnloading_motion]
    rfl
  · rw [hlane, hslot, Slot.examineCountdowns_lane]
    show ({ (Slot.issue e i .emergencyUnload _).lane with cmdQueue := [] } : Lane) = _
    rw [Slot.issue_lane]
    rfl
  · rw [answerAll_queue, hslot]
    rfl

/-- The lane of a slot that no level moves and that holds no command keeps through the response. -/
theorem react_lane_of {l : Lane} {m : Slot.Motion} (h : (d.slot i).motion = m)
    (hm : m.state = .faulted ∨ m.state = .unloading ∨ m.state = .stopping) (hhold : (d.slot i).hold = [])
    (hl : (d.slot i).lane = l) : ((react e d).slot i).lane = l := by
  have hstate : (d.slot i).state = m.state := congrArg Slot.Motion.state h
  rw [((react_responds d).lane i ?_ hhold).1, hl]
  unfold Slot.inert
  rcases hm with hm | hm | hm <;> rw [hstate, hm]

/-- Settles O32, by the three cases of R21. -/
theorem sledFaultTaken : Obligations.SledFaultTaken := by
  intro i code s r answers
  obtain ⟨hmotion, hlane, hhold, hout, hlink⟩ := laneReceived_frame (e := s.env) i s.plant
  have hstate : ((laneReceived s.env i s.plant).slot i).state = r.state := congrArg Slot.Motion.state hmotion
  have hmark : ((laneReceived s.env i s.plant).slot i).unloadMark = r.unloadMark := congrArg Slot.Motion.unloadMark hmotion
  have hepoch : ((laneReceived s.env i s.plant).slot i).epoch = r.epoch := congrArg Slot.Motion.epoch hmotion
  have hexec : exec (.fault i code) s = .next (s.respond fun e d => takeSledFault e i code (laneReceived e i d)) := rfl
  obtain ⟨hslots, -, -, -, -⟩ := State.respond_plant (fun e d => takeSledFault e i code (laneReceived e i d)) s
  refine ⟨fun h hnot => ?_, fun h => ?_, fun h => ?_⟩
  · have hheads : ((laneReceived s.env i s.plant).slot i).headsOut = true := by
      unfold Slot.headsOut at h ⊢
      rwa [hstate]
    rw [← hstate, ← hmark] at hnot
    obtain ⟨fmotion, flane, fhold, fqueue⟩ := takeSledFault_headsOut_frame (code := code) hheads hnot
    rw [hmotion, hlane, hepoch] at fmotion
    rw [hlane] at flane
    rw [hlink, hout, hhold] at fqueue
    refine ⟨_, hexec, rfl, State.respond_queue_prefix (by rw [fqueue]; exact List.prefix_rfl), ?_, ?_⟩
    · rw [hslots]
      exact react_motion_of fmotion (.inr (.inl rfl))
    · rw [hslots]
      exact react_lane_of fmotion (.inr (.inl rfl)) fhold flane
  · have hfault : takeSledFault s.env i code (laneReceived s.env i s.plant) = _ :=
      takeSledFault_ramp (by rw [hstate]; exact h)
    obtain ⟨fmotion, flane, fhold, -, -⟩ := enterFaulted_frame (e := s.env) i .sledFault (some code)
      (laneReceived s.env i s.plant)
    have fqueue := enterFaulted_answers (e := s.env) i .sledFault (some code) (laneReceived s.env i s.plant)
    rw [← hfault] at fmotion flane fhold fqueue
    rw [hmotion] at fmotion
    rw [hlane] at flane
    rw [hlink, hout, hhold] at fqueue
    refine ⟨_, hexec, rfl, State.respond_queue_prefix fqueue, ?_, ?_⟩
    · rw [hslots]
      exact react_motion_of fmotion (.inl rfl)
    · rw [hslots]
      exact react_lane_of fmotion (.inl rfl) fhold flane
  · have hignored := takeSledFault_ignored (e := s.env) (code := code) (i := i) (d := laneReceived s.env i s.plant)
      (by rw [hstate, hmark]; exact h)
    exact hexec.trans (congrArg Host.Outcome.next (State.respond_congr hignored))

end Sys2Proof.Machine
end

section
/-! SUPPORT. The pins of a slot and its lane (R6, R26, R31, R37): the events after which no block responds, and overcurrent. -/

namespace Sys2Proof.Machine

variable {e : Env} {i : SlotId} {d : Plant} {s : State}

/-! ### An event that writes one slot alone -/

theorem Plant.free_put {r : Slot} (h : r.inside = (d.slot i).inside) : (d.put e i r).free = d.free := by
  have hreserved := Plant.reserved_put (e := e) (d := d) (i := i) (r' := r)
  unfold Plant.free
  rw [Plant.put_link]
  omega

/-- What an event leaves that writes one slot, its commands kept, and lets no block respond. -/
theorem State.onPlant_put {f : Env → Plant → Plant} {r : Slot} (hf : f s.env s.plant = s.plant.put s.env i r)
    (h : r.inside = (s.plant.slot i).inside) : let t := s.onPlant f
    (∀ j, j ≠ i → t.plant.slot j = s.plant.slot j) ∧ t.plant.slot i = Slot.examineCountdowns s.env i r ∧
      t = { s with plant := { s.plant with slots := t.plant.slots, link := s.plant.linkAfter } } := by
  intro t
  have ht : t = _ := State.onPlant_eq f s
  have hlink : (s.plant.put s.env i r).linkAfter = s.plant.linkAfter := by
    unfold Plant.linkAfter
    rw [Plant.free_put h, Plant.put_link]
  rw [hf, hlink] at ht
  rw [ht]
  exact ⟨fun j hj => Plant.slot_put_other _ hj _ _, Plant.slot_put_same _ _ _ _, rfl⟩

/-- The transmitter's choice at the end of a frame: the order, or else the oldest COMMAND frame (R31). -/
theorem Lane.frameSent_eq (l : Lane) : l.frameSent = match l.orderSlot, l.cmdQueue with
    | some o, _ => { l with tx := some o, orderSlot := none }
    | none, g :: rest => { l with tx := some g, cmdQueue := rest }
    | none, [] => { l with tx := none } := by
  unfold Lane.frameSent Lane.begin
  cases ho : l.orderSlot with
  | some o => rfl
  | none => cases hq : l.cmdQueue <;> rfl

/-- Settles O34: each of the two events writes the slot's lane alone. -/
theorem laneFramesTaken : Obligations.LaneFramesTaken := by
  intro i s r
  refine ⟨⟨_, rfl, ?_⟩, fun f hf => ?_, fun h => ?_⟩
  · exact State.onPlant_put (r := { r with lane := { r.lane with rxPartial := none } }) rfl rfl
  · have hexec : exec (.laneFrameSent i) s = .next (s.onPlant fun e d => laneSent e i d) :=
      if_pos (Option.isSome_iff_exists.mpr ⟨f, hf⟩)
    obtain ⟨hother, hsame, hrest⟩ := State.onPlant_put (s := s) (i := i) (f := fun e d => laneSent e i d)
      (r := { r with lane := r.lane.frameSent }) rfl rfl
    refine ⟨_, hexec, hother, hrest, hsame.trans ?_⟩
    exact congrArg (fun l => Slot.examineCountdowns s.env i { r with lane := l }) (Lane.frameSent_eq r.lane)
  · exact if_neg (by rw [h]; exact Bool.false_ne_true)

/-- Settles O35, by the level the input has and the slot's state. -/
theorem presenceEdgeTaken : Obligations.PresenceEdgeTaken := by
  intro i level s r
  obtain ⟨hother, hsame, hrest⟩ := State.onPlant_put (s := s) (i := i)
    (f := fun e d => d.put e i ((d.slot i).presenceEdge e.clock level)) (r := r.presenceEdge s.clock level) rfl
    (by unfold Slot.presenceEdge; split <;> rfl)
  refine ⟨_, rfl, hother, hrest, ?_⟩
  rw [hsame, Slot.examineCountdowns_motion]
  show (r.presenceEdge s.clock level).motion = r.motion ∧ (r.presenceEdge s.clock level).presenceIn = level ∧
    (r.presenceEdge s.clock level).presenceFilter = _
  unfold Slot.presenceEdge
  by_cases hlevel : level = r.presenceIn
  · rw [if_pos hlevel, if_pos hlevel]
    exact ⟨rfl, hlevel.symm, rfl⟩
  · rw [if_neg hlevel, if_neg hlevel]
    refine ⟨rfl, rfl, ?_⟩
    by_cases hempty : r.state = .empty <;> cases level <;> simp [hempty, Config.presenceMs]

/-! ### Overcurrent (R26) -/

theorem motorEnable_iff (r : Slot) :
    r.motorEnable = true ↔ r.state ∈ [SlotState.starting, .spun, .loading, .loaded, .unloading, .stopping] := by
  unfold Slot.motorEnable
  cases r.state <;> simp

/-- Settles O38, by the motor enable and the level. -/
theorem overcurrentTaken : Obligations.OvercurrentTaken := by
  intro i level s r enabled
  let d0 := s.plant.put s.env i { r with overcurrentIn := level }
  have hslot : d0.slot i = Slot.examineCountdowns s.env i { r with overcurrentIn := level } := Plant.slot_put_same _ _ _ _
  have hexec : exec (.overcurrent i level) s = .next (s.respond fun e d =>
      takeOvercurrent e i (d.put e i { d.slot i with overcurrentIn := level })) := rfl
  have hmotor : (d0.slot i).motorEnable = r.motorEnable := by rw [hslot]; rfl
  have hin : (d0.slot i).overcurrentIn = level := by rw [hslot]; rfl
  refine ⟨fun hlevel henabled => ?_, fun h => ?_⟩
  · have htaken : takeOvercurrent s.env i d0 = enterFaulted s.env i .overcurrent none d0 :=
      if_pos (by rw [hin, hmotor, hlevel, (motorEnable_iff r).mpr henabled]; rfl)
    obtain ⟨fmotion, flane, fhold, -, fpin⟩ := enterFaulted_frame (e := s.env) i .overcurrent none d0
    have fqueue := enterFaulted_answers (e := s.env) i .overcurrent none d0
    rw [← htaken] at fmotion flane fhold fpin fqueue
    rw [hslot, Slot.examineCountdowns_motion] at fmotion
    rw [hslot] at flane fqueue
    rw [hin, hlevel] at fpin
    obtain ⟨hslots, -, -, -, -⟩ := State.respond_plant (fun e d =>
      takeOvercurrent e i (d.put e i { d.slot i with overcurrentIn := level })) s
    refine ⟨_, hexec, rfl, ?_, ?_, ?_, State.respond_queue_prefix fqueue⟩
    · rw [hslots]
      exact react_motion_of fmotion (.inl rfl)
    · rw [hslots, ((react_responds (e := s.env) _).counts i).2.2.2]
      exact fpin
    · rw [hslots]
      exact react_lane_of fmotion (.inl rfl) fhold flane
  · have hkept : takeOvercurrent s.env i d0 = d0 := by
      refine if_neg fun hn => ?_
      rw [hin, hmotor, Bool.and_eq_true] at hn
      rcases h with h | h
      · exact Bool.noConfusion (h.symm.trans hn.1)
      · exact h ((motorEnable_iff r).mp hn.2)
    exact hexec.trans (congrArg Host.Outcome.next (State.respond_congr hkept))

end Sys2Proof.Machine
end

section
/-! SUPPORT. The motion monitor (R115 to R127): the switches, the conditions at their criteria, a sample and its derived values, and
the expiries. -/

namespace Sys2Proof.Machine

variable {s : State}

/-! ### The class derived, and the records of a monitor event -/

/-- The class derived is the monitor's, whichever block takes the change first (R127). -/
theorem State.deriveClass_monitor (s : State) :
    s.deriveClass.monitor = { s.monitor with cls := s.monitor.derivedClass s.tables } := by
  unfold State.deriveClass
  by_cases h : s.monitor.derivedClass s.tables = s.monitor.cls
  · rw [if_pos h, h]
  · rw [if_neg h]
    rfl

/-- What an event leaves of the monitor that changes it and derives the class. -/
theorem State.onMonitor_deriveClass (f : Monitor → Monitor) (s : State) : (s.onMonitor f).deriveClass.monitor =
    { f s.monitor with cls := (f s.monitor).derivedClass s.tables } := State.deriveClass_monitor _

theorem State.record_events {ev : Event} (h : s.plant.link.events.length < 32) :
    (s.record ev).plant.link.events = s.plant.link.events ++ [⟨s.clock, ev⟩] := by
  unfold State.record
  rw [State.onPlant_plant, Plant.events_settleLink]
  exact Plant.record_events_of_room _ _ h

/-! ### Switches (R120, R121) -/

/-- Settles O40: a changed level restarts the filter, and its expiry has POISED examined. -/
theorem switchesTaken : Obligations.SwitchesTaken := by
  refine ⟨fun w level s => rfl, fun w s h => ⟨_, if_pos h, ?_⟩⟩
  rw [State.onMonitor_deriveClass]
  rfl

/-! ### Conditions (R121 to R125) -/

/-- Settles O41, by the state and the timer of the condition. -/
theorem conditionsExamined : Obligations.ConditionsExamined := by
  intro now a b c m
  refine ⟨⟨fun _ => rfl, fun ha ht => ?_, fun _ => rfl, fun ha ht => ?_, fun ha => ?_⟩,
    ⟨fun ha ht => ?_, fun ha ht => ?_, fun ha => ?_, fun ha ht => ?_, fun ha ht => ?_, fun ha => ?_⟩, rfl, rfl⟩
  · unfold Condition.examineAtOnce
    simp only [ha, ht, Bool.false_eq_true, if_true, if_false]
  · unfold Condition.examineAtOnce
    simp only [ha, ht, Bool.false_eq_true, if_true, if_false]
  · unfold Condition.examineAtOnce
    simp only [ha, Bool.false_eq_true, if_false]
  · unfold Condition.examineHeld
    simp only [ha, ht, Bool.false_eq_true, if_true, if_false]
  · unfold Condition.examineHeld
    simp only [ha, ht, Bool.false_eq_true, if_true, if_false]
  · unfold Condition.examineHeld
    simp only [ha, Bool.false_eq_true, if_false]
  · unfold Condition.examineHeld
    simp only [ha, ht, Bool.false_eq_true, if_true, if_false]
  · unfold Condition.examineHeld
    simp only [ha, ht, Bool.false_eq_true, if_true, if_false]
  · unfold Condition.examineHeld
    simp only [ha, if_true]

/-! ### Derived values of a sample (R117) -/

/-- The root found bit by bit is the root rounded down of what the remaining bits can reach. -/
theorem isqrtFrom_bounds (n b : Nat) : ∀ acc, acc * acc ≤ n → n < (acc + 2 ^ b) * (acc + 2 ^ b) →
    isqrtFrom n b acc * isqrtFrom n b acc ≤ n ∧ n < (isqrtFrom n b acc + 1) * (isqrtFrom n b acc + 1) := by
  induction b with
  | zero => exact fun acc hlow hhigh => ⟨hlow, hhigh⟩
  | succ b ih =>
    intro acc hlow hhigh
    have hpow : acc + 2 ^ (b + 1) = acc + 2 ^ b + 2 ^ b := by ring
    rw [hpow] at hhigh
    unfold isqrtFrom
    split
    · next hbit => exact ih _ hbit hhigh
    · next hbit => exact ih _ hlow (Nat.lt_of_not_le hbit)

theorem axisInRange_iff (a : Word16) : axisInRange a = true ↔ -16000 ≤ a.toInt ∧ a.toInt ≤ 16000 := by
  unfold axisInRange
  rw [Bool.and_eq_true, decide_eq_true_eq, decide_eq_true_eq]

/-- The square of an axis value in range. -/
theorem mul_self_le_of_axis {a : Int} (h : -16000 ≤ a ∧ a ≤ 16000) : 0 ≤ a * a ∧ a * a ≤ 256000000 :=
  ⟨mul_self_nonneg a, by nlinarith⟩

/-- Settles O43: the sum of three squares in range is below the square of 2 to the fifteenth. -/
theorem sampleDerivedValues : Obligations.SampleDerivedValues := by
  intro x y z h
  have hwell : axisInRange x = true ∧ axisInRange y = true ∧ axisInRange z = true := by
    rwa [Instr.wellFormed, Bool.and_eq_true, Bool.and_eq_true, and_assoc] at h
  obtain ⟨hx, hy, hz⟩ := hwell
  have hx2 := mul_self_le_of_axis ((axisInRange_iff x).mp hx)
  have hy2 := mul_self_le_of_axis ((axisInRange_iff y).mp hy)
  have hz2 := mul_self_le_of_axis ((axisInRange_iff z).mp hz)
  intro q sum
  have hsum : 0 ≤ sum ∧ sum ≤ 768000000 := ⟨by omega, by omega⟩
  have hq : q.magnitude = isqrtFrom sum.toNat 15 0 := rfl
  obtain ⟨hlow, hhigh⟩ := isqrtFrom_bounds sum.toNat 15 0 (Nat.zero_le _) (by omega)
  rw [← hq] at hlow hhigh
  refine ⟨?_, ?_, ?_, ?_, rfl, rfl, rfl⟩
  · omega
  · omega
  · by_contra hbig
    have hroot : 27713 * 27713 ≤ q.magnitude * q.magnitude := Nat.mul_self_le_mul_self (by omega)
    omega
  · exact Int.natCast_natAbs _

/-! ### A sample (R116 to R119) -/

/-- The monitor once a sample has joined the window (R117, R118, R119). -/
theorem Monitor.joined_eq (t : Tables) (now : Clock) (q : Sample) (m : Monitor) :
    let old := if m.sensor = .lost then [] else m.window
    (m.sampleArrives t now).joinWindow q =
      { m with
        sensorTimer := some ⟨now, t.sensorMs⟩, rxPartial := none
        sensor := if m.sensor = .lost then .filling else m.sensor
        restoring := decide (m.sensor = .lost) || m.restoring
        window := (old ++ [q]).drop (old.length + 1 - 32) } := by
  intro old
  unfold Monitor.joinWindow Monitor.sampleArrives
  by_cases h : m.sensor = .lost
  · simp only [old, h, if_true, decide_true, Bool.true_or]
    rfl
  · simp only [old, if_neg h, decide_eq_false h, Bool.false_or]
    rfl

theorem Monitor.fills_iff (m : Monitor) : m.fills = true ↔ m.sensor = .filling ∧ 32 ≤ m.window.length := by
  unfold Monitor.fills
  rw [Bool.and_eq_true, decide_eq_true_eq, decide_eq_true_eq]
  rfl

/-- The window that has filled changes the sensor state and ends the restoration, and nothing else (R119). -/
theorem Monitor.windowFilled_eq (m : Monitor) : m.windowFilled =
    { m with sensor := if m.fills = true then .ok else m.sensor, restoring := m.restoring && !m.fills } := by
  unfold Monitor.windowFilled
  cases m.fills
  · simp only [Bool.false_eq_true, if_false, Bool.not_false, Bool.and_true]
  · simp only [if_true, Bool.not_true, Bool.and_false]

/-- Settles O42, through the monitor once the sample has joined the window. -/
theorem sampleTaken : Obligations.SampleTaken := by
  refine ⟨fun x y z s hwell => ?_, fun s => rfl⟩
  let q : Sample := sampleOf x y z
  let s1 := s.onMonitor fun m => (m.sampleArrives s.tables s.clock).joinWindow q
  let s2 := if s1.monitor.fills && s1.monitor.restoring then s1.record .sensorRestored else s1
  have hexec : exec (.sample x y z) s =
      .next (s2.onMonitor fun m => m.windowFilled.examineConditions s.tables s.clock q).deriveClass := if_pos hwell
  have hs2 : s2.monitor = s1.monitor ∧ s2.tables = s.tables := by
    unfold s2
    split <;> exact ⟨rfl, rfl⟩
  obtain ⟨hmonitor2, htables2⟩ := hs2
  have hjoined : s1.monitor = _ := Monitor.joined_eq s.tables s.clock q s.monitor
  have hmonitor := State.onMonitor_deriveClass (fun m => m.windowFilled.examineConditions s.tables s.clock q) s2
  rw [hmonitor2, htables2, Monitor.windowFilled_eq] at hmonitor
  have hfills := Monitor.fills_iff s1.monitor
  refine ⟨_, hexec, ?_⟩
  intro q' old before restoring window fills
  have hwindow : s1.monitor.window = window := congrArg Monitor.window hjoined
  have hbefore : s1.monitor.sensor = before := congrArg Monitor.sensor hjoined
  have hrestoring : s1.monitor.restoring = (decide (s.monitor.sensor = .lost) || s.monitor.restoring) :=
    congrArg Monitor.restoring hjoined
  have hrestoringIff : s1.monitor.restoring = true ↔ restoring := by
    rw [hrestoring, Bool.or_eq_true, decide_eq_true_eq]
  obtain ⟨hpoised, htilted, hjolt, hfall⟩ : s1.monitor.poised = s.monitor.poised ∧ s1.monitor.tilted = s.monitor.tilted ∧
      s1.monitor.jolt = s.monitor.jolt ∧ s1.monitor.fall = s.monitor.fall := by
    rw [hjoined]
    exact ⟨rfl, rfl, rfl, rfl⟩
  rw [hwindow, hbefore] at hfills
  have hfillsIff : s1.monitor.fills = true ↔ fills := hfills
  rw [hmonitor]
  refine ⟨hwindow, congrArg Monitor.sensorTimer hjoined, ?_, ?_, ?_, ?_, ?_, ?_, hpoised, rfl, ?_⟩
  · show (if s1.monitor.fills = true then SensorState.ok else s1.monitor.sensor) = _
    rw [hbefore]
    exact if_congr hfillsIff rfl rfl
  · show (s1.monitor.restoring && !s1.monitor.fills) = true ↔ _
    rw [Bool.and_eq_true, hrestoringIff, Bool.not_eq_true', ← hfillsIff, Bool.not_eq_true]
  · show s1.monitor.rolling.examineAtOnce s.clock _ (rollingHolds s.tables s1.monitor.window) = _
    rw [hwindow, hjoined]
    rfl
  · exact congrArg (Condition.examineHeld _ _ _ _) htilted
  · exact congrArg (Condition.examineJolt _ _ _) hjolt
  · exact congrArg (Condition.examineHeld _ _ _ _) hfall
  · intro hf hr hroom
    have hs2 : s2 = s1.record .sensorRestored :=
      if_pos (by rw [hfillsIff.mpr hf, hrestoringIff.mpr hr]; rfl)
    have hextends := (State.deriveClass_extends
      (s2.onMonitor fun m => m.windowFilled.examineConditions s.tables s.clock q)).plant.events
    rw [State.onMonitor_plant, hs2, State.record_events (s := s1) hroom] at hextends
    rw [hs2]
    exact hextends

/-! ### Expiries (R118, R121 to R125) -/

/-- Settles O44: each expiry changes its own condition, and the class is then derived. -/
theorem monitorExpiriesTaken : Obligations.MonitorExpiriesTaken := by
  intro s m becomes
  have hexec : m.sensor ≠ .lost → dueOpt m.sensorTimer s.clock = true → exec .sensorTimeout s =
      .next ((s.record (.sensorLost s.monitor.sensor)).onMonitor Monitor.lose).deriveClass :=
    fun hlost hdue => if_pos ⟨hlost, hdue⟩
  refine ⟨fun hlost hdue => ⟨?_, ?_⟩, fun hdue => ⟨_, if_pos hdue, State.onMonitor_deriveClass _ s⟩,
    fun hdue => ⟨_, if_pos hdue, State.onMonitor_deriveClass _ s⟩,
    fun hdue => ⟨_, if_pos hdue, State.onMonitor_deriveClass _ s⟩,
    fun hdue => ⟨_, if_pos hdue, State.onMonitor_deriveClass _ s⟩,
    fun hdue => ⟨_, if_pos hdue, State.onMonitor_deriveClass _ s⟩,
    fun hdue => ⟨_, if_pos hdue, State.onMonitor_deriveClass _ s⟩,
    fun hdue => ⟨_, if_pos hdue, State.onMonitor_deriveClass _ s⟩⟩
  · refine ⟨_, hexec hlost hdue, ?_⟩
    rw [State.onMonitor_deriveClass, State.record_monitor, State.record_tables]
    rfl
  · refine ⟨_, hexec hlost hdue, fun hroom => ?_⟩
    have hextends := (State.deriveClass_extends ((s.record (.sensorLost s.monitor.sensor)).onMonitor Monitor.lose)).plant.events
    rw [State.onMonitor_plant, State.record_events hroom] at hextends
    exact hextends

end Sys2Proof.Machine
end

section
/-! SUPPORT. The events that cannot occur (logs 2, 6, 16, 17): frames during a break or past the free count, expiries that are not
due, the end of a frame that is not sent. -/

namespace Sys2Proof.Machine

variable {s : State}

/-- What a downstream frame is before it is taken: nothing during a break, and discarded when the framer could not have
accepted it. -/
def State.FrameGuarded (s t : State) : Prop :=
  (s.plant.link.broken = true → t = s) ∧
    (s.plant.link.broken = false → s.plant.free < 15 → t = s.onLink Link.discardFrame)

theorem takeRequest_guarded (code : Byte) (lengthOk : Nat → Bool) (r : Request) (owner : State → Answered) (s : State) :
    s.FrameGuarded (takeRequest code lengthOk r owner s) := by
  unfold takeRequest
  refine ⟨fun h => if_pos h, fun h hfree => ?_⟩
  have hmay : s.mayAccept = false := decide_eq_false (Nat.not_le.mpr hfree)
  rw [h, hmay, Bool.and_false]
  rfl

theorem execCommand_guarded (f : CommandFrame) (s : State) : ∃ t, execCommand f s = .next t ∧ s.FrameGuarded t := by
  unfold execCommand
  by_cases hbroken : s.plant.link.broken = true
  · rw [if_pos hbroken]
    exact ⟨s, rfl, fun _ => rfl, fun h => absurd (hbroken.symm.trans h) Bool.noConfusion⟩
  · rw [if_neg hbroken]
    refine exists_next_of_ite (fun hmay => ⟨fun h => absurd h hbroken, fun _ hfree => ?_⟩)
      ⟨fun h => absurd h hbroken, fun _ _ => rfl⟩
    rw [Bool.and_eq_true] at hmay
    exact absurd (of_decide_eq_true hmay.2) (Nat.not_le.mpr hfree)

theorem exec_frameGuarded {c : Instr} (hc : isFrame c = true) (s : State) : ∃ t, exec c s = .next t ∧ s.FrameGuarded t := by
  cases c with
  | command f => exact execCommand_guarded f s
  | unknownRequest code r => exact ⟨_, rfl, takeRequest_guarded _ _ _ _ _⟩
  | unitQuery r | unitStatus r | slotStatus r | eventRead r | motion r | slotRecover r | startHold r | startRelease r
    | startClear r | panicPark r | emergencyClear r | stageWrite r | stageRead r | commit r | tableRead r | exposureClear r =>
    exact ⟨_, rfl, takeRequest_guarded _ _ _ _ _⟩
  | _ => exact absurd hc Bool.false_ne_true

theorem if_not_due {α : Sort*} {p : Bool} (h : p = false) (a b : α) : (if p = true then a else b) = b :=
  if_neg (Bool.eq_false_iff.mp h)

/-- Settles O49: a frame by its guards, an expiry by its timer, the end of a frame by the transmitter. -/
theorem eventsThatCannotOccur : Obligations.EventsThatCannotOccur := by
  intro s
  refine ⟨fun c hc hbroken => ?_, fun c hc hbroken hfree => ?_, fun cause hbroken => if_pos hbroken,
    fun h => if_not_due h _ _, fun h => if_not_due h _ _, fun h => if_neg fun hn => ?_, fun h => ?_,
    fun h => if_not_due h _ _, fun h => if_not_due h _ _, fun h => if_not_due h _ _, fun h => if_not_due h _ _,
    fun h => if_not_due h _ _, fun h => if_not_due h _ _, fun h => if_not_due h _ _, fun l h => if_not_due h _ _,
    fun w h => if_not_due h _ _, fun i => ?_⟩
  · obtain ⟨t, ht, hguard, -⟩ := exec_frameGuarded hc s
    rw [ht, hguard hbroken]
  · obtain ⟨t, ht, -, hguard⟩ := exec_frameGuarded hc s
    rw [ht, hguard hbroken hfree]
    rfl
  · exact Bool.eq_false_iff.mp h hn.2
  · exact if_not_due (by rw [h]; rfl) _ _
  · intro r
    refine ⟨fun h => if_not_due (by rw [h]; rfl) _ _, fun h => ⟨if_neg fun hn => ?_, if_neg fun hn => ?_⟩, fun h => ?_,
      fun h => if_not_due h _ _, fun h => if_not_due ?_ _ _, fun tag h => if_not_due ?_ _ _, fun h => if_not_due h _ _,
      fun h => if_not_due h _ _⟩
    · exact Bool.eq_false_iff.mp h hn.2
    · exact Bool.eq_false_iff.mp h hn.2
    · have hnone : r.lane.dueOrder s.clock = none := by
        unfold Lane.dueOrder
        cases ho : r.lane.inFlight with
        | none => rfl
        | some o => exact if_not_due (h o ho) _ _
      show execOrderTimeout i s = _
      unfold execOrderTimeout
      rw [hnone]
    · show (_ && dueOpt r.drainTimer s.clock) = false
      rw [h, Bool.and_false]
    · refine List.any_eq_false.mpr fun x hx hn => ?_
      rw [Bool.and_eq_true, beq_iff_eq] at hn
      exact Bool.eq_false_iff.mp (h x hx hn.1) hn.2

end Sys2Proof.Machine
end

section
/-! SUPPORT. A COMMIT refused (R168 to R170): the echo, the first bad field, the duplicate and the conflict of a mapping. -/

namespace Sys2Proof.Machine

variable {g : Staged} {s : State}

/-! ### Numbers as bytes -/

theorem eq_byteOf_iff {b : Byte} {n : Nat} (h : n < 256) : b = byteOf n ↔ b.toNat = n := by
  unfold byteOf
  rw [← BitVec.toNat_inj, BitVec.toNat_ofNat, Nat.mod_eq_of_lt h]

theorem pair_eq_be16_iff {a b : Byte} {n : Nat} (h : n < 65536) : [a, b] = be16 n ↔ a.toNat * 256 + b.toNat = n := by
  have ha := a.isLt
  have hb := b.isLt
  unfold be16 byteOf
  simp only [List.cons.injEq, and_true, ← BitVec.toNat_inj, BitVec.toNat_ofNat]
  omega

/-! ### The echo (R168) -/

/-- The echo matches when its five bytes are the table, the staged range and the staging check. -/
theorem echoMatches_iff {r : Request} (hlength : r.args.length = 5) (hstart : g.start ≤ 255)
    (hend : g.start + g.data.length ≤ 256) : echoMatches r g = true ↔
      r.args.take 3 = [g.table.code, byteOf g.start, byteOf (g.start + g.data.length - 1)] ∧
        r.args.drop 3 = be16 (check16 g.data).toNat := by
  obtain ⟨tag, args⟩ := r
  match args, hlength with
  | [a, b, c, d, e], _ =>
  show echoMatches _ g = true ↔ [a, b, c] = _ ∧ [d, e] = _
  have hcheck : (check16 g.data).toNat < 65536 := (check16 g.data).isLt
  rw [pair_eq_be16_iff hcheck]
  simp only [List.cons.injEq, and_true, eq_byteOf_iff (show g.start < 256 by omega),
    eq_byteOf_iff (show g.start + g.data.length - 1 < 256 by omega), ← BitVec.toNat_inj (x := a)]
  show (_ && _ && _ && _) = true ↔ _
  simp only [Bool.and_eq_true, beq_iff_eq, and_assoc]
  rfl

/-! ### The mapping (R170) -/

theorem mapDuplicate_iff (image : List Byte) : mapDuplicate image = true ↔
    ∃ i : SlotId, 2 ≤ (image.filter (fun b => mapEntrySlot b.toNat == some i)).length := by
  unfold mapDuplicate
  simp only [List.any_eq_true, decide_eq_true_eq, mem_allSlots, true_and]

/-- A mapping that a commit changes is in use when the slot it names before has a command inside. -/
theorem mapConflict_iff (old new : List Byte) (d : Plant) : mapConflict old new d = true ↔
    ∃ u i, u < 16 ∧ mapEntrySlot (u8At old u) = some i ∧ mapEntrySlot (u8At new u) ≠ some i ∧ (d.slot i).inside ≠ 0 := by
  unfold mapConflict changedUnits
  simp only [List.any_eq_true, List.mem_filter, List.mem_range, Bool.and_eq_true, bne_iff_ne]
  constructor
  · rintro ⟨u, ⟨hu, hsome, hchanged⟩, hinside⟩
    obtain ⟨i, hi⟩ := Option.isSome_iff_exists.mp hsome
    rw [hi] at hchanged hinside
    exact ⟨u, i, hu, hi, hchanged, bne_iff_ne.mp hinside⟩
  · rintro ⟨u, i, hu, hi, hchanged, hinside⟩
    refine ⟨u, ⟨hu, by rw [hi]; rfl, by rwa [hi]⟩, ?_⟩
    rw [hi]
    exact bne_iff_ne.mpr hinside

/-! ### The checks in their order (R168 to R170) -/

theorem commitRefusal_of_badField {o : Nat} (h : firstBadField g.table (commitImage s.tables g) g.start g.stop = some o) :
    commitRefusal g s = some (.outOfRange, [byteOf o]) := by
  unfold commitRefusal
  simp only [h]

theorem commitRefusal_of_duplicate (h : firstBadField g.table (commitImage s.tables g) g.start g.stop = none)
    (hmap : g.table = .logicalMap) (htwice : mapDuplicate (commitImage s.tables g) = true) :
    commitRefusal g s = some (.mapDuplicate, []) := by
  unfold commitRefusal
  simp only [h]
  rw [if_pos hmap, if_pos htwice]

theorem commitRefusal_of_conflict (h : firstBadField g.table (commitImage s.tables g) g.start g.stop = none)
    (hmap : g.table = .logicalMap) (honce : ¬mapDuplicate (commitImage s.tables g) = true)
    (hbusy : mapConflict s.tables.logicalMap (commitImage s.tables g) s.plant = true) :
    commitRefusal g s = some (.commitConflict, []) := by
  unfold commitRefusal
  simp only [h]
  rw [if_pos hmap, if_neg honce, if_pos hbusy]

theorem commitAnswer_of_mismatch {r : Request} (hg : s.staging = some g) (hecho : ¬echoMatches r g = true) :
    commitAnswer r s = ⟨s, .commitMismatch, []⟩ := by
  unfold commitAnswer
  simp only [hg]
  exact if_neg hecho

theorem commitAnswer_of_refusal {r : Request} {st : UnitStatus} {data : List Byte} (hg : s.staging = some g)
    (hecho : echoMatches r g = true) (h : commitRefusal g s = some (st, data)) : commitAnswer r s = ⟨s, st, data⟩ := by
  unfold commitAnswer
  simp only [hg, h]
  exact if_pos hecho

/-- Settles O27, check by check in their order. -/
theorem commitRefused : Obligations.CommitRefused := by
  intro r s hs hlength refusedWith
  have hrefused : ∀ st data, commitAnswer r s.framed = ⟨s.framed, st, data⟩ → refusedWith st data := fun st data h =>
    congrArg _ (takeRequest_of_unchanged hs (by omega) 0x2A (by rw [hlength]; rfl) h)
  refine ⟨fun hnone => hrefused _ _ ?_, fun g hg => ?_⟩
  · unfold commitAnswer
    rw [show s.framed.staging = none from hnone]
  · intro echo image bad twice busy hstart hend
    have hg' : s.framed.staging = some g := hg
    have hecho : echoMatches r g = true ↔ echo := echoMatches_iff hlength hstart hend
    have htwice : mapDuplicate image = true ↔ ∃ i, 2 ≤ (image.filter (fun b => mapEntrySlot b.toNat == some i)).length :=
      mapDuplicate_iff image
    have hbusy := mapConflict_iff s.tables.logicalMap image s.plant
    refine ⟨fun h => hrefused _ _ (commitAnswer_of_mismatch hg' (mt hecho.mp h)),
      fun h o ho => hrefused _ _ (commitAnswer_of_refusal hg' (hecho.mpr h) (commitRefusal_of_badField ho)),
      fun h hfields ht => hrefused _ _ (commitAnswer_of_refusal hg' (hecho.mpr h)
        (commitRefusal_of_duplicate hfields ht.1 (htwice.mpr ht.2))),
      fun h hfields ht hb => hrefused _ _ (commitAnswer_of_refusal hg' (hecho.mpr h)
        (commitRefusal_of_conflict hfields hb.1 (fun hn => ht ⟨hb.1, htwice.mp hn⟩) (hbusy.mpr hb.2)))⟩

end Sys2Proof.Machine
end

section
/-! SUPPORT. The receivers (R26, R116, R175): a frame laid out with its check is received as what it stands for. -/

namespace Sys2Proof.Machine

theorem toNat_byteOf {n : Nat} (h : n < 256) : (byteOf n).toNat = n := (eq_byteOf_iff h).mp rfl

/-- A frame laid out as Table 11-1 says is read back, its check good. -/
theorem rawFrame_wireFrame {kind unit tag flags : Byte} {payload : List Byte} (h : payload.length ≤ 64) :
    rawFrame (wireFrame kind unit tag flags payload) = some ⟨kind, unit, tag, payload, true⟩ := by
  have hlen : (byteOf payload.length).toNat = payload.length := toNat_byteOf (by omega)
  let check := be16 (check16 ([kind, unit, tag, flags, byteOf payload.length] ++ payload)).toNat
  have hwire : wireFrame kind unit tag flags payload =
      kind :: unit :: tag :: flags :: byteOf payload.length :: (payload ++ check) := rfl
  rw [hwire]
  unfold rawFrame
  simp only [hlen, List.take_left', List.drop_left']
  rw [if_pos ⟨h, List.length_append⟩, decide_eq_true (by rfl)]

/-- What the case link receives of a frame begun with the ready line high. -/
theorem receiveLink_wireFrame {kind unit tag flags : Byte} {payload : List Byte} (h : payload.length ≤ 64) :
    receiveLink true (wireFrame kind unit tag flags payload) = acceptRaw ⟨kind, unit, tag, payload, true⟩ := by
  unfold receiveLink
  simp only [rawFrame_wireFrame h, if_true]

theorem receiveLane_wireFrame {i : SlotId} {kind unit tag flags : Byte} {payload : List Byte} (h : payload.length ≤ 64) :
    receiveLane i (wireFrame kind unit tag flags payload) = acceptLane i ⟨kind, unit, tag, payload, true⟩ := by
  unfold receiveLane
  simp only [rawFrame_wireFrame h, if_true]

/-- The two bytes of a number, read back as the word it was. -/
theorem ofNat_bytes_be16 (x : Word16) :
    BitVec.ofNat 16 ((byteOf (x.toNat / 256)).toNat * 256 + (byteOf x.toNat).toNat) = x := by
  have hx := x.isLt
  unfold byteOf
  rw [← BitVec.toNat_inj, BitVec.toNat_ofNat, BitVec.toNat_ofNat, BitVec.toNat_ofNat]
  omega

/-- Settles O60, kind by kind. -/
theorem framesReceivedAsSent : Obligations.FramesReceivedAsSent := by
  refine ⟨fun f flags h => ?_, fun code r flags h => ?_, fun i unit tag flags number code result mech => ?_,
    fun i unit tag flags code => ?_, fun i unit tag flags epoch status payload h => ?_, fun x y z h => ?_⟩
  · simp only [CommandFrame.wellFormed, Bool.and_eq_true, decide_eq_true_eq] at h
    obtain ⟨⟨hunit, hlow⟩, hhigh⟩ := h
    rw [receiveLink_wireFrame (by omega)]
    unfold acceptRaw
    rw [if_pos rfl, if_neg (Nat.not_lt.mpr hunit), if_neg (by simp only; omega)]
  · have hlength : r.args.length ≤ 63 := of_decide_eq_true h
    rw [receiveLink_wireFrame (by rw [List.length_cons]; omega)]
    rfl
  · rw [receiveLane_wireFrame (by simp)]
    cases result <;> cases mech <;> rfl
  · rw [receiveLane_wireFrame (by simp)]
    rfl
  · rw [receiveLane_wireFrame (by simp only [List.length_cons]; omega)]
    exact if_pos h
  · intro axes
    have hwell : axisInRange x = true ∧ axisInRange y = true ∧ axisInRange z = true := by
      rwa [Instr.wellFormed, Bool.and_eq_true, Bool.and_eq_true, and_assoc] at h
    unfold receiveSample
    have hx : BitVec.ofNat 16 (u16At (axes ++ be16 (check16 axes).toNat) 0) = x := ofNat_bytes_be16 x
    have hy : BitVec.ofNat 16 (u16At (axes ++ be16 (check16 axes).toNat) 2) = y := ofNat_bytes_be16 y
    have hz : BitVec.ofNat 16 (u16At (axes ++ be16 (check16 axes).toNat) 4) = z := ofNat_bytes_be16 z
    simp only [hx, hy, hz]
    exact if_pos ⟨rfl, rfl, hwell⟩

end Sys2Proof.Machine
end

section
/-! SUPPORT. The timers of the slots, the arbiter and the emergency record (R9, R18, R59, R79 to R82, R93, R157). -/

namespace Sys2Proof.Machine

variable {e : Env} {i : SlotId} {d : Plant} {s : State}

/-! ### The COMMAND frames that wait on a lane carry its epoch (R33, R34) -/

/-- Every frame that waits behind the order slot is a COMMAND frame of the lane epoch. -/
def Slot.SendsOwn (r : Slot) : Prop := ∀ f ∈ r.lane.cmdQueue, ∃ tag payload, f = LaneFrame.command r.epoch tag payload

theorem Slot.SendsOwn.congr {r r' : Slot} (h : r.SendsOwn) (hq : r'.lane.cmdQueue = r.lane.cmdQueue)
    (he : r'.epoch = r.epoch) : r'.SendsOwn := by
  unfold Slot.SendsOwn
  rw [hq, he]
  exact h

theorem Slot.SendsOwn.of_empty {r : Slot} (h : r.lane.cmdQueue = []) : r.SendsOwn := by
  unfold Slot.SendsOwn
  rw [h]
  nofun

theorem Slot.SendsOwn.issue {r : Slot} (kind : OrderKind) (h : r.SendsOwn) : (Slot.issue e i kind r).SendsOwn :=
  h.congr (by rw [Slot.issue_lane]) (Slot.issue_epoch e i kind r)

theorem Slot.SendsOwn.forward {r : Slot} (tag : Byte) (payload : List Byte) (h : r.SendsOwn) :
    (Slot.forward e tag payload r).SendsOwn := by
  have hbegin : ∀ l : Lane, l.begin.cmdQueue <:+ l.cmdQueue := fun l => by
    unfold Lane.begin
    split
    · exact List.suffix_rfl
    split
    · exact List.suffix_rfl
    split
    · next hq => rw [hq]; exact List.suffix_cons _ _
    · exact List.suffix_rfl
  intro f hf
  rcases List.mem_append.mp ((hbegin _).subset hf) with hold | hnew
  · exact h f hold
  · exact ⟨tag, payload, List.mem_singleton.mp hnew⟩

/-- Every lane whose waiting frames carry its epoch stays so. -/
def Plant.OwnKept (d d' : Plant) : Prop := ∀ j, (d.slot j).SendsOwn → (d'.slot j).SendsOwn

theorem Plant.OwnKept.refl (d : Plant) : d.OwnKept d := fun _ => id

theorem Plant.OwnKept.trans {a b c : Plant} (h : a.OwnKept b) (g : b.OwnKept c) : a.OwnKept c := fun j hj => g j (h j hj)

theorem Plant.OwnKept.foldl {α : Type} {f : Plant → α → Plant} (hf : ∀ d x, Plant.OwnKept d (f d x)) (l : List α) (d : Plant) :
    d.OwnKept (l.foldl f d) := by
  induction l generalizing d with
  | nil => exact .refl d
  | cons x l ih => exact (hf d x).trans (ih _)

theorem Plant.OwnKept.of_slots {d d' : Plant} (h : ∀ j, d'.slot j = d.slot j) : d.OwnKept d' := fun j hj => by rwa [h j]

theorem Plant.OwnKept.put {r : Slot} (h : (d.slot i).SendsOwn → r.SendsOwn) : d.OwnKept (d.put e i r) := by
  intro j hj
  rw [Plant.slot_put]
  split
  · next hij =>
    subst hij
    exact (h hj).congr rfl rfl
  · exact hj

/-- A write that keeps the waiting frames and the epoch. -/
theorem Plant.OwnKept.same {r : Slot} (hq : r.lane.cmdQueue = (d.slot i).lane.cmdQueue) (he : r.epoch = (d.slot i).epoch) :
    d.OwnKept (d.put e i r) := .put fun h => h.congr hq he

/-- A write that issues an order. -/
theorem Plant.OwnKept.issue {r : Slot} (kind : OrderKind) (hq : r.lane.cmdQueue = (d.slot i).lane.cmdQueue)
    (he : r.epoch = (d.slot i).epoch) : d.OwnKept (d.put e i (Slot.issue e i kind r)) :=
  .put fun h => (h.congr hq he).issue kind

theorem Plant.record_ownKept (now : Clock) (ev : Event) (d : Plant) : d.OwnKept (d.record now ev) :=
  .of_slots fun j => Plant.record_slot now ev d j

theorem answerHeld_ownKept (i : SlotId) (disp : Disposition) (named : HoldEntry → Bool) (d : Plant) :
    d.OwnKept (answerHeld e i disp named d) := by
  intro j hj
  rw [answerHeld_slot]
  split
  · next hij =>
    subst hij
    exact hj.congr rfl rfl
  · exact hj

theorem abort_ownKept (i : SlotId) (disp : Disposition) (d : Plant) : d.OwnKept (abort e i disp d) := by
  intro j hj
  rw [abort_slot]
  split
  · exact .of_empty rfl
  · exact hj

theorem answerHead_ownKept (i : SlotId) (tag : Byte) (disp : Disposition) (status : Byte) (payload : List Byte) (d : Plant) :
    d.OwnKept (dropHead e i (answer e i tag disp status payload d)) := by
  have hanswer : d.OwnKept (answer e i tag disp status payload d) := .of_slots fun j => answer_slot i tag disp status payload d j
  exact hanswer.trans (.same rfl rfl)

theorem emulationCheck_ownKept (i : SlotId) (d : Plant) : d.OwnKept (emulationCheck e i d) := by
  rw [emulationCheck_eq]
  split
  · exact answerHead_ownKept i _ _ _ _ d
  · exact .refl d

theorem act_ownKept (i : SlotId) (d : Plant) : d.OwnKept (act e i d) := by
  cases hs : (d.slot i).state with
  | empty | faulted | unloading | stopping => rw [act_unmoved (by simp [hs])]; exact .refl _
  | stopped =>
    rw [act_stopped hs]
    split
    · have hput : d.OwnKept (d.put e i { d.slot i with state := .queued }) := .same rfl rfl
      exact hput.trans (.of_slots fun _ => rfl)
    · exact .refl _
  | queued =>
    rw [act_queued hs]
    split
    · have hput : d.OwnKept (d.put e i { d.slot i with state := .stopped }) := .same rfl rfl
      have hleave : d.OwnKept ((d.put e i { d.slot i with state := .stopped }).leaveQueue i) :=
        hput.trans (.of_slots (Plant.slot_leaveQueue i _))
      exact hleave.trans (emulationCheck_ownKept i _)
    · exact .refl _
  | starting =>
    rw [act_starting hs]
    split
    · exact .issue _ rfl rfl
    · exact .refl _
  | spun =>
    by_cases he : (d.slot i).effective = .stop
    · rw [act_spun_stop hs he]
      exact .issue _ rfl rfl
    · rw [act_spun_up hs he]
      exact .same rfl rfl
  | loading =>
    rw [act_loading hs]
    split
    · exact .refl _
    · exact .issue _ rfl rfl
  | loaded =>
    rw [act_loaded hs]
    split
    · split
      · exact .same rfl rfl
      · exact .refl _
    split
    · exact .refl _
    split
    · exact .issue _ rfl rfl
    · exact .same rfl rfl

theorem actIfChanged_ownKept (i : SlotId) (old : Level) (d : Plant) : d.OwnKept (actIfChanged e i old d) := by
  unfold actIfChanged
  split
  · exact .refl d
  · exact act_ownKept i d

theorem settleSuspension_ownKept (i : SlotId) (d : Plant) : d.OwnKept (settleSuspension e i d) := by
  have hsuspend : d.OwnKept (d.put e i ((d.slot i).suspend e)) := by
    refine .put fun h => ?_
    unfold Slot.suspend
    simp only
    split <;> exact h.congr rfl rfl
  unfold settleSuspension
  simp only
  split
  · exact .refl d
  split
  · split
    · exact .refl d
    · split
      · exact hsuspend.trans (answerHeld_ownKept i _ _ _)
      · exact hsuspend
  · split
    · exact .same rfl rfl
    · exact .refl d

theorem writeRequested_ownKept (i : SlotId) (lv : Level) (pin : Bool) (d : Plant) :
    d.OwnKept (writeRequested e i lv pin d) := by
  have hput : d.OwnKept (d.put e i ((d.slot i).setRequested lv pin)) := by
    rw [Slot.setRequested_eq]
    exact .same rfl rfl
  exact (hput.trans (actIfChanged_ownKept i _ _)).trans (settleSuspension_ownKept i _)

theorem writeBudgetCap_ownKept (i : SlotId) (cap : BudgetCap) (d : Plant) : d.OwnKept (writeBudgetCap e i cap d) :=
  (Plant.OwnKept.same (r := { d.slot i with budgetCap := cap }) rfl rfl).trans (actIfChanged_ownKept i _ _)

theorem headStep_ownKept {d d' : Plant} (h : headStep e i d = some d') : d.OwnKept d' := by
  have hmark : d.OwnKept (d.put e i (d.slot i).markHead) := by
    refine .put fun h => ?_
    unfold Slot.markHead
    split <;> exact h.congr rfl rfl
  have hemulating : d.OwnKept (d.put e i (d.slot i).markEmulating) := by
    refine .put fun h => ?_
    unfold Slot.markEmulating
    split <;> exact h.congr rfl rfl
  unfold headStep at h
  split at h
  · simp at h
  next x _ _ =>
  split at h
  · obtain rfl := Option.some.inj h
    unfold becomeHead
    simp only
    split
    · exact hmark
    split
    · exact hmark.trans (writeRequested_ownKept i _ _ _)
    · exact hmark.trans (answerHead_ownKept i _ _ _ _ _)
  split at h
  · split at h
    · simp at h
    · obtain rfl := Option.some.inj h
      have hact : d.OwnKept (writeRequested e i x.requirement false (d.put e i (d.slot i).markEmulating)) :=
        hemulating.trans (writeRequested_ownKept i _ _ _)
      unfold trapAct
      split
      · exact answerHead_ownKept i _ _ _ _ d
      · exact answerHead_ownKept i _ _ _ _ d
      all_goals
        simp only
        split
        · exact hact.trans (emulationCheck_ownKept i _)
        · exact hact
  split at h
  · obtain rfl := Option.some.inj h
    exact .put fun h => Slot.SendsOwn.forward _ _ (h.congr rfl rfl)
  · simp at h

theorem serveHead_ownKept (i : SlotId) (d : Plant) : d.OwnKept (serveHead e i d) := by
  have hloop : ∀ n d, Plant.OwnKept d (headLoop e i n d) := fun n => by
    induction n with
    | zero => exact .refl
    | succ n ih =>
      intro d
      unfold headLoop
      split
      · exact .refl d
      · next d' h => exact (headStep_ownKept h).trans (ih d')
  exact hloop _ d

theorem enterFaulted_ownKept (i : SlotId) (reason : FaultReason) (code : Option Byte) (d : Plant) :
    d.OwnKept (enterFaulted e i reason code d) := by
  intro j hj
  by_cases hij : j = i
  · subst hij
    exact .of_empty (congrArg Lane.cmdQueue (enterFaulted_frame j reason code d).2.1)
  · rwa [enterFaulted_other i reason code d j hij]

theorem servePass_ownKept (d : Plant) : d.OwnKept (servePass e d) := by
  have hrecommit : ∀ d : Plant, d.OwnKept (recommit e d) := fun d => .of_slots (recommit_slot d)
  have hrefresh : ∀ d : Plant, d.OwnKept (refreshArbiter e d) := fun d => .of_slots (refreshArbiter_slot d)
  have hload : ∀ (d : Plant) (i : SlotId), d.OwnKept (serveLoad e d i) := fun d i => by
    unfold serveLoad
    split
    · rw [grantLoad_eq]
      split
      · exact (Plant.OwnKept.issue (r := { d.slot i with loadClaim := false, state := .loading }) _ rfl rfl).trans
          (hrecommit _)
      · exact (Plant.OwnKept.same (r := { d.slot i with loadClaim := false }) rfl rfl).trans (act_ownKept i _)
    · exact .refl d
  have hgrant : ∀ (i : SlotId) (d : Plant), d.OwnKept (grantStart e i d) := fun i d => by
    have hstart : d.OwnKept (d.withStart e i) :=
      Plant.OwnKept.issue (r := { d.slot i with state := .starting }) _ rfl rfl
    have hover : ∀ d : Plant, d.OwnKept (takeOvercurrent e i d) := fun d => by
      unfold takeOvercurrent
      split
      · exact enterFaulted_ownKept i _ _ d
      · exact .refl d
    rw [grantStart_eq]
    exact ((((hstart.trans (hrecommit _)).trans (hrefresh _)).trans (hover _)).trans (hrecommit _)).trans (hrefresh _)
  have hserve : ∀ d : Plant, d.OwnKept (serveStart e d) := fun d => by
    unfold serveStart
    split
    · split
      · exact hgrant _ d
      · exact .refl d
    · exact .refl d
  unfold servePass
  split
  · exact .refl d
  · exact (Plant.OwnKept.foldl hload _ d).trans (hserve _)

theorem shedReact_ownKept (d : Plant) : d.OwnKept (shedReact e d) := by
  have hshed : ∀ b, d.OwnKept { d with budget := { d.budget with shed := b } } := fun b => .of_slots fun _ => rfl
  have hvictims : ∀ d : Plant, d.OwnKept (takeVictims e d) := fun d => by
    refine .foldl (fun d i => ?_) _ d
    unfold takeVictim
    split
    · exact writeBudgetCap_ownKept i _ d
    · exact .refl d
  unfold shedReact
  split
  · split
    · unfold endShed
      exact ((hshed false).trans (Plant.record_ownKept _ _ _)).trans (.foldl (fun d i => writeBudgetCap_ownKept i _ d) _ _)
    split
    · exact hvictims d
    · exact .refl d
  split
  · unfold beginShed
    exact ((hshed true).trans (hvictims _)).trans (Plant.record_ownKept _ _ _)
  · exact .refl d

theorem budgetReact_ownKept (d : Plant) : d.OwnKept (budgetReact e d) := by
  have hrecommit : d.OwnKept (recommit e d) := .of_slots (recommit_slot d)
  have hrefresh : ∀ d : Plant, d.OwnKept (refreshArbiter e d) := fun d => .of_slots (refreshArbiter_slot d)
  exact (((hrecommit.trans (hrefresh _)).trans (shedReact_ownKept _)).trans (hrefresh _)).trans (servePass_ownKept _)

/-- Through the response of the blocks. -/
theorem react_ownKept (d : Plant) : d.OwnKept (react e d) := by
  have hheads : ∀ d : Plant, d.OwnKept (serveHeads e d) := fun d => .foldl (fun d i => serveHead_ownKept i d) _ d
  have hphase : ∀ d : Plant, d.OwnKept (examinePhase e d) := fun d => .of_slots (examinePhase_slot d)
  have hsettle : ∀ d : Plant, d.OwnKept (refreshSettle e d) := fun d => .of_slots fun j => by
    unfold refreshSettle
    split
    · split <;> rfl
    · rfl
  exact (((((budgetReact_ownKept d).trans (hheads _)).trans (budgetReact_ownKept _)).trans (hheads _)).trans
    (hphase _)).trans (hsettle _)

end Sys2Proof.Machine
end

section
/-! SUPPORT. The expiries of hold timers, drains, dwells and idle countdowns, the stagger timer and the settle timer (R9, R18, R59,
R79 to R82, R93, R157). -/

namespace Sys2Proof.Machine

variable {e : Env} {i : SlotId} {d : Plant} {s : State}

/-! ### Drains (R18) -/

/-- What the expiry of a drain leaves of the slot and of the case link. -/
theorem drainExpired_frame (i : SlotId) (d : Plant) : let t := drainExpired e i d
    (t.slot i).motion = { (d.slot i).motion.unloading (.unload true) (d.slot i).lane.nextOrder
        ⟨e.clock, e.tables.unloadMs i⟩ .discard with epoch := (d.slot i).epoch + 1 } ∧
      (t.slot i).lane = (d.slot i).lane.abortedFor (.unload true) ⟨e.clock, e.tables.unloadMs i⟩ ∧
      (t.slot i).outstanding = [] ∧ (t.slot i).hold = (d.slot i).hold ∧ (∀ j, j ≠ i → t.slot j = d.slot j) ∧
      d.link.queue ++ answersTo e.tables i .abortedDrain ((d.slot i).outstanding.map OutEntry.tag) <+: t.link.queue ∧
      (d.link.events.length < 32 →
        t.link.events = d.link.events ++ [⟨e.clock, .drainAborted i (d.slot i).outstanding.length⟩]) := by
  intro t
  let d1 := abort e i .abortedDrain d
  let d2 := d1.put e i ((d1.slot i).toUnloading e i (.unload true) .discard)
  have ht : t = d2.record e.clock (.drainAborted i (d.slot i).outstanding.length) := rfl
  have hslot1 : d1.slot i = (Slot.nextEpoch { d.slot i with outstanding := [] }).examineCountdowns e i := by
    rw [abort_slot, if_pos rfl]
  have hslot : t.slot i = Slot.examineCountdowns e i ((d1.slot i).toUnloading e i (.unload true) .discard) := by
    rw [ht, Plant.record_slot, Plant.slot_put_same]
  have hevents : d2.link.events = d.link.events := answerTags_events i .abortedDrain _ d
  refine ⟨?_, ?_, ?_, ?_, fun j hj => ?_, ?_, fun hroom => ?_⟩
  · rw [hslot, Slot.examineCountdowns_motion, Slot.toUnloading_motion, hslot1]
    rfl
  · rw [hslot, Slot.examineCountdowns_lane, Slot.toUnloading, Slot.issue_lane, hslot1]
    rfl
  · rw [hslot, hslot1]
    rfl
  · rw [hslot, hslot1]
    rfl
  · rw [ht, Plant.record_slot, Plant.slot_put_other _ hj, abort_slot, if_neg hj]
  · rw [ht]
    refine List.IsPrefix.trans ?_ (Plant.record_queue_prefix _ _ _)
    rw [Plant.put_link, abort_queue]
    exact List.prefix_rfl
  · rw [ht, Plant.record_events_of_room _ _ (by rw [hevents]; exact hroom), hevents]

theorem Slot.epoch_of_motion {r : Slot} {m : Slot.Motion} (h : r.motion = m) : r.epoch = m.epoch :=
  congrArg Slot.Motion.epoch h

/-- The frames that wait on the lane of a slot that no level moves carry its epoch after the response, if none waited before. -/
theorem react_cmdQueue {m : Slot.Motion} (h : (d.slot i).motion = m)
    (hm : m.state = .faulted ∨ m.state = .unloading ∨ m.state = .stopping) (hq : (d.slot i).lane.cmdQueue = []) :
    ∀ f ∈ ((react e d).slot i).lane.cmdQueue, ∃ tag payload, f = LaneFrame.command m.epoch tag payload := by
  have hafter := react_ownKept (e := e) d i (.of_empty hq)
  have hepoch : ((react e d).slot i).epoch = m.epoch := Slot.epoch_of_motion (react_motion_of h hm)
  unfold Slot.SendsOwn at hafter
  rwa [hepoch] at hafter

/-- Settles O46: the entries whose timer is due are answered; the drain's expiry by what it leaves and what the response keeps. -/
theorem holdAndDrainExpiries : Obligations.HoldAndDrainExpiries := by
  refine ⟨fun i tag s => ?_, fun i s => ?_⟩
  · intro r ends hdue
    obtain ⟨h, hmem, hends⟩ := hdue
    have hexec : exec (.holdTimerExpiry i tag) s = .next (s.respond fun e d => expireHeld e i tag d) :=
      if_pos (List.any_eq_true.mpr ⟨h, hmem, hends⟩)
    refine ⟨expireHeld s.env i tag s.plant, hexec.trans (congrArg _ (State.respond_congr rfl)),
      (answerHeld_frame i _ _ _).1, (answerHeld_sameLevels i _ _ _).outstanding, (answerHeld_sameLevels i _ _ _).requested,
      (answerHeld_onlyAt i _ _ _).slot, answerHeld_queue i _ _ _⟩
  · intro r hloaded hdraining hdue
    have hdrainDue : (s.plant.slot i).drainDue s.clock = true := by
      show (decide (r.state = .loaded) && r.draining && dueOpt r.drainTimer s.clock) = true
      rw [hloaded, hdraining, hdue]
      rfl
    have hexec : exec (.drainExpiry i) s = .next (s.respond fun e d => drainExpired e i d) := if_pos hdrainDue
    obtain ⟨hmotion, hlane, hout, hhold, hother, hqueue, hevents⟩ := drainExpired_frame (e := s.env) i s.plant
    obtain ⟨hslots, -, hlist, -, -⟩ := State.respond_plant (fun e d => drainExpired e i d) s
    refine ⟨⟨drainExpired s.env i s.plant, hexec.trans (congrArg _ (State.respond_congr rfl)), hlane, hout, hhold, hother⟩,
      _, hexec, rfl, ?_, ?_, State.respond_queue_prefix hqueue, fun hroom => ?_⟩
    · rw [hslots]
      exact react_motion_of hmotion (.inr (.inl rfl))
    · rw [hslots]
      exact react_cmdQueue hmotion (.inr (.inl rfl)) (congrArg Lane.cmdQueue hlane)
    · have hprefix := (react_responds (e := s.env) (drainExpired s.env i s.plant)).events
      rw [hevents hroom] at hprefix
      rw [hlist]
      exact hprefix

/-! ### Dwell and idle countdowns (R9, R79 to R82) -/

theorem Slot.unloadIdle_iff (t : Tables) (i : SlotId) (r : Slot) : r.unloadIdle t i = true ↔ r.state = .loaded ∧
    r.draining = false ∧ r.hold = [] ∧ r.outstanding = [] ∧ r.pinned = false ∧ r.suspension = none ∧ t.idleUnloadMs i ≠ 0 := by
  simp only [Slot.unloadIdle, Bool.and_eq_true, decide_eq_true_eq, Bool.not_eq_true', List.isEmpty_iff, Option.isNone_iff_eq_none,
    bne_iff_ne, and_assoc]

theorem Slot.stopIdle_iff (t : Tables) (i : SlotId) (r : Slot) : r.stopIdle t i = true ↔ r.state = .spun ∧
    r.requested = .spin ∧ r.hold = [] ∧ r.outstanding = [] ∧ r.pinned = false ∧ r.suspension = none ∧ t.idleStopMs i ≠ 0 := by
  simp only [Slot.stopIdle, Bool.and_eq_true, decide_eq_true_eq, Bool.not_eq_true', List.isEmpty_iff, Option.isNone_iff_eq_none,
    bne_iff_ne, and_assoc]

/-- Both countdowns of a slot that is written (R79 to R81). -/
theorem put_countdowns (i : SlotId) (q : Slot) (d : Plant) : let w := (d.put e i q).slot i
    (q.idleUnload = .idle → q.unloadIdle e.tables i = true → w.idleUnload = .running ⟨e.clock, e.tables.idleUnloadMs i⟩) ∧
      (q.idleStop = .idle → q.stopIdle e.tables i = true → w.idleStop = .running ⟨e.clock, e.tables.idleStopMs i⟩) ∧
      (∀ m, q.idleUnload = .running m → w.idleUnload = if q.unloadIdle e.tables i then .running m else .idle) ∧
      (∀ m, q.idleStop = .running m → w.idleStop = if q.stopIdle e.tables i then .running m else .idle) ∧
      (q.idleUnload = .idle → q.unloadIdle e.tables i = false → w.idleUnload = .idle) ∧
      (q.idleStop = .idle → q.stopIdle e.tables i = false → w.idleStop = .idle) := by
  intro w
  have hunload : w.idleUnload = q.idleUnload.examine e.clock (e.tables.idleUnloadMs i) (q.unloadIdle e.tables i)
      q.suspension.isSome := congrArg Slot.idleUnload (Plant.slot_put_same e i q d)
  have hstop : w.idleStop = q.idleStop.examine e.clock (e.tables.idleStopMs i) (q.stopIdle e.tables i) q.suspension.isSome :=
    congrArg Slot.idleStop (Plant.slot_put_same e i q d)
  rw [hunload, hstop]
  refine ⟨fun hi hh => ?_, fun hi hh => ?_, fun m hm => ?_, fun m hm => ?_, fun hi hh => ?_, fun hi hh => ?_⟩
  · rw [hi, hh]
    rfl
  · rw [hi, hh]
    rfl
  · rw [hm]
    rfl
  · rw [hm]
    rfl
  · rw [hi, hh]
    rfl
  · rw [hi, hh]
    rfl

theorem Level.lower_stop (lv : Level) : Level.lower .stop lv = .stop := by
  cases lv <;> rfl

theorem Level.lower_spin_ne_load (lv : Level) : Level.lower .spin lv ≠ .load := by
  cases lv <;> decide

/-- A write of a lower requested level acts on the slot, and the settled suspension leaves a motion that no level moves. -/
theorem writeRequested_motion {lv : Level} {pin : Bool} {m : Slot.Motion}
    (hlevel : ((d.put e i ((d.slot i).setRequested lv pin)).slot i).effective ≠ (d.slot i).effective)
    (hact : ((act e i (d.put e i ((d.slot i).setRequested lv pin))).slot i).motion = m)
    (hm : m.state = .faulted ∨ m.state = .unloading ∨ m.state = .stopping) :
    ((writeRequested e i lv pin d).slot i).motion = m := by
  rw [writeRequested_eq, if_neg hlevel]
  have hinert : ((act e i (d.put e i ((d.slot i).setRequested lv pin))).slot i).inert = true := by
    have hstate := congrArg Slot.Motion.state hact
    unfold Slot.inert
    rcases hm with hm | hm | hm <;> rw [show ((act e i (d.put e i ((d.slot i).setRequested lv pin))).slot i).state = _ from
      hstate, hm]
  rw [((settleSuspension_calm i _).rests i hinert).motion, hact]

/-- The slot with another requested level, as it is written. -/
theorem setRequested_put_frame (lv : Level) (pin : Bool) (i : SlotId) (d : Plant) :
    let w := (d.put e i ((d.slot i).setRequested lv pin)).slot i
    w.motion = (d.slot i).motion ∧ w.lane = (d.slot i).lane ∧ w.outstanding = (d.slot i).outstanding ∧
      w.effective = lv.lower ((d.slot i).transitCap.lower ((d.slot i).budgetCap.level.lower (d.slot i).emergencyCap.level)) := by
  intro w
  have hw : w = Slot.examineCountdowns e i ((d.slot i).setRequested lv pin) := Plant.slot_put_same _ _ _ _
  rw [hw, Slot.setRequested_eq]
  exact ⟨rfl, rfl, rfl, rfl⟩

/-- A LOADED slot at LOAD with nothing outstanding unloads when its requested level falls to SPIN (R16, R80). -/
theorem writeRequested_unloads (pin : Bool) (hs : (d.slot i).state = .loaded) (hdraining : (d.slot i).draining = false)
    (hload : (d.slot i).effective = .load) (hout : (d.slot i).outstanding = []) :
    ((writeRequested e i .spin pin d).slot i).motion = (d.slot i).motion.unloading (.unload false) (d.slot i).lane.nextOrder
      ⟨e.clock, e.tables.unloadMs i⟩ .normal := by
  obtain ⟨wmotion, wlane, wout, weffective⟩ := setRequested_put_frame (e := e) .spin pin i d
  have hlower := Level.lower_spin_ne_load
    ((d.slot i).transitCap.lower ((d.slot i).budgetCap.level.lower (d.slot i).emergencyCap.level))
  rw [← weffective] at hlower
  refine writeRequested_motion (by rw [hload]; exact hlower) ?_ (.inr (.inl rfl))
  obtain ⟨-, -, -, hunload, -⟩ := act_loaded_frame (e := e) ((congrArg Slot.Motion.state wmotion).trans hs)
  rw [hunload ((congrArg Slot.Motion.draining wmotion).trans hdraining) hlower (wout.trans hout), wmotion, wlane]

/-- A SPUN slot at SPIN spins down when its requested level falls to STOP (R15, R81). -/
theorem writeRequested_spinsDown (pin : Bool) (hs : (d.slot i).state = .spun) (hspin : (d.slot i).effective = .spin) :
    ((writeRequested e i .stop pin d).slot i).motion = (d.slot i).motion.stopping false (d.slot i).lane.nextOrder
      ⟨e.clock, e.tables.spinDownMs i⟩ false := by
  obtain ⟨wmotion, wlane, -, weffective⟩ := setRequested_put_frame (e := e) .stop pin i d
  rw [Level.lower_stop] at weffective
  refine writeRequested_motion (by rw [hspin, weffective]; nofun) ?_ (.inr (.inr rfl))
  obtain ⟨-, hstop⟩ := act_spun_frame (e := e) ((congrArg Slot.Motion.state wmotion).trans hs)
  rw [(hstop weffective).1, wmotion, wlane]

/-- What the expiry of the dwell leaves of a STOPPED slot and of the start queue (R9, R10). -/
theorem dwellExpired_frame (hs : (d.slot i).state = .stopped) : let t := dwellExpired e i d
    (t.slot i).dwell = none ∧ (∀ j, j ≠ i → t.slot j = d.slot j) ∧
      ((d.slot i).effective = .stop → (t.slot i).state = .stopped ∧ t.arb.queue = d.arb.queue) ∧
      ((d.slot i).effective ≠ .stop → (t.slot i).state = .queued ∧ t.arb.queue = d.arb.queue ++ [i]) := by
  intro t
  let d1 := d.put e i { d.slot i with dwell := none }
  have ht : t = act e i d1 := if_pos hs
  have hslot : d1.slot i = Slot.examineCountdowns e i { d.slot i with dwell := none } := Plant.slot_put_same _ _ _ _
  have hdwell : (d1.slot i).dwell = none := by rw [hslot]; rfl
  have heffective : (d1.slot i).effective = (d.slot i).effective := by rw [hslot]; rfl
  have hstate : (d1.slot i).state = .stopped := by rw [hslot]; exact hs
  obtain ⟨hup, hstay⟩ := act_stopped_frame (e := e) hstate
  rw [heffective] at hup hstay
  have hother : ∀ j, j ≠ i → t.slot j = d.slot j := fun j hj => by
    rw [ht, act_other i d1 j hj, Plant.slot_put_other _ hj]
  by_cases hstop : (d.slot i).effective = .stop
  · rw [hstay (.inl hstop)] at ht
    rw [ht] at hother ⊢
    exact ⟨hdwell, hother, fun _ => ⟨hstate, rfl⟩, fun h => absurd hstop h⟩
  · obtain ⟨hmotion, hqueue⟩ := hup ⟨hstop, hdwell⟩
    rw [← ht] at hmotion hqueue
    exact ⟨(congrArg Slot.Motion.dwell hmotion).trans hdwell, hother, fun h => absurd h hstop,
      fun _ => ⟨congrArg Slot.Motion.state hmotion, hqueue⟩⟩

/-- Settles O47: the three expiries by what they write, the countdowns by the write of a slot. -/
theorem dwellAndIdleExpiries : Obligations.DwellAndIdleExpiries := by
  intro i s r
  refine ⟨fun hs hdue => ?_, fun hdue => ?_, fun hdue => ?_, fun t => ⟨Slot.unloadIdle_iff t i r, Slot.stopIdle_iff t i r⟩,
    fun e q d => put_countdowns i q d⟩
  · have hexec : exec (.dwellExpiry i) s = .next (s.respond fun e d => dwellExpired e i d) := if_pos hdue
    exact ⟨dwellExpired s.env i s.plant, hexec.trans (congrArg _ (State.respond_congr rfl)), dwellExpired_frame hs⟩
  · have hexec : exec (.idleUnloadExpiry i) s =
        .next (s.respond fun e d => writeRequested e i .spin (d.slot i).pinned d) := if_pos hdue
    have hlevels := writeRequested_slot (e := s.env) i .spin r.pinned s.plant
    refine ⟨⟨writeRequested s.env i .spin r.pinned s.plant, hexec.trans (congrArg _ (State.respond_congr rfl)),
      hlevels.requested, hlevels.pinned⟩, fun hs hdraining hload hout => ⟨_, hexec, rfl, ?_⟩⟩
    obtain ⟨hslots, -, -, -, -⟩ := State.respond_plant (fun e d => writeRequested e i .spin (d.slot i).pinned d) s
    rw [hslots]
    exact react_motion_of (writeRequested_unloads r.pinned hs hdraining hload hout) (.inr (.inl rfl))
  · have hexec : exec (.idleStopExpiry i) s =
        .next (s.respond fun e d => writeRequested e i .stop (d.slot i).pinned d) := if_pos hdue
    have hlevels := writeRequested_slot (e := s.env) i .stop r.pinned s.plant
    refine ⟨⟨writeRequested s.env i .stop r.pinned s.plant, hexec.trans (congrArg _ (State.respond_congr rfl)),
      hlevels.requested, hlevels.pinned⟩, fun hs hspin => ⟨_, hexec, rfl, ?_⟩⟩
    obtain ⟨hslots, -, -, -, -⟩ := State.respond_plant (fun e d => writeRequested e i .stop (d.slot i).pinned d) s
    rw [hslots]
    exact react_motion_of (writeRequested_spinsDown r.pinned hs hspin) (.inr (.inr rfl))

/-! ### The stagger timer and the settle timer (R93, R157) -/

theorem settleHolds_iff (e : Env) (d : Plant) : settleHolds e d = true ↔ d.emg.latched = true ∧ d.emg.phase = some .parked ∧
    ¬(((e.cls = .jolt ∨ e.cls = .fall) ∧ e.tables.emergencyFlag e.cls = true) ∨ d.budget.powerState = .holdup) ∧
    e.tables.autoClear = true := by
  unfold settleHolds
  rw [Bool.and_eq_true, Bool.and_eq_true, Bool.and_eq_true, Bool.not_eq_true', decide_eq_true_eq, ← sourcePresent_iff,
    Bool.not_eq_true, and_assoc, and_assoc]

/-- The settle timer after the response: it runs exactly while its conditions hold, and keeps a deadline that runs. -/
theorem refreshSettle_settle (e : Env) (d : Plant) : (refreshSettle e d).emg =
    { d.emg with settle := if settleHolds e d then some (d.emg.settle.getD ⟨e.clock, e.tables.settleMs⟩) else none } := by
  unfold refreshSettle
  split
  · split
    · next m hm =>
      rw [hm, Option.getD_some, ← hm]
    · next hm =>
      rw [hm]
      rfl
  · rfl

theorem refreshSettle_budget (e : Env) (d : Plant) : (refreshSettle e d).budget = d.budget := by
  unfold refreshSettle
  split
  · split <;> rfl
  · rfl

/-- The last step of the response refreshes the settle timer, which no step before it touches. -/
theorem react_eq_refreshSettle (e : Env) (d : Plant) : ∃ d1, react e d = refreshSettle e d1 ∧ d1.emg.settle = d.emg.settle := by
  refine ⟨examinePhase e (serveHeads e (budgetReact e (serveHeads e (budgetReact e d)))), rfl, ?_⟩
  obtain ⟨phase, hphase⟩ := examinePhase_emg (e := e) (serveHeads e (budgetReact e (serveHeads e (budgetReact e d))))
  rw [hphase, serveHeads_emg, budgetReact_emg, serveHeads_emg, budgetReact_emg]

/-- Settles O48: the two expiries by what they write, the settle timer by the last step of the response. -/
theorem staggerAndSettleExpiries : Obligations.StaggerAndSettleExpiries := by
  intro s
  refine ⟨fun hdue => if_pos hdue, fun hdue => ?_, fun e d => ?_, fun f => ?_⟩
  · obtain ⟨hemg, hcaps, hevents⟩ := clearLatch_frame (e := s.env) .automatic s.plant
    have hexec : exec .settleExpiry s = .next (s.respond fun e d => clearLatch e .automatic d) := if_pos hdue
    exact ⟨clearLatch s.env .automatic s.plant, hexec.trans (congrArg _ (State.respond_congr rfl)), hemg, hcaps, hevents⟩
  · obtain ⟨d1, ht, hsettle⟩ := react_eq_refreshSettle e d
    rw [ht]
    intro t present runs
    have hemg : t.emg = _ := refreshSettle_settle e d1
    have hruns : settleHolds e d1 = true ↔ runs := by
      rw [settleHolds_iff, ← refreshSettle_budget e d1, show d1.emg.latched = t.emg.latched by rw [hemg],
        show d1.emg.phase = t.emg.phase by rw [hemg]]
    rw [hsettle] at hemg
    refine ⟨fun hr hnone => ?_, fun hr m hm => ?_, fun hr => ?_⟩
    · rw [hemg, if_pos (hruns.mpr hr), hnone]
      rfl
    · rw [hemg, if_pos (hruns.mpr hr), hm]
      rfl
    · rw [hemg, if_neg (mt hruns.mp hr)]
  · exact (State.respond_plant f s).2.2.2.1

end Sys2Proof.Machine
end

section
/-! SUPPORT. Starts and loads (R11, R15, R90 to R94, R102 to R105): the candidate, the claims, and what a grant leaves. -/

namespace Sys2Proof.Machine

variable {e : Env} {i : SlotId} {d : Plant}

/-! ### The candidate (R90) -/

theorem mostUrgent_eq_none {t : Tables} {q : List SlotId} (h : mostUrgent t q = none) : q = [] := by
  cases q with
  | nil => rfl
  | cons x rest =>
    unfold mostUrgent at h
    split at h
    · simp at h
    · split at h <;> simp at h

/-- The most urgent slot is below every slot before it in the queue, and at most every slot after it. -/
theorem mostUrgent_spec {t : Tables} {q : List SlotId} : ∀ {i : SlotId}, mostUrgent t q = some i → ∃ before after,
    q = before ++ i :: after ∧ (∀ j ∈ before, t.priority i < t.priority j) ∧ ∀ j ∈ after, t.priority i ≤ t.priority j := by
  induction q with
  | nil => exact fun h => absurd h nofun
  | cons x rest ih =>
    intro i h
    unfold mostUrgent at h
    cases hrest : mostUrgent t rest with
    | none =>
      rw [hrest] at h
      obtain rfl := Option.some.inj h
      exact ⟨[], rest, rfl, nofun, by rw [mostUrgent_eq_none hrest]; nofun⟩
    | some k =>
      rw [hrest] at h
      obtain ⟨before, after, rfl, hbefore, hafter⟩ := ih hrest
      by_cases hlt : t.priority k < t.priority x
      · dsimp only at h
        rw [if_pos hlt] at h
        obtain rfl := Option.some.inj h
        refine ⟨x :: before, after, rfl, fun j hj => ?_, hafter⟩
        rcases List.mem_cons.mp hj with rfl | hj
        · exact hlt
        · exact hbefore j hj
      · dsimp only at h
        rw [if_neg hlt] at h
        obtain rfl := Option.some.inj h
        have hle : t.priority x ≤ t.priority k := Nat.not_lt.mp hlt
        refine ⟨[], _, rfl, nofun, fun j hj => hle.trans ?_⟩
        rcases List.mem_append.mp hj with hj | hj
        · exact (hbefore j hj).le
        rcases List.mem_cons.mp hj with rfl | hj
        · exact le_refl _
        · exact hafter j hj

/-- How far a slot is from the one after the last granted, in circular order. -/
def roundDistance (last i : SlotId) : Nat := (i.val + 15 - last.val) % 16

theorem roundOrder_sorted : ∀ last : SlotId, (roundOrder last).Pairwise fun i j => roundDistance last i ≤ roundDistance last j := by
  decide

theorem mem_roundOrder : ∀ last i : SlotId, i ∈ roundOrder last := by decide

theorem roundOrder_find {last : SlotId} {q : List SlotId} {i : SlotId}
    (h : (roundOrder last).find? (fun i => q.contains i) = some i) :
    i ∈ q ∧ ∀ j ∈ q, roundDistance last i ≤ roundDistance last j := by
  obtain ⟨hi, before, after, horder, hbefore⟩ := List.find?_eq_some_iff_append.mp h
  have hsorted := roundOrder_sorted last
  rw [horder, List.pairwise_append, List.pairwise_cons] at hsorted
  obtain ⟨-, ⟨hafter, -⟩, -⟩ := hsorted
  refine ⟨List.contains_iff_mem.mp hi, fun j hj => ?_⟩
  have hmem := mem_roundOrder last j
  rw [horder] at hmem
  rcases List.mem_append.mp hmem with hb | hmem
  · have hnot := hbefore j hb
    rw [List.contains_iff_mem.mpr hj] at hnot
    exact absurd hnot (by decide)
  rcases List.mem_cons.mp hmem with rfl | ha
  · exact le_refl _
  · exact hafter j ha

theorem chooseCandidate_isSome {t : Tables} {a : Arbiter} (h : a.queue ≠ []) : (chooseCandidate t a).isSome = true := by
  obtain ⟨x, rest, hq⟩ := List.exists_cons_of_ne_nil h
  unfold chooseCandidate
  split
  · rw [hq]
    rfl
  · rw [Option.isSome_iff_ne_none]
    exact fun hn => h (mostUrgent_eq_none hn)
  · rw [List.find?_isSome]
    exact ⟨x, mem_roundOrder _ x, List.contains_iff_mem.mpr (by rw [hq]; exact List.mem_cons_self)⟩

theorem chooseCandidate_nil {t : Tables} {a : Arbiter} (h : a.queue = []) : chooseCandidate t a = none := by
  unfold chooseCandidate
  rw [h]
  split
  · rfl
  · rfl
  · exact List.find?_eq_none.mpr fun _ _ => by simp

/-! ### The claims and the draws taken anew (R91, R94, R102) -/

theorem Plant.reportedDraw_congr {d d' : Plant} (h : ∀ j, d'.slot j = d.slot j) : d'.reportedDraw e = d.reportedDraw e := by
  unfold Plant.reportedDraw
  simp only [h]

theorem recommit_budget (d : Plant) :
    (recommit e d).budget = { d.budget with committed := d.reportedDraw e } := by
  unfold recommit
  rfl

theorem refreshArbiter_arb (d : Plant) : (refreshArbiter e d).arb = { d.arb with candidate := e.choose d.arb } := by
  unfold refreshArbiter
  rfl

/-- The plant with the draws taken and the candidate chosen: the last two steps of a grant. -/
theorem refreshed_frame (d : Plant) : let t := refreshArbiter e (recommit e d)
    (∀ j, t.slot j = d.slot j) ∧ t.arb = { d.arb with candidate := e.choose d.arb } ∧ t.link = d.link ∧
      t.budget.committed = t.reportedDraw e ∧ (d.arb.stagger ≠ none → t.budget.startClaim = false) := by
  intro t
  have hslots : ∀ j, t.slot j = d.slot j := fun j => (refreshArbiter_slot _ j).trans (recommit_slot d j)
  have hcommitted : t.budget.committed = t.reportedDraw e := by
    rw [Plant.reportedDraw_congr hslots, (refreshArbiter_committed _).1, recommit_committed]
  refine ⟨hslots, ?_, ?_, hcommitted, fun h => ?_⟩
  · rw [refreshArbiter_arb, recommit_arb]
  · rw [refreshArbiter_link, recommit_link]
  obtain ⟨m, hm⟩ := Option.ne_none_iff_exists'.mp h
  show (_ && _ && _ && d.arb.stagger.isNone) = false
  rw [hm]
  exact Bool.and_false _

theorem refreshArbiter_startClaim (d : Plant) : (refreshArbiter e d).budget.startClaim = true ↔
    e.choose d.arb ≠ none ∧ d.arb.hold = false ∧
      allSlots.countP (fun i => (d.slot i).state == .starting) < e.tables.maxStarts ∧ d.arb.stagger = none := by
  show (_ && _ && decide (d.startingCount < _) && _) = true ↔ _
  have hcount : d.startingCount = allSlots.countP (fun i => (d.slot i).state == .starting) :=
    (List.countP_eq_length_filter ..).symm
  rw [hcount]
  simp only [Bool.and_eq_true, decide_eq_true_eq, Bool.not_eq_true', Option.isSome_iff_ne_none, Option.isNone_iff_eq_none,
    and_assoc]

/-! ### A start granted (R11, R22, R92) -/

theorem serveStart_of_served (hc : d.arb.candidate = some i) (hclaim : d.budget.startClaim = true)
    (hfits : d.budget.committed + e.startAmount i ≤ d.budget.budget) (hs : (d.slot i).state = .queued) :
    serveStart e d = grantStart e i d := by
  unfold serveStart
  rw [hc]
  exact if_pos (by rw [hclaim, hs, Plant.fits, decide_eq_true hfits]; rfl)

theorem serveStart_of_unserved (h : ∀ i, d.arb.candidate = some i → d.budget.startClaim = true →
    d.budget.committed + e.startAmount i ≤ d.budget.budget → (d.slot i).state = .queued → False) : serveStart e d = d := by
  unfold serveStart
  cases hc : d.arb.candidate with
  | none => rfl
  | some i =>
    refine if_neg fun hn => ?_
    simp only [Bool.and_eq_true, decide_eq_true_eq, Plant.fits] at hn
    obtain ⟨⟨hclaim, hfits⟩, hs⟩ := hn
    exact h i hc hclaim hfits hs

/-- The plant of a granted start once its draws are taken: the slot in STARTING, its order issued. -/
theorem withStart_frame (i : SlotId) (d : Plant) : let t := refreshArbiter e (recommit e (d.withStart e i))
    t.slot i = Slot.examineCountdowns e i (Slot.issue e i .spinUp { d.slot i with state := .starting }) ∧
      (∀ j, j ≠ i → t.slot j = d.slot j) ∧ t.arb.queue = d.arb.queue.filter (fun j => j != i) ∧
      t.arb.stagger = some ⟨e.clock, e.tables.staggerMs⟩ ∧ t.arb.lastGranted = i ∧ t.link = d.link := by
  intro t
  obtain ⟨hslots, harb, hlink, -, -⟩ := refreshed_frame (e := e) (d.withStart e i)
  refine ⟨(hslots i).trans (Plant.slot_put_same _ _ _ _), fun j hj => (hslots j).trans (Plant.slot_put_other _ hj _ _), ?_, ?_, ?_,
    hlink⟩
  · rw [harb]
    rfl
  · rw [harb]
    rfl
  · rw [harb]
    rfl

/-- A granted start of a slot whose overcurrent input is not asserted. -/
theorem grantStart_frame (hin : (d.slot i).overcurrentIn = false) : let t := grantStart e i d
    (t.slot i).state = .starting ∧
      (t.slot i).lane.inFlight = some ⟨.spinUp, (d.slot i).lane.nextOrder, ⟨e.clock, e.tables.spinUpMs i⟩⟩ ∧
      (t.slot i).motorEnable = true ∧ t.arb.queue = d.arb.queue.filter (fun j => j != i) ∧
      t.arb.stagger = some ⟨e.clock, e.tables.staggerMs⟩ ∧ t.arb.lastGranted = i ∧ t.budget.startClaim = false ∧
      t.budget.committed = t.reportedDraw e ∧ ∀ j, j ≠ i → t.slot j = d.slot j := by
  intro t
  obtain ⟨hslot, hother, hqueue, hstagger, hlast, -⟩ := withStart_frame (e := e) i d
  generalize hd1 : refreshArbiter e (recommit e (d.withStart e i)) = d1 at hslot hother hqueue hstagger hlast
  have htaken : takeOvercurrent e i d1 = d1 := by
    refine if_neg ?_
    rw [hslot]
    show ¬((d.slot i).overcurrentIn && _) = true
    rw [hin, Bool.false_and]
    exact Bool.false_ne_true
  have ht : t = refreshArbiter e (recommit e d1) := by
    show grantStart e i d = _
    rw [grantStart_eq, hd1, htaken]
  obtain ⟨tslots, tarb, -, tcommitted, tclaim⟩ := refreshed_frame (e := e) d1
  have hstate : (t.slot i).state = .starting := by
    rw [ht, tslots, hslot]
    rfl
  refine ⟨hstate, ?_, (motorEnable_iff _).mpr (by rw [hstate]; decide), ?_, ?_, ?_, ?_, ?_, fun j hj => ?_⟩
  · rw [ht, tslots, hslot, Slot.examineCountdowns_lane, Slot.issue_lane]
    rfl
  · rw [ht, tarb, ← hqueue]
  · rw [ht, tarb, ← hstagger]
  · rw [ht, tarb]
    exact hlast
  · rw [ht, tclaim (by rw [hstagger]; nofun)]
  · rw [ht, tcommitted]
  · rw [ht, tslots, hother j hj]

/-- What entry to FAULTED leaves of the arbiter. -/
theorem enterFaulted_arb (i : SlotId) (reason : FaultReason) (code : Option Byte) (d : Plant) :
    (enterFaulted e i reason code d).arb = { d.arb with queue := d.arb.queue.filter (fun j => j != i) } := by
  rw [enterFaulted_eq, Plant.record_arb, (answerAll_blocks i _ _).1]
  rfl

/-- A granted start of a slot whose overcurrent input is asserted: it faults after the whole grant (log 23). -/
theorem grantStart_faults (hin : (d.slot i).overcurrentIn = true) : let t := grantStart e i d
    (t.slot i).motion = (d.slot i).motion.faulted .overcurrent none ∧
      (t.slot i).lane.nextOrder = (d.slot i).lane.nextOrder + 1 ∧ (t.slot i).motorEnable = false ∧
      t.arb.queue = d.arb.queue.filter (fun j => j != i) ∧ t.arb.stagger = some ⟨e.clock, e.tables.staggerMs⟩ ∧
      t.arb.lastGranted = i ∧ (t.slot i).lane.orderSlot = none ∧ (t.slot i).lane.cmdQueue = [] ∧
      t.budget.committed = t.reportedDraw e ∧ (∀ j, j ≠ i → t.slot j = d.slot j) ∧
      d.link.queue ++ answersTo e.tables i .slotFault
        ((d.slot i).outstanding.map OutEntry.tag ++ (d.slot i).hold.map HoldEntry.tag) <+: t.link.queue := by
  intro t
  obtain ⟨hslot, hother, hqueue, hstagger, hlast, hlink⟩ := withStart_frame (e := e) i d
  generalize hd1 : refreshArbiter e (recommit e (d.withStart e i)) = d1 at hslot hother hqueue hstagger hlast hlink
  have htaken : takeOvercurrent e i d1 = enterFaulted e i .overcurrent none d1 := by
    refine if_pos ?_
    rw [hslot]
    show ((d.slot i).overcurrentIn && _) = true
    rw [hin]
    rfl
  have ht : t = refreshArbiter e (recommit e (enterFaulted e i .overcurrent none d1)) := by
    show grantStart e i d = _
    rw [grantStart_eq, hd1, htaken]
  obtain ⟨tslots, tarb, tlink, tcommitted, -⟩ := refreshed_frame (e := e) (enterFaulted e i .overcurrent none d1)
  obtain ⟨fmotion, flane, -, -, -⟩ := enterFaulted_frame (e := e) i .overcurrent none d1
  have fqueue := enterFaulted_answers (e := e) i .overcurrent none d1
  rw [enterFaulted_arb] at tarb
  have hmotion : (t.slot i).motion = (d.slot i).motion.faulted .overcurrent none := by
    rw [ht, tslots, fmotion, hslot, Slot.examineCountdowns_motion, Slot.issue_motion]
    rfl
  have hlane : (t.slot i).lane = Lane.dropped (Slot.issue e i .spinUp { d.slot i with state := .starting }).lane := by
    rw [ht, tslots, flane, hslot]
    rfl
  have hstate : (t.slot i).state = .faulted := congrArg Slot.Motion.state hmotion
  refine ⟨hmotion, ?_, ?_, ?_, ?_, ?_, ?_, ?_, ?_, fun j hj => ?_, ?_⟩
  · rw [hlane, Slot.issue_lane]
    rfl
  · unfold Slot.motorEnable
    rw [hstate]
  · rw [ht, tarb, hqueue, List.filter_filter]
    simp only [Bool.and_self]
  · rw [ht, tarb, ← hstagger]
  · rw [ht, tarb]
    exact hlast
  · rw [hlane]
    rfl
  · rw [hlane]
    rfl
  · rw [ht, tcommitted]
  · rw [ht, tslots, enterFaulted_other i _ _ _ j hj, hother j hj]
  · rw [ht, tlink]
    rw [hslot, hlink] at fqueue
    exact fqueue

/-! ### A load claim served (R15, R103, R104) -/

theorem serveLoad_of_served (hclaim : (d.slot i).loadClaim = true)
    (hfits : d.budget.committed + e.loadAmount i ≤ d.budget.budget) : serveLoad e d i = grantLoad e i d :=
  if_pos (by rw [hclaim, Plant.fits, decide_eq_true hfits]; rfl)

theorem serveLoad_of_unserved
    (h : ¬((d.slot i).loadClaim = true ∧ d.budget.committed + e.loadAmount i ≤ d.budget.budget)) : serveLoad e d i = d :=
  if_neg fun hn => h (by simpa only [Bool.and_eq_true, Plant.fits, decide_eq_true_eq] using hn)

/-- A granted load: the slot in LOADING, its order issued, the draws taken. -/
theorem withLoad_frame (i : SlotId) (d : Plant) : let t := recommit e (d.withLoad e i)
    (t.slot i).motion = { (d.slot i).motion with
        state := .loading, inFlight := some ⟨.load, (d.slot i).lane.nextOrder, ⟨e.clock, e.tables.loadMs i⟩⟩ } ∧
      (t.slot i).loadClaim = false ∧ t.budget = { d.budget with committed := t.reportedDraw e } ∧
      t.arb = d.arb ∧ t.link = d.link ∧ ∀ j, j ≠ i → t.slot j = d.slot j := by
  intro t
  have hslot : t.slot i =
      Slot.examineCountdowns e i (Slot.issue e i .load { d.slot i with loadClaim := false, state := .loading }) :=
    (recommit_slot _ i).trans (Plant.slot_put_same _ _ _ _)
  have hbudget : t.budget = { d.budget with committed := t.reportedDraw e } := by
    have hkept : (d.withLoad e i).budget = d.budget := rfl
    rw [Plant.reportedDraw_congr (recommit_slot (e := e) (d.withLoad e i)), recommit_budget, hkept]
  refine ⟨?_, ?_, hbudget, recommit_arb _ _, recommit_link _ _,
    fun j hj => (recommit_slot _ j).trans (Plant.slot_put_other _ hj _ _)⟩
  · rw [hslot, Slot.examineCountdowns_motion, Slot.issue_motion]
    rfl
  · rw [hslot]
    rfl

/-- Settles O50: the choice by the mode, the claims, the two grants. -/
theorem startGranted : Obligations.StartGranted := by
  refine ⟨fun t a => ⟨chooseCandidate_nil, fun hm => ?_, fun hm i hi => ?_, fun hm i hi => ?_, chooseCandidate_isSome⟩,
    fun e a i r => ⟨fun hread => ?_, fun u hread => ?_⟩, fun e d => ⟨fun i hc hclaim hfits hs hin => ?_, fun h => ?_,
      fun i hc hs => ?_, fun t ht => ?_, fun h => ?_, fun hshed hlatch => ?_, rfl, fun i => ?_,
      fun i hc hclaim hfits hs hin => ?_⟩⟩
  · unfold chooseCandidate
    rw [hm]
  · unfold chooseCandidate at hi
    rw [hm] at hi
    exact mostUrgent_spec hi
  · unfold chooseCandidate at hi
    rw [hm] at hi
    exact roundOrder_find hi
  · unfold Env.choose Env.drawOf Env.loadAmount Env.startAmount
    rw [hread]
    exact ⟨rfl, rfl, rfl, rfl⟩
  · unfold Env.choose Env.drawOf Env.loadAmount Env.startAmount
    rw [hread]
    refine ⟨rfl, rfl, ?_, ?_⟩
    · exact (apply_ite (fun t : Tables => t.loadDraw i) _ _ _).symm
    · exact (apply_ite (fun t : Tables => t.spinDraw i) _ _ _).symm
  · rw [serveStart_of_served hc hclaim hfits hs]
    exact grantStart_frame hin
  · refine serveStart_of_unserved fun i hc hclaim hfits _ => ?_
    rcases h with h | h | ⟨k, hk, hover⟩
    · exact absurd (h.symm.trans hc) nofun
    · exact absurd (h.symm.trans hclaim) nofun
    · obtain rfl : k = i := Option.some.inj (hk.symm.trans hc)
      exact absurd hfits (Nat.not_le.mpr hover)
  · refine serveStart_of_unserved fun k hk _ _ hqueued => ?_
    obtain rfl : k = i := Option.some.inj (hk.symm.trans hc)
    exact hs hqueued
  · subst ht
    exact ⟨rfl, refreshArbiter_startClaim d, rfl⟩
  · refine if_pos ?_
    rwa [Bool.or_eq_true]
  · exact if_neg (by rw [hshed, hlatch]; exact Bool.false_ne_true)
  · intro r t served
    refine ⟨fun h => serveLoad_of_unserved h, fun h hs hload => ?_, fun h hnot => ?_⟩
    · have ht : t = recommit e (d.withLoad e i) := (serveLoad_of_served h.1 h.2).trans (if_pos ⟨hs, hload⟩)
      rw [ht]
      exact withLoad_frame i d
    · refine (serveLoad_of_served h.1 h.2).trans (if_neg fun hn => ?_)
      exact hnot.elim (fun h => h hn.1) (fun h => h hn.2)
  · rw [serveStart_of_served hc hclaim hfits hs]
    exact grantStart_faults hin

end Sys2Proof.Machine
end

section
/-! SUPPORT. The transit controller (R58, R82, R132 to R142): what an application of the policy and a settled suspension leave of
a slot, written out. -/

namespace Sys2Proof.Machine

variable {e : Env} {i : SlotId} {d : Plant} {r : Slot}

/-! ### Answers to many tags -/

/-- The answers to a list of tags join the upstream queue in order, and nothing else changes (R43). -/
theorem answerTags_eq (i : SlotId) (disp : Disposition) (tags : List Byte) (d : Plant) : answerTags e i disp tags d =
    { d with link := { d.link with queue := d.link.queue ++ answersTo e.tables i disp tags } } := by
  induction tags generalizing d with
  | nil =>
    unfold answerTags answersTo
    rw [List.map_nil, List.append_nil]
    rfl
  | cons tag tags ih =>
    have hhead : answerTags e i disp (tag :: tags) d = answerTags e i disp tags (answer e i tag disp 0 [] d) := rfl
    have hqueue : d.link.queue ++ answersTo e.tables i disp (tag :: tags) =
        (answer e i tag disp 0 [] d).link.queue ++ answersTo e.tables i disp tags := by
      unfold answersTo
      rw [List.map_cons, List.append_cons]
      rfl
    rw [hhead, ih, hqueue]
    rfl

theorem Level.below_iff (a b : Level) : a.below b = true ↔ a.rank < b.rank := decide_eq_true_iff

/-- The REFUSE sweep answers the entries above the cap and keeps the others (R134). -/
theorem refuseSweep_eq (i : SlotId) (cap : Level) (d : Plant) : refuseSweep e i cap d =
    Plant.put e i { d.slot i with hold := (d.slot i).hold.filter (fun h => h.requirement.rank ≤ cap.rank) }
      { d with link := { d.link with
          queue := d.link.queue ++ answersTo e.tables i .transitRefused
            (((d.slot i).hold.filter (fun h => cap.rank < h.requirement.rank)).map HoldEntry.tag) } } := by
  have hkeep : (fun h : HoldEntry => !cap.below h.requirement) = fun h => decide (h.requirement.rank ≤ cap.rank) := by
    funext h
    unfold Level.below
    rw [← decide_not]
    simp only [Nat.not_lt]
  unfold refuseSweep answerHeld
  simp only
  rw [answerTags_eq, hkeep]
  rfl

/-! ### A suspension (R58, R136 to R142) -/

/-- A suspension that begins freezes the countdowns and, under FREEZE, the hold timers (R136). -/
theorem Slot.suspend_eq (r : Slot) : r.suspend e = { r with
    suspension := some ⟨e.cls, e.clock, r.requested, (r.idleUnload.freeze e.clock).frozenRem,
      (r.idleStop.freeze e.clock).frozenRem, r.transitDisposition⟩
    idleUnload := r.idleUnload.freeze e.clock
    idleStop := r.idleStop.freeze e.clock
    hold := if r.transitDisposition = .freeze then r.hold.map (fun h => { h with timer := h.timer.freeze e.clock })
      else r.hold } := by
  unfold Slot.suspend
  simp only
  split <;> rfl

/-- A suspension that continues takes the class in force and converts the hold timers (R139, R140). -/
theorem Slot.resuspend_eq (rec : Suspension) (r : Slot) : r.resuspend e rec = { r with
    suspension := some { rec with cls := e.cls, disposition := r.transitDisposition }
    hold := r.hold.map (if r.transitDisposition = .freeze then fun h => { h with timer := h.timer.freeze e.clock }
      else fun h => { h with timer := h.timer.resume e.clock }) } := by
  unfold Slot.resuspend Slot.holdBy
  cases r.transitDisposition <;> rfl

theorem Slot.settleForCap_of_out (cap : Level) (h : r.outOfService = true) : r.settleForCap e cap = r := if_pos h

/-- Below the requested level a cap begins a suspension or goes on with it. -/
theorem Slot.settleForCap_of_below {cap : Level} (h : r.outOfService = false) (hcap : cap.rank < r.requested.rank) :
    (r.suspension = none → r.settleForCap e cap = r.suspend e) ∧
      ∀ q, r.suspension = some q → r.settleForCap e cap = r.resuspend e q := by
  refine ⟨fun hs => ?_, fun q hs => ?_⟩
  all_goals
    unfold Slot.settleForCap
    rw [if_neg (by rw [h]; exact Bool.false_ne_true), if_pos ((Level.below_iff _ _).mpr hcap)]
    simp only [hs]

/-- At or above the requested level a cap ends a suspension by cap rise. -/
theorem Slot.settleForCap_of_reached {cap : Level} (h : r.outOfService = false) (hcap : ¬cap.rank < r.requested.rank) :
    (r.suspension = none → r.settleForCap e cap = r) ∧
      ∀ q, r.suspension = some q → r.settleForCap e cap = r.endByCapRise e := by
  refine ⟨fun hs => ?_, fun q hs => ?_⟩
  all_goals
    unfold Slot.settleForCap
    rw [if_neg (by rw [h]; exact Bool.false_ne_true), if_neg (mt (Level.below_iff _ _).mp hcap)]
    simp only [hs]

/-- A suspension settled after a write of the requested level, case by case (R135). -/
theorem settleSuspension_of_out (h : (d.slot i).outOfService = true) : settleSuspension e i d = d := if_pos h

theorem settleSuspension_of_below (h : (d.slot i).outOfService = false)
    (hcap : (d.slot i).transitCap.rank < (d.slot i).requested.rank) :
    ((d.slot i).suspension = none → settleSuspension e i d =
      if (d.slot i).transitDisposition = .refuse then
        refuseSweep e i (d.slot i).transitCap (d.put e i ((d.slot i).suspend e))
      else d.put e i ((d.slot i).suspend e)) ∧
      ∀ q, (d.slot i).suspension = some q → settleSuspension e i d = d := by
  have hout : ¬(d.slot i).outOfService = true := by rw [h]; exact Bool.false_ne_true
  refine ⟨fun hs => ?_, fun q hs => ?_⟩
  all_goals
    unfold settleSuspension
    simp only [hs]
    rw [if_neg hout, if_pos ((Level.below_iff _ _).mpr hcap)]

theorem settleSuspension_of_reached (h : (d.slot i).outOfService = false)
    (hcap : ¬(d.slot i).transitCap.rank < (d.slot i).requested.rank) :
    ((d.slot i).suspension = none → settleSuspension e i d = d) ∧
      ∀ q, (d.slot i).suspension = some q → settleSuspension e i d = d.put e i ((d.slot i).endByLowering e) := by
  have hout : ¬(d.slot i).outOfService = true := by rw [h]; exact Bool.false_ne_true
  refine ⟨fun hs => ?_, fun q hs => ?_⟩
  all_goals
    unfold settleSuspension
    simp only [hs]
    rw [if_neg hout, if_neg (mt (Level.below_iff _ _).mp hcap)]

/-! ### A slot that acts keeps its suspension -/

theorem emulationCheck_suspension (i : SlotId) (d : Plant) :
    ((emulationCheck e i d).slot i).suspension = (d.slot i).suspension := by
  rw [emulationCheck_eq]
  split
  · rw [answerEmulated_slot]
    rfl
  · rfl

theorem put_suspension (h : r.suspension = (d.slot i).suspension) : ((d.put e i r).slot i).suspension = (d.slot i).suspension := by
  rw [Plant.slot_put_same]
  exact h

theorem act_suspension (i : SlotId) (d : Plant) : ((act e i d).slot i).suspension = (d.slot i).suspension := by
  cases hs : (d.slot i).state with
  | empty | faulted | unloading | stopping => rw [act_unmoved (by simp [hs])]
  | stopped =>
    rw [act_stopped hs]
    split
    · rw [Plant.slot_joinQueue]
      exact put_suspension rfl
    · rfl
  | queued =>
    rw [act_queued hs]
    split
    · rw [emulationCheck_suspension, Plant.slot_leaveQueue]
      exact put_suspension rfl
    · rfl
  | starting =>
    rw [act_starting hs]
    split
    · exact put_suspension rfl
    · rfl
  | spun =>
    by_cases he : (d.slot i).effective = .stop
    · rw [act_spun_stop hs he]
      exact put_suspension rfl
    · rw [act_spun_up hs he]
      exact put_suspension rfl
  | loading =>
    rw [act_loading hs]
    split
    · rfl
    · exact put_suspension rfl
  | loaded =>
    rw [act_loaded hs]
    split
    · split
      · exact put_suspension rfl
      · rfl
    split
    · rfl
    split
    · exact put_suspension rfl
    · exact put_suspension rfl

theorem writeTransitCap_suspension (i : SlotId) (cap : Level) (d : Plant) :
    ((writeTransitCap e i cap d).slot i).suspension = (d.slot i).suspension := by
  have hput : ((d.put e i { d.slot i with transitCap := cap }).slot i).suspension = (d.slot i).suspension := put_suspension rfl
  unfold writeTransitCap actIfChanged
  simp only
  split
  · exact hput
  · rw [act_suspension, hput]

/-! ### An application of the policy (R132) -/

/-- The application, in its steps: the disposition and the suspension, the REFUSE sweep, and the cap. -/
theorem applyPolicy_eq (i : SlotId) (d : Plant) : applyPolicy e i d =
    writeTransitCap e i (e.tables.policyCap e.cls (e.tables.group i))
      (if e.tables.policyDisposition e.cls (e.tables.group i) = .refuse then
        refuseSweep e i (e.tables.policyCap e.cls (e.tables.group i)) (d.put e i ((d.slot i).rowApplied e i))
      else d.put e i ((d.slot i).rowApplied e i)) := rfl

theorem applyPolicy_suspension (i : SlotId) (d : Plant) :
    ((applyPolicy e i d).slot i).suspension = ((d.slot i).rowApplied e i).suspension := by
  have hput : ((d.put e i ((d.slot i).rowApplied e i)).slot i).suspension = ((d.slot i).rowApplied e i).suspension := by
    rw [Plant.slot_put_same]
    rfl
  rw [applyPolicy_eq, writeTransitCap_suspension]
  split
  · unfold refuseSweep
    rw [answerHeld_slot, if_pos rfl, ← hput]
    rfl
  · exact hput

/-- The record that an application gives a slot before its cap is written, case by case. -/
theorem Slot.rowApplied_eq (i : SlotId) (r : Slot) :
    let cap := e.tables.policyCap e.cls (e.tables.group i)
    let disp := e.tables.policyDisposition e.cls (e.tables.group i)
    let r' : Slot := { r with transitDisposition := disp }
    (r.outOfService = true → r.rowApplied e i = r') ∧
      (r.outOfService = false → cap.rank < r.requested.rank →
        (r.suspension = none → r.rowApplied e i = r'.suspend e) ∧
          ∀ q, r.suspension = some q → r.rowApplied e i = r'.resuspend e q) ∧
      (r.outOfService = false → ¬cap.rank < r.requested.rank →
        (r.suspension = none → r.rowApplied e i = r') ∧ ∀ q, r.suspension = some q → r.rowApplied e i = r'.endByCapRise e) := by
  intro cap disp r'
  have hrow : r.rowApplied e i = r'.settleForCap e cap := rfl
  rw [hrow]
  exact ⟨fun h => Slot.settleForCap_of_out (r := r') cap h, fun h hcap => Slot.settleForCap_of_below (r := r') h hcap,
    fun h hcap => Slot.settleForCap_of_reached (r := r') h hcap⟩

end Sys2Proof.Machine
end

section
/-! SUPPORT. A class change (R127, R128, R145, R149): the class derived, the exposures counted, and what the two blocks that take
the change leave, in either order. -/

namespace Sys2Proof.Machine

variable {e : Env} {i : SlotId} {d : Plant}

/-! ### The class (R127, Table 6-3) -/

theorem MotionClass.worse_eq : ∀ a b : MotionClass, a.worse b = if a.severity ≤ b.severity then b else a := by
  intro a b
  cases a <;> cases b <;> rfl

/-- The class derived: the classifier's, but outside OK one no milder than the blind class. -/
theorem Monitor.derivedClass_eq (t : Tables) (m : Monitor) : m.derivedClass t =
    if m.sensor = .ok ∨ t.blindClass.severity ≤ m.classifier.severity then m.classifier else t.blindClass := by
  unfold Monitor.derivedClass
  cases h : m.sensor with
  | ok => rw [if_pos (.inl rfl)]
  | filling | lost => simp only [MotionClass.worse_eq, reduceCtorEq, false_or]

/-! ### Exposures (R128) -/

theorem countExposures_slot (old new : MotionClass) (d : Plant) (i : SlotId) :
    ((countExposures e old new d).slot i).exposures =
      if (new = .jolt ∨ new = .fall) ∧ old.severity < new.severity ∧ (d.slot i).headsOut = true ∧ (d.slot i).exposures < 65535
      then (d.slot i).exposures + 1 else (d.slot i).exposures := by
  have hrise : riseInto old new = true ↔ (new = .jolt ∨ new = .fall) ∧ old.severity < new.severity := by
    unfold riseInto
    simp only [Bool.and_eq_true, Bool.or_eq_true, decide_eq_true_eq]
  unfold countExposures
  by_cases h : riseInto old new = true
  · obtain ⟨hnew, hlt⟩ := hrise.mp h
    have hslots : ((allSlots.foldl (countExposure e) d).slot i).exposures =
        if (d.slot i).headsOut = true then satInc (d.slot i).exposures else (d.slot i).exposures := by
      obtain ⟨d', hslot, hfold⟩ := Plant.slot_foldl_of_others (f := countExposure e) (j := i) (fun d i j hj => by
        unfold countExposure
        split
        · exact Plant.slot_put_other e hj _ d
        · rfl) nodup_allSlots (mem_allSlots i) d
      rw [hfold, ← hslot]
      unfold countExposure
      split
      · rw [Plant.slot_put_same]
        rfl
      · rfl
    rw [if_pos h, hslots]
    unfold satInc
    by_cases hheads : (d.slot i).headsOut = true <;> simp [hnew, hlt, hheads]
  · rw [if_neg h, if_neg fun hn => h (hrise.mpr ⟨hn.1, hn.2.1⟩)]

theorem riseInto_link (old new : MotionClass) (sensor : SensorState) {d : Plant} (h : d.link.events.length < 32) :
    (countExposures e old new (d.record e.clock (.classChanged old new sensor))).link.events =
      d.link.events ++ [⟨e.clock, .classChanged old new sensor⟩] := by
  rw [countExposures_link, Plant.record_events_of_room _ _ h]

/-! ### The emergency park logic takes the change (R149, R150, R154) -/

theorem SourceSet.has_add (q : SourceSet) (x : EmgSource) : (q.add x).has x = true := by
  cases x <;> rfl

/-- A source taken, other than POWER or at a clear latch, leaves the latch set and the source in its set. -/
theorem react_takeSource_latches {q : EmgSource} (hq : q ≠ .power) (d : Plant) : let g := (react e (takeSource e q d)).emg
    g.latched = true ∧ g.sources.has q = true := by
  cases h : d.emg.latched with
  | true =>
    obtain ⟨hlatched, hsources, -, -, -⟩ := react_takeSource_emg_of_latched (e := e) h hq
    exact ⟨hlatched.trans h, by rw [hsources]; exact SourceSet.has_add _ _⟩
  | false =>
    obtain ⟨hlatched, hsources, -, -, -⟩ := react_takeSource_emg_of_clear (e := e) h q
    exact ⟨hlatched, by rw [hsources]; exact SourceSet.has_add _ _⟩

theorem classSource_of_flag {t : Tables} {c : MotionClass} (h : c = .jolt ∨ c = .fall) (hflag : t.emergencyFlag c = true) :
    classSource t c = some (if c = .jolt then .jolt else .fall) := by
  rcases h with rfl | rfl
  · exact if_pos hflag
  · exact if_pos hflag

theorem emergencyTakesClass_latches {q : EmgSource} (h : classSource e.tables e.cls = some q) (hq : q ≠ .power) (d : Plant) :
    (emergencyTakesClass e d).emg.latched = true ∧ (emergencyTakesClass e d).emg.sources.has q = true := by
  have htaken : emergencyTakesClass e d = react e (takeSource e q d) := by
    unfold emergencyTakesClass
    rw [h]
  rw [htaken]
  exact react_takeSource_latches hq d

/-- The transit controller leaves the latch and the sources. -/
theorem applyPolicyAll_emg (d : Plant) :
    (applyPolicyAll e d).emg.latched = d.emg.latched ∧ (applyPolicyAll e d).emg.sources = d.emg.sources := by
  have hslots : (allSlots.foldl (applyPolicyAt e) d).emg = d.emg := Plant.foldl_emg (fun d i => by
    unfold applyPolicyAt
    rw [budgetReact_emg, (serveHead_onlyAt i _).emg, (applyPolicy_onlyAt i d).emg]) allSlots d
  obtain ⟨hlatched, hsources, -⟩ := (react_responds (e := e) (allSlots.foldl (applyPolicyAt e) d)).emg
  rw [hslots] at hlatched hsources
  unfold applyPolicyAll
  exact ⟨hlatched, hsources⟩

/-! ### The emergency park logic leaves every slot under the policy -/

theorem Slot.inService_of_headsOut {r : Slot} (h : r.headsOut = true) : r.outOfService = false := by
  simp only [Slot.headsOut, Bool.or_eq_true, decide_eq_true_eq] at h
  unfold Slot.outOfService
  rcases h with (h | h) | h <;> rw [h] <;> rfl

theorem parkSlot_staysUnder (d : Plant) (i : SlotId) : d.StaysUnder e.cls (parkSlot e d i) := by
  unfold parkSlot
  split
  · next h =>
    have hservice : (d.slot i).outOfService = false := Slot.inService_of_headsOut ((Slot.toBeParked_iff _).mp h).1
    have hput : d.SameTransit (d.put e i ((d.slot i).toUnloading e i .emergencyUnload .emergency)) :=
      .put i _ (.of_transit rfl fun _ => hservice)
    exact (hput.trans (abort_sameTransit i _ _)).staysUnder.trans (serveHead_staysUnder i _)
  · exact .refl _ d

theorem writeEmergencyCaps_sameTransit (cap : EmergencyCap) (d : Plant) : d.SameTransit (writeEmergencyCaps e cap d) := by
  refine .foldl (fun d i => ?_) _ d
  have hput : d.SameTransit (d.put e i { d.slot i with emergencyCap := cap }) := .put i _ (.of_transit rfl id)
  exact hput.trans (actIfChanged_sameTransit i _ _)

theorem takeSource_staysUnder (q : EmgSource) (d : Plant) : d.StaysUnder e.cls (takeSource e q d) := by
  have hemg : ∀ (d : Plant) (g : Emergency), d.SameTransit { d with emg := g } := fun d g => .of_slots rfl
  unfold takeSource
  split
  · refine Plant.SameTransit.staysUnder ?_
    have hrecord : ∀ (g : Emergency) (ev : Event), d.SameTransit (Plant.record e.clock ev { d with emg := g }) :=
      fun g ev => (hemg d g).trans (Plant.record_sameTransit _ _ _)
    unfold addSource
    split
    · exact .refl d
    · dsimp only
      split
      · exact (hrecord _ _).trans (writeEmergencyCaps_sameTransit _ _)
      · exact hrecord _ _
  · unfold latchEmergency
    refine .trans ?_ (examinePhase_sameTransit _).staysUnder
    refine .trans ?_ (Plant.record_sameTransit _ _ _).staysUnder
    refine .trans ?_ (hemg _ _).staysUnder
    refine .trans ?_ (writeEmergencyCaps_sameTransit _ _).staysUnder
    refine .trans ?_ (hemg _ _).staysUnder
    exact (hemg d _).staysUnder.trans (.foldl parkSlot_staysUnder allSlots _)

theorem emergencyTakesClass_staysUnder (d : Plant) : d.StaysUnder e.cls (emergencyTakesClass e d) := by
  unfold emergencyTakesClass
  split
  · exact (takeSource_staysUnder _ d).trans (react_staysUnder _)
  · exact react_staysUnder d

/-! ### The change, in either order (R145) -/

theorem takeClassChange_eq (first : Bool) (old : MotionClass) (sensor : SensorState) {d d1 : Plant}
    (h : d1 = countExposures e old e.cls (d.record e.clock (.classChanged old e.cls sensor))) :
    takeClassChange e first old sensor d = if first = true then emergencyTakesClass e (applyPolicyAll e d1)
      else applyPolicyAll e (emergencyTakesClass e d1) := by
  rw [h]
  unfold takeClassChange
  rfl

/-- What a class change leaves of the plant, whichever block takes it first. -/
theorem takeClassChange_frame (first : Bool) (old : MotionClass) (sensor : SensorState) (d : Plant) :
    let t := takeClassChange e first old sensor d
    (d.link.events.length < 32 → d.link.events ++ [⟨e.clock, .classChanged old e.cls sensor⟩] <+: t.link.events) ∧
      (∀ i, (t.slot i).exposures = if (e.cls = .jolt ∨ e.cls = .fall) ∧ old.severity < e.cls.severity ∧
          (d.slot i).headsOut = true ∧ (d.slot i).exposures < 65535
        then (d.slot i).exposures + 1 else (d.slot i).exposures) ∧
      (∀ q, classSource e.tables e.cls = some q → q ≠ .power → t.emg.latched = true ∧ t.emg.sources.has q = true) ∧
      ∀ i, (t.slot i).underPolicy e.tables e.cls i := by
  intro t
  obtain ⟨d1, hd1⟩ : ∃ d1, d1 = countExposures e old e.cls (d.record e.clock (.classChanged old e.cls sensor)) := ⟨_, rfl⟩
  have htaken : t = _ := takeClassChange_eq first old sensor hd1
  have hcounted := countExposures_slot (e := e) old e.cls (d.record e.clock (.classChanged old e.cls sensor))
  have hrecorded := riseInto_link (e := e) old e.cls sensor (d := d)
  rw [← hd1] at hcounted hrecorded
  have hgrown : Plant.Reach e d1 t ∧
      (∀ q, classSource e.tables e.cls = some q → q ≠ .power → t.emg.latched = true ∧ t.emg.sources.has q = true) ∧
      ∀ i, (t.slot i).underPolicy e.tables e.cls i := by
    cases first with
    | true =>
      rw [htaken, if_pos rfl]
      exact ⟨(applyPolicyAll_reach d1).trans (emergencyTakesClass_reach _),
        fun q hq hpower => emergencyTakesClass_latches hq hpower _,
        fun i => (emergencyTakesClass_staysUnder _ i).policy _ _ (applyPolicyAll_underPolicy d1 i)⟩
    | false =>
      obtain ⟨hlatched, hsources⟩ := applyPolicyAll_emg (e := e) (emergencyTakesClass e d1)
      rw [htaken, if_neg Bool.false_ne_true, hlatched, hsources]
      exact ⟨(emergencyTakesClass_reach d1).trans (applyPolicyAll_reach _),
        fun q hq hpower => emergencyTakesClass_latches hq hpower _, applyPolicyAll_underPolicy _⟩
  obtain ⟨hreach, hlatches, hunder⟩ := hgrown
  refine ⟨fun hroom => ?_, fun i => ?_, hlatches, hunder⟩
  · rw [← hrecorded hroom]
    exact hreach.grows.events
  · rw [(hreach.shape.slots i).1, hcounted, Plant.record_slot]

/-- Settles O45: the class by the table, the change by what its two takers leave, the application step by step. -/
theorem classChangeTaken : Obligations.ClassChangeTaken := by
  refine ⟨fun s => ?_, fun b new s => ?_, fun e i d => ?_, fun now full left holds => ?_⟩
  · intro m worst blind new
    have hnew : s.monitor.derivedClass s.tables = new := Monitor.derivedClass_eq s.tables s.monitor
    refine ⟨fun h => if_pos (hnew.trans h), fun h => ⟨Config.freeOrder s.freeCount, ?_⟩⟩
    rw [← hnew] at h ⊢
    exact if_neg h
  · intro t
    let e : Env := ⟨s.clock, s.tables, new, none⟩
    obtain ⟨hevents, hexposures, hlatches, hunder⟩ :=
      takeClassChange_frame (e := e) b s.monitor.cls s.monitor.sensor s.plant
    have hplant : t.plant = (takeClassChange e b s.monitor.cls s.monitor.sensor s.plant).settleLink :=
      State.onPlant_plant _ _
    have hmonitor : t.monitor = { s.monitor with cls := new } := State.onPlant_monitor _ _
    rw [hplant]
    refine ⟨hmonitor, fun hroom => ?_, fun i => ?_, fun hnew hflag => ?_, fun i => ?_⟩
    · rw [Plant.events_settleLink]
      exact hevents hroom
    · rw [Plant.slot_settleLink]
      exact hexposures i
    · rw [Plant.emg_settleLink]
      exact hlatches _ (classSource_of_flag hnew hflag) (by split <;> nofun)
    · rw [Plant.slot_settleLink]
      exact hunder i
  · intro r cap disp frozen running begun refused swept settled
    have hsettled : r.rowApplied e i = settled := by
      obtain ⟨hout, hbelow, hreached⟩ := Slot.rowApplied_eq (e := e) i r
      cases hservice : r.outOfService with
      | true => rw [hout hservice, show settled = _ from if_pos hservice]
      | false =>
        have hin : ¬r.outOfService = true := by rw [hservice]; exact Bool.false_ne_true
        by_cases hcap : cap.rank < r.requested.rank
        · obtain ⟨hbegins, hcontinues⟩ := hbelow hservice hcap
          rw [show settled = _ from (if_neg hin).trans (if_pos hcap)]
          cases hsus : r.suspension with
          | none => rw [hbegins hsus, Slot.suspend_eq]
          | some q =>
            rw [hcontinues q hsus, Slot.resuspend_eq]
        · obtain ⟨hrests, hrises⟩ := hreached hservice hcap
          rw [show settled = _ from (if_neg hin).trans (if_neg hcap)]
          cases hsus : r.suspension with
          | none =>
            rw [hrests hsus]
            exact congrArg (fun x => ({ r with transitDisposition := disp, suspension := x } : Slot)) hsus
          | some q => rw [hrises q hsus]; rfl
    obtain ⟨hcap, hdisp, -, -⟩ := applyPolicy_underPolicy (e := e) i d
    refine ⟨?_, hcap, hdisp, ?_, (applyPolicy_onlyAt i d).slot, ?_⟩
    · rw [applyPolicy_eq, show (d.slot i).rowApplied e i = settled from hsettled, refuseSweep_eq]
    · rw [applyPolicy_suspension, show (d.slot i).rowApplied e i = settled from hsettled]
    · cases hservice : r.outOfService with
      | true => rw [settleSuspension_of_out hservice, if_pos rfl]
      | false =>
        rw [if_neg Bool.false_ne_true]
        by_cases hcap : r.transitCap.rank < r.requested.rank
        · obtain ⟨hbegins, hcontinues⟩ := settleSuspension_of_below (e := e) hservice hcap
          rw [if_pos hcap]
          cases hsus : r.suspension with
          | none =>
            rw [hbegins hsus, refuseSweep_eq, Slot.suspend_eq]
            by_cases hdisp : r.transitDisposition = .refuse
            · rw [if_pos hdisp, if_pos hdisp, show (d.slot i).transitDisposition = .refuse from hdisp]
            · rw [if_neg hdisp, if_neg hdisp]
          | some q => rw [hcontinues q hsus]
        · obtain ⟨hrests, hends⟩ := settleSuspension_of_reached (e := e) hservice hcap
          rw [if_neg hcap]
          cases hsus : r.suspension with
          | none => rw [hrests hsus]
          | some q =>
            rw [hends q hsus]
            rfl
  · refine ⟨rfl, rfl, fun hfull => ⟨?_, ?_⟩⟩
    · exact (if_neg hfull).trans (if_pos rfl)
    · exact (if_neg hfull).trans (if_neg Bool.false_ne_true)

end Sys2Proof.Machine
end

section
/-! SUPPORT. A source taken (R149 to R155): the parking pass and the frames it queues, a first and a further source, and the phase. -/

namespace Sys2Proof.Machine

variable {e : Env} {i : SlotId} {d : Plant}

/-! ### Frames that answer ABORTED_EMERGENCY -/

/-- A COMPLETION frame with the disposition ABORTED_EMERGENCY. -/
def UpFrame.abortsPark (f : UpFrame) : Bool :=
  f.kind = .completion ∧ f.payload.head? = some Disposition.abortedEmergency.code

/-- The frames added to the upstream queue, of which those that answer ABORTED_EMERGENCY are the given ones. -/
def Plant.Aborts (d d' : Plant) (xs : List UpFrame) : Prop :=
  ∃ fs, d'.link.queue = d.link.queue ++ fs ∧ fs.filter UpFrame.abortsPark = xs

theorem Plant.Aborts.trans {a b c : Plant} {xs ys : List UpFrame} (h : a.Aborts b xs) (g : b.Aborts c ys) :
    a.Aborts c (xs ++ ys) := by
  obtain ⟨fs, hqueue, hfs⟩ := h
  obtain ⟨gs, gqueue, hgs⟩ := g
  exact ⟨fs ++ gs, by rw [gqueue, hqueue, List.append_assoc], by rw [List.filter_append, hfs, hgs]⟩

theorem Plant.Aborts.of_queue {d d' : Plant} (h : d'.link.queue = d.link.queue) : d.Aborts d' [] :=
  ⟨[], by rw [h, List.append_nil], rfl⟩

/-- What the head rules and the writes of levels queue answers other dispositions. -/
theorem Plant.Says.aborts {d d' : Plant} (h : d.Says d') : d.Aborts d' [] := by
  obtain ⟨-, fs, hqueue, hfs⟩ := h
  refine ⟨fs, hqueue, List.filter_eq_nil_iff.mpr fun f hf => ?_⟩
  obtain ⟨unit, tag, disp, status, payload, hdisp, rfl⟩ := hfs f hf
  simp only [List.mem_cons, List.not_mem_nil, or_false] at hdisp
  rcases hdisp with rfl | rfl | rfl <;> exact Bool.false_ne_true

theorem Plant.record_aborts (now : Clock) (ev : Event) (d : Plant) : d.Aborts (d.record now ev) [] := by
  rcases Plant.record_queue now ev d with h | ⟨h, -⟩
  · exact .of_queue h
  · exact ⟨[attentionFrame], h, rfl⟩

theorem answersTo_aborts (t : Tables) (i : SlotId) (tags : List Byte) :
    (answersTo t i .abortedEmergency tags).filter UpFrame.abortsPark = answersTo t i .abortedEmergency tags := by
  refine List.filter_eq_self.mpr fun f hf => ?_
  obtain ⟨tag, -, rfl⟩ := List.mem_map.mp hf
  rfl

/-! ### The parking pass (R151) -/

theorem Slot.toBeParked_eq (r : Slot) :
    r.toBeParked = (r.headsOut && !(r.state == .unloading && r.unloadMark == .fault)) := rfl

theorem parkSlot_of_not (h : (d.slot i).toBeParked = false) : parkSlot e d i = d :=
  if_neg (Bool.eq_false_iff.mp h)

/-- The plant in which a parked slot's head is examined. -/
def Plant.parked (e : Env) (i : SlotId) (d : Plant) : Plant :=
  abort e i .abortedEmergency (d.put e i ((d.slot i).toUnloading e i .emergencyUnload .emergency))

theorem parkSlot_of_parks (h : (d.slot i).toBeParked = true) : parkSlot e d i = serveHead e i (d.parked e i) := if_pos h

/-- A slot parked: its order issued, its outstanding commands answered, its held entries kept. -/
theorem Plant.parked_frame (i : SlotId) (d : Plant) : let t := d.parked e i
    t.link.queue = d.link.queue ++ answersTo e.tables i .abortedEmergency ((d.slot i).outstanding.map OutEntry.tag) ∧
      (t.slot i).motion = (d.slot i).parkedMotion e i ∧
      (t.slot i).lane = (d.slot i).lane.abortedFor .emergencyUnload ⟨e.clock, e.tables.unloadMs i⟩ ∧
      (t.slot i).outstanding = [] ∧ (t.slot i).hold = (d.slot i).hold ∧ (∀ j, j ≠ i → t.slot j = d.slot j) ∧
      t.link.events = d.link.events := by
  intro t
  let r := (d.slot i).toUnloading e i .emergencyUnload .emergency
  have hslot : (d.put e i r).slot i = r.examineCountdowns e i := Plant.slot_put_same _ _ _ _
  have ht : t.slot i = (Slot.nextEpoch { (d.put e i r).slot i with outstanding := [] }).examineCountdowns e i := by
    show (abort e i .abortedEmergency (d.put e i r)).slot i = _
    rw [abort_slot, if_pos rfl]
  refine ⟨?_, ?_, ?_, ?_, ?_, fun j hj => ?_, answerTags_events i _ _ _⟩
  · show (abort e i .abortedEmergency (d.put e i r)).link.queue = _
    rw [abort_queue, hslot]
    rfl
  · show ((abort e i .abortedEmergency (d.put e i r)).slot i).motion = _
    rw [abort_motion, hslot, Slot.examineCountdowns_motion, Slot.toUnloading_motion]
    rfl
  · rw [ht, hslot, Slot.examineCountdowns_lane]
    show ({ (Slot.issue e i .emergencyUnload _).lane with cmdQueue := [] } : Lane) = _
    rw [Slot.issue_lane]
    rfl
  · rw [ht]
    rfl
  · rw [ht, hslot]
    rfl
  · show (abort e i .abortedEmergency (d.put e i r)).slot j = _
    rw [abort_slot, if_neg hj, Plant.slot_put_other _ hj]

/-- The answers that parking a slot gives. -/
def parkAnswers (e : Env) (i : SlotId) (r : Slot) : List UpFrame :=
  if r.toBeParked then answersTo e.tables i .abortedEmergency (r.outstanding.map OutEntry.tag) else []

theorem parkSlot_aborts (d : Plant) (i : SlotId) : d.Aborts (parkSlot e d i) (parkAnswers e i (d.slot i)) := by
  unfold parkAnswers
  cases h : (d.slot i).toBeParked with
  | false =>
    rw [parkSlot_of_not h]
    exact .of_queue rfl
  | true =>
    obtain ⟨hqueue, -⟩ := Plant.parked_frame (e := e) i d
    have habort : d.Aborts (d.parked e i) (answersTo e.tables i .abortedEmergency ((d.slot i).outstanding.map OutEntry.tag)) :=
      ⟨_, hqueue, answersTo_aborts _ _ _⟩
    have hboth := habort.trans (serveHead_says (e := e) i (d.parked e i)).aborts
    rw [List.append_nil] at hboth
    rw [parkSlot_of_parks h]
    exact hboth

theorem parkSlot_events (d : Plant) (i : SlotId) : (parkSlot e d i).link.events = d.link.events := by
  cases h : (d.slot i).toBeParked with
  | false => rw [parkSlot_of_not h]
  | true =>
    obtain ⟨-, -, -, -, -, -, hevents⟩ := Plant.parked_frame (e := e) i d
    rw [parkSlot_of_parks h, (serveHead_says i _).events, hevents]

/-- The pass gives the answers of each slot in turn. -/
theorem parkSlots_aborts {d0 : Plant} : ∀ (l : List SlotId) (d : Plant), l.Nodup → (∀ i ∈ l, d.slot i = d0.slot i) →
    d.Aborts (l.foldl (parkSlot e) d) (l.flatMap fun i => parkAnswers e i (d0.slot i))
  | [], _, _, _ => .of_queue rfl
  | i :: l, d, hl, h => by
    obtain ⟨hi, hl⟩ := List.nodup_cons.mp hl
    have hrest : ∀ j ∈ l, (parkSlot e d i).slot j = d0.slot j := fun j hj =>
      ((parkSlot_onlyAt d i).slot j (by rintro rfl; exact hi hj)).trans (h j (List.mem_cons_of_mem _ hj))
    have hhead := parkSlot_aborts (e := e) d i
    rw [h i List.mem_cons_self] at hhead
    rw [List.foldl_cons, List.flatMap_cons]
    exact hhead.trans (parkSlots_aborts l _ hl hrest)

theorem parkSlots_events (d : Plant) : (allSlots.foldl (parkSlot e) d).link.events = d.link.events :=
  List.foldlRecOn allSlots (parkSlot e) (motive := fun d' => d'.link.events = d.link.events) rfl
    fun d' hd' i _ => (parkSlot_events d' i).trans hd'

/-! ### The phase (R155) -/

/-- A slot that is in UNLOADING under mark EMERGENCY. -/
theorem Slot.parking_iff (r : Slot) : r.parking = true ↔ r.state = .unloading ∧ r.unloadMark = .emergency := by
  unfold Slot.parking
  rw [Bool.and_eq_true, decide_eq_true_eq, decide_eq_true_eq]

theorem examinePhase_of_parked (h : d.emg.phase = some .parking) (hnone : ¬∃ i, (d.slot i).parking = true) :
    examinePhase e d = Plant.record e.clock (.emergencyParked d.emg.sources (elapsed (d.emg.firstTime.getD e.clock) e.clock))
      { d with emg := { d.emg with phase := some .parked } } := by
  refine if_pos ?_
  rw [h, Bool.and_eq_true, List.all_eq_true]
  refine ⟨decide_eq_true rfl, fun i _ => ?_⟩
  rw [Bool.not_eq_true', Bool.eq_false_iff]
  exact fun hi => hnone ⟨i, hi⟩

theorem examinePhase_of_unparked (h : ∃ i, (d.slot i).parking = true) : examinePhase e d = d := by
  obtain ⟨i, hi⟩ := h
  refine if_neg fun hn => ?_
  rw [Bool.and_eq_true, List.all_eq_true] at hn
  have hnot := hn.2 i (mem_allSlots i)
  rw [hi] at hnot
  exact Bool.false_ne_true hnot

/-! ### A first source and a further source (R150, R154) -/

/-- The plant of a first source before its phase is examined. -/
def Plant.latched (e : Env) (q : EmgSource) (d : Plant) : Plant :=
  let d1 := { d with emg := { d.emg with
    latched := true, sources := SourceSet.empty.add q, firstSource := some q, firstTime := some e.clock } }
  let d2 := allSlots.foldl (parkSlot e) d1
  let d3 := writeEmergencyCaps e (sourceCap q) { d2 with emg := { d2.emg with cap := sourceCap q } }
  Plant.record e.clock (.emergencyBegan q d.parkCount) { d3 with emg := { d3.emg with phase := some .parking } }

theorem latchEmergency_eq (q : EmgSource) (d : Plant) : latchEmergency e q d = examinePhase e (d.latched e q) := rfl

theorem examinePhase_aborts (d : Plant) : d.Aborts (examinePhase e d) [] := by
  unfold examinePhase
  split
  · exact Plant.record_aborts _ _ _
  · exact .of_queue rfl

/-- What a first source leaves before its phase is examined. -/
theorem Plant.latched_frame (q : EmgSource) (d : Plant) : let t := d.latched e q
    t.emg.phase = some .parking ∧ (∀ i, (t.slot i).emergencyCap = sourceCap q) ∧
      d.Aborts t (allSlots.flatMap fun i => parkAnswers e i (d.slot i)) ∧
      (d.link.events.length < 32 → t.link.events = d.link.events ++ [⟨e.clock, .emergencyBegan q d.parkCount⟩]) := by
  unfold Plant.latched
  extract_lets g d1 d2 g2 d3 g3 t
  have hslots : ∀ i ∈ allSlots, d1.slot i = d.slot i := fun i _ => rfl
  have hlink : d1.link = d.link := rfl
  have hparked : d1.Aborts d2 _ := parkSlots_aborts (e := e) allSlots d1 nodup_allSlots hslots
  have hparkedEvents := parkSlots_events (e := e) d1
  rw [show allSlots.foldl (parkSlot e) d1 = d2 from rfl] at hparkedEvents
  have hsays : Plant.Says { d2 with emg := { d2.emg with cap := sourceCap q } } d3 := writeEmergencyCaps_says _ _
  have hcaps := writeEmergencyCaps_slot (e := e) (sourceCap q) { d2 with emg := { d2.emg with cap := sourceCap q } }
  rw [show writeEmergencyCaps e (sourceCap q) { d2 with emg := { d2.emg with cap := sourceCap q } } = d3 from rfl] at hcaps
  have ht : t = Plant.record e.clock (.emergencyBegan q d.parkCount)
      { d3 with emg := { d3.emg with phase := some .parking } } := rfl
  clear_value t g3 d3 g2 d2 d1 g
  have hevents : d3.link.events = d.link.events := hsays.events.trans (hparkedEvents.trans (congrArg Link.events hlink))
  obtain ⟨fs, hqueue, hfs⟩ := hparked
  obtain ⟨gs, gqueue, hgs⟩ := hsays.aborts
  obtain ⟨ks, kqueue, hks⟩ := Plant.record_aborts e.clock (.emergencyBegan q d.parkCount)
    { d3 with emg := { d3.emg with phase := some .parking } }
  rw [ht]
  refine ⟨by rw [Plant.record_emg], fun i => ?_, ⟨fs ++ gs ++ ks, ?_, ?_⟩, fun hroom => ?_⟩
  · rw [Plant.record_slot, Plant.slot_emg, hcaps]
  · rw [kqueue, gqueue, hqueue, hlink, List.append_assoc, List.append_assoc, List.append_assoc]
  · rw [List.filter_append, List.filter_append, hfs, hgs, hks, List.append_nil, List.append_nil]
  · rw [← hevents] at hroom ⊢
    exact Plant.record_events_of_room _ _ hroom

/-- A further source lowers the cap when it is POWER under cap SPIN (R154). -/
def Emergency.lowersFor (g : Emergency) (q : EmgSource) : Bool := q = .power && g.cap = .spin

/-- The plant of a further source before a lowered cap is written. -/
def Plant.withSource (e : Env) (q : EmgSource) (d : Plant) : Plant :=
  Plant.record e.clock (.emergencySourceAdded q (if d.emg.lowersFor q then .stop else d.emg.cap))
    { d with emg := { d.emg with sources := d.emg.sources.add q, cap := if d.emg.lowersFor q then .stop else d.emg.cap } }

theorem addSource_eq {q : EmgSource} (h : d.emg.sources.has q = false) : addSource e q d =
    if d.emg.lowersFor q then writeEmergencyCaps e .stop (d.withSource e q) else d.withSource e q :=
  if_neg (Bool.eq_false_iff.mp h)

/-- What a further source leaves. -/
theorem addSource_frame {q : EmgSource} (h : d.emg.sources.has q = false) : let t := addSource e q d
    t.emg = { d.emg with sources := d.emg.sources.add q, cap := if d.emg.lowersFor q then .stop else d.emg.cap } ∧
      (d.emg.lowersFor q = true → ∀ i, (t.slot i).emergencyCap = .stop) ∧
      (d.emg.lowersFor q = false → t.slots = d.slots) ∧
      (d.link.events.length < 32 → t.link.events = d.link.events ++
        [⟨e.clock, .emergencySourceAdded q (if d.emg.lowersFor q then .stop else d.emg.cap)⟩]) := by
  intro t
  have ht : t = _ := addSource_eq (e := e) h
  have hemg : (d.withSource e q).emg = { d.emg with
      sources := d.emg.sources.add q, cap := if d.emg.lowersFor q then .stop else d.emg.cap } := Plant.record_emg _ _ _
  have hslots : (d.withSource e q).slots = d.slots := (Plant.record_frame _ _ _).1
  have hevents : d.link.events.length < 32 → (d.withSource e q).link.events = d.link.events ++
      [⟨e.clock, .emergencySourceAdded q (if d.emg.lowersFor q then .stop else d.emg.cap)⟩] := fun hroom =>
    Plant.record_events_of_room (d := { d with emg := _ }) _ _ hroom
  rw [ht]
  cases hlowers : d.emg.lowersFor q with
  | true =>
    rw [hlowers] at hemg hevents
    rw [if_pos rfl, writeEmergencyCaps_emg, hemg, (writeEmergencyCaps_says _ _).events]
    exact ⟨rfl, fun _ => writeEmergencyCaps_slot _ _, fun hn => absurd hn.symm Bool.false_ne_true, hevents⟩
  | false =>
    rw [hlowers] at hemg hevents
    rw [if_neg Bool.false_ne_true, hemg]
    exact ⟨rfl, fun hn => absurd hn Bool.false_ne_true, fun _ => hslots, hevents⟩

/-! ### The phase at every response (R155) -/

/-- The response examines the phase once, of a plant with the emergency record that the event left. -/
theorem react_eq_examinePhase (e : Env) (d : Plant) :
    ∃ x, react e d = refreshSettle e (examinePhase e x) ∧ x.emg = d.emg := by
  refine ⟨serveHeads e (budgetReact e (serveHeads e (budgetReact e d))), rfl, ?_⟩
  rw [serveHeads_emg, budgetReact_emg, serveHeads_emg, budgetReact_emg]

theorem refreshSettle_slot (d : Plant) (i : SlotId) : (refreshSettle e d).slot i = d.slot i := by
  unfold refreshSettle
  split
  · split <;> rfl
  · rfl

theorem refreshSettle_link (d : Plant) : (refreshSettle e d).link = d.link := by
  unfold refreshSettle
  split
  · split <;> rfl
  · rfl

/-- A record that does not overrun the event list is its last. -/
theorem record_getLast (now : Clock) (ev : Event) (d : Plant) (h : (d.record now ev).link.overrun = false) :
    (d.record now ev).link.events.getLast? = some ⟨now, ev⟩ := by
  obtain ⟨hevents, hoverrun⟩ := Plant.record_list now ev d
  rw [hevents]
  rw [hoverrun] at h
  by_cases hroom : d.link.events.length < 32
  · rw [Link.store_of_room hroom]
    exact List.getLast?_concat
  · rw [Link.store_of_full (Nat.not_lt.mp hroom)] at h
    exact absurd h.symm Bool.false_ne_true

/-- A response that finds the phase PARKING: it stays while a slot is unparked, and is PARKED, and recorded, otherwise. -/
theorem react_phase_of_parking (h : d.emg.phase = some .parking) {u : Plant} (hreact : u = react e d) :
    ((∃ i, (u.slot i).parking = true) → u.emg.phase = some .parking) ∧
      ((¬∃ i, (u.slot i).parking = true) → u.emg.phase = some .parked ∧ (u.link.overrun = false →
        u.link.events.getLast? =
          some ⟨e.clock, .emergencyParked d.emg.sources (elapsed (d.emg.firstTime.getD e.clock) e.clock)⟩)) := by
  obtain ⟨x, hx, hemg⟩ := react_eq_examinePhase e d
  have hphase : x.emg.phase = some .parking := by rw [hemg, h]
  rw [hx] at hreact
  have hslots : ∀ i, u.slot i = x.slot i := fun i => by rw [hreact]; exact (refreshSettle_slot _ i).trans (examinePhase_slot x i)
  have hu : u.emg.phase = (examinePhase e x).emg.phase := by rw [hreact, refreshSettle_phase]
  have hlink : u.link = (examinePhase e x).link := by rw [hreact, refreshSettle_link]
  refine ⟨fun hparking => ?_, fun hnone => ?_⟩
  · simp only [hslots] at hparking
    rw [hu, examinePhase_of_unparked hparking, hphase]
  · simp only [hslots] at hnone
    have hparked := examinePhase_of_parked (e := e) hphase hnone
    rw [hu, hlink, hparked, hemg]
    refine ⟨by rw [Plant.record_emg], record_getLast _ _ _⟩

/-- Settles O23: a first source, its frames, a further source, a slot parked, and the phase. -/
theorem sourceTaken : Obligations.SourceTaken := by
  intro e q d cap parks aborted unparked t u
  have hunparked : ∀ d : Plant, unparked d ↔ ∃ i, (d.slot i).parking = true := fun d => by
    simp only [Slot.parking_iff]
    rfl
  refine ⟨fun hclear => ?_, fun hclear => ?_, fun hlatched hhas => ?_, fun hlatched hhas => ?_, fun i => ⟨fun h => ?_, fun h => ?_⟩,
    fun h => ?_, fun hphase hnone first hfirst => ?_, fun h => ?_, fun hphase => ⟨fun h => ?_, fun h => ?_⟩⟩
  · have ht : t = examinePhase e (d.latched e q) :=
      (takeSource_of_clear hclear q).trans (latchEmergency_eq q d)
    obtain ⟨phase, hemg⟩ := latchEmergency_emg (e := e) q d
    rw [latchEmergency_eq, ← ht] at hemg
    obtain ⟨hphase, hcaps, -, hevents⟩ := Plant.latched_frame (e := e) q d
    have hslots : ∀ i, t.slot i = (d.latched e q).slot i := fun i => by rw [ht, examinePhase_slot]
    refine ⟨by rw [hemg], by rw [hemg], by rw [hemg], by rw [hemg], by rw [hemg]; rfl, fun i => ?_, ?_, fun i => ?_,
      fun hroom => ?_⟩
    · rw [hslots, hcaps]
      rfl
    · by_cases hparking : ∃ i, (t.slot i).parking = true
      · rw [if_pos hparking]
        simp only [hslots] at hparking
        rw [ht, examinePhase_of_unparked hparking, hphase]
      · rw [if_neg hparking]
        simp only [hslots] at hparking
        rw [ht, examinePhase_of_parked hphase hparking, Plant.record_emg]
    · intro r h
      have hpassed := Slot.passedMotion_of_headsOut (e := e) (i := i) h
      have hmotion := latchEmergency_motion (e := e) (d := d) (i := i) (by rw [hpassed]; rfl) q
      rw [hpassed, latchEmergency_eq, ← ht] at hmotion
      exact hmotion
    · have hgrown := (examinePhase_reach (e := e) (d.latched e q)).grows.events
      rw [hevents hroom, ← ht, Plant.parkCount, ← List.countP_eq_length_filter] at hgrown
      exact hgrown
  · have ht : t = examinePhase e (d.latched e q) :=
      (takeSource_of_clear hclear q).trans (latchEmergency_eq q d)
    obtain ⟨-, -, haborts, -⟩ := Plant.latched_frame (e := e) q d
    obtain ⟨fs, hqueue, hfs⟩ := haborts.trans (examinePhase_aborts (e := e) (d.latched e q))
    rw [List.append_nil] at hfs
    rw [ht]
    exact ⟨fs, hqueue, hfs⟩
  · rw [show t = addSource e q d from takeSource_of_latched hlatched q]
    exact if_pos hhas
  · intro lowered
    have ht : t = addSource e q d := takeSource_of_latched hlatched q
    have hlowers : d.emg.lowersFor q = true ↔ lowered := by
      unfold Emergency.lowersFor
      rw [Bool.and_eq_true, decide_eq_true_eq, decide_eq_true_eq]
    obtain ⟨hemg, hcaps, hslots, hevents⟩ := addSource_frame (e := e) hhas
    simp only [hlowers] at hemg hevents
    rw [ht]
    exact ⟨hemg, fun h => hcaps (hlowers.mpr h), fun h => hslots (Bool.eq_false_iff.mpr (mt hlowers.mp h)), hevents⟩
  · exact parkSlot_of_not h
  · obtain ⟨hqueue, hmotion, hlane, hout, hhold, hother, -⟩ := Plant.parked_frame (e := e) i d
    exact ⟨d.parked e i, parkSlot_of_parks h, hqueue, hmotion, hlane, hout, hhold, hother⟩
  · rcases h with h | h
    · exact examinePhase_of_not_parking h
    · exact examinePhase_of_unparked ((hunparked d).mp h)
  · have hparked := examinePhase_of_parked (e := e) hphase (mt (hunparked d).mpr hnone)
    rw [hfirst] at hparked
    exact hparked
  · have hkept := react_phase_of_not_parking (e := e) h
    rwa [show react e d = u from rfl] at hkept
  · exact (react_phase_of_parking (e := e) hphase (u := u) rfl).1 ((hunparked u).mp h)
  · obtain ⟨hparked, hlast⟩ := (react_phase_of_parking (e := e) hphase (u := u) rfl).2 (mt (hunparked u).mpr h)
    refine ⟨hparked, fun first hfirst hover => ?_⟩
    rw [hfirst] at hlast
    exact hlast hover

end Sys2Proof.Machine
end

section
/-! SUPPORT. The power lines (R99, R100), the change of the power state (R101, R112), and the sheds (R106 to R111). -/

namespace Sys2Proof.Machine

variable {e : Env} {d : Plant}

/-! ### The shed order (R107) -/

theorem mem_allSlotsDown (i : SlotId) : i ∈ allSlotsDown := by
  revert i
  decide

theorem allSlotsDown_pairwise : allSlotsDown.Pairwise fun i j => j < i := by decide

theorem mem_shedOrder {t : Tables} (h : ∀ i, t.priority i ≤ 7) (i : SlotId) : i ∈ shedOrder t := by
  have hpriority : t.priority i ∈ [7, 6, 5, 4, 3, 2, 1, 0] := by
    have hle := h i
    simp only [List.mem_cons, List.not_mem_nil, or_false]
    omega
  exact List.mem_flatMap.mpr ⟨t.priority i, hpriority, List.mem_filter.mpr ⟨mem_allSlotsDown i, decide_eq_true rfl⟩⟩

theorem shedOrder_pairwise (t : Tables) : (shedOrder t).Pairwise fun i j =>
    t.priority j < t.priority i ∨ (t.priority j = t.priority i ∧ j < i) := by
  have hdown : [7, 6, 5, 4, 3, 2, 1, 0].Pairwise fun p q : Nat => q < p := by decide
  refine List.pairwise_flatMap.mpr ⟨fun p _ => ?_, hdown.imp fun {p q} hpq i hi j hj => ?_⟩
  · refine (allSlotsDown_pairwise.filter _).imp_of_mem fun {i j} hi hj hij => .inr ⟨?_, hij⟩
    rw [of_decide_eq_true (List.mem_filter.mp hi).2, of_decide_eq_true (List.mem_filter.mp hj).2]
  · refine .inl ?_
    rw [of_decide_eq_true (List.mem_filter.mp hi).2, of_decide_eq_true (List.mem_filter.mp hj).2]
    exact hpq

/-! ### The victims of a shed (R107, R108) -/

theorem takeVictim_of_eligible {i : SlotId}
    (h : d.budget.budget < d.projected e ∧ 0 < e.drawOf i (d.slot i) ∧ (d.slot i).budgetCap = .none) :
    takeVictim e d i = writeBudgetCap e i .stop d := by
  obtain ⟨hover, hdraws, hcap⟩ := h
  refine if_pos ?_
  rw [hcap, decide_eq_true hover, decide_eq_true hdraws]
  rfl

theorem takeVictim_of_not {i : SlotId}
    (h : ¬(d.budget.budget < d.projected e ∧ 0 < e.drawOf i (d.slot i) ∧ (d.slot i).budgetCap = .none)) :
    takeVictim e d i = d := by
  refine if_neg fun hn => h ?_
  simpa only [Bool.and_eq_true, decide_eq_true_eq, and_assoc] using hn

/-- The part of a slot in the projected draw (R107). -/
def Plant.share (e : Env) (d : Plant) (i : SlotId) : Nat :=
  if (d.slot i).budgetCap = .stop then 0 else e.drawOf i (d.slot i)

theorem Plant.projected_eq (d : Plant) : d.projected e = (allSlots.map (d.share e)).sum := rfl

/-- A slot considered keeps the budget, the part of every other slot, and a part of 0. -/
theorem takeVictim_share (i j : SlotId) (h : j ≠ i ∨ d.share e j = 0) : (takeVictim e d i).share e j = d.share e j := by
  by_cases heligible : d.budget.budget < d.projected e ∧ 0 < e.drawOf i (d.slot i) ∧ (d.slot i).budgetCap = .none
  · rw [takeVictim_of_eligible heligible]
    by_cases hj : j = i
    · obtain ⟨-, hdraws, hcap⟩ := heligible
      have hshare : d.share e j = e.drawOf i (d.slot i) := by
        subst hj
        exact if_neg (by rw [hcap]; nofun)
      have hzero := h.resolve_left fun hne => hne hj
      omega
    · unfold Plant.share
      rw [(writeBudgetCap_onlyAt i .stop d).slot j hj]
  · rw [takeVictim_of_not heligible]

/-- A slot considered while the projected draw exceeds the budget has no part in it afterwards. -/
theorem takeVictim_share_self {i : SlotId} (hover : d.budget.budget < d.projected e) : (takeVictim e d i).share e i = 0 := by
  by_cases heligible : 0 < e.drawOf i (d.slot i) ∧ (d.slot i).budgetCap = .none
  · rw [takeVictim_of_eligible ⟨hover, heligible⟩]
    exact if_pos (writeBudgetCap_slot i .stop d)
  · rw [takeVictim_of_not fun h => heligible h.2]
    unfold Plant.share
    cases hcap : (d.slot i).budgetCap with
    | stop => exact if_pos rfl
    | none =>
      rw [if_neg nofun]
      exact Nat.eq_zero_of_not_pos fun hdraws => heligible ⟨hdraws, hcap⟩

theorem takeVictim_projected (h : d.projected e ≤ d.budget.budget) (i : SlotId) : takeVictim e d i = d :=
  takeVictim_of_not fun hn => absurd hn.1 (Nat.not_lt.mpr h)

/-- Once the projected draw fits, no further slot is taken. -/
theorem foldl_takeVictim_of_fits (h : d.projected e ≤ d.budget.budget) : ∀ l : List SlotId, l.foldl (takeVictim e) d = d
  | [] => rfl
  | i :: l => by rw [List.foldl_cons, takeVictim_projected h, foldl_takeVictim_of_fits h l]

/-- A pass over slots ends with the projected draw at or below the budget, or with no part left to any slot of it. -/
theorem foldl_takeVictim_fits (l : List SlotId) {t : Plant} (h : t = l.foldl (takeVictim e) d) :
    t.projected e ≤ t.budget.budget ∨ ∀ i, i ∈ l ∨ d.share e i = 0 → t.share e i = 0 := by
  induction l generalizing d with
  | nil =>
    rw [h]
    exact .inr fun i hi => hi.resolve_left List.not_mem_nil
  | cons i l ih =>
    by_cases hfits : d.projected e ≤ d.budget.budget
    · rw [foldl_takeVictim_of_fits hfits] at h
      rw [h]
      exact .inl hfits
    · rw [List.foldl_cons] at h
      refine (ih h).imp_right fun hrest j hj => hrest j ?_
      by_cases hji : j = i
      · rw [hji]
        exact .inr (takeVictim_share_self (Nat.not_le.mp hfits))
      · refine hj.imp (fun hmem => (List.mem_cons.mp hmem).resolve_left hji) fun hzero => ?_
        rw [takeVictim_share i j (.inr hzero), hzero]

/-- A pass over every slot brings the projected draw to the budget. -/
theorem foldl_takeVictim_projected (l : List SlotId) (hl : ∀ i, i ∈ l) (d : Plant) :
    (l.foldl (takeVictim e) d).projected e ≤ d.budget.budget := by
  have hbudget : (l.foldl (takeVictim e) d).budget = d.budget :=
    (Plant.DrawKept.foldl (t := e.tables) takeVictim_drawKept l d).budget
  rcases foldl_takeVictim_fits (e := e) (d := d) l rfl with hfits | hzero
  · rw [hbudget] at hfits
    exact hfits
  · have hnone : (l.foldl (takeVictim e) d).projected e = 0 := by
      rw [Plant.projected_eq, List.sum_eq_zero]
      intro n hn
      obtain ⟨i, -, rfl⟩ := List.mem_map.mp hn
      exact hzero i (.inl (hl i))
    rw [hnone]
    exact Nat.zero_le _

/-! ### A shed begins, extends and ends (R106, R108, R110) -/

theorem shedReact_of_fits (hshed : d.budget.shed = false) (h : d.budget.committed ≤ d.budget.budget) : shedReact e d = d := by
  unfold shedReact
  rw [if_neg (by rw [hshed]; exact Bool.false_ne_true), if_neg (Nat.not_lt.mpr h)]

theorem shedReact_begins (hshed : d.budget.shed = false) (h : d.budget.budget < d.budget.committed) :
    shedReact e d = beginShed e d := by
  unfold shedReact
  rw [if_neg (by rw [hshed]; exact Bool.false_ne_true), if_pos h]

theorem shedReact_extends (hshed : d.budget.shed = true) (h : d.budget.budget < d.budget.committed) :
    shedReact e d = if d.budget.budget < d.projected e then takeVictims e d else d := by
  unfold shedReact
  rw [if_pos hshed, if_neg (Nat.not_le.mpr h)]

theorem shedReact_ends (hshed : d.budget.shed = true) (h : d.budget.committed ≤ d.budget.budget) :
    shedReact e d = endShed e d := by
  unfold shedReact
  rw [if_pos hshed, if_pos h]

/-- The end of a shed clears the flag and every budget cap, and is recorded. -/
theorem endShed_frame (d : Plant) : let t := endShed e d
    t.budget = { d.budget with shed := false } ∧ (∀ i, (t.slot i).budgetCap = .none) ∧
      (d.link.events.length < 32 → t.link.events = d.link.events ++ [⟨e.clock, .shedEnded d.budget.committed⟩]) := by
  intro t
  obtain ⟨d1, hd1⟩ : ∃ d1, d1 = Plant.record e.clock (.shedEnded d.budget.committed)
    { d with budget := { d.budget with shed := false } } := ⟨_, rfl⟩
  have ht : t = allSlots.foldl (fun d i => writeBudgetCap e i .none d) d1 := by rw [hd1]; rfl
  have hkept : d1.DrawKept e.tables (allSlots.foldl (fun d i => writeBudgetCap e i .none d) d1) :=
    .foldl (fun d i => writeBudgetCap_drawKept i .none d) _ d1
  have hsays : d1.Says (allSlots.foldl (fun d i => writeBudgetCap e i .none d) d1) :=
    .foldl (fun d i => writeBudgetCap_says i .none d) _ d1
  rw [ht]
  refine ⟨?_, fun i => ?_, fun hroom => ?_⟩
  · rw [hkept.budget, hd1, Plant.record_budget]
  · exact Plant.foldl_sets (P := fun _ r => r.budgetCap = .none) (fun d i => writeBudgetCap_slot i .none d)
      (fun d i => (writeBudgetCap_onlyAt i .none d).slot) allSlots d1 (.inl (mem_allSlots i))
  · rw [hsays.events, hd1]
    exact Plant.record_events_of_room (d := { d with budget := { d.budget with shed := false } }) _ _ hroom

/-! ### A fresh choice of victims (R111) -/

/-- The fresh choice is the first slots with a draw, in order, the fewest that brings the projected draw to the budget. -/
theorem chooseVictims_spec : ∀ (l : List SlotId) (projected : Nat), let chosen := chooseVictims e d l projected
    (∃ rest, l.filter (fun i => 0 < e.drawOf i (d.slot i)) = chosen ++ rest ∧
      (projected - (chosen.map fun i => e.drawOf i (d.slot i)).sum ≤ d.budget.budget ∨ rest = [])) ∧
    ∀ k, k < chosen.length →
      d.budget.budget < projected - ((chosen.take k).map fun i => e.drawOf i (d.slot i)).sum
  | [], _ => ⟨⟨[], rfl, .inr rfl⟩, fun _ hk => absurd hk (Nat.not_lt_zero _)⟩
  | i :: l, projected => by
    unfold chooseVictims
    by_cases hfits : projected ≤ d.budget.budget
    · rw [if_pos hfits]
      exact ⟨⟨_, rfl, .inl hfits⟩, fun _ hk => absurd hk (Nat.not_lt_zero _)⟩
    · rw [if_neg hfits]
      by_cases hdraws : 0 < e.drawOf i (d.slot i)
      · rw [if_pos hdraws, List.filter_cons_of_pos (p := fun i => 0 < e.drawOf i (d.slot i)) (decide_eq_true hdraws)]
        obtain ⟨⟨rest, hrest, hleft⟩, hbefore⟩ := chooseVictims_spec l (projected - e.drawOf i (d.slot i))
        refine ⟨⟨rest, by rw [hrest, List.cons_append], ?_⟩, fun k hk => ?_⟩
        · rw [List.map_cons, List.sum_cons, ← Nat.sub_sub]
          exact hleft
        · cases k with
          | zero => exact Nat.not_le.mp hfits
          | succ k =>
            rw [List.take_succ_cons, List.map_cons, List.sum_cons, ← Nat.sub_sub]
            exact hbefore k (Nat.lt_of_succ_lt_succ hk)
      · rw [if_neg hdraws, List.filter_cons_of_neg (p := fun i => 0 < e.drawOf i (d.slot i)) (by rwa [decide_eq_true_eq])]
        exact chooseVictims_spec l projected

/-- The cap that the fresh choice gives a slot. -/
def capFor (chosen : List SlotId) (i : SlotId) : BudgetCap := if i ∈ chosen then .stop else .none

theorem rewriteCaps_of_same {chosen : List SlotId} {i : SlotId} (h : (d.slot i).budgetCap = capFor chosen i) :
    rewriteCaps e chosen d i = d := by
  unfold rewriteCaps
  rw [h]
  unfold capFor
  by_cases hmem : i ∈ chosen
  · rw [if_pos hmem, List.contains_iff_mem.mpr hmem]
    rfl
  · rw [if_neg hmem, Bool.eq_false_iff.mpr (mt List.contains_iff_mem.mp hmem)]
    rfl

theorem rewriteCaps_of_other {chosen : List SlotId} {i : SlotId} (h : (d.slot i).budgetCap ≠ capFor chosen i) :
    rewriteCaps e chosen d i = writeBudgetCap e i (capFor chosen i) d := by
  unfold rewriteCaps
  unfold capFor at h ⊢
  by_cases hmem : i ∈ chosen
  · rw [if_pos hmem] at h ⊢
    rw [List.contains_iff_mem.mpr hmem]
    cases hcap : (d.slot i).budgetCap with
    | stop => exact absurd hcap h
    | none => rfl
  · rw [if_neg hmem] at h ⊢
    rw [Bool.eq_false_iff.mpr (mt List.contains_iff_mem.mp hmem)]
    cases hcap : (d.slot i).budgetCap with
    | stop => rfl
    | none => exact absurd hcap h

theorem rewriteCaps_onlyAt (chosen : List SlotId) (d : Plant) (i : SlotId) : d.OnlyAt i (rewriteCaps e chosen d i) := by
  by_cases h : (d.slot i).budgetCap = capFor chosen i
  · rw [rewriteCaps_of_same h]
    exact .refl i d
  · rw [rewriteCaps_of_other h]
    exact writeBudgetCap_onlyAt i _ d

theorem rewriteCaps_slot (chosen : List SlotId) (d : Plant) (i : SlotId) :
    ((rewriteCaps e chosen d i).slot i).budgetCap = capFor chosen i := by
  by_cases h : (d.slot i).budgetCap = capFor chosen i
  · rw [rewriteCaps_of_same h, h]
  · rw [rewriteCaps_of_other h, writeBudgetCap_slot]

theorem rewriteCaps_drawKept (chosen : List SlotId) (d : Plant) (i : SlotId) :
    d.DrawKept e.tables (rewriteCaps e chosen d i) := by
  by_cases h : (d.slot i).budgetCap = capFor chosen i
  · rw [rewriteCaps_of_same h]
    exact .refl d
  · rw [rewriteCaps_of_other h]
    exact writeBudgetCap_drawKept i _ d

/-- A slot whose cap the fresh choice leaves stays as it is. -/
theorem foldl_rewriteCaps_of_same {chosen : List SlotId} {i : SlotId} : ∀ (l : List SlotId) (d : Plant),
    (d.slot i).budgetCap = capFor chosen i → (l.foldl (rewriteCaps e chosen) d).slot i = d.slot i
  | [], _, _ => rfl
  | j :: l, d, h => by
    have hkept : (rewriteCaps e chosen d j).slot i = d.slot i := by
      by_cases hij : i = j
      · subst hij
        rw [rewriteCaps_of_same h]
      · exact (rewriteCaps_onlyAt chosen d j).slot i hij
    rw [List.foldl_cons, foldl_rewriteCaps_of_same l _ (by rw [hkept, h]), hkept]

/-- The plant with a new budget, before the caps are reconsidered. -/
def Plant.withBudget (new : Nat) (d : Plant) : Plant := { d with budget := { d.budget with budget := new } }

theorem changeBudget_of_not {new : Nat}
    (h : ¬(d.budget.shed = true ∧ d.budget.budget < new ∧ new < d.budget.committed)) :
    changeBudget e new d = d.withBudget new := by
  refine if_neg fun hn => h ?_
  simpa only [Bool.and_eq_true, decide_eq_true_eq, and_assoc] using hn

theorem changeBudget_of_afresh {new : Nat}
    (h : d.budget.shed = true ∧ d.budget.budget < new ∧ new < d.budget.committed) : changeBudget e new d =
      allSlots.foldl (rewriteCaps e (chooseVictims e (d.withBudget new) (shedOrder e.tables) d.budget.committed))
        (d.withBudget new) := by
  obtain ⟨hshed, hrise, hover⟩ := h
  refine if_pos ?_
  rw [hshed, decide_eq_true hrise, decide_eq_true hover]
  rfl

theorem changeBudget_budget (new : Nat) (d : Plant) : (changeBudget e new d).budget = { d.budget with budget := new } := by
  by_cases h : d.budget.shed = true ∧ d.budget.budget < new ∧ new < d.budget.committed
  · rw [changeBudget_of_afresh h]
    exact (Plant.DrawKept.foldl (t := e.tables) (rewriteCaps_drawKept _) allSlots _).budget
  · rw [changeBudget_of_not h]
    rfl

end Sys2Proof.Machine
end

section
/-! SUPPORT. The power lines (R99), a change of the power state (R100, R101, R112), and the obligation on both. -/

namespace Sys2Proof.Machine

variable {e : Env} {d : Plant}

/-! ### The filter of a power line (R99) -/

theorem PowerLines.line_setLine_same (p : PowerLines) (l : PowerLine) (f : LineFilter) : (p.setLine l f).line l = f := by
  cases l <;> rfl

theorem PowerLines.line_setLine_other (p : PowerLines) {l k : PowerLine} (h : k ≠ l) (f : LineFilter) :
    (p.setLine l f).line k = p.line k :=
  match l, k, h with
  | .shore, .shore, h | .low, .low, h | .fail, .fail, h => absurd rfl h
  | .shore, .low, _ | .shore, .fail, _ | .low, .shore, _ | .low, .fail, _ | .fail, .shore, _ | .fail, .low, _ => rfl

theorem LineFilter.edge_eq (now : Clock) (ms : Nat) (level : Bool) (f : LineFilter) : f.edge now ms level =
    if level = f.level then f else ⟨level, f.value, if level = f.value then none else some ⟨now, ms⟩⟩ := rfl

/-! ### The emergency park logic and the account (R149, R112) -/

theorem parkSlot_budget (d : Plant) (i : SlotId) : (parkSlot e d i).budget = d.budget := by
  cases h : (d.slot i).toBeParked with
  | false => rw [parkSlot_of_not h]
  | true =>
    rw [parkSlot_of_parks h, (serveHead_drawKept (t := e.tables) i _).budget]
    exact (abort_budget _ _ _).trans (Plant.put_budget _ _ _ _)

theorem writeEmergencyCap_drawKept (cap : EmergencyCap) (d : Plant) (i : SlotId) :
    d.DrawKept e.tables (writeEmergencyCap e cap d i) := by
  have hput : d.DrawKept e.tables (d.put e i { d.slot i with emergencyCap := cap }) := Plant.drawKept_put_of_state rfl rfl
  exact hput.trans (actIfChanged_drawKept i _ _)

theorem writeEmergencyCaps_budget (cap : EmergencyCap) (d : Plant) : (writeEmergencyCaps e cap d).budget = d.budget :=
  (Plant.DrawKept.foldl (t := e.tables) (writeEmergencyCap_drawKept cap) allSlots d).budget

theorem parkSlots_budget (d : Plant) : (allSlots.foldl (parkSlot e) d).budget = d.budget :=
  List.foldlRecOn allSlots (parkSlot e) (motive := fun d' => d'.budget = d.budget) rfl
    fun d' hd' i _ => (parkSlot_budget d' i).trans hd'

theorem Plant.latched_budget (q : EmgSource) (d : Plant) : (d.latched e q).budget = d.budget := by
  unfold Plant.latched
  dsimp only
  rw [Plant.record_budget]
  dsimp only
  rw [writeEmergencyCaps_budget]
  dsimp only
  rw [parkSlots_budget]

theorem addSource_budget (q : EmgSource) (d : Plant) : (addSource e q d).budget = d.budget := by
  have hrecorded : (d.withSource e q).budget = d.budget := Plant.record_budget _ _ _
  cases h : d.emg.sources.has q with
  | true => rw [show addSource e q d = d from if_pos h]
  | false =>
    rw [addSource_eq h]
    split
    · rw [writeEmergencyCaps_budget, hrecorded]
    · exact hrecorded

theorem takeSource_budget (q : EmgSource) (d : Plant) : (takeSource e q d).budget = d.budget := by
  cases h : d.emg.latched with
  | true => rw [takeSource_of_latched h, addSource_budget]
  | false =>
    rw [takeSource_of_clear h, latchEmergency_eq, (examinePhase_drawKept (t := e.tables) _).budget, Plant.latched_budget]

/-- A source taken leaves the latch set and the source in its set. -/
theorem takeSource_latches (q : EmgSource) (d : Plant) : let g := (takeSource e q d).emg
    g.latched = true ∧ g.sources.has q = true := by
  cases hlatched : d.emg.latched with
  | false =>
    obtain ⟨phase, hemg⟩ := latchEmergency_emg (e := e) q d
    rw [takeSource_of_clear hlatched, hemg]
    exact ⟨rfl, SourceSet.has_add _ _⟩
  | true =>
    rw [takeSource_of_latched hlatched]
    cases hhas : d.emg.sources.has q with
    | true =>
      rw [show addSource e q d = d from if_pos hhas]
      exact ⟨hlatched, hhas⟩
    | false =>
      obtain ⟨hemg, -⟩ := addSource_frame (e := e) hhas
      rw [hemg]
      exact ⟨hlatched, SourceSet.has_add _ _⟩

/-- The emergency park logic leaves the power state and the budget, and takes HOLDUP as the source POWER (R149). -/
theorem emergencyTakesPower_frame (d : Plant) : let t := emergencyTakesPower e d
    t.budget.powerState = d.budget.powerState ∧ t.budget.budget = d.budget.budget ∧
      (d.budget.powerState = .holdup → t.emg.latched = true ∧ t.emg.sources.power = true) := by
  unfold emergencyTakesPower
  by_cases h : d.budget.powerState = .holdup
  · obtain ⟨hpower, hbudget⟩ := (react_responds (e := e) (takeSource e .power d)).power
    obtain ⟨hlatched, hsources, -⟩ := (react_responds (e := e) (takeSource e .power d)).emg
    obtain ⟨htaken, hhas⟩ := takeSource_latches (e := e) .power d
    rw [takeSource_budget] at hpower hbudget
    rw [if_pos h]
    exact ⟨hpower, hbudget, fun _ => ⟨hlatched.trans htaken, by rw [hsources]; exact hhas⟩⟩
  · obtain ⟨hpower, hbudget⟩ := (react_responds (e := e) d).power
    rw [if_neg h]
    exact ⟨hpower, hbudget, fun hn => absurd hn h⟩

theorem foldl_rewriteCaps_emg (chosen : List SlotId) (d : Plant) : (allSlots.foldl (rewriteCaps e chosen) d).emg = d.emg :=
  Plant.foldl_emg (fun d i => (rewriteCaps_onlyAt chosen d i).emg) allSlots d

theorem changeBudget_emg (new : Nat) (d : Plant) : (changeBudget e new d).emg = d.emg := by
  by_cases h : d.budget.shed = true ∧ d.budget.budget < new ∧ new < d.budget.committed
  · rw [changeBudget_of_afresh h, foldl_rewriteCaps_emg]
    rfl
  · rw [changeBudget_of_not h]
    rfl

/-- The budget unit takes a new budget, and leaves the power state, the latch and the sources. -/
theorem budgetTakes_frame (new : Nat) (d : Plant) : let t := budgetTakes e new d
    t.budget.powerState = d.budget.powerState ∧ t.budget.budget = new ∧
      t.emg.latched = d.emg.latched ∧ t.emg.sources = d.emg.sources := by
  obtain ⟨hpower, hbudget⟩ := (react_responds (e := e) (changeBudget e new d)).power
  obtain ⟨hlatched, hsources, -⟩ := (react_responds (e := e) (changeBudget e new d)).emg
  rw [changeBudget_budget] at hpower hbudget
  rw [changeBudget_emg] at hlatched hsources
  unfold budgetTakes
  exact ⟨hpower, hbudget, hlatched, hsources⟩

/-! ### A change of the power state (R100, R101, R112) -/

theorem takePowerChange_eq (first : Bool) (new : PowerState) {d d1 : Plant}
    (h : d1 = Plant.record e.clock (.powerChanged d.budget.powerState new)
      { d with budget := { d.budget with powerState := new } }) : takePowerChange e first new d =
    if first = true then emergencyTakesPower e (budgetTakes e (e.tables.budgetOf new) d1)
      else budgetTakes e (e.tables.budgetOf new) (emergencyTakesPower e d1) := by
  rw [h]
  unfold takePowerChange
  rfl

/-- What a change of the power state leaves, whichever block takes it first. -/
theorem takePowerChange_frame (first : Bool) (new : PowerState) (d : Plant) : let t := takePowerChange e first new d
    t.budget.powerState = new ∧ t.budget.budget = e.tables.budgetOf new ∧
      (d.link.events.length < 32 →
        d.link.events ++ [⟨e.clock, .powerChanged d.budget.powerState new⟩] <+: t.link.events) ∧
      (new = .holdup → t.emg.latched = true ∧ t.emg.sources.power = true) := by
  intro t
  obtain ⟨d1, hd1⟩ : ∃ d1, d1 = Plant.record e.clock (.powerChanged d.budget.powerState new)
    { d with budget := { d.budget with powerState := new } } := ⟨_, rfl⟩
  have ht : t = _ := takePowerChange_eq first new hd1
  have hpower : d1.budget.powerState = new := by rw [hd1, Plant.record_budget]
  have hevents : d.link.events.length < 32 →
      d1.link.events = d.link.events ++ [⟨e.clock, .powerChanged d.budget.powerState new⟩] := fun hroom => by
    rw [hd1]
    exact Plant.record_events_of_room (d := { d with budget := { d.budget with powerState := new } }) _ _ hroom
  suffices hgrown : Plant.Reach e d1 t ∧ t.budget.powerState = new ∧ t.budget.budget = e.tables.budgetOf new ∧
      (new = .holdup → t.emg.latched = true ∧ t.emg.sources.power = true) by
    obtain ⟨hreach, hstate, hbudget, hlatches⟩ := hgrown
    refine ⟨hstate, hbudget, fun hroom => ?_, hlatches⟩
    rw [← hevents hroom]
    exact hreach.grows.events
  clear_value t
  subst ht
  cases first with
  | true =>
    obtain ⟨hstate, hbudget, -, -⟩ := budgetTakes_frame (e := e) (e.tables.budgetOf new) d1
    obtain ⟨gstate, gbudget, hlatches⟩ := emergencyTakesPower_frame (e := e) (budgetTakes e (e.tables.budgetOf new) d1)
    rw [hstate, hpower] at gstate hlatches
    rw [if_pos rfl]
    exact ⟨(budgetTakes_reach _ d1).trans (emergencyTakesPower_reach _), gstate, gbudget.trans hbudget, hlatches⟩
  | false =>
    obtain ⟨hstate, -, hlatches⟩ := emergencyTakesPower_frame (e := e) d1
    obtain ⟨gstate, gbudget, glatched, gsources⟩ :=
      budgetTakes_frame (e := e) (e.tables.budgetOf new) (emergencyTakesPower e d1)
    rw [hpower] at hstate hlatches
    rw [if_neg Bool.false_ne_true, glatched, gsources]
    exact ⟨(emergencyTakesPower_reach d1).trans (budgetTakes_reach _ _), gstate.trans hstate, gbudget, hlatches⟩

/-! ### The filter of a power line at its expiry (R99, R100) -/

theorem State.derivePower_of_same {s : State} (h : s.power.derived = s.plant.budget.powerState) : s.derivePower = s :=
  if_pos h

theorem State.derivePower_of_other {s : State} (h : s.power.derived ≠ s.plant.budget.powerState) : s.derivePower =
    State.onPlant (fun e => takePowerChange e (Config.freeOrder s.freeCount) s.power.derived) s.useFree := if_neg h

theorem State.derivePower_power (s : State) : s.derivePower.power = s.power := by
  by_cases h : s.power.derived = s.plant.budget.powerState
  · rw [State.derivePower_of_same h]
  · rw [State.derivePower_of_other h, State.onPlant_power, State.useFree_power]

/-- A power state that is another one than before is taken by the plant. -/
theorem State.derivePower_frame {s : State} (h : s.power.derived ≠ s.plant.budget.powerState) :
    let t := s.derivePower
    t.plant.budget.powerState = s.power.derived ∧ t.plant.budget.budget = s.tables.budgetOf s.power.derived ∧
      (s.plant.link.events.length < 32 → s.plant.link.events ++
        [⟨s.clock, .powerChanged s.plant.budget.powerState s.power.derived⟩] <+: t.plant.link.events) ∧
      (s.power.derived = .holdup → t.plant.emg.latched = true ∧ t.plant.emg.sources.power = true) := by
  have hframe := takePowerChange_frame (e := s.env) (Config.freeOrder s.freeCount) s.power.derived s.plant
  intro t
  have ht : t.plant = (takePowerChange s.env (Config.freeOrder s.freeCount) s.power.derived s.plant).settleLink := by
    show s.derivePower.plant = _
    rw [State.derivePower_of_other h, State.onPlant_plant]
    rfl
  obtain ⟨hstate, hbudget, hevents, hlatches⟩ := hframe
  rw [ht, Plant.budget_settleLink, Plant.events_settleLink, Plant.emg_settleLink]
  exact ⟨hstate, hbudget, hevents, hlatches⟩

theorem State.powerFilterExpiry_exec {l : PowerLine} {s : State} (h : dueOpt (s.power.line l).timer s.clock = true) :
    exec (.powerFilterExpiry l) s =
      .next (State.derivePower { s with power := s.power.setLine l (s.power.line l).expire }) := if_pos h

/-- Settles O39: an edge, an expiry, the victims and their fresh choice, and the account after a response. -/
theorem powerLinesTaken : Obligations.PowerLinesTaken := by
  refine ⟨fun l level s => ?_, fun l s => ?_, fun e d => ?_⟩
  · refine ⟨_, rfl, rfl, fun k hk => PowerLines.line_setLine_other _ hk _, ?_⟩
    exact (PowerLines.line_setLine_same _ _ _).trans (LineFilter.edge_eq _ _ _ _)
  · intro f hdue
    obtain ⟨u, hu⟩ : ∃ u : State, u = { s with power := s.power.setLine l (s.power.line l).expire } := ⟨_, rfl⟩
    have hlines : u.derivePower.power = s.power.setLine l (s.power.line l).expire := by
      rw [State.derivePower_power, hu]
    have hderived : u.power.derived = u.derivePower.power.derived := by rw [State.derivePower_power]
    refine ⟨u.derivePower, by rw [hu]; exact State.powerFilterExpiry_exec hdue, fun k hk => ?_, ?_, ?_⟩
    · rw [hlines, PowerLines.line_setLine_other _ hk]
    · rw [hlines, PowerLines.line_setLine_same]
      rfl
    · intro new
      have hnew : u.power.derived = new := hderived
      have hplant : u.plant = s.plant := by rw [hu]
      refine ⟨fun h => ?_, fun h => ?_⟩
      · rw [← hnew, ← hplant] at h
        rw [State.derivePower_of_same h, hu]
      · rw [← hnew, ← hplant] at h
        have hframe := State.derivePower_frame h
        rw [hnew, hplant] at hframe
        rw [show s.tables = u.tables by rw [hu], show s.clock = u.clock by rw [hu]]
        exact hframe
  · intro order draw
    refine ⟨fun h => ⟨mem_shedOrder h, shedOrder_pairwise e.tables⟩, fun h i => Env.drawOf_read h i _, rfl,
      fun i h => takeVictim_of_eligible h, fun i h => takeVictim_of_not h,
      fun i c => ⟨writeBudgetCap_slot i c d, (writeBudgetCap_onlyAt i c d).slot⟩,
      shedReact_of_fits, fun hshed h => shedReact_begins hshed h, fun hshed h => shedReact_extends hshed h,
      fun h => foldl_takeVictim_projected order (mem_shedOrder h) d, fun hshed h => ?_, fun new => ?_, ?_, rfl,
      fun hread => ?_⟩
    · intro t
      rw [show t = endShed e d from shedReact_ends hshed h]
      exact endShed_frame d
    · intro t afresh drawing left
      refine ⟨changeBudget_budget new d, fun h => ?_, fun h => ?_⟩
      · rw [show t = d.withBudget new from changeBudget_of_not h]
        rfl
      · obtain ⟨chosen, hchosen⟩ : ∃ chosen, chosen = chooseVictims e (d.withBudget new) order d.budget.committed := ⟨_, rfl⟩
        obtain ⟨⟨rest, hdrawing, hleft⟩, hbefore⟩ :=
          chooseVictims_spec (e := e) (d := d.withBudget new) order d.budget.committed
        rw [← hchosen] at hdrawing hleft hbefore
        have ht : t = allSlots.foldl (rewriteCaps e chosen) (d.withBudget new) := by
          rw [hchosen]
          exact changeBudget_of_afresh h
        refine ⟨chosen, rest, hdrawing, hleft, hbefore, fun i => ⟨?_, fun hsame => ?_⟩⟩
        · rw [ht]
          exact Plant.foldl_sets (P := fun j r => r.budgetCap = capFor chosen j) (rewriteCaps_slot chosen)
            (fun d j => (rewriteCaps_onlyAt chosen d j).slot) allSlots _ (.inl (mem_allSlots i))
        · rw [ht]
          exact foldl_rewriteCaps_of_same allSlots (d.withBudget new) hsame
    · unfold recommit Plant.reportedDraw
      rfl
    · intro t
      have haudited := react_audited hread d
      rw [show react e d = t from rfl] at haudited
      obtain ⟨hcommitted, -, hshed, hexceeds⟩ := haudited
      exact ⟨hcommitted, hshed, hexceeds⟩

end Sys2Proof.Machine
end

section
/-! SUPPORT. The head rules (R50 to R56): what the head of a hold list does, that it does it once, and that the rules end with
every head at rest. -/

namespace Sys2Proof.Machine

variable {e : Env} {d : Plant} {i : SlotId} {h : HoldEntry} {rest : List HoldEntry}

/-! ### The steps of a head (R50 to R55) -/

theorem headStep_of_empty (hhold : (d.slot i).hold = []) : headStep e i d = none := by
  unfold headStep
  rw [hhold]

theorem headStep_of_new (hhold : (d.slot i).hold = h :: rest) (hnew : h.asHead = false) :
    headStep e i d = some (becomeHead e i h d) := by
  unfold headStep
  rw [hhold]
  dsimp only
  rw [hnew]
  rfl

/-- An entry that has become head: a TRAP acts, and any other is released. -/
theorem headStep_of_head (hhold : (d.slot i).hold = h :: rest) (hhead : h.asHead = true) : headStep e i d =
    if h.cls = .trap then
      if h.emulating || !(d.slot i).outstanding.isEmpty then none else some (trapAct e i h d)
    else if (d.slot i).mayForward h.requirement then some (releaseHead e i h d) else none := by
  unfold headStep
  rw [hhold]
  dsimp only
  rw [hhead]
  rfl

theorem headStep_of_released (hhold : (d.slot i).hold = h :: rest) (hhead : h.asHead = true) (hcls : h.cls ≠ .trap)
    (hmay : (d.slot i).mayForward h.requirement = true) : headStep e i d = some (releaseHead e i h d) := by
  rw [headStep_of_head hhold hhead, if_neg hcls, if_pos hmay]

theorem headStep_of_waits (hhold : (d.slot i).hold = h :: rest) (hhead : h.asHead = true) (hcls : h.cls ≠ .trap)
    (hmay : ¬(d.slot i).mayForward h.requirement = true) : headStep e i d = none := by
  rw [headStep_of_head hhold hhead, if_neg hcls, if_neg hmay]

theorem headStep_of_acts (hhold : (d.slot i).hold = h :: rest) (hhead : h.asHead = true) (hcls : h.cls = .trap)
    (hemulating : h.emulating = false) (hout : (d.slot i).outstanding = []) :
    headStep e i d = some (trapAct e i h d) := by
  rw [headStep_of_head hhold hhead, if_pos hcls, hemulating, hout]
  rfl

theorem headStep_of_busy (hhold : (d.slot i).hold = h :: rest) (hhead : h.asHead = true) (hcls : h.cls = .trap)
    (hbusy : h.emulating = true ∨ (d.slot i).outstanding ≠ []) : headStep e i d = none := by
  have hwait : (h.emulating || !(d.slot i).outstanding.isEmpty) = true := by
    rw [Bool.or_eq_true, Bool.not_eq_true', List.isEmpty_eq_false_iff]
    exact hbusy
  rw [headStep_of_head hhold hhead, if_pos hcls, if_pos hwait]

/-- The head rules go by the slot alone where they have nothing to do. -/
theorem headStep_none_congr {d' : Plant} (hslot : d'.slot i = d.slot i) (hrest : headStep e i d = none) :
    headStep e i d' = none := by
  cases hhold : (d.slot i).hold with
  | nil => exact headStep_of_empty (hslot ▸ hhold)
  | cons h rest =>
    have hhold' : (d'.slot i).hold = h :: rest := by rw [hslot, hhold]
    cases hhead : h.asHead with
    | false =>
      rw [headStep_of_new hhold hhead] at hrest
      exact absurd hrest (Option.some_ne_none _)
    | true =>
      rw [headStep_of_head hhold hhead] at hrest
      rw [headStep_of_head hhold' hhead, hslot]
      split at hrest
      · next hcls =>
        split at hrest
        · next hbusy => rw [if_pos hcls, if_pos hbusy]
        · exact absurd hrest (Option.some_ne_none _)
      · next hcls =>
        split at hrest
        · exact absurd hrest (Option.some_ne_none _)
        · next hmay => rw [if_neg hcls, if_neg hmay]

/-! ### The marks of a hold list -/

/-- The marks of the held entries, in order: whether each has become head, and whether it emulates. -/
def Slot.marks (r : Slot) : List (Bool × Bool) := r.hold.map fun h => (h.asHead, h.emulating)

/-- Entries may have left the hold list; those that stay keep their places and their marks. -/
def Slot.Shortens (r r' : Slot) : Prop := r'.marks.Sublist r.marks

theorem Slot.Shortens.refl (r : Slot) : r.Shortens r := List.Sublist.refl _

theorem Slot.Shortens.trans {a b c : Slot} (hab : a.Shortens b) (hbc : b.Shortens c) : a.Shortens c :=
  List.Sublist.trans hbc hab

theorem Slot.Shortens.of_sublist {r r' : Slot} (hhold : r'.hold.Sublist r.hold) : r.Shortens r' := hhold.map _

theorem Slot.Shortens.of_marks {r r' : Slot} (hmarks : r'.marks = r.marks) : r.Shortens r' := by
  unfold Slot.Shortens
  rw [hmarks]

theorem Slot.Shortens.put {r : Slot} (hr : (d.slot i).Shortens r) : (d.slot i).Shortens ((d.put e i r).slot i) := by
  rw [Plant.slot_put_same]
  exact hr.trans (.of_marks rfl)

theorem Slot.Shortens.put_same {r : Slot} (hhold : r.hold = (d.slot i).hold) :
    (d.slot i).Shortens ((d.put e i r).slot i) :=
  .put (.of_sublist (by rw [hhold]))

theorem Slot.freezeHold_marks (now : Clock) (r : Slot) : (r.freezeHold now).marks = r.marks := by
  unfold Slot.freezeHold Slot.marks
  rw [List.map_map]
  rfl

theorem Slot.resumeHold_marks (now : Clock) (r : Slot) : (r.resumeHold now).marks = r.marks := by
  unfold Slot.resumeHold Slot.marks
  rw [List.map_map]
  rfl

theorem Slot.suspend_marks (r : Slot) : (r.suspend e).marks = r.marks := by
  unfold Slot.suspend
  dsimp only
  split
  · rw [Slot.freezeHold_marks]
    rfl
  · rfl

theorem answerEmulated_shortens (tag : Byte) : (d.slot i).Shortens ((answerEmulated e i tag d).slot i) := by
  rw [answerEmulated_slot]
  exact .of_sublist (List.tail_sublist _)

theorem emulationCheck_shortens (i : SlotId) (d : Plant) : (d.slot i).Shortens ((emulationCheck e i d).slot i) := by
  rw [emulationCheck_eq]
  split
  · exact answerEmulated_shortens _
  · exact .refl _

theorem answerHeld_shortens (i : SlotId) (disp : Disposition) (named : HoldEntry → Bool) (d : Plant) :
    (d.slot i).Shortens ((answerHeld e i disp named d).slot i) := by
  obtain ⟨hhold, -⟩ := answerHeld_frame (e := e) i disp named d
  refine .of_sublist ?_
  rw [hhold]
  exact List.filter_sublist

theorem act_shortens (i : SlotId) (d : Plant) : (d.slot i).Shortens ((act e i d).slot i) := by
  cases hs : (d.slot i).state with
  | empty | faulted | unloading | stopping => rw [act_unmoved (by simp [hs])]; exact .refl _
  | stopped =>
    rw [act_stopped hs]
    split
    · exact Slot.Shortens.put_same (r := { d.slot i with state := .queued }) rfl
    · exact .refl _
  | queued =>
    rw [act_queued hs]
    split
    · have hput : (d.slot i).Shortens (((d.put e i { d.slot i with state := .stopped }).leaveQueue i).slot i) :=
        Slot.Shortens.put_same (r := { d.slot i with state := .stopped }) rfl
      exact hput.trans (emulationCheck_shortens i _)
    · exact .refl _
  | starting =>
    rw [act_starting hs]
    split
    · exact .put_same rfl
    · exact .refl _
  | spun =>
    by_cases he : (d.slot i).effective = .stop
    · rw [act_spun_stop hs he]
      exact .put_same rfl
    · rw [act_spun_up hs he]
      exact .put_same rfl
  | loading =>
    rw [act_loading hs]
    split
    · exact .refl _
    · exact .put_same rfl
  | loaded =>
    rw [act_loaded hs]
    split
    · split
      · exact Slot.Shortens.put_same (r := { d.slot i with draining := false, drainTimer := none }) rfl
      · exact .refl _
    split
    · exact .refl _
    split
    · exact .put_same rfl
    · exact .put_same rfl

theorem settleSuspension_shortens (i : SlotId) (d : Plant) :
    (d.slot i).Shortens ((settleSuspension e i d).slot i) := by
  have hsuspend : (d.slot i).Shortens ((d.put e i ((d.slot i).suspend e)).slot i) :=
    .put (.of_marks (Slot.suspend_marks _))
  unfold settleSuspension
  simp only
  split
  · exact .refl _
  split
  · split
    · exact .refl _
    · split
      · exact hsuspend.trans (answerHeld_shortens i _ _ _)
      · exact hsuspend
  · split
    · exact .put (.of_marks (Slot.resumeHold_marks _ _))
    · exact .refl _

/-- A write of the requested level adds no held entry and marks none (R71). -/
theorem writeRequested_shortens (i : SlotId) (lv : Level) (pin : Bool) (d : Plant) :
    (d.slot i).Shortens ((writeRequested e i lv pin d).slot i) := by
  have hput : (d.slot i).Shortens ((d.put e i ((d.slot i).setRequested lv pin)).slot i) := .put_same rfl
  have hact : ∀ (old : Level) (d : Plant), (d.slot i).Shortens ((actIfChanged e i old d).slot i) := fun old d => by
    unfold actIfChanged
    split
    · exact .refl _
    · exact act_shortens i d
  exact (hput.trans (hact _ _)).trans (settleSuspension_shortens i _)

/-! ### What is left for a head to do -/

/-- The steps that a list of marks can still take: an entry becomes head once, acts once and leaves once. -/
def markWork : List (Bool × Bool) → Nat
  | [] => 0
  | (head, emulating) :: rest => 3 * (rest.length + 1) - head.toNat - emulating.toNat

theorem markWork_bounds (l : List (Bool × Bool)) : markWork l ≤ 3 * l.length ∧ 3 * l.length ≤ markWork l + 2 := by
  cases l with
  | nil => exact ⟨Nat.le_refl _, Nat.zero_le _⟩
  | cons m rest =>
    obtain ⟨head, emulating⟩ := m
    have hhead := Bool.toNat_le head
    have hemulating := Bool.toNat_le emulating
    simp only [markWork, List.length_cons]
    omega

theorem markWork_of_sublist {l l' : List (Bool × Bool)} (hsub : l'.Sublist l) : markWork l' ≤ markWork l := by
  obtain ⟨hupper, -⟩ := markWork_bounds l'
  obtain ⟨-, hlower⟩ := markWork_bounds l
  rcases Nat.lt_or_eq_of_le hsub.length_le with hlt | heq
  · omega
  · rw [hsub.eq_of_length heq]

theorem Slot.Shortens.work {r r' : Slot} (hr : r.Shortens r') : markWork r'.marks ≤ markWork r.marks :=
  markWork_of_sublist hr

theorem Slot.marks_of_hold {r : Slot} (hhold : r.hold = h :: rest) :
    r.marks = (h.asHead, h.emulating) :: rest.map fun h => (h.asHead, h.emulating) := by
  unfold Slot.marks
  rw [hhold, List.map_cons]

/-- The head leaves, and no entry comes. -/
theorem markWork_of_dropped {r r' : Slot} (hhold : r.hold = h :: rest) (hdropped : r'.hold = rest) :
    markWork r'.marks < markWork r.marks := by
  obtain ⟨hupper, -⟩ := markWork_bounds r'.marks
  obtain ⟨-, hlower⟩ := markWork_bounds r.marks
  have hlength : r.marks.length = r'.marks.length + 1 := by
    unfold Slot.marks
    rw [hhold, hdropped, List.length_map, List.length_map, List.length_cons]
  omega

theorem Slot.markHead_of_hold {r : Slot} (hhold : r.hold = h :: rest) :
    r.markHead = { r with hold := { h with asHead := true } :: rest } := by
  unfold Slot.markHead
  rw [hhold]

theorem Slot.markEmulating_of_hold {r : Slot} (hhold : r.hold = h :: rest) :
    r.markEmulating = { r with hold := { h with emulating := true } :: rest } := by
  unfold Slot.markEmulating
  rw [hhold]

/-- The slot after the answer of its head: the entry is gone, and the frame is queued. -/
theorem answerHead_frame (tag : Byte) (disp : Disposition) (status : Byte) (payload : List Byte)
    (hhold : (d.slot i).hold = h :: rest) : let t := dropHead e i (answer e i tag disp status payload d)
    t.link.queue = d.link.queue ++ [completionFrame (e.tables.unitOfSlot i) tag disp status payload] ∧
      (t.slot i).hold = rest ∧ (t.slot i).requested = (d.slot i).requested ∧ ∀ j, j ≠ i → t.slot j = d.slot j := by
  intro t
  have hslot : t.slot i = Slot.examineCountdowns e i { d.slot i with hold := (d.slot i).hold.tail } := by
    show (dropHead e i (answer e i tag disp status payload d)).slot i = _
    unfold dropHead
    rw [Plant.slot_put_same, answer_slot]
  rw [hslot]
  exact ⟨rfl, congrArg List.tail hhold, rfl, (answerHead_onlyAt i tag disp status payload d).slot⟩

theorem becomeHead_work (hhold : (d.slot i).hold = h :: rest) (hnew : h.asHead = false) :
    markWork ((becomeHead e i h d).slot i).marks < markWork (d.slot i).marks := by
  obtain ⟨d1, hd1⟩ : ∃ d1, d1 = d.put e i (d.slot i).markHead := ⟨_, rfl⟩
  have hmarked : (d1.slot i).hold = { h with asHead := true } :: rest := by
    rw [hd1, Plant.slot_put_same, Slot.markHead_of_hold hhold]
    rfl
  have hless : markWork (d1.slot i).marks < markWork (d.slot i).marks := by
    have hemulating := Bool.toNat_le h.emulating
    rw [Slot.marks_of_hold hmarked, Slot.marks_of_hold hhold, hnew]
    simp only [markWork, Bool.toNat_true, Bool.toNat_false]
    omega
  unfold becomeHead
  rw [← hd1]
  dsimp only
  split
  · exact hless
  split
  · exact Nat.lt_of_le_of_lt (writeRequested_shortens i _ _ d1).work hless
  · obtain ⟨-, hrest, -⟩ := answerHead_frame (e := e) h.tag .notReady 0 [] hmarked
    exact (markWork_of_dropped hmarked hrest).trans hless

theorem trapAct_work (hhold : (d.slot i).hold = h :: rest) (hemulating : h.emulating = false) :
    markWork ((trapAct e i h d).slot i).marks < markWork (d.slot i).marks := by
  have hanswered : markWork ((answerEmulated e i h.tag d).slot i).marks < markWork (d.slot i).marks := by
    refine markWork_of_dropped hhold ?_
    rw [answerEmulated_slot]
    exact congrArg List.tail hhold
  have hmarked : ((d.put e i (d.slot i).markEmulating).slot i).hold = { h with emulating := true } :: rest := by
    rw [Plant.slot_put_same, Slot.markEmulating_of_hold hhold]
    rfl
  have hless : markWork ((d.put e i (d.slot i).markEmulating).slot i).marks < markWork (d.slot i).marks := by
    have hhead := Bool.toNat_le h.asHead
    rw [Slot.marks_of_hold hmarked, Slot.marks_of_hold hhold, hemulating]
    simp only [markWork, Bool.toNat_true, Bool.toNat_false]
    omega
  have hwritten := Nat.lt_of_le_of_lt
    (writeRequested_shortens (e := e) i h.requirement false (d.put e i (d.slot i).markEmulating)).work hless
  unfold trapAct
  split
  · exact hanswered
  · exact hanswered
  all_goals
    dsimp only
    split
    · exact Nat.lt_of_le_of_lt (emulationCheck_shortens i _).work hwritten
    · exact hwritten

/-- A step of a head leaves it less to do. -/
theorem headStep_work {d' : Plant} (hstep : headStep e i d = some d') :
    markWork (d'.slot i).marks < markWork (d.slot i).marks := by
  cases hhold : (d.slot i).hold with
  | nil =>
    rw [headStep_of_empty hhold] at hstep
    exact absurd hstep.symm (Option.some_ne_none _)
  | cons h rest =>
    cases hhead : h.asHead with
    | false =>
      rw [headStep_of_new hhold hhead] at hstep
      rw [← Option.some.inj hstep]
      exact becomeHead_work hhold hhead
    | true =>
      by_cases hcls : h.cls = .trap
      · by_cases hbusy : h.emulating = true ∨ (d.slot i).outstanding ≠ []
        · rw [headStep_of_busy hhold hhead hcls hbusy] at hstep
          exact absurd hstep.symm (Option.some_ne_none _)
        · obtain ⟨hemulating, hout⟩ := not_or.mp hbusy
          rw [headStep_of_acts hhold hhead hcls (Bool.eq_false_iff.mpr hemulating) (not_not.mp hout)] at hstep
          rw [← Option.some.inj hstep]
          exact trapAct_work hhold (Bool.eq_false_iff.mpr hemulating)
      · by_cases hmay : (d.slot i).mayForward h.requirement = true
        · rw [headStep_of_released hhold hhead hcls hmay] at hstep
          rw [← Option.some.inj hstep]
          refine markWork_of_dropped hhold ?_
          unfold releaseHead
          rw [Plant.slot_put_same]
          exact congrArg List.tail hhold
        · rw [headStep_of_waits hhold hhead hcls hmay] at hstep
          exact absurd hstep.symm (Option.some_ne_none _)

/-! ### The rules end with every head at rest (R56) -/

theorem headStep_of_no_work (hwork : markWork (d.slot i).marks = 0) : headStep e i d = none := by
  cases hhold : (d.slot i).hold with
  | nil => exact headStep_of_empty hhold
  | cons h rest =>
    obtain ⟨-, hlower⟩ := markWork_bounds (d.slot i).marks
    have hlength : (d.slot i).marks.length = rest.length + 1 := by
      rw [Slot.marks_of_hold hhold, List.length_cons, List.length_map]
    omega

theorem headLoop_of_rest (hrest : headStep e i d = none) (n : Nat) : headLoop e i n d = d := by
  cases n with
  | zero => rfl
  | succ n =>
    unfold headLoop
    rw [hrest]

theorem headLoop_of_step {d' : Plant} (hstep : headStep e i d = some d') (n : Nat) :
    headLoop e i (n + 1) d = headLoop e i n d' := by
  rw [headLoop, hstep]

/-- With steps enough for what is left to do, the head ends at rest, and the number of steps allowed makes no difference. -/
theorem headLoop_rests (n : Nat) (d : Plant) (hn : markWork (d.slot i).marks ≤ n) :
    headStep e i (headLoop e i n d) = none ∧
      ∀ m, markWork (d.slot i).marks ≤ m → headLoop e i m d = headLoop e i n d := by
  induction n generalizing d with
  | zero =>
    have hrest : headStep e i d = none := headStep_of_no_work (Nat.le_zero.mp hn)
    exact ⟨hrest, fun m _ => headLoop_of_rest hrest m⟩
  | succ n ih =>
    cases hstep : headStep e i d with
    | none =>
      rw [headLoop_of_rest hstep]
      exact ⟨hstep, fun m _ => headLoop_of_rest hstep m⟩
    | some d' =>
      have hless := headStep_work hstep
      obtain ⟨hrest, hsame⟩ := ih d' (by omega)
      rw [headLoop_of_step hstep]
      refine ⟨hrest, fun m hm => ?_⟩
      obtain ⟨k, rfl⟩ : ∃ k, m = k + 1 := ⟨m - 1, by omega⟩
      rw [headLoop_of_step hstep]
      exact hsame k (by omega)

theorem markWork_le_fuel (r : Slot) : markWork r.marks ≤ 3 * r.hold.length + 1 := by
  obtain ⟨hupper, -⟩ := markWork_bounds r.marks
  have hlength : r.marks.length = r.hold.length := List.length_map _
  omega

theorem serveHead_rests (i : SlotId) (d : Plant) : headStep e i (serveHead e i d) = none :=
  (headLoop_rests _ d (markWork_le_fuel _)).1

theorem serveHead_of_rest (hrest : headStep e i d = none) : serveHead e i d = d := headLoop_of_rest hrest _

theorem serveHead_of_step {d' : Plant} (hstep : headStep e i d = some d') : serveHead e i d = serveHead e i d' := by
  have hless := headStep_work hstep
  have hfuel := markWork_le_fuel (d.slot i)
  unfold serveHead
  rw [headLoop_of_step hstep]
  exact (headLoop_rests _ d' (markWork_le_fuel _)).2 _ (by omega)

/-- Every head is at rest after the head rules for every slot. -/
theorem serveHeads_rest (i : SlotId) (d : Plant) : headStep e i (serveHeads e d) = none := by
  have hfold : ∀ (l : List SlotId) (d : Plant), i ∈ l ∨ headStep e i d = none →
      headStep e i (l.foldl (fun d i => serveHead e i d) d) = none := by
    intro l
    induction l with
    | nil => exact fun d hi => hi.resolve_left List.not_mem_nil
    | cons j l ih =>
      intro d hi
      refine ih _ ?_
      by_cases hij : i = j
      · subst hij
        exact .inr (serveHead_rests i d)
      · exact hi.imp (fun hmem => (List.mem_cons.mp hmem).resolve_left hij)
          (headStep_none_congr ((serveHead_onlyAt j d).slot i hij))
  exact hfold allSlots d (.inl (mem_allSlots i))

/-- Every head is at rest after a response of the blocks. -/
theorem react_rests (i : SlotId) (d : Plant) : headStep e i (react e d) = none := by
  obtain ⟨x, hx⟩ : ∃ x, x = serveHeads e (budgetReact e (serveHeads e (budgetReact e d))) := ⟨_, rfl⟩
  have hreact : react e d = refreshSettle e (examinePhase e x) := by
    rw [hx]
    unfold react
    rfl
  have hrest : headStep e i x = none := by
    rw [hx]
    exact serveHeads_rest i _
  refine headStep_none_congr ?_ hrest
  rw [hreact, refreshSettle_slot, examinePhase_slot]

theorem respond_rests (s : State) (f : Env → Plant → Plant) (i : SlotId) :
    headStep s.env i (s.respond f).plant = none := by
  refine headStep_none_congr ?_ (react_rests i (f s.env s.plant))
  rw [show (s.respond f).plant = (react s.env (f s.env s.plant)).settleLink from State.onPlant_plant _ _,
    Plant.slot_settleLink]

end Sys2Proof.Machine
end

section
/-! SUPPORT. Completions from a sled (R61, R62), the end of a drain (R18), and the obligation on them and on the head rules. -/

namespace Sys2Proof.Machine

variable {e : Env} {d : Plant} {i : SlotId} {h : HoldEntry} {rest : List HoldEntry}

/-! ### The end of a drain (R18) -/

theorem drainDone_of_drained
    (hdone : (d.slot i).state = .loaded ∧ (d.slot i).draining = true ∧ (d.slot i).outstanding = []) :
    drainDone e i d = d.put e i ((d.slot i).toUnloading e i (.unload false) .normal) := if_pos hdone

/-- A drain that may have ended keeps the slot's lists, the other slots and the link; one that has ended issues UNLOAD. -/
theorem drainDone_frame (i : SlotId) (d : Plant) : let t := drainDone e i d
    (t.slot i).outstanding = (d.slot i).outstanding ∧ (t.slot i).hold = (d.slot i).hold ∧
      (∀ j, j ≠ i → t.slot j = d.slot j) ∧ t.link = d.link ∧
      ((d.slot i).state = .loaded → (d.slot i).draining = true → (d.slot i).outstanding = [] → (t.slot i).motion =
        (d.slot i).motion.unloading (.unload false) (d.slot i).lane.nextOrder ⟨e.clock, e.tables.unloadMs i⟩ .normal) := by
  intro t
  by_cases hdone : (d.slot i).state = .loaded ∧ (d.slot i).draining = true ∧ (d.slot i).outstanding = []
  · have ht : t = d.put e i ((d.slot i).toUnloading e i (.unload false) .normal) := drainDone_of_drained hdone
    rw [ht]
    refine ⟨?_, ?_, (Plant.put_onlyAt i _ d).slot, rfl, fun _ _ _ => ?_⟩
    · rw [Plant.slot_put_same]
      rfl
    · rw [Plant.slot_put_same]
      rfl
    · rw [slot_put_motion, Slot.toUnloading_motion]
      rfl
  · have ht : t = d := if_neg hdone
    rw [ht]
    exact ⟨rfl, rfl, fun _ _ => rfl, rfl, fun hs hdraining hout => absurd ⟨hs, hdraining, hout⟩ hdone⟩

/-! ### A completion (R61, R62) -/

/-- A match is removed and answered DONE, and may end a drain. -/
theorem takeCompletion_of_match {epoch tag : Byte}
    (hmatch : (d.slot i).outstanding.any (OutEntry.matches epoch tag) = true) (status : Byte) (payload : List Byte) :
    let t := takeCompletion e i epoch tag status payload d
    t.link.queue = d.link.queue ++ [completionFrame (e.tables.unitOfSlot i) tag .done status payload] ∧
      (t.slot i).outstanding = (d.slot i).outstanding.eraseP (OutEntry.matches epoch tag) ∧
      (t.slot i).hold = (d.slot i).hold ∧ (∀ j, j ≠ i → t.slot j = d.slot j) ∧
      ((d.slot i).state = .loaded → (d.slot i).draining = true →
        (d.slot i).outstanding.eraseP (OutEntry.matches epoch tag) = [] → (t.slot i).motion =
          (d.slot i).motion.unloading (.unload false) (d.slot i).lane.nextOrder ⟨e.clock, e.tables.unloadMs i⟩ .normal) := by
  intro t
  let r := { d.slot i with outstanding := (d.slot i).outstanding.eraseP (OutEntry.matches epoch tag) }
  obtain ⟨d1, hd1⟩ : ∃ d1, d1 = answer e i tag .done status payload (d.put e i r) := ⟨_, rfl⟩
  have ht : t = drainDone e i d1 := by
    rw [hd1]
    exact if_pos hmatch
  have hslot : d1.slot i = r.examineCountdowns e i := by rw [hd1, answer_slot, Plant.slot_put_same]
  have hother : ∀ j, j ≠ i → d1.slot j = d.slot j := fun j hj => by
    rw [hd1, answer_slot, Plant.slot_put_other _ hj]
  have hqueue : d1.link.queue = d.link.queue ++ [completionFrame (e.tables.unitOfSlot i) tag .done status payload] := by
    rw [hd1]
    rfl
  have hmotion : (d1.slot i).motion = (d.slot i).motion := by
    rw [hslot, Slot.examineCountdowns_motion]
    rfl
  obtain ⟨tout, thold, tother, tlink, tmotion⟩ := drainDone_frame (e := e) i d1
  rw [hmotion, hslot] at tmotion
  rw [hslot] at tout thold
  rw [ht]
  exact ⟨by rw [tlink, hqueue], tout, thold, fun j hj => (tother j hj).trans (hother j hj), tmotion⟩

/-- With no match the stray completions count rises. -/
theorem takeCompletion_of_stray {epoch tag : Byte}
    (hmatch : ¬(d.slot i).outstanding.any (OutEntry.matches epoch tag) = true) (status : Byte) (payload : List Byte) :
    takeCompletion e i epoch tag status payload d =
      d.put e i { d.slot i with strays := satInc (d.slot i).strays } := if_neg hmatch

theorem any_matches_iff (epoch tag : Byte) (l : List OutEntry) : l.any (OutEntry.matches epoch tag) = true ↔
    ∃ o ∈ l, (o.tag == tag && o.epoch.val == epoch.toNat) = true := List.any_eq_true

theorem State.sledCompletion_exec (epoch tag status : Byte) {payload : List Byte} (hlen : payload.length ≤ 48) (s : State) :
    exec (.sledCompletion i epoch tag status payload) s =
      .next (s.respond fun e d => takeCompletion e i epoch tag status payload (laneReceived e i d)) := if_pos hlen

/-- A sled's completion that matches an outstanding entry. -/
theorem sledCompletion_of_match (epoch tag status : Byte) {payload : List Byte} (hlen : payload.length ≤ 48) (s : State)
    (hmatch : (s.plant.slot i).outstanding.any (OutEntry.matches epoch tag) = true) :
    (∃ t, exec (.sledCompletion i epoch tag status payload) s = .next t ∧ t = { s with plant := t.plant } ∧
      s.plant.link.queue ++ [completionFrame (s.tables.unitOfSlot i) tag .done status payload] <+: t.plant.link.queue ∧
      ((s.plant.slot i).state = .loaded → (s.plant.slot i).draining = true →
        (s.plant.slot i).outstanding.eraseP (OutEntry.matches epoch tag) = [] → (t.plant.slot i).motion =
          (s.plant.slot i).motion.unloading (.unload false) (s.plant.slot i).lane.nextOrder
            ⟨s.clock, s.tables.unloadMs i⟩ .normal)) ∧
    ∃ d1 : Plant, exec (.sledCompletion i epoch tag status payload) s = .next (s.respond fun _ _ => d1) ∧
      (d1.slot i).outstanding = (s.plant.slot i).outstanding.eraseP (OutEntry.matches epoch tag) ∧
      (d1.slot i).hold = (s.plant.slot i).hold ∧ ∀ j, j ≠ i → d1.slot j = s.plant.slot j := by
  obtain ⟨hmotion, hlane, hhold, hout, hlink⟩ := laneReceived_frame (e := s.env) i s.plant
  have hother : ∀ j, j ≠ i → (laneReceived s.env i s.plant).slot j = s.plant.slot j := (Plant.put_onlyAt i _ s.plant).slot
  rw [← hout] at hmatch
  obtain ⟨tqueue, tout, thold, tother, tmotion⟩ := takeCompletion_of_match (e := s.env) hmatch status payload
  rw [hout, show ((laneReceived s.env i s.plant).slot i).state = (s.plant.slot i).state from
      congrArg Slot.Motion.state hmotion,
    show ((laneReceived s.env i s.plant).slot i).draining = (s.plant.slot i).draining from
      congrArg Slot.Motion.draining hmotion, hmotion, hlane] at tmotion
  rw [hlink] at tqueue
  obtain ⟨f, hf⟩ : ∃ f : Env → Plant → Plant,
    f = fun e d => takeCompletion e i epoch tag status payload (laneReceived e i d) := ⟨_, rfl⟩
  have hexec : exec (.sledCompletion i epoch tag status payload) s = .next (s.respond f) := by
    rw [hf]
    exact State.sledCompletion_exec epoch tag status hlen s
  have htaken : f s.env s.plant = takeCompletion s.env i epoch tag status payload (laneReceived s.env i s.plant) := by
    rw [hf]
  rw [← htaken] at tqueue tout thold tother tmotion
  refine ⟨⟨s.respond f, hexec, State.respond_eq_plant f s, ?_, fun hs hdraining hnone => ?_⟩, f s.env s.plant,
    by rw [hexec, State.respond_eq_const], tout.trans (by rw [hout]), thold.trans hhold,
    fun j hj => (tother j hj).trans (hother j hj)⟩
  · refine State.respond_queue_prefix ?_
    rw [tqueue]
    exact List.prefix_rfl
  · obtain ⟨hslots, -⟩ := State.respond_plant f s
    rw [hslots]
    exact react_motion_of (tmotion hs hdraining hnone) (.inr (.inl rfl))

/-- A sled's completion that matches none. -/
theorem sledCompletion_of_stray (epoch tag status : Byte) {payload : List Byte} (hlen : payload.length ≤ 48) (s : State)
    (hmatch : ¬(s.plant.slot i).outstanding.any (OutEntry.matches epoch tag) = true) :
    ∃ t d1, exec (.sledCompletion i epoch tag status payload) s = .next t ∧ t = s.respond (fun _ _ => d1) ∧
      d1.link = s.plant.link ∧ (d1.slot i).outstanding = (s.plant.slot i).outstanding ∧
      (t.plant.slot i).strays =
        (if (s.plant.slot i).strays < 65535 then (s.plant.slot i).strays + 1 else (s.plant.slot i).strays) := by
  obtain ⟨-, -, -, hout, hlink⟩ := laneReceived_frame (e := s.env) i s.plant
  have hstrays : ((laneReceived s.env i s.plant).slot i).strays = (s.plant.slot i).strays := by
    rw [laneReceived_slot]
    rfl
  rw [← hout] at hmatch
  obtain ⟨d0, hd0⟩ : ∃ d0, d0 = laneReceived s.env i s.plant := ⟨_, rfl⟩
  have htaken := takeCompletion_of_stray (e := s.env) hmatch status payload
  rw [← hd0] at hout hlink hstrays htaken
  obtain ⟨d1, hd1⟩ : ∃ d1, d1 = d0.put s.env i { d0.slot i with strays := satInc (d0.slot i).strays } := ⟨_, rfl⟩
  have hslot : d1.slot i = Slot.examineCountdowns s.env i { d0.slot i with strays := satInc (d0.slot i).strays } := by
    rw [hd1, Plant.slot_put_same]
  have hexec : exec (.sledCompletion i epoch tag status payload) s = .next (s.respond fun _ _ => d1) := by
    rw [State.sledCompletion_exec epoch tag status hlen s]
    refine congrArg Host.Outcome.next (State.respond_congr ?_)
    rw [← hd0, htaken, hd1]
  refine ⟨_, d1, hexec, rfl, ?_, ?_, ?_⟩
  · rw [hd1]
    exact hlink
  · rw [hslot]
    exact hout
  · obtain ⟨hslots, -⟩ := State.respond_plant (fun _ _ => d1) s
    obtain ⟨-, hkept, -, -⟩ := (react_responds (e := s.env) d1).counts i
    rw [hslots, hkept, hslot]
    show satInc (d0.slot i).strays = _
    rw [hstrays]
    rfl

/-! ### The head rules, case by case (R50 to R55) -/

theorem becomeHead_of_waits (hwaits : h.cls = .trap ∨ h.requirement.rank ≤ (d.slot i).requested.rank) :
    becomeHead e i h d = d.put e i (d.slot i).markHead := by
  refine if_pos ?_
  rw [Bool.or_eq_true]
  exact hwaits.imp (fun hcls => decide_eq_true hcls) fun hle => decide_eq_true hle

/-- An entry above the requested level becomes head. -/
theorem becomeHead_of_above (hcls : h.cls ≠ .trap) (habove : (d.slot i).requested.rank < h.requirement.rank) :
    becomeHead e i h d = if e.tables.wake i then demand e i h.requirement (d.put e i (d.slot i).markHead)
      else dropHead e i (answer e i h.tag .notReady 0 [] (d.put e i (d.slot i).markHead)) := by
  refine if_neg ?_
  rw [Bool.or_eq_true, not_or]
  exact ⟨fun hn => hcls (of_decide_eq_true hn), fun hn => Nat.not_le.mpr habove (of_decide_eq_true hn)⟩

theorem trapAct_of_report (haction : h.action = some .report) : trapAct e i h d = answerEmulated e i h.tag d := by
  unfold trapAct
  rw [haction]

theorem trapAct_of_level
    (haction : h.action = some .toStop ∨ h.action = some .toSpin ∨ h.action = some .toLoad) :
    trapAct e i h d = if (d.slot i).state = h.requirement.targetState
      then emulationCheck e i (writeRequested e i h.requirement false (d.put e i (d.slot i).markEmulating))
      else writeRequested e i h.requirement false (d.put e i (d.slot i).markEmulating) := by
  unfold trapAct
  rcases haction with haction | haction | haction <;> rw [haction]

theorem Slot.mayForward_iff (r : Slot) (req : Level) : r.mayForward req = true ↔
    r.serves req = true ∧ r.outstanding.length < 4 ∧ r.draining = false := by
  unfold Slot.mayForward
  rw [Bool.and_eq_true, Bool.and_eq_true, decide_eq_true_eq, Bool.not_eq_true', and_assoc]
  rfl

theorem emulationCheck_of_arrived (hhold : (d.slot i).hold = h :: rest)
    (harrived : h.emulating = true ∧ h.requirement.targetState = (d.slot i).state) :
    emulationCheck e i d = answerEmulated e i h.tag d := by
  unfold emulationCheck
  rw [hhold]
  refine if_pos ?_
  rw [Bool.and_eq_true, decide_eq_true_eq]
  exact harrived

theorem emulationCheck_of_not_arrived (hhold : (d.slot i).hold = h :: rest)
    (harrived : ¬(h.emulating = true ∧ h.requirement.targetState = (d.slot i).state)) : emulationCheck e i d = d := by
  unfold emulationCheck
  rw [hhold]
  refine if_neg ?_
  rw [Bool.and_eq_true, decide_eq_true_eq]
  exact harrived

/-- Settles O33, by the case of the completion, the case of the head, and the steps left to each head. -/
theorem sledCompletionTaken : Obligations.SledCompletionTaken := by
  refine ⟨fun i epoch tag status payload s hlen => ?_, fun e i d => ?_, fun e d => ?_, respond_rests⟩
  · intro r hit
    have hany := any_matches_iff epoch tag r.outstanding
    refine ⟨fun hmatch => sledCompletion_of_match epoch tag status hlen s (hany.mpr hmatch),
      fun hnone => sledCompletion_of_stray epoch tag status hlen s fun hmatch => ?_⟩
    obtain ⟨o, ho, htrue⟩ := hany.mp hmatch
    exact Bool.false_ne_true ((hnone o ho).symm.trans htrue)
  · intro r emulatedFrame
    refine ⟨headStep_of_empty, fun h rest hhold => ?_, fun h rest hhold => ⟨fun harrived => ?_, fun hnot => ?_⟩,
      serveHead_rests i d, serveHead_of_rest, fun d' => serveHead_of_step⟩
    · intro marked
      have hmarked : d.put e i (d.slot i).markHead = marked := by rw [Slot.markHead_of_hold hhold]
      have hmarkedHold : (marked.slot i).hold = { h with asHead := true } :: rest := by
        rw [show marked.slot i = _ from Plant.slot_put_same _ _ _ _]
        rfl
      refine ⟨fun hnew hwaits => ?_, fun hnew hcls habove => ⟨fun hwake => ?_, fun hwake => ?_⟩, fun hhead hcls =>
        ⟨fun hmay => ?_, fun hmay => ?_⟩, fun hhead hcls => ⟨headStep_of_busy hhold hhead hcls, fun hemulating hout =>
        ⟨fun haction => ?_, fun haction => ?_⟩⟩⟩
      · rw [headStep_of_new hhold hnew, becomeHead_of_waits hwaits, hmarked]
      · rw [headStep_of_new hhold hnew, becomeHead_of_above hcls habove, if_pos hwake, hmarked]
        rfl
      · obtain ⟨hqueue, hrest, hrequested, hother⟩ := answerHead_frame (e := e) h.tag .notReady 0 [] hmarkedHold
        refine ⟨dropHead e i (answer e i h.tag .notReady 0 [] marked), ?_, hqueue, hrest, hrequested.trans ?_,
          fun j hj => (hother j hj).trans ((Plant.put_onlyAt i _ d).slot j hj)⟩
        · rw [headStep_of_new hhold hnew, becomeHead_of_above hcls habove, hwake, if_neg Bool.false_ne_true, hmarked]
        · rw [show marked.slot i = _ from Plant.slot_put_same _ _ _ _]
          rfl
      · rw [headStep_of_released hhold hhead hcls ((Slot.mayForward_iff _ _).mpr hmay)]
        unfold releaseHead
        dsimp only
        rw [hhold]
        rfl
      · exact headStep_of_waits hhold hhead hcls (mt (Slot.mayForward_iff _ _).mp hmay)
      · obtain ⟨hqueue, hrest, -, hother⟩ := answerHead_frame (e := e) h.tag .emulated 0
          [(d.slot i).state.code, (d.slot i).requested.code] hhold
        refine ⟨answerEmulated e i h.tag d, ?_, hqueue, hrest, hother⟩
        rw [headStep_of_acts hhold hhead hcls hemulating hout, trapAct_of_report haction]
      · intro d1
        have hd1 : writeRequested e i h.requirement false (d.put e i (d.slot i).markEmulating) = d1 := by
          rw [Slot.markEmulating_of_hold hhold]
        have hacts := headStep_of_acts (e := e) hhold hhead hcls hemulating hout
        rw [trapAct_of_level haction, hd1] at hacts
        exact ⟨fun hs => by rw [hacts, if_neg hs], fun hs => by rw [hacts, if_pos hs]⟩
    · obtain ⟨hqueue, hrest, -, -⟩ := answerHead_frame (e := e) h.tag .emulated 0
        [(d.slot i).state.code, (d.slot i).requested.code] hhold
      exact ⟨answerEmulated e i h.tag d, emulationCheck_of_arrived hhold harrived, hqueue, hrest⟩
    · exact emulationCheck_of_not_arrived hhold hnot
  · intro heads
    exact ⟨by unfold react; rfl, fun i => react_rests i d⟩

end Sys2Proof.Machine
end
